-- ==== Sys2Proof/Word.lean ====
section
/-! DEFINITION. The machine word of the block: one 32-bit bus word (R155), the byte a bus presents it in
(R156), and the 16-bit byte offset of an access inside the block's window (R153). -/

namespace Sys2Proof

/-- A 32-bit word: a register, a buffer element, a command word or an `f32` bit pattern (R4, R13, R155). -/
abbrev Word := BitVec 32

/-- One byte lane of a word on a bus (R156). -/
abbrev Byte := BitVec 8

/-- A byte offset inside the 64 KiB window of the block (R153). -/
abbrev Offset := BitVec 16

end Sys2Proof
end

