-- ==== Sys2Proof/Config.lean ====
section
/-! DEFINITION. The implementation parameters of R9 at the values the spec decides, and the free values: what
the spec leaves to "any value" (93_implementation_defined.md U1, U2, U9, U23). A free value is an opaque
constant: no proof can see it, so a claim about it holds whatever it is. -/

namespace Sys2Proof.Config

/-- `NUM_VOICES` (R9, D3). -/
abbrev numVoices : Nat := 8

/-- `NUM_CHANNELS` (R9, D5). -/
abbrev numChannels : Nat := 2

/-- `BLOCK_MAX` (R9, D5). -/
abbrev blockMax : Nat := 1024

/-- `L_MAX` (R9, D4). -/
abbrev lMax : Nat := 8192

/-- `HAS_BIQUAD` (R9, D12). -/
abbrev hasBiquad : Bool := true

/-- `ATTACK_MIN_SAMPLES` = 64.0 (R9, D10). -/
abbrev attackMinSamples : Word := 0x42800000#32

/-- `PLUCK_FALLBACK` = 2^-7 (R9, D8). -/
abbrev pluckFallback : Word := 0x3C000000#32

/-- `WAVE_CAP` (R9). -/
abbrev waveCap : Nat := 512

/-- `FIFO_CAP` and `FFT_N` (R9, D23). -/
abbrev fifoCap : Nat := 2048

/-- `SCOPE_SIZE` (R9). -/
abbrev scopeSize : Nat := 1024

/-- An element of a RAM that no bus offset reaches (R83, R92, R93). -/
inductive HiddenCell where
  | left (voice index : Nat)
  | right (voice index : Nat)
  | fifo (index : Nat)
  | tbufRe (index : Nat)
  | tbufIm (index : Nat)
deriving DecidableEq, Repr

/-- `WGVE_BASE`, the platform address of offset 0: OPEN in the spec (R9, R153, U23). FREE VALUE. -/
opaque wgveBase : Nat

/-- What a byte of `OUT_BUF`, `WAVE_RING` or `SCOPE` holds that no rule has written since the reset numbered
by the first argument (R552, U1). FREE VALUE. -/
opaque ramByte : Nat → Nat → Byte

/-- What an element of a hidden RAM holds that no rule has written since the draw numbered by the first
argument: a reset, or for `TBUF` a reset or a spectrum job (R411, R552, U1, U2, U3). FREE VALUE. -/
opaque ramWord : Nat → HiddenCell → Word

/-- Which of the agents with an enabled step takes the step numbered by the argument, where the state's
own list of choices names none of them (R151, R165, U9). FREE VALUE. -/
opaque agentChoice : Nat → Nat

end Sys2Proof.Config
end

