-- ==== Sys2Proof/Syntax.lean ====
section
/-! DEFINITION. The commands of the WGVE command interface (R206, R207): one constructor per row of
spec/opcode_table.json, operands as unsigned integers (R209), and the error codes of R502. -/

namespace Sys2Proof

/-- A command port: A (audio/control, `CMD_A`) or D (display, `CMD_D`) (R3, R200). -/
inductive Port where
  | a
  | d
deriving DecidableEq, Repr

/-- The `SPACE` operand of `PEEK` (R205, R471); the value 3 is reserved and has no constructor. -/
inductive PeekSpace where
  | left
  | right
  | reg
deriving DecidableEq, Repr

/-- The commands. An operand is an unsigned integer; `Instr.WellFormed` says that it fits its field. -/
inductive Instr where
  | nopA
  | noteOn (voice : Nat)
  | noteOff (voice : Nat) (tail : Bool)
  | renderBlock (start count : Nat)
  | outClear (start count : Nat)
  | visPush
  | peek (voice : Nat) (space : PeekSpace) (index : Nat)
  | nopD
  | specProcess
deriving DecidableEq, Repr

/-- The command errors of R502; `CmdError.code` of Machine/Flags.lean gives their numbers. -/
inductive CmdError where
  | illegalOpcode
  | reservedField
  | voiceRange
  | blockRange
  | indexRange
  | badSampleRate
deriving DecidableEq, Repr

end Sys2Proof
end

