-- ==== Sys2Proof/Machine/State.lean ====
section
/-! DEFINITION. The state of the block (10_state.md), the host ports' side of it that a deterministic step needs,
and the state after reset (R551). -/

namespace Sys2Proof.Machine

open Sys2Proof

/-- Why a bus access is an error (R159, R505). The reason is handed to the issuing host as its port's response and
stops that host's program; no step of the block ends in it, because R500 says that no access stops the block.
Every constructor is safe: the block's state is unchanged, as R159 says. -/
inductive Fault where
  /-- The offset names no register or window element (R154). Raised by a host access. Safe. -/
  | unmapped
  /-- The access is 8, 16 or 64 bits wide (R155). Raised by a host access. Safe. -/
  | badWidth
  /-- The offset is not a multiple of 4 (R155). Raised by a host access. Safe. -/
  | misaligned
deriving DecidableEq, Repr

/-- Why a step has no meaning. -/
inductive Refusal where
  /-- The command has no meaning in the model yet; no arm of `exec` answers so. Safe: the step answers no state. -/
  | notModelled (mnemonic : String)
deriving DecidableEq, Repr

/-- The agents of R150, and the platform that drives the reset input of R550. -/
inductive Agent where
  | hostA
  | hostD
  | engineA
  | engineD
  | platform
deriving DecidableEq, Repr

/-- The width of a bus access; only 32 bits is legal (R155). -/
inductive Width where
  | w8
  | w16
  | w32
  | w64
deriving DecidableEq, Repr

/-- One access a host issues: `MemRead` or `MemWrite` (R12, R157, R158) at an offset of the window. -/
inductive Access where
  | read (width : Width) (offset : Offset)
  | write (width : Width) (offset : Offset) (value : Word)
deriving DecidableEq, Repr

/-- What a port answered to its host's last performed access (R157, R158), or the bus error it signalled (R159): a read in
error returns data as well. -/
inductive Response where
  | none
  | readData (value : Word)
  | writeDone
  | readError (reason : Fault) (value : Word)
  | writeError (reason : Fault)
deriving DecidableEq, Repr

/-- A host port: the accesses its host has issued and the block has not performed, oldest first (R160, R165), and the
port's last response. The MODEL's own field: the hosts are outside the block. -/
structure HostPort where
  pending : List Access
  response : Response
deriving DecidableEq, Repr

/-- The outside of the block (the MODEL's own): the two host ports, the choices of the next agent that were made from
outside (oldest first), the number of steps taken, and the platform's reset input (R550). -/
structure Env where
  hostA : HostPort
  hostD : HostPort
  choices : List Agent
  turn : Nat
  resetInput : Bool
deriving DecidableEq, Repr

/-- `ENV_STAGE` (R81); 5 to 7 have no constructor because they are never held. -/
inductive EnvStage where
  | idle
  | attack
  | decay
  | sustain
  | release
deriving DecidableEq, Repr

/-- One voice context (R80 to R86). `left` and `right` list the line elements that a `NOTE_ON` or a render has
written, from index 0 (a note writes indices `0..L-1`, so the written indices are an initial segment); an unlisted
element holds the free value of its cell (R552). -/
structure Voice where
  active : Bool
  stage : EnvStage
  degen : Bool
  l : BitVec 14
  pluckIdx : BitVec 14
  pickupIdx : BitVec 14
  left : List Word
  right : List Word
  envLevel : Word
  attackRate : Word
  decayRate : Word
  releaseRate : Word
  sustainLevel : Word
  releaseTime : Word
  velocity : Word
  refl : Word
  sr : Word
  vMode : Bool
  vB0 : Word
  vB1 : Word
  vB2 : Word
  vA1 : Word
  vA2 : Word
  s1 : Word
  s2 : Word
deriving DecidableEq, Repr

/-- `CTRL` (R55): its two fields; bits [31:2] are RAZ/WI. -/
structure Ctrl where
  visAuto : Bool
  filtRstOnNoteOn : Bool
deriving DecidableEq, Repr

/-- The stored bits of `STATUS_A` (R56); `BUSY` is read off `PUSHQ` (R100). -/
structure StatusA where
  err : Bool
  errCode : BitVec 4
  rUnstable : Bool
  lClamped : Bool
  degenNote : Bool
  nonfinite : Bool
deriving DecidableEq, Repr

/-- The stored bits of `STATUS_D` (R67); `BUSY` is `JOB` (R101) and `READY` is R94's flag. -/
structure StatusD where
  err : Bool
  errCode : BitVec 4
  specSkipped : Bool
deriving DecidableEq, Repr

/-- The configuration registers (R61 to R66, R72), read only by `NOTE_ON`. `FILT_MODE` is its bit [0]. -/
structure NoteRegs where
  sampleRate : Word
  attack : Word
  decay : Word
  sustain : Word
  release : Word
  bridgeR : Word
  pluckPos : Word
  filtMode : Bool
  filtB0 : Word
  filtB1 : Word
  filtB2 : Word
  filtA1 : Word
  filtA2 : Word
deriving DecidableEq, Repr

/-- The visualization channels' state behind the bus (R70, R71, R92 to R94). `fifo` lists the elements written since
reset, from index 0; `tbuf` lists the pairs of the last block copy, and is empty where the contents are unspecified
(R411, R552). `tbufDraw` numbers the draw its unlisted elements are read from (the MODEL's own). -/
structure Vis where
  waveCursor : Word
  fifoIndex : BitVec 11
  fifo : List Word
  tbuf : List (Word × Word)
  tbufDraw : Nat
  ready : Bool
deriving DecidableEq, Repr

/-- The RAM windows of the bus (`WAVE_RING`, `SCOPE`, `OUT_BUF`) as byte cells in canonical form: the addresses
strictly rise. A cell is listed once a rule has written it; what an unlisted cell reads as is `Memory.readByte`. -/
abbrev Memory := List Host.Cell

/-- The whole state. -/
structure State where
  ctrl : Ctrl
  statusA : StatusA
  resultA : Word
  arg0 : Word
  arg1 : Word
  note : NoteRegs
  voices : Vector Voice Config.numVoices
  mem : Memory
  ramDraw : Nat
  pushq : List Word
  vis : Vis
  job : Bool
  statusD : StatusD
  processed : Bool
  env : Env
deriving DecidableEq, Repr

/-- A voice context after reset (R81 to R86, R551). -/
def Voice.reset : Voice where
  active := false
  stage := .idle
  degen := false
  l := 0#14
  pluckIdx := 0#14
  pickupIdx := 0#14
  left := []
  right := []
  envLevel := 0#32
  attackRate := 0#32
  decayRate := 0#32
  releaseRate := 0#32
  sustainLevel := 0#32
  releaseTime := 0#32
  velocity := 0#32
  refl := 0#32
  sr := 0#32
  vMode := false
  vB0 := 0x3F800000#32
  vB1 := 0#32
  vB2 := 0#32
  vA1 := 0#32
  vA2 := 0#32
  s1 := 0#32
  s2 := 0#32

/-- The configuration registers after reset (R551). -/
def NoteRegs.reset : NoteRegs where
  sampleRate := 0#32
  attack := 0#32
  decay := 0#32
  sustain := 0#32
  release := 0#32
  bridgeR := 0#32
  pluckPos := 0#32
  filtMode := false
  filtB0 := 0x3F800000#32
  filtB1 := 0#32
  filtB2 := 0#32
  filtA1 := 0#32
  filtA2 := 0#32

/-- The state after reset (R551, R553), with no access issued, no choice made and the reset input low. -/
def State.reset : State where
  ctrl := ⟨true, false⟩
  statusA := ⟨false, 0#4, false, false, false, false⟩
  resultA := 0#32
  arg0 := 0#32
  arg1 := 0#32
  note := NoteRegs.reset
  voices := Vector.replicate Config.numVoices Voice.reset
  mem := []
  ramDraw := 0
  pushq := []
  vis := ⟨0#32, 0#11, [], [], 0, false⟩
  job := false
  statusD := ⟨false, 0#4, false⟩
  processed := false
  env := ⟨⟨[], .none⟩, ⟨[], .none⟩, [], 0, false⟩

/-- The voice of a number below `NUM_VOICES` (R80). -/
def State.voice (s : State) (v : Fin Config.numVoices) : Voice := s.voices[v.val]

def State.setCtrl (s : State) (x : Ctrl) : State := { s with ctrl := x }
def State.setStatusA (s : State) (x : StatusA) : State := { s with statusA := x }
def State.setResultA (s : State) (x : Word) : State := { s with resultA := x }
def State.setArg0 (s : State) (x : Word) : State := { s with arg0 := x }
def State.setArg1 (s : State) (x : Word) : State := { s with arg1 := x }
def State.setNote (s : State) (x : NoteRegs) : State := { s with note := x }
def State.setVoice (s : State) (v : Fin Config.numVoices) (x : Voice) : State :=
  { s with voices := s.voices.set v.val x }
def State.setMem (s : State) (x : Memory) : State := { s with mem := x }
def State.setPushq (s : State) (x : List Word) : State := { s with pushq := x }
def State.setVis (s : State) (x : Vis) : State := { s with vis := x }
def State.setJob (s : State) (x : Bool) : State := { s with job := x }
def State.setStatusD (s : State) (x : StatusD) : State := { s with statusD := x }
def State.setProcessed (s : State) (x : Bool) : State := { s with processed := x }
def State.setEnv (s : State) (x : Env) : State := { s with env := x }

end Sys2Proof.Machine
end

