-- ==== Sys2Proof/Machine/Flags.lean ====
section
/-! DEFINITION. The flag and status computations: the words that `CTRL`, `STATUS_A`, `STATUS_D`, `VOICE_ACTIVE`,
`CONFIG0` and `CONFIG1` read as (R53 to R56, R60, R67), the write-1-to-clear rules (R516), and the numbers of the error
codes (R502) and envelope stages (R81). -/

namespace Sys2Proof.Machine

open Sys2Proof

/-- The 4-bit `ERR_CODE` of an error (R502). -/
def errorCode : CmdError → BitVec 4
  | .illegalOpcode => 1#4
  | .reservedField => 2#4
  | .voiceRange => 3#4
  | .blockRange => 4#4
  | .indexRange => 5#4
  | .badSampleRate => 6#4

/-- The 3-bit encoding of `ENV_STAGE` (R81). -/
def stageCode : EnvStage → Nat
  | .idle => 0
  | .attack => 1
  | .decay => 2
  | .sustain => 3
  | .release => 4

/-- `STATUS_A.BUSY`: pushes are queued (R56, R100). -/
def State.busyA (s : State) : Bool := !s.pushq.isEmpty

/-- `STATUS_D.BUSY`: a spectrum job is pending (R67, R101). -/
def State.busyD (s : State) : Bool := s.job

/-- A Bool in bit `b` of a word. -/
def bitAt (b : Nat) (x : Bool) : Nat := if x then 2 ^ b else 0

/-- The word `STATUS_A` reads as (R56). -/
def State.statusAWord (s : State) : Word :=
  BitVec.ofNat 32 (bitAt 0 s.busyA + bitAt 1 s.statusA.err + 2 ^ 4 * s.statusA.errCode.toNat
    + bitAt 8 s.statusA.rUnstable + bitAt 9 s.statusA.lClamped + bitAt 10 s.statusA.degenNote
    + bitAt 11 s.statusA.nonfinite)

/-- The word `STATUS_D` reads as (R67). -/
def State.statusDWord (s : State) : Word :=
  BitVec.ofNat 32 (bitAt 0 s.busyD + bitAt 1 s.statusD.err + 2 ^ 4 * s.statusD.errCode.toNat
    + bitAt 8 s.vis.ready + bitAt 9 s.statusD.specSkipped)

/-- The word `CTRL` reads as (R55). -/
def State.ctrlWord (s : State) : Word :=
  BitVec.ofNat 32 (bitAt 0 s.ctrl.visAuto + bitAt 1 s.ctrl.filtRstOnNoteOn)

/-- The word `VOICE_ACTIVE` reads as: bit `v` is the `ACTIVE` bit of voice `v` (R60). -/
def State.voiceActiveWord (s : State) : Word :=
  BitVec.ofNat 32 ((List.finRange Config.numVoices).map (fun v => bitAt v.val (s.voice v).active)).sum

/-- The constant `CONFIG0` (R53). -/
def config0Word : Word :=
  BitVec.ofNat 32 (Config.numVoices + 2 ^ 6 * Config.numChannels + bitAt 9 Config.hasBiquad)

/-- The constant `CONFIG1` (R54). -/
def config1Word : Word := BitVec.ofNat 32 (Config.lMax + 2 ^ 16 * Config.blockMax)

/-- The voice register `VSTATUS` (R474). -/
def Voice.vstatusWord (v : Voice) : Word :=
  BitVec.ofNat 32 (bitAt 0 v.active + 2 * stageCode v.stage + bitAt 4 v.degen)

/-- `CTRL` as a write of `w` leaves it: the fields take their bits, reserved bits are ignored (R55, R158). -/
def ctrlOfWord (w : Word) : Ctrl := ⟨w.getLsbD 0, w.getLsbD 1⟩

/-- `FILT_MODE.MODE` as a write of `w` leaves it: hardwired 0 where there is no biquad (R65). -/
def filtModeOfWord (w : Word) : Bool := Config.hasBiquad && w.getLsbD 0

/-- `STATUS_A` after a write of `w`: each W1C bit whose bit of `w` is 1 is cleared, bit 1 with `ERR_CODE` (R56, R516). -/
def StatusA.clear (x : StatusA) (w : Word) : StatusA where
  err := x.err && !w.getLsbD 1
  errCode := if w.getLsbD 1 then 0#4 else x.errCode
  rUnstable := x.rUnstable && !w.getLsbD 8
  lClamped := x.lClamped && !w.getLsbD 9
  degenNote := x.degenNote && !w.getLsbD 10
  nonfinite := x.nonfinite && !w.getLsbD 11

/-- `STATUS_D` after a write of `w` (R67, R516). -/
def StatusD.clear (x : StatusD) (w : Word) : StatusD where
  err := x.err && !w.getLsbD 1
  errCode := if w.getLsbD 1 then 0#4 else x.errCode
  specSkipped := x.specSkipped && !w.getLsbD 9

/-- `STATUS_A` after a port-A error: only the first since `ERR` was last clear is recorded (R501). -/
def StatusA.record (x : StatusA) (e : CmdError) : StatusA :=
  if x.err then x else { x with err := true, errCode := errorCode e }

/-- `STATUS_D` after a port-D error (R501). -/
def StatusD.record (x : StatusD) (e : CmdError) : StatusD :=
  if x.err then x else { x with err := true, errCode := errorCode e }

/-- The states of the source's voice state machine (R88). -/
inductive Lifecycle where
  | idle
  | sounding
  | releasing
deriving DecidableEq, Repr

/-- The state of a voice between commands, read off `ACTIVE` and `ENV_STAGE` (R88). -/
def Voice.lifecycle (v : Voice) : Lifecycle :=
  if v.active then (if v.stage = .release then .releasing else .sounding) else .idle

end Sys2Proof.Machine
end

