-- ==== Sys2Proof/Machine/Float.lean ====
section
/-! DEFINITION. IEEE 754 binary32 as R13 to R19 fix it: values as exact integers in units of 2^-149 (the least
subnormal, of which every finite binary32 value is a multiple), one rounding to nearest even, and the operations over
them. -/

namespace Sys2Proof.Machine

open Sys2Proof

/-- `+0` (R13). -/
abbrev fZero : Word := 0x00000000#32

/-- `-0` (R13). -/
abbrev fNegZero : Word := 0x80000000#32

/-- `F_ONE` (R13). -/
abbrev fOne : Word := 0x3F800000#32

/-- `F_HALF` (R13). -/
abbrev fHalf : Word := 0x3F000000#32

/-- `QNAN`, every NaN result (R13, R16). -/
abbrev qNaN : Word := 0x7FC00000#32

/-- The bit pattern of `+infinity` (R13). -/
abbrev infBits : Nat := 0x7F800000

/-- The sign bit (R13). -/
def signBit (a : Word) : Bool := decide (2 ^ 31 ≤ a.toNat)

/-- The biased exponent, bits [30:23] (R13). -/
def expField (a : Word) : Nat := a.toNat / 2 ^ 23 % 2 ^ 8

/-- The fraction, bits [22:0] (R13). -/
def fracField (a : Word) : Nat := a.toNat % 2 ^ 23

/-- `isnan` (R17). -/
def isNaN (a : Word) : Bool := decide (expField a = 255) && decide (fracField a ≠ 0)

/-- `isfinite` (R17). -/
def isFinite (a : Word) : Bool := decide (expField a ≠ 255)

/-- An infinity of either sign (R13). -/
def isInf (a : Word) : Bool := decide (expField a = 255) && decide (fracField a = 0)

/-- The magnitude `|val(a)|` in units of 2^-149 (R13). An infinity gets 2^277 units, above every finite value, so
that comparing values in these units is R17's comparison. -/
def units (a : Word) : Nat :=
  if expField a = 0 then fracField a else (2 ^ 23 + fracField a) * 2 ^ (expField a - 1)

/-- `val(a)` in units of 2^-149 (R13). -/
def value (a : Word) : Int := if signBit a then -(units a : Int) else (units a : Int)

/-- The pattern with a sign and the low 31 bits given (R13). -/
def pack (neg : Bool) (mag : Nat) : Word := BitVec.ofNat 32 (if neg then mag + 2 ^ 31 else mag)

/-- An infinity with a sign. -/
def infOf (neg : Bool) : Word := pack neg infBits

/-- The exponent `e` of the spacing `2^e` units of binary32 at a magnitude whose integer part is `q` units. -/
def spacing (q : Nat) : Nat := Nat.log2 q - 23

/-- A quotient rounded to the nearest integer, ties to even. -/
def roundEven (num den : Nat) : Nat :=
  if den < 2 * (num % den) ∨ (2 * (num % den) = den ∧ num / den % 2 = 1) then num / den + 1 else num / den

/-- `rnd` of the non-negative real `num / den` units (R14), as the low 31 bits of its pattern: the significand is
rounded at the spacing of its magnitude, and what reaches `2^128` becomes infinity. -/
def rndMag (num den : Nat) : Nat :=
  let e := spacing (num / den)
  let p := e * 2 ^ 23 + roundEven num (den * 2 ^ e)
  if p < infBits then p else infBits

/-- `fneg` (R17). -/
def fneg (a : Word) : Word := a ^^^ 0x80000000#32

/-- `fabs` (R17). -/
def fabs (a : Word) : Word := a &&& 0x7FFFFFFF#32

/-- `fadd` (R15, R16). -/
def fadd (a b : Word) : Word :=
  if isNaN a || isNaN b then qNaN
  else if isInf a then (if isInf b && (signBit a != signBit b) then qNaN else a)
  else if isInf b then b
  else if value a + value b = 0 then (if signBit a && signBit b then fNegZero else fZero)
  else pack (decide (value a + value b < 0)) (rndMag (value a + value b).natAbs 1)

/-- `fsub`: the sum with the sign of the second operand flipped (R15, R16). -/
def fsub (a b : Word) : Word := fadd a (fneg b)

/-- `fmul` (R15, R16). -/
def fmul (a b : Word) : Word :=
  if isNaN a || isNaN b then qNaN
  else if isInf a || isInf b then
    (if decide (units a = 0) || decide (units b = 0) then qNaN else infOf (signBit a != signBit b))
  else pack (signBit a != signBit b) (rndMag (units a * units b) (2 ^ 149))

/-- `fdiv` (R15, R16). -/
def fdiv (a b : Word) : Word :=
  if isNaN a || isNaN b then qNaN
  else if isInf a then (if isInf b then qNaN else infOf (signBit a != signBit b))
  else if isInf b then pack (signBit a != signBit b) 0
  else if units b = 0 then (if units a = 0 then qNaN else infOf (signBit a != signBit b))
  else pack (signBit a != signBit b) (rndMag (units a * 2 ^ 149) (units b))

/-- The bits of the integer square root of `n` below bit `k`, added to a root `r` found above them. -/
def isqrtFrom (n : Nat) : Nat → Nat → Nat
  | 0, r => r
  | k + 1, r => isqrtFrom n k (if (r + 2 ^ k) * (r + 2 ^ k) ≤ n then r + 2 ^ k else r)

/-- The integer square root of a number below `2^512`. -/
def isqrt (n : Nat) : Nat := isqrtFrom n 256 0

/-- `fsqrt` (R15, R16). The root of `n` units is the root of `n * 2^149` in units; it is at least `2^74` units, where
every rounding boundary is a whole number of units, so the integer root and whether it is exact decide the
rounding. -/
def fsqrt (a : Word) : Word :=
  if isNaN a then qNaN
  else if units a = 0 then a
  else if signBit a then qNaN
  else if isInf a then a
  else
    let q := isqrt (units a * 2 ^ 149)
    pack false (rndMag (2 * q + (if q * q = units a * 2 ^ 149 then 0 else 1)) 2)

/-- `flt` (R17). -/
def flt (a b : Word) : Bool := !isNaN a && !isNaN b && decide (value a < value b)

/-- `fle` (R17). -/
def fle (a b : Word) : Bool := !isNaN a && !isNaN b && decide (value a ≤ value b)

/-- `fgt` (R17). -/
def fgt (a b : Word) : Bool := flt b a

/-- `fge` (R17). -/
def fge (a b : Word) : Bool := fle b a

/-- `feq` (R17). -/
def feq (a b : Word) : Bool := !isNaN a && !isNaN b && decide (value a = value b)

/-- `i2f(n)` for `n < 2^24` (R18): `n` is `n * 2^149` units, and the rounding is exact there. -/
def i2f (n : Nat) : Word := pack false (rndMag (n * 2 ^ 149) 1)

/-- `clamp01` (R18). -/
def clamp01 (a : Word) : Word :=
  if isNaN a || fle a fZero then fZero else if fge a fOne then fOne else a

/-- A positive finite value: what `SAMPLE_RATE` and a pitch must be (R251, R254). -/
def positiveFinite (a : Word) : Bool := isFinite a && fgt a fZero

/-- `floor(val(a) / val(b))` of positive finite `a` and `b`, exactly (R19). -/
def floorQuot (a b : Word) : Nat := units a / units b

/-- `floor(val(a) * n)` of a non-negative finite `a`, exactly (R19). -/
def floorMul (a : Word) (n : Nat) : Nat := units a * n / 2 ^ 149

/-- `rnd` of the real `num / den`, negated where `neg`: the pattern of an `f:` literal (R213). -/
def f32OfRat (neg : Bool) (num den : Nat) : Word := pack neg (rndMag (num * 2 ^ 149) den)

end Sys2Proof.Machine
end

