-- ==== Sys2Proof/WellFormed.lean ====
section
/-! DEFINITION. Which commands have a word: every operand fits its field (R203, R204, R205; R212: "An operand
that does not fit its field is an assembly error"). -/

namespace Sys2Proof

/-- The operands of a command fit the fields of its format. A voice number that fits but is not below
`NUM_VOICES`, or a block that passes `BLOCK_MAX`, is well formed: the command itself checks it (R203, R204). -/
def Instr.wellFormed : Instr → Bool
  | .nopA => true
  | .noteOn voice => decide (voice < 2 ^ 5)
  | .noteOff voice _ => decide (voice < 2 ^ 5)
  | .renderBlock start count => decide (start < 2 ^ 12) && decide (count < 2 ^ 12)
  | .outClear start count => decide (start < 2 ^ 12) && decide (count < 2 ^ 12)
  | .visPush => true
  | .peek voice _ index => decide (voice < 2 ^ 5) && decide (index < 2 ^ 14)
  | .nopD => true
  | .specProcess => true

/-- `Instr.wellFormed` as a proposition. -/
abbrev Instr.WellFormed (i : Instr) : Prop := i.wellFormed = true

end Sys2Proof
end

