-- ==== Sys2Proof/Decode.lean ====
section
/-! DEFINITION. The decoder of command words (R200 to R208), total on every word of either port and rejecting
by the error R208 names, and after it the encoder, from the same formats. -/

namespace Sys2Proof

/-- What decoding a word answers: a command, or the command error it raises (R208). -/
inductive Decoded where
  | ok (i : Instr)
  | error (e : CmdError)
deriving DecidableEq, Repr

/-- The word of four bytes of a bus, byte 0 the least significant (R156). -/
def wordOfBytes (b0 b1 b2 b3 : Byte) : Word := b3 ++ b2 ++ b1 ++ b0

/-- Byte lane `k` of a word (R156). -/
def byteOfWord (w : Word) (k : Nat) : Byte := w.extractLsb' (8 * k) 8

/-- The unsigned integer `w[lo + len - 1 : lo]` (R10). -/
def field (w : Word) (lo len : Nat) : Nat := (w.extractLsb' lo len).toNat

/-- `OPCODE`, bits [31:24] (R201). -/
def opcodeField (w : Word) : Nat := field w 24 8

/-- `VOICE`, bits [20:16] (R203, R205). -/
def voiceField (w : Word) : Nat := field w 16 5

/-- `START`, bits [23:12] (R204). -/
def startField (w : Word) : Nat := field w 12 12

/-- `COUNT`, bits [11:0] (R204). -/
def countField (w : Word) : Nat := field w 0 12

/-- `INDEX`, bits [13:0] (R205). -/
def indexField (w : Word) : Nat := field w 0 14

/-- Format N: bits [23:0] are reserved (R202). -/
def decodeN (w : Word) (i : Instr) : Decoded :=
  if field w 0 24 = 0 then .ok i else .error .reservedField

/-- `NOTE_ON`, format V with `FLAG` reserved: bits [23:21] and [15:0] must be 0 (R203, R208). -/
def decodeNoteOn (w : Word) : Decoded :=
  if field w 21 3 = 0 ∧ field w 0 16 = 0 then .ok (.noteOn (voiceField w)) else .error .reservedField

/-- `NOTE_OFF`, format V: bits [23:21] and [15:1] must be 0, bit [0] is `TAIL` (R203). -/
def decodeNoteOff (w : Word) : Decoded :=
  if field w 21 3 = 0 ∧ field w 1 15 = 0 then
    .ok (.noteOff (voiceField w) (decide (field w 0 1 = 1)))
  else .error .reservedField

/-- `PEEK`, format P: bits [23:21] must be 0 and `SPACE` must not be 3 (R205, R208). -/
def decodePeek (w : Word) : Decoded :=
  if field w 21 3 = 0 then
    match field w 14 2 with
    | 0 => .ok (.peek (voiceField w) .left (indexField w))
    | 1 => .ok (.peek (voiceField w) .right (indexField w))
    | 2 => .ok (.peek (voiceField w) .reg (indexField w))
    | _ => .error .reservedField
  else .error .reservedField

/-- The port-A opcode map (R206); every other opcode is illegal. -/
def decodeA (w : Word) : Decoded :=
  if opcodeField w = 0x00 then decodeN w .nopA
  else if opcodeField w = 0x01 then decodeNoteOn w
  else if opcodeField w = 0x02 then decodeNoteOff w
  else if opcodeField w = 0x03 then .ok (.renderBlock (startField w) (countField w))
  else if opcodeField w = 0x04 then .ok (.outClear (startField w) (countField w))
  else if opcodeField w = 0x05 then decodeN w .visPush
  else if opcodeField w = 0x06 then decodePeek w
  else .error .illegalOpcode

/-- The port-D opcode map (R207); every other opcode is illegal. -/
def decodeD (w : Word) : Decoded :=
  if opcodeField w = 0x00 then decodeN w .nopD
  else if opcodeField w = 0x10 then decodeN w .specProcess
  else .error .illegalOpcode

/-- Decoding a word written to a port: checks (1) and (2) of R208. -/
def decode (p : Port) (w : Word) : Decoded :=
  match p with
  | .a => decodeA w
  | .d => decodeD w

/-- The port whose command register a command is written to (R206, R207). -/
def Instr.port : Instr → Port
  | .nopA => .a
  | .noteOn _ => .a
  | .noteOff _ _ => .a
  | .renderBlock _ _ => .a
  | .outClear _ _ => .a
  | .visPush => .a
  | .peek _ _ _ => .a
  | .nopD => .d
  | .specProcess => .d

/-- The `OPCODE` of a command (R206, R207). -/
def Instr.opcode : Instr → Nat
  | .nopA => 0x00
  | .noteOn _ => 0x01
  | .noteOff _ _ => 0x02
  | .renderBlock _ _ => 0x03
  | .outClear _ _ => 0x04
  | .visPush => 0x05
  | .peek _ _ _ => 0x06
  | .nopD => 0x00
  | .specProcess => 0x10

/-- The `SPACE` field of `PEEK` (R205). -/
def PeekSpace.code : PeekSpace → Nat
  | .left => 0
  | .right => 1
  | .reg => 2

/-- A word from its opcode and its low 24 bits (R201). -/
def wordOf (opcode low : Nat) : Word := BitVec.ofNat 32 (opcode * 2 ^ 24 + low)

/-- The word of a well-formed command (R212). -/
def encode (i : Instr) : Word :=
  match i with
  | .nopA => wordOf i.opcode 0
  | .noteOn voice => wordOf i.opcode (voice * 2 ^ 16)
  | .noteOff voice tail => wordOf i.opcode (voice * 2 ^ 16 + tail.toNat)
  | .renderBlock start count => wordOf i.opcode (start * 2 ^ 12 + count)
  | .outClear start count => wordOf i.opcode (start * 2 ^ 12 + count)
  | .visPush => wordOf i.opcode 0
  | .peek voice space index => wordOf i.opcode (voice * 2 ^ 16 + space.code * 2 ^ 14 + index)
  | .nopD => wordOf i.opcode 0
  | .specProcess => wordOf i.opcode 0

/-- The port the table's word is tried on: A where port A decodes it, else D. The table gives `NOP.A` and
`NOP.D` one word, and only the port tells them apart (R200), so the word 0 is read as `NOP.A`. -/
def tablePort (w : Word) : Port :=
  match decodeA w with
  | .ok _ => .a
  | .error _ =>
    match decodeD w with
    | .ok _ => .d
    | .error _ => .a

/-- The table's word as a bus presents it: four byte lanes, the least significant first (R156). -/
def tableWord (nbits w : Nat) : Word :=
  let low := w % 2 ^ nbits
  wordOfBytes (BitVec.ofNat 8 low) (BitVec.ofNat 8 (low / 2 ^ 8))
    (BitVec.ofNat 8 (low / 2 ^ 16)) (BitVec.ofNat 8 (low / 2 ^ 24))

/-- The command the decoder reads from a row's word of spec/opcode_table.json. -/
def decodeTableWord (nbits w : Nat) : Option Instr :=
  match decode (tablePort (tableWord nbits w)) (tableWord nbits w) with
  | .ok i => some i
  | .error _ => none

end Sys2Proof
end

