-- ==== Sys2Proof/Machine/Memory.lean ====
section
/-! DEFINITION. The RAM of the block: the byte cells behind the bus windows, kept in one canonical form, whole
little-endian words over them (R155, R156), and the hidden RAMs as lists whose unlisted elements are free values
(R552). -/

namespace Sys2Proof.Machine

open Sys2Proof

/-- The addresses strictly rise. -/
def Memory.wf : Memory → Bool
  | [] => true
  | [_] => true
  | (a, _) :: (b, y) :: m => decide (a < b) && Memory.wf ((b, y) :: m)

/-- The byte listed at an address. -/
def Memory.lookup : Memory → Nat → Option Byte
  | [], _ => none
  | (b, x) :: m, a => if a = b then some x else Memory.lookup m a

/-- What a byte reads as: what was written, else the free value it has held since the draw `draw` (R552). -/
def Memory.readByte (draw : Nat) (m : Memory) (a : Nat) : Byte :=
  (Memory.lookup m a).getD (Config.ramByte draw a)

/-- Writes a byte in address order. -/
def Memory.writeByte : Memory → Nat → Byte → Memory
  | [], a, x => [(a, x)]
  | (b, y) :: m, a, x =>
    if a < b then (a, x) :: (b, y) :: m
    else if a = b then (a, x) :: m
    else (b, y) :: Memory.writeByte m a x

/-- The word at a 4-byte-aligned address: byte `k` carries bits [8k+7:8k] (R156). -/
def Memory.readWord (draw : Nat) (m : Memory) (a : Nat) : Word :=
  wordOfBytes (Memory.readByte draw m a) (Memory.readByte draw m (a + 1))
    (Memory.readByte draw m (a + 2)) (Memory.readByte draw m (a + 3))

/-- Writes a word at a 4-byte-aligned address (R156). -/
def Memory.writeWord (m : Memory) (a : Nat) (w : Word) : Memory :=
  Memory.writeByte (Memory.writeByte (Memory.writeByte (Memory.writeByte m a (byteOfWord w 0))
    (a + 1) (byteOfWord w 1)) (a + 2) (byteOfWord w 2)) (a + 3) (byteOfWord w 3)

/-- Writes words at rising addresses from `a`. -/
def Memory.writeWords : Memory → Nat → List Word → Memory
  | m, _, [] => m
  | m, a, w :: ws => Memory.writeWords (Memory.writeWord m a w) (a + 4) ws

/-- The bus address of `WAVE_RING[k]` (R91, R153). -/
def ringAddr (k : Nat) : Nat := 0x1000 + 4 * k

/-- The bus address of `SCOPE[i]` (R95, R153). -/
def scopeAddr (i : Nat) : Nat := 0x2000 + 4 * i

/-- The bus address of `OUT_BUF[c][i]` (R90, R153). -/
def outAddr (c i : Nat) : Nat := 0x4000 + 0x1000 * c + 4 * i

/-- A byte address inside one of the RAM windows (R153). -/
def ramAddr (a : Nat) : Bool :=
  (decide (0x1000 ≤ a) && decide (a < 0x1000 + 4 * Config.waveCap))
    || (decide (0x2000 ≤ a) && decide (a < 0x2000 + 4 * Config.scopeSize))
    || (decide (0x4000 ≤ a) && decide ((a - 0x4000) / 0x1000 < Config.numChannels)
        && decide ((a - 0x4000) % 0x1000 < 4 * Config.blockMax))

/-- The word at an address of a RAM window, in a state. -/
def State.readWord (s : State) (a : Nat) : Word := Memory.readWord s.ramDraw s.mem a

/-- The byte at an address of a RAM window, in a state. -/
def State.readByte (s : State) (a : Nat) : Byte := Memory.readByte s.ramDraw s.mem a

/-- `OUT_BUF[c][i]` (R90). -/
def State.outBuf (s : State) (c i : Nat) : Word := s.readWord (outAddr c i)

/-- `WAVE_RING[k]` (R91). -/
def State.waveRing (s : State) (k : Nat) : Word := s.readWord (ringAddr k)

/-- `SCOPE[i]` (R95). -/
def State.scope (s : State) (i : Nat) : Word := s.readWord (scopeAddr i)

/-- The first `n` elements of a hidden RAM whose listed elements are `xs`, the element `k + j` unlisted reading
as `free (k + j)`. -/
def window {α : Type} (free : Nat → α) : Nat → Nat → List α → List α
  | _, 0, _ => []
  | k, n + 1, [] => free k :: window free (k + 1) n []
  | k, n + 1, x :: xs => x :: window free (k + 1) n xs

/-- Writes element `i` of a hidden RAM whose listed elements are `xs`, listing with their free values the elements
that stand before it unlisted. -/
def putAt {α : Type} (free : Nat → α) : Nat → Nat → α → List α → List α
  | _, 0, x, [] => [x]
  | _, 0, x, _ :: ys => x :: ys
  | k, i + 1, x, [] => free k :: putAt free (k + 1) i x []
  | k, i + 1, x, y :: ys => y :: putAt free (k + 1) i x ys

/-- The free value of `LEFT[i]` of a voice. -/
def freeLeft (draw v i : Nat) : Word := Config.ramWord draw (.left v i)

/-- The free value of `RIGHT[i]` of a voice. -/
def freeRight (draw v i : Nat) : Word := Config.ramWord draw (.right v i)

/-- The free value of `FIFO[i]`. -/
def freeFifo (draw i : Nat) : Word := Config.ramWord draw (.fifo i)

/-- The free value of `TBUF[n]`. -/
def freeTbuf (draw n : Nat) : Word × Word := (Config.ramWord draw (.tbufRe n), Config.ramWord draw (.tbufIm n))

/-- `LEFT[i]` of voice `v` (R83). -/
def State.leftAt (s : State) (v : Fin Config.numVoices) (i : Nat) : Word :=
  (s.voice v).left.getD i (freeLeft s.ramDraw v.val i)

/-- `RIGHT[i]` of voice `v` (R83). -/
def State.rightAt (s : State) (v : Fin Config.numVoices) (i : Nat) : Word :=
  (s.voice v).right.getD i (freeRight s.ramDraw v.val i)

/-- `FIFO[i]` (R92). -/
def State.fifoAt (s : State) (i : Nat) : Word := s.vis.fifo.getD i (freeFifo s.ramDraw i)

/-- `TBUF[n]` (R93). -/
def State.tbufAt (s : State) (n : Nat) : Word × Word := s.vis.tbuf.getD n (freeTbuf s.vis.tbufDraw n)

end Sys2Proof.Machine
end

