-- ==== Sys2Proof/Machine/Operands.lean ====
section
/-! DEFINITION. The operand forms of the commands and the checks on them: a block range (R300), a line index and a
voice-register number of `PEEK` (R472 to R474), and the registers a note command reads (R250). -/

namespace Sys2Proof.Machine

open Sys2Proof

/-- `START + COUNT <= BLOCK_MAX`, an exact sum (R300). -/
def blockInRange (start count : Nat) : Bool := decide (start + count ≤ Config.blockMax)

/-- `SAMPLE_RATE` is positive and finite (R251). -/
def State.sampleRateOk (s : State) : Bool := positiveFinite s.note.sampleRate

/-- Index `index` is one of the voice's line indices (R472): the voice has lines, and the index is below `L`. -/
def Voice.lineIndexOk (v : Voice) (index : Nat) : Bool :=
  !v.degen && decide (2 ≤ v.l.toNat) && decide (index < v.l.toNat)

/-- A voice register by its number (R474); numbers above 20 name none. -/
def Voice.register (v : Voice) (index : Nat) : Option Word :=
  match index with
  | 0 => some v.vstatusWord
  | 1 => some (v.l.setWidth 32)
  | 2 => some (v.pluckIdx.setWidth 32)
  | 3 => some (v.pickupIdx.setWidth 32)
  | 4 => some v.envLevel
  | 5 => some v.attackRate
  | 6 => some v.decayRate
  | 7 => some v.releaseRate
  | 8 => some v.sustainLevel
  | 9 => some v.releaseTime
  | 10 => some v.velocity
  | 11 => some v.refl
  | 12 => some v.sr
  | 13 => some v.s1
  | 14 => some v.s2
  | 15 => some (BitVec.ofNat 32 v.vMode.toNat)
  | 16 => some v.vB0
  | 17 => some v.vB1
  | 18 => some v.vB2
  | 19 => some v.vA1
  | 20 => some v.vA2
  | _ => none

/-- The element a `PEEK` addresses, or none where R472 raises `INDEX_RANGE`. -/
def State.peekValue (s : State) (v : Fin Config.numVoices) (space : PeekSpace) (index : Nat) : Option Word :=
  match space with
  | .left => if (s.voice v).lineIndexOk index then some (s.leftAt v index) else none
  | .right => if (s.voice v).lineIndexOk index then some (s.rightAt v index) else none
  | .reg => (s.voice v).register index

end Sys2Proof.Machine
end

