-- ==== Sys2Proof/Machine/Ops.lean ====
section
/-! DEFINITION. The shared operations: recording a command error, which is the whole of what this hardware has for an
exception (R500, R501), and clearing it, which is the whole of the return from one (R508, R516); and the operations
over `OUT_BUF` and `PUSHQ` that several commands share. -/

namespace Sys2Proof.Machine

open Sys2Proof

/-- `raise CmdError(code)` on a port (R501): the first error since `ERR` was last clear is recorded, and the command
has no other effect (R504). -/
def State.raise (s : State) (p : Port) (e : CmdError) : State :=
  match p with
  | .a => s.setStatusA (s.statusA.record e)
  | .d => s.setStatusD (s.statusD.record e)

/-- A host's write of `w` to a port's status register: the clearing of errors and warnings (R516). -/
def State.clearStatus (s : State) (p : Port) (w : Word) : State :=
  match p with
  | .a => s.setStatusA (s.statusA.clear w)
  | .d => s.setStatusD (s.statusD.clear w)

/-- A command that raises an error completes with the error recorded and nothing else (R501, R504). -/
def failCommand (p : Port) (e : CmdError) (s : State) : Host.Outcome State Fault Refusal := .next (s.raise p e)

/-- Adds a sample into element `i` of every channel of `OUT_BUF` (R310). -/
def addToOut (draw : Nat) (m : Memory) (i : Nat) (out : Word) : Memory :=
  (List.range Config.numChannels).foldl
    (fun m c => m.writeWord (outAddr c i) (fadd (m.readWord draw (outAddr c i)) out)) m

/-- Adds samples into elements `i`, `i + 1`, ... of every channel (R310). -/
def addOuts (draw : Nat) : Memory → Nat → List Word → Memory
  | m, _, [] => m
  | m, i, o :: os => addOuts draw (addToOut draw m i o) (i + 1) os

/-- Sets elements `start .. start + count - 1` of every channel to `+0` (R315). -/
def clearOut (m : Memory) (start count : Nat) : Memory :=
  (List.range Config.numChannels).foldl
    (fun m c => m.writeWords (outAddr c start) (List.replicate count fZero)) m

/-- The channel-0 samples of a block (R313). -/
def State.blockSamples (s : State) (start count : Nat) : List Word :=
  (List.range count).map (fun j => s.outBuf 0 (start + j))

/-- Appends samples to `PUSHQ` (R313, R350). -/
def State.enqueue (s : State) (xs : List Word) : State := s.setPushq (s.pushq ++ xs)

end Sys2Proof.Machine
end

