-- ==== Sys2Proof/Machine/Bus.lean ====
section
/-! DEFINITION. The bus side of the block: the address map (R153, R154), what a register or window element reads as
(R157), what a write stores (R158), which accesses are bus errors (R159), and which are held (R161, R162). -/

namespace Sys2Proof.Machine

open Sys2Proof

/-- What a mapped offset names (R153). -/
inductive Target where
  | id
  | version
  | config0
  | config1
  | ctrl
  | statusA
  | cmdA
  | resultA
  | arg0
  | arg1
  | voiceActive
  | sampleRate
  | attack
  | decay
  | sustain
  | release
  | bridgeR
  | pluckPos
  | filtMode
  | filtB0
  | filtB1
  | filtB2
  | filtA1
  | filtA2
  | statusD
  | cmdD
  | resultD
  | waveCursor
  | fifoIndex
  | waveRing (k : Nat)
  | scope (i : Nat)
  | outBuf (c i : Nat)
deriving DecidableEq, Repr

/-- The registers of the map, by offset (R153). -/
def registerMap : List (Nat × Target) := [
  (0x000, .id), (0x004, .version), (0x008, .config0), (0x00C, .config1),
  (0x010, .ctrl), (0x014, .statusA), (0x018, .cmdA), (0x01C, .resultA),
  (0x020, .arg0), (0x024, .arg1), (0x028, .voiceActive),
  (0x030, .sampleRate), (0x034, .attack), (0x038, .decay), (0x03C, .sustain),
  (0x040, .release), (0x044, .bridgeR), (0x048, .pluckPos), (0x04C, .filtMode),
  (0x050, .filtB0), (0x054, .filtB1), (0x058, .filtB2), (0x05C, .filtA1), (0x060, .filtA2),
  (0x100, .statusD), (0x104, .cmdD), (0x108, .resultD), (0x10C, .waveCursor), (0x110, .fifoIndex)]

/-- The window element at an aligned offset, or none (R153, R154). -/
def windowTarget (o : Nat) : Option Target :=
  if 0x1000 ≤ o ∧ o < 0x1000 + 4 * Config.waveCap then some (.waveRing ((o - 0x1000) / 4))
  else if 0x2000 ≤ o ∧ o < 0x2000 + 4 * Config.scopeSize then some (.scope ((o - 0x2000) / 4))
  else if 0x4000 ≤ o ∧ (o - 0x4000) / 0x1000 < Config.numChannels ∧ (o - 0x4000) % 0x1000 < 4 * Config.blockMax then
    some (.outBuf ((o - 0x4000) / 0x1000) ((o - 0x4000) % 0x1000 / 4))
  else none

/-- What an aligned offset names; every other offset is unmapped (R153, R154). -/
def targetAt (o : Nat) : Option Target :=
  match registerMap.lookup o with
  | some t => some t
  | none => windowTarget o

/-- The bus error of an access, or none (R154, R155, R159). -/
def busFault (w : Width) (o : Nat) : Option Fault :=
  if w ≠ .w32 then some .badWidth
  else if o % 4 ≠ 0 then some .misaligned
  else if targetAt o = none then some .unmapped
  else none

/-- The word a mapped offset reads as (R157); a read changes nothing. -/
def State.readTarget (s : State) (t : Target) : Word :=
  match t with
  | .id => 0x57475645#32
  | .version => 0x00000001#32
  | .config0 => config0Word
  | .config1 => config1Word
  | .ctrl => s.ctrlWord
  | .statusA => s.statusAWord
  | .cmdA => 0#32
  | .resultA => s.resultA
  | .arg0 => s.arg0
  | .arg1 => s.arg1
  | .voiceActive => s.voiceActiveWord
  | .sampleRate => s.note.sampleRate
  | .attack => s.note.attack
  | .decay => s.note.decay
  | .sustain => s.note.sustain
  | .release => s.note.release
  | .bridgeR => s.note.bridgeR
  | .pluckPos => s.note.pluckPos
  | .filtMode => BitVec.ofNat 32 (bitAt 0 s.note.filtMode)
  | .filtB0 => s.note.filtB0
  | .filtB1 => s.note.filtB1
  | .filtB2 => s.note.filtB2
  | .filtA1 => s.note.filtA1
  | .filtA2 => s.note.filtA2
  | .statusD => s.statusDWord
  | .cmdD => 0#32
  | .resultD => BitVec.ofNat 32 (bitAt 0 s.processed)
  | .waveCursor => s.vis.waveCursor
  | .fifoIndex => s.vis.fifoIndex.setWidth 32
  | .waveRing k => s.waveRing k
  | .scope i => s.scope i
  | .outBuf c i => s.outBuf c i

/-- A write of `x` to a mapped offset that is no command register (R158): an RW register or element stores it, a
status register clears bits, a read-only one ignores it. -/
def State.writeTarget (s : State) (t : Target) (x : Word) : State :=
  match t with
  | .ctrl => s.setCtrl (ctrlOfWord x)
  | .statusA => s.clearStatus .a x
  | .arg0 => s.setArg0 x
  | .arg1 => s.setArg1 x
  | .sampleRate => s.setNote { s.note with sampleRate := x }
  | .attack => s.setNote { s.note with attack := x }
  | .decay => s.setNote { s.note with decay := x }
  | .sustain => s.setNote { s.note with sustain := x }
  | .release => s.setNote { s.note with release := x }
  | .bridgeR => s.setNote { s.note with bridgeR := x }
  | .pluckPos => s.setNote { s.note with pluckPos := x }
  | .filtMode => s.setNote { s.note with filtMode := filtModeOfWord x }
  | .filtB0 => s.setNote { s.note with filtB0 := x }
  | .filtB1 => s.setNote { s.note with filtB1 := x }
  | .filtB2 => s.setNote { s.note with filtB2 := x }
  | .filtA1 => s.setNote { s.note with filtA1 := x }
  | .filtA2 => s.setNote { s.note with filtA2 := x }
  | .statusD => s.clearStatus .d x
  | .outBuf c i => s.setMem (s.mem.writeWord (outAddr c i) x)
  | .id | .version | .config0 | .config1 | .cmdA | .resultA | .voiceActive | .cmdD | .resultD | .waveCursor
  | .fifoIndex | .waveRing _ | .scope _ => s

/-- An offset's word lies in `OUT_BUF` (R161). -/
def inOutBuf (o : Nat) : Bool :=
  decide (0x4000 ≤ o) && decide ((o - 0x4000) / 0x1000 < Config.numChannels)
    && decide ((o - 0x4000) % 0x1000 < 4 * Config.blockMax)

/-- The accesses `STATUS_A.BUSY` holds: offsets 0x010 to 0x060 but reads of `STATUS_A`, and `OUT_BUF` (R161). `o` is the
offset of the word that the access touches. -/
def heldByA (isRead : Bool) (o : Nat) : Bool :=
  (decide (0x010 ≤ o) && decide (o ≤ 0x060) && !(isRead && decide (o = 0x014))) || inOutBuf o

/-- The accesses `STATUS_D.BUSY` holds: `CMD_D`, `RESULT_D`, `SCOPE`, and writes of `STATUS_D` (R162). -/
def heldByD (isRead : Bool) (o : Nat) : Bool :=
  decide (o = 0x104) || decide (o = 0x108) || (decide (0x2000 ≤ o) && decide (o < 0x2000 + 4 * Config.scopeSize))
    || (!isRead && decide (o = 0x100))

/-- The offset of the aligned word that holds offset `o`. -/
def wordOffset (o : Nat) : Nat := o - o % 4

/-- An access is a read. -/
def Access.isRead : Access → Bool
  | .read _ _ => true
  | .write _ _ _ => false

/-- The byte offset of an access. -/
def Access.offset : Access → Nat
  | .read _ o => o.toNat
  | .write _ o _ => o.toNat

/-- The width of an access. -/
def Access.width : Access → Width
  | .read w _ => w
  | .write w _ _ => w

/-- The access is held (R160 to R162). -/
def State.holds (s : State) (x : Access) : Bool :=
  (s.busyA && heldByA x.isRead (wordOffset x.offset)) || (s.busyD && heldByD x.isRead (wordOffset x.offset))

/-- The platform address of an offset of the window (R153). -/
def platformAddr (o : Offset) : Nat := Config.wgveBase + o.toNat

/-- The offset of the window a platform address falls in, or none outside the block's 64 KiB (R153, R512). -/
def offsetOfPlatform (addr : Nat) : Option Offset :=
  if Config.wgveBase ≤ addr ∧ addr < Config.wgveBase + 2 ^ 16 then some (BitVec.ofNat 16 (addr - Config.wgveBase))
  else none

end Sys2Proof.Machine
end

