-- ==== Sys2Proof/Machine/Control.lean ====
section
/-! DEFINITION. The control commands (45_control.md): `NOP.A`, `NOP.D` and `PEEK`. -/

namespace Sys2Proof.Machine

open Sys2Proof

/-- `NOP.A` has no effect (R470). -/
def execNopA (s : State) : Host.Outcome State Fault Refusal := .next s

/-- `NOP.D` has no effect (R470). -/
def execNopD (s : State) : Host.Outcome State Fault Refusal := .next s

/-- `PEEK` (R475), with its checks in the order of R472. -/
def execPeek (voice : Nat) (space : PeekSpace) (index : Nat) (s : State) : Host.Outcome State Fault Refusal :=
  if h : voice < Config.numVoices then
    match s.peekValue ⟨voice, h⟩ space index with
    | some w => .next (s.setResultA w)
    | none => failCommand .a .indexRange s
  else failCommand .a .voiceRange s

end Sys2Proof.Machine
end

