-- ==== Sys2Proof/Machine/Note.lean ====
section
/-! DEFINITION. `NOTE_ON` and `NOTE_OFF` (40_note_commands.md): the note's geometry and excitation, the loss-filter latch,
the envelope set-up and release. -/

namespace Sys2Proof.Machine

open Sys2Proof

/-- The delay-line length before the bound of R255: `max(2, floor(val(SR) / val(f)))` (R254). -/
def lineLength (sr f : Word) : Nat := max 2 (floorQuot sr f)

/-- The effective pluck fraction (R256). -/
def pluckFraction (p : Word) : Word :=
  if isNaN p || fle p fZero then Config.pluckFallback else if fge p fOne then fOne else p

/-- `PLUCK_IDX` of a line of length `l >= 2` (R257). -/
def pluckIndex (p : Word) (l : Nat) : Nat :=
  if l = 2 then 1 else min (max (floorMul (pluckFraction p) (l - 1)) 1) (l - 2)

/-- The excitation value `E(i)` of a line of length `l` plucked at `k` (R259). -/
def excitation (l k i : Nat) : Word :=
  if i ≤ k then fdiv (i2f i) (i2f k) else fdiv (i2f (l - 1 - i)) (i2f (l - 1 - k))

/-- The seed of both lines: the excitation at half amplitude (R260). -/
def seedLine (l k : Nat) : List Word := (List.range l).map (fun i => fmul (excitation l k i) fHalf)

/-- Latches the sample rate, velocity and reflection coefficient (R252, R253). -/
def Voice.latchNote (v : Voice) (note : NoteRegs) (velocity : Word) : Voice :=
  { v with sr := note.sampleRate, velocity := clamp01 velocity, refl := note.bridgeR }

/-- The lines and indices of a note of valid frequency, of length `l` (R255 to R260). Elements at indices `l` and above
are not written. -/
def Voice.seed (v : Voice) (pluckPos : Word) (l : Nat) : Voice :=
  { v with
    degen := false
    l := BitVec.ofNat 14 l
    pluckIdx := BitVec.ofNat 14 (pluckIndex pluckPos l)
    pickupIdx := BitVec.ofNat 14 (l / 2)
    left := seedLine l (pluckIndex pluckPos l) ++ v.left.drop l
    right := seedLine l (pluckIndex pluckPos l) ++ v.right.drop l }

/-- A degenerate note: the lines are not written (R254). -/
def Voice.degenerate (v : Voice) : Voice :=
  { v with degen := true, l := 1#14, pluckIdx := 0#14, pickupIdx := 0#14 }

/-- The geometry of a note of pitch `f` (R254, R255). -/
def Voice.setGeometry (v : Voice) (note : NoteRegs) (f : Word) : Voice :=
  if positiveFinite f then v.seed note.pluckPos (min (lineLength note.sampleRate f) Config.lMax) else v.degenerate

/-- Latches the loss filter, and clears its state where `CTRL.FILT_RST_ON_NOTEON` is set (R261). -/
def Voice.latchFilter (v : Voice) (note : NoteRegs) (ctrl : Ctrl) : Voice :=
  { v with
    vMode := note.filtMode
    vB0 := note.filtB0
    vB1 := note.filtB1
    vB2 := note.filtB2
    vA1 := note.filtA1
    vA2 := note.filtA2
    s1 := if ctrl.filtRstOnNoteOn then fZero else v.s1
    s2 := if ctrl.filtRstOnNoteOn then fZero else v.s2 }

/-- The attack rate (R263). -/
def attackRateOf (attack sr : Word) : Word :=
  fdiv fOne (if fge (fmul (clamp01 attack) sr) Config.attackMinSamples then fmul (clamp01 attack) sr
    else Config.attackMinSamples)

/-- The decay rate (R264). -/
def decayRateOf (decay sustainLevel sr : Word) : Word :=
  if fgt (fmul (clamp01 decay) sr) fZero then fdiv (fsub fOne sustainLevel) (fmul (clamp01 decay) sr) else fZero

/-- The envelope parameters and its start (R262 to R265). -/
def Voice.startEnvelope (v : Voice) (note : NoteRegs) : Voice :=
  { v with
    sustainLevel := clamp01 note.sustain
    releaseTime := clamp01 note.release
    attackRate := attackRateOf note.attack note.sampleRate
    decayRate := decayRateOf note.decay (clamp01 note.sustain) note.sampleRate
    stage := .attack
    envLevel := fZero
    releaseRate := fZero
    active := true }

/-- The voice as an error-free `NOTE_ON` leaves it (R266); a sounding voice is reinitialised alike (R267). -/
def Voice.noteOn (v : Voice) (note : NoteRegs) (ctrl : Ctrl) (pitch velocity : Word) : Voice :=
  (((v.latchNote note velocity).setGeometry note pitch).latchFilter note ctrl).startEnvelope note

/-- The warning bits of an error-free `NOTE_ON`, set and never cleared (R253, R254, R255, R506). -/
def noteWarnings (x : StatusA) (note : NoteRegs) (pitch : Word) : StatusA :=
  { x with
    rUnstable := x.rUnstable || !flt (fabs note.bridgeR) fOne
    lClamped := x.lClamped || (positiveFinite pitch && decide (Config.lMax < lineLength note.sampleRate pitch))
    degenNote := x.degenNote || !positiveFinite pitch }

/-- The state an error-free `NOTE_ON` of voice `v` leaves (R266). -/
def State.startNote (s : State) (v : Fin Config.numVoices) : State :=
  (s.setVoice v ((s.voice v).noteOn s.note s.ctrl s.arg0 s.arg1)).setStatusA (noteWarnings s.statusA s.note s.arg0)

/-- `NOTE_ON` (R266), with its checks in the order of R251. -/
def execNoteOn (voice : Nat) (s : State) : Host.Outcome State Fault Refusal :=
  if h : voice < Config.numVoices then
    if s.sampleRateOk then .next (s.startNote ⟨voice, h⟩) else failCommand .a .badSampleRate s
  else failCommand .a .voiceRange s

/-- The voice idle at once, with no tail (R269). -/
def Voice.silence (v : Voice) : Voice := { v with stage := .idle, envLevel := fZero, active := false }

/-- The release rate from the live level (R269, R270). -/
def Voice.releaseRateNow (v : Voice) : Word :=
  if fgt (fmul v.releaseTime v.sr) fZero then fdiv v.envLevel (fmul v.releaseTime v.sr) else fZero

/-- An active voice as `NOTE_OFF` leaves it (R269). -/
def Voice.noteOff (v : Voice) (tail : Bool) : Voice :=
  if tail && fgt v.releaseRateNow fZero then { v with releaseRate := v.releaseRateNow, stage := .release }
  else v.silence

/-- `NOTE_OFF` (R269); an idle voice is left as it is. -/
def execNoteOff (voice : Nat) (tail : Bool) (s : State) : Host.Outcome State Fault Refusal :=
  if h : voice < Config.numVoices then
    if (s.voice ⟨voice, h⟩).active then .next (s.setVoice ⟨voice, h⟩ ((s.voice ⟨voice, h⟩).noteOff tail)) else .next s
  else failCommand .a .voiceRange s

end Sys2Proof.Machine
end

