-- ==== Sys2Proof/Machine/Render.lean ====
section
/-! DEFINITION. `RENDER_BLOCK` and `OUT_CLEAR` (41_render.md): the waveguide step, the loss filter in its two forms, the
envelope, and the block. -/

namespace Sys2Proof.Machine

open Sys2Proof

/-- The waveguide step on the logical lines of a voice of `L >= 2` (R303): the nut is read before the shift, the bridge
after it. -/
def waveguideStep (refl : Word) (left right : List Word) : List Word × List Word :=
  let right' := fneg (left.headD fZero) :: right.dropLast
  (left.tail ++ [fmul (fneg refl) (right'.getLastD fZero)], right')

/-- The internal registers of a loss filter: `S1` and `S2` (R86). -/
structure FiltState where
  s1 : Word
  s2 : Word
deriving DecidableEq, Repr

/-- The one-pole form (R305). -/
def onePole (v : Voice) (st : FiltState) (x : Word) : Word × FiltState :=
  let y := fsub (fmul v.vB0 x) (fmul v.vA1 st.s1)
  (y, ⟨y, st.s2⟩)

/-- The biquad form, transposed direct form II (R306). -/
def biquad (v : Voice) (st : FiltState) (x : Word) : Word × FiltState :=
  let y := fadd (fmul v.vB0 x) st.s1
  (y, ⟨fadd (fsub (fmul v.vB1 x) (fmul v.vA1 y)) st.s2, fsub (fmul v.vB2 x) (fmul v.vA2 y)⟩)

/-- The voice's filter form (R304). -/
def filterStep (v : Voice) (st : FiltState) (x : Word) : Word × FiltState :=
  if v.vMode then biquad v st x else onePole v st x

/-- The filter over a run of elements in ascending order, its state threaded (R304). -/
def filterRun (v : Voice) (st : FiltState) : List Word → List Word × FiltState
  | [] => ([], st)
  | x :: xs =>
    let r := filterStep v st x
    let rest := filterRun v r.2 xs
    (r.1 :: rest.1, rest.2)

/-- The filter over the interior indices `1..L-2` of a line of length `L >= 2` (R304). -/
def filterInterior (v : Voice) (st : FiltState) (left : List Word) : List Word × FiltState :=
  match left with
  | [] => ([], st)
  | x :: xs =>
    let r := filterRun v st xs.dropLast
    (x :: r.1 ++ xs.getLast?.toList, r.2)

/-- `env_next` (R308). -/
def Voice.envNext (v : Voice) : Voice :=
  match v.stage with
  | .idle => { v with envLevel := fZero }
  | .attack =>
    let level := fadd v.envLevel v.attackRate
    if fge level fOne then
      { v with envLevel := fOne, stage := if fgt v.decayRate fZero then .decay else .sustain }
    else { v with envLevel := level }
  | .decay =>
    let level := fsub v.envLevel v.decayRate
    if fle level v.sustainLevel then { v with envLevel := v.sustainLevel, stage := .sustain }
    else { v with envLevel := level }
  | .sustain => { v with envLevel := v.sustainLevel }
  | .release =>
    let level := fsub v.envLevel v.releaseRate
    if fle level fZero then { v with envLevel := fZero, stage := .idle } else { v with envLevel := level }

/-- Steps 1 to 6 of a sample on a voice with lines: the waveguide step and the interior filter (R303, R304). Elements at
indices `L` and above are kept. -/
def Voice.stepLines (draw n : Nat) (v : Voice) : Voice :=
  let l := v.l.toNat
  let w := waveguideStep v.refl (window (freeLeft draw n) 0 l v.left) (window (freeRight draw n) 0 l v.right)
  let f := filterInterior v ⟨v.s1, v.s2⟩ w.1
  { v with left := f.1 ++ v.left.drop l, right := w.2 ++ v.right.drop l, s1 := f.2.s1, s2 := f.2.s2 }

/-- The pickup read (R307). -/
def Voice.pickup (draw n : Nat) (v : Voice) : Word :=
  fadd (v.left.getD v.pickupIdx.toNat (freeLeft draw n v.pickupIdx.toNat))
    (v.right.getD v.pickupIdx.toNat (freeRight draw n v.pickupIdx.toNat))

/-- The output scaling (R309). -/
def outSample (raw env velocity : Word) : Word := fmul (fmul raw env) velocity

/-- One sample of a voice with lines, and its output (R302). -/
def Voice.renderSample (draw n : Nat) (v : Voice) : Voice × Word :=
  let stepped := v.stepLines draw n
  let next := stepped.envNext
  (next, outSample (stepped.pickup draw n) next.envLevel next.velocity)

/-- A voice whose render step runs: not degenerate, with lines of two elements or more (R302, R311). -/
def Voice.hasLines (v : Voice) : Bool := !v.degen && decide (2 ≤ v.l.toNat)

/-- `count` samples of a voice in order, and the outputs it adds (R302); a voice without lines only runs its envelope
and adds nothing (R311). -/
def Voice.renderSamples (draw n : Nat) : Nat → Voice → Voice × List Word
  | 0, v => (v, [])
  | count + 1, v =>
    if v.hasLines then
      let r := v.renderSample draw n
      let rest := Voice.renderSamples draw n count r.1
      (rest.1, r.2 :: rest.2)
    else Voice.renderSamples draw n count v.envNext

/-- The end of the block: a voice at `IDLE` becomes inactive (R312). -/
def Voice.endBlock (v : Voice) : Voice := if v.stage = .idle then { v with active := false } else v

/-- Sets `NONFINITE` where one of a voice's outputs is infinite or NaN (R309). -/
def noteNonfinite (x : StatusA) (outs : List Word) : StatusA :=
  { x with nonfinite := x.nonfinite || outs.any (fun o => !isFinite o) }

/-- An active voice renders the block into `OUT_BUF` (R301, R302, R310 to R312); an inactive one does nothing. -/
def State.renderVoice (s : State) (start count : Nat) (v : Fin Config.numVoices) : State :=
  if (s.voice v).active then
    let r := (s.voice v).renderSamples s.ramDraw v.val count
    ((s.setVoice v r.1.endBlock).setMem (addOuts s.ramDraw s.mem start r.2)).setStatusA (noteNonfinite s.statusA r.2)
  else s

/-- The voices render in ascending number (R301). A voice's rendering changes no other voice, so `ACTIVE` is still what
it was when the command started. -/
def State.renderVoices (s : State) (start count : Nat) : State :=
  (List.finRange Config.numVoices).foldl (fun s v => s.renderVoice start count v) s

/-- The visualization hand-off (R313). -/
def State.handOff (s : State) (start count : Nat) : State :=
  if s.ctrl.visAuto then s.enqueue (s.blockSamples start count) else s

/-- `RENDER_BLOCK` (R314). -/
def execRenderBlock (start count : Nat) (s : State) : Host.Outcome State Fault Refusal :=
  if blockInRange start count then .next ((s.renderVoices start count).handOff start count)
  else failCommand .a .blockRange s

/-- `OUT_CLEAR` (R315). -/
def execOutClear (start count : Nat) (s : State) : Host.Outcome State Fault Refusal :=
  if blockInRange start count then .next (s.setMem (clearOut s.mem start count)) else failCommand .a .blockRange s

end Sys2Proof.Machine
end

