-- ==== Sys2Proof/Machine/Level.lean ====
section
/-! DEFINITION. The level of a magnitude (R408): the binary32 rounding of the exact real
`1 + log10(val(m) / 2048) / 5` clamped to [0, 1]. The two clamps are decided exactly on integers. Between them
`levelExact` is the rounding itself: it compares the real with the points halfway between binary32 numbers, exactly, on
integers (R19). Those integers are too large to compute, so the real is first enclosed between two rationals computed
with 256 fraction bits: where both round to one word, that word is the rounding, because rounding is monotone, and only
where they do not is `levelExact` asked. -/

namespace Sys2Proof.Machine

open Sys2Proof

/-- The scale of the fixed-point logarithms. -/
def logScale : Nat := 2 ^ 256

/-- The terms `z^(2i+1) / (2i+1)` of `atanh z` from the `i`-th on, each rounded down, where `p` is `z^(2i+1)` at the
scale and `z^2 = a2 / b2`. -/
def atanhTerms (a2 b2 : Nat) : Nat → Nat → Nat → Nat
  | 0, _, _ => 0
  | k + 1, i, p => p / (2 * i + 1) + atanhTerms a2 b2 k (i + 1) (p * a2 / b2)

/-- A lower bound of `atanh(a / b)` at the scale, for `0 <= a/b <= 1/3`: 90 terms of its series. -/
def atanhLo (a b : Nat) : Nat := atanhTerms (a * a) (b * b) 90 0 (logScale * a / b)

/-- What `atanhLo` can fall short by: under 3 for each of its 90 terms, and under 1 for the terms left out. -/
def atanhSlack : Nat := 2 ^ 9

/-- An upper bound of `atanh(a / b)` at the scale, for `0 <= a/b <= 1/3`. -/
def atanhHi (a b : Nat) : Nat := atanhLo a b + atanhSlack

/-- Bounds of `ln 2 = 2 atanh(1/3)` at the scale. -/
def ln2Lo : Nat := 2 * atanhLo 1 3
def ln2Hi : Nat := 2 * atanhHi 1 3

/-- Bounds of `ln 10 = 3 ln 2 + 2 atanh(1/9)` at the scale. -/
def ln10Lo : Nat := 3 * ln2Lo + 2 * atanhLo 1 9
def ln10Hi : Nat := 3 * ln2Hi + 2 * atanhHi 1 9

/-- Bounds, at the scale, of `-ln r` for the ratio `r = n / 2^160` of a magnitude of `n` units to 2048, where
`1 <= n < 2^160`: with `k = log2 n`, `-ln r = (160 - k) ln 2 - 2 atanh((n - 2^k) / (n + 2^k))`. -/
def dropLo (n : Nat) : Nat :=
  let k := Nat.log2 n
  (160 - k) * ln2Lo - 2 * atanhHi (n - 2 ^ k) (n + 2 ^ k)
def dropHi (n : Nat) : Nat :=
  let k := Nat.log2 n
  (160 - k) * ln2Hi - 2 * atanhLo (n - 2 ^ k) (n + 2 ^ k)

/-- The pattern of the rounding of a lower bound of `1 + log10(r) / 5 = (5 ln 10 - (-ln r)) / (5 ln 10)`. -/
def levelLo (n : Nat) : Word := pack false (rndMag ((5 * ln10Lo - dropHi n) * 2 ^ 149) (5 * ln10Hi))

/-- The pattern of the rounding of an upper bound of the same. -/
def levelHi (n : Nat) : Word := pack false (rndMag ((5 * ln10Hi - dropLo n) * 2 ^ 149) (5 * ln10Lo))

/-- `val(m) <= 2048 * 10^-5`: the real is 0 or less (R408). -/
def levelAtFloor (n : Nat) : Bool := decide (n * 10 ^ 5 ≤ 2 ^ 160)

/-- `val(m) >= 2048`: the real is 1 or more (R408). -/
def levelAtTop (n : Nat) : Bool := decide (2 ^ 160 ≤ n)

/-- `1 + log10(n / 2^160) / 5 > a / b`, for `a <= b` and `0 < b`: both sides of `log10(n / 2^160) > -5 (b - a) / b` as
powers of 10, raised to `b`. -/
@[noinline] def levelAbove (n a b : Nat) : Bool := decide (2 ^ (160 * b) < n ^ b * 10 ^ (5 * (b - a)))

/-- `1 + log10(n / 2^160) / 5 = a / b`, likewise. -/
@[noinline] def levelAt (n a b : Nat) : Bool := decide (2 ^ (160 * b) = n ^ b * 10 ^ (5 * (b - a)))

/-- The real of `n` units rounds to a pattern above `p` (R14): it is above the point halfway between the numbers of the
patterns `p` and `p + 1`, or at it where `p` is odd. The halfway point is the sum of their units over `2^150`. -/
def levelRoundsAbove (n p : Nat) : Bool :=
  let a := units (pack false p) + units (pack false (p + 1))
  levelAbove n a (2 ^ 150) || (levelAt n a (2 ^ 150) && decide (p % 2 = 1))

/-- The first number from `r` on that `f` refuses, below `r + 2^k`, of an `f` that accepts an initial segment: found
bit by bit. -/
def firstRefused (f : Nat → Bool) : Nat → Nat → Nat
  | 0, r => r
  | k + 1, r => firstRefused f k (if f (r + 2 ^ k - 1) then r + 2 ^ k else r)

/-- The rounding of `1 + log10(n / 2^160) / 5` (R408): the first pattern that the real does not round above. A level is at
most the pattern of 1, which is below `2^30`. -/
def levelExact (n : Nat) : Word := pack false (firstRefused (levelRoundsAbove n) 30 0)

/-- The level of a positive finite magnitude of `n` units (R408). -/
def levelOfUnits (n : Nat) : Word :=
  if levelAtFloor n then fZero
  else if levelAtTop n then fOne
  else if levelLo n = levelHi n then levelLo n
  else levelExact n

/-- `level(m)` of a magnitude (R408). A magnitude is never negative (R406), so its sign is not read. -/
def level (m : Word) : Word :=
  if isNaN m || decide (units m = 0) then fZero
  else if isInf m then fOne
  else levelOfUnits (units m)

end Sys2Proof.Machine
end

