-- ==== Sys2Proof/Machine/Roms.lean ====
section
/-! DEFINITION. The ROMs of the spectrum job (44_spectrum_roms.md R450 to R456, R103), entry by entry as the spec lists
them: `WINDOW`, `TW_COS`, `TW_SIN` (binary32 patterns) and `SKEW_IDX` (bin numbers). -/

namespace Sys2Proof.Machine

open Sys2Proof

/-- `WINDOW` (R451), entries 0 to 63. -/
def windowPart00 : List Nat := [
  0x00000000, 0x369E2525, 0x379E250C, 0x3831E980, 0x389E24AB, 0x38F718D8, 0x3931E889, 0x3972268A,
  0x399E2324, 0x39C823CB, 0x39F7151F, 0x3A157B82, 0x3A31E4AC, 0x3A50C5FE, 0x3A721F63, 0x3A8AF863,
  0x3A9E1D0A, 0x3AB27D99, 0x3AC81A04, 0x3ADEF23E, 0x3AF70639, 0x3B082AF3, 0x3B15709A, 0x3B23540A,
  0x3B31D53A, 0x3B40F422, 0x3B50B0B8, 0x3B610AF2, 0x3B7202C6, 0x3B81CC15, 0x3B8AE58A, 0x3B944DBB,
  0x3B9E04A3, 0x3BA80A3C, 0x3BB25E80, 0x3BBD0169, 0x3BC7F2EF, 0x3BD3330C, 0x3BDEC1BA, 0x3BEA9EF1,
  0x3BF6CAA9, 0x3C01A26E, 0x3C0806C0, 0x3C0E9248, 0x3C154501, 0x3C1C1EE7, 0x3C231FF6, 0x3C2A482A,
  0x3C31977E, 0x3C390DED, 0x3C40AB74, 0x3C48700C, 0x3C505BB3, 0x3C586E62, 0x3C60A814, 0x3C6908C5,
  0x3C719070, 0x3C7A3F0F, 0x3C818A4E, 0x3C860889, 0x3C8A9A37, 0x3C8F3F53, 0x3C93F7DC, 0x3C98C3CD]

/-- `WINDOW` (R451), entries 64 to 127. -/
def windowPart01 : List Nat := [
  0x3C9DA325, 0x3CA295E1, 0x3CA79BFD, 0x3CACB575, 0x3CB1E248, 0x3CB72272, 0x3CBC75EF, 0x3CC1DCBD,
  0x3CC756D7, 0x3CCCE43B, 0x3CD284E5, 0x3CD838D2, 0x3CDDFFFE, 0x3CE3DA65, 0x3CE9C805, 0x3CEFC8D8,
  0x3CF5DCDD, 0x3CFC040E, 0x3D011F34, 0x3D0445F4, 0x3D077644, 0x3D0AB023, 0x3D0DF38F, 0x3D114085,
  0x3D149704, 0x3D17F70A, 0x3D1B6094, 0x3D1ED3A0, 0x3D22502D, 0x3D25D638, 0x3D2965BF, 0x3D2CFEBF,
  0x3D30A137, 0x3D344D24, 0x3D380284, 0x3D3BC155, 0x3D3F8995, 0x3D435B40, 0x3D473655, 0x3D4B1AD2,
  0x3D4F08B3, 0x3D52FFF7, 0x3D57009B, 0x3D5B0A9C, 0x3D5F1DF8, 0x3D633AAD, 0x3D6760B8, 0x3D6B9017,
  0x3D6FC8C6, 0x3D740AC4, 0x3D78560D, 0x3D7CAAA0, 0x3D80843C, 0x3D82B7CA, 0x3D84EFF9, 0x3D872CC6,
  0x3D896E32, 0x3D8BB439, 0x3D8DFEDC, 0x3D904E18, 0x3D92A1EC, 0x3D94FA57, 0x3D975756, 0x3D99B8EA]

/-- `WINDOW` (R451), entries 128 to 191. -/
def windowPart02 : List Nat := [
  0x3D9C1F10, 0x3D9E89C6, 0x3DA0F90C, 0x3DA36CE0, 0x3DA5E540, 0x3DA8622A, 0x3DAAE39E, 0x3DAD699A,
  0x3DAFF41B, 0x3DB28321, 0x3DB516AA, 0x3DB7AEB5, 0x3DBA4B3F, 0x3DBCEC47, 0x3DBF91CC, 0x3DC23BCB,
  0x3DC4EA44, 0x3DC79D34, 0x3DCA549B, 0x3DCD1075, 0x3DCFD0C2, 0x3DD29580, 0x3DD55EAD, 0x3DD82C48,
  0x3DDAFE4E, 0x3DDDD4BE, 0x3DE0AF96, 0x3DE38ED5, 0x3DE67279, 0x3DE95A7F, 0x3DEC46E6, 0x3DEF37AD,
  0x3DF22CD1, 0x3DF52651, 0x3DF8242A, 0x3DFB265B, 0x3DFE2CE3, 0x3E009BDF, 0x3E022376, 0x3E03AD36,
  0x3E05391C, 0x3E06C729, 0x3E08575B, 0x3E09E9B2, 0x3E0B7E2C, 0x3E0D14C8, 0x3E0EAD86, 0x3E104865,
  0x3E11E563, 0x3E13847F, 0x3E1525B9, 0x3E16C910, 0x3E186E81, 0x3E1A160E, 0x3E1BBFB4, 0x3E1D6B72,
  0x3E1F1947, 0x3E20C933, 0x3E227B35, 0x3E242F4A, 0x3E25E573, 0x3E279DAE, 0x3E2957FA, 0x3E2B1455]

/-- `WINDOW` (R451), entries 192 to 255. -/
def windowPart03 : List Nat := [
  0x3E2CD2C0, 0x3E2E9339, 0x3E3055BF, 0x3E321A50, 0x3E33E0EC, 0x3E35A991, 0x3E37743F, 0x3E3940F4,
  0x3E3B0FAF, 0x3E3CE070, 0x3E3EB334, 0x3E4087FB, 0x3E425EC4, 0x3E44378E, 0x3E461256, 0x3E47EF1E,
  0x3E49CDE2, 0x3E4BAEA2, 0x3E4D915D, 0x3E4F7612, 0x3E515CBF, 0x3E534563, 0x3E552FFE, 0x3E571C8E,
  0x3E590B11, 0x3E5AFB87, 0x3E5CEDEE, 0x3E5EE246, 0x3E60D88C, 0x3E62D0C0, 0x3E64CAE1, 0x3E66C6ED,
  0x3E68C4E3, 0x3E6AC4C2, 0x3E6CC688, 0x3E6ECA35, 0x3E70CFC8, 0x3E72D73D, 0x3E74E096, 0x3E76EBD0,
  0x3E78F8EA, 0x3E7B07E3, 0x3E7D18BA, 0x3E7F2B6D, 0x3E809FFD, 0x3E81AB31, 0x3E82B751, 0x3E83C45D,
  0x3E84D253, 0x3E85E134, 0x3E86F0FE, 0x3E8801B2, 0x3E89134E, 0x3E8A25D1, 0x3E8B393B, 0x3E8C4D8C,
  0x3E8D62C2, 0x3E8E78DE, 0x3E8F8FDD, 0x3E90A7C1, 0x3E91C087, 0x3E92DA30, 0x3E93F4BA, 0x3E951025]

/-- `WINDOW` (R451), entries 256 to 319. -/
def windowPart04 : List Nat := [
  0x3E962C70, 0x3E97499B, 0x3E9867A5, 0x3E99868D, 0x3E9AA653, 0x3E9BC6F5, 0x3E9CE873, 0x3E9E0ACD,
  0x3E9F2E02, 0x3EA05210, 0x3EA176F8, 0x3EA29CB9, 0x3EA3C351, 0x3EA4EAC0, 0x3EA61306, 0x3EA73C22,
  0x3EA86613, 0x3EA990D8, 0x3EAABC70, 0x3EABE8DC, 0x3EAD161A, 0x3EAE4429, 0x3EAF7308, 0x3EB0A2B8,
  0x3EB1D337, 0x3EB30484, 0x3EB436A0, 0x3EB56988, 0x3EB69D3C, 0x3EB7D1BC, 0x3EB90707, 0x3EBA3D1C,
  0x3EBB73FA, 0x3EBCABA1, 0x3EBDE40F, 0x3EBF1D45, 0x3EC05741, 0x3EC19202, 0x3EC2CD88, 0x3EC409D2,
  0x3EC546E0, 0x3EC684AF, 0x3EC7C341, 0x3EC90293, 0x3ECA42A6, 0x3ECB8378, 0x3ECCC509, 0x3ECE0757,
  0x3ECF4A63, 0x3ED08E2B, 0x3ED1D2AF, 0x3ED317ED, 0x3ED45DE5, 0x3ED5A496, 0x3ED6EC00, 0x3ED83421,
  0x3ED97CF9, 0x3EDAC687, 0x3EDC10CB, 0x3EDD5BC2, 0x3EDEA76E, 0x3EDFF3CC, 0x3EE140DC, 0x3EE28E9D]

/-- `WINDOW` (R451), entries 320 to 383. -/
def windowPart05 : List Nat := [
  0x3EE3DD0F, 0x3EE52C30, 0x3EE67C00, 0x3EE7CC7E, 0x3EE91DAA, 0x3EEA6F81, 0x3EEBC204, 0x3EED1532,
  0x3EEE690A, 0x3EEFBD8B, 0x3EF112B4, 0x3EF26885, 0x3EF3BEFC, 0x3EF51619, 0x3EF66DDB, 0x3EF7C641,
  0x3EF91F4A, 0x3EFA78F6, 0x3EFBD343, 0x3EFD2E31, 0x3EFE89C0, 0x3EFFE5ED, 0x3F00A15C, 0x3F015011,
  0x3F01FF14, 0x3F02AE64, 0x3F035E03, 0x3F040DEE, 0x3F04BE26, 0x3F056EAA, 0x3F061F79, 0x3F06D094,
  0x3F0781FA, 0x3F0833AB, 0x3F08E5A5, 0x3F0997E9, 0x3F0A4A77, 0x3F0AFD4D, 0x3F0BB06B, 0x3F0C63D2,
  0x3F0D177F, 0x3F0DCB74, 0x3F0E7FAF, 0x3F0F3431, 0x3F0FE8F8, 0x3F109E05, 0x3F115356, 0x3F1208EC,
  0x3F12BEC6, 0x3F1374E3, 0x3F142B43, 0x3F14E1E7, 0x3F1598CC, 0x3F164FF3, 0x3F17075B, 0x3F17BF05,
  0x3F1876EE, 0x3F192F18, 0x3F19E781, 0x3F1AA02A, 0x3F1B5911, 0x3F1C1236, 0x3F1CCB99, 0x3F1D853A]

/-- `WINDOW` (R451), entries 384 to 447. -/
def windowPart06 : List Nat := [
  0x3F1E3F17, 0x3F1EF931, 0x3F1FB387, 0x3F206E18, 0x3F2128E4, 0x3F21E3EB, 0x3F229F2C, 0x3F235AA7,
  0x3F24165B, 0x3F24D248, 0x3F258E6E, 0x3F264ACB, 0x3F270760, 0x3F27C42C, 0x3F28812E, 0x3F293E67,
  0x3F29FBD5, 0x3F2AB978, 0x3F2B7750, 0x3F2C355C, 0x3F2CF39C, 0x3F2DB210, 0x3F2E70B6, 0x3F2F2F8F,
  0x3F2FEE9A, 0x3F30ADD6, 0x3F316D44, 0x3F322CE1, 0x3F32ECB0, 0x3F33ACAD, 0x3F346CDA, 0x3F352D36,
  0x3F35EDC0, 0x3F36AE78, 0x3F376F5D, 0x3F38306F, 0x3F38F1AD, 0x3F39B318, 0x3F3A74AD, 0x3F3B366E,
  0x3F3BF85A, 0x3F3CBA6F, 0x3F3D7CAE, 0x3F3E3F17, 0x3F3F01A8, 0x3F3FC461, 0x3F408742, 0x3F414A4A,
  0x3F420D79, 0x3F42D0CE, 0x3F439449, 0x3F4457EA, 0x3F451BAF, 0x3F45DF99, 0x3F46A3A7, 0x3F4767D8,
  0x3F482C2C, 0x3F48F0A3, 0x3F49B53C, 0x3F4A79F7, 0x3F4B3ED3, 0x3F4C03CF, 0x3F4CC8EC, 0x3F4D8E28]

/-- `WINDOW` (R451), entries 448 to 511. -/
def windowPart07 : List Nat := [
  0x3F4E5383, 0x3F4F18FD, 0x3F4FDE96, 0x3F50A44C, 0x3F516A20, 0x3F523010, 0x3F52F61D, 0x3F53BC46,
  0x3F54828A, 0x3F5548E9, 0x3F560F62, 0x3F56D5F6, 0x3F579CA3, 0x3F586369, 0x3F592A47, 0x3F59F13E,
  0x3F5AB84C, 0x3F5B7F71, 0x3F5C46AD, 0x3F5D0DFF, 0x3F5DD566, 0x3F5E9CE3, 0x3F5F6475, 0x3F602C1A,
  0x3F60F3D4, 0x3F61BBA1, 0x3F628380, 0x3F634B72, 0x3F641375, 0x3F64DB8A, 0x3F65A3B0, 0x3F666BE6,
  0x3F67342C, 0x3F67FC81, 0x3F68C4E5, 0x3F698D58, 0x3F6A55D8, 0x3F6B1E66, 0x3F6BE701, 0x3F6CAFA9,
  0x3F6D785C, 0x3F6E411B, 0x3F6F09E5, 0x3F6FD2BA, 0x3F709B99, 0x3F716481, 0x3F722D72, 0x3F72F66C,
  0x3F73BF6E, 0x3F748878, 0x3F755189, 0x3F761AA0, 0x3F76E3BE, 0x3F77ACE1, 0x3F78760A, 0x3F793F37,
  0x3F7A0869, 0x3F7AD19E, 0x3F7B9AD7, 0x3F7C6412, 0x3F7D2D50, 0x3F7DF690, 0x3F7EBFD1, 0x3F7F8912]

/-- `WINDOW` (R451), entries 512 to 575. -/
def windowPart08 : List Nat := [
  0x3F80292A, 0x3F808DCB, 0x3F80F26C, 0x3F81570C, 0x3F81BBAB, 0x3F82204A, 0x3F8284E7, 0x3F82E982,
  0x3F834E1C, 0x3F83B2B4, 0x3F841749, 0x3F847BDD, 0x3F84E06D, 0x3F8544FA, 0x3F85A984, 0x3F860E0B,
  0x3F86728E, 0x3F86D70D, 0x3F873B88, 0x3F879FFE, 0x3F880470, 0x3F8868DD, 0x3F88CD45, 0x3F8931A7,
  0x3F899603, 0x3F89FA5A, 0x3F8A5EAB, 0x3F8AC2F5, 0x3F8B2739, 0x3F8B8B76, 0x3F8BEFAB, 0x3F8C53DA,
  0x3F8CB801, 0x3F8D1C20, 0x3F8D8037, 0x3F8DE445, 0x3F8E484B, 0x3F8EAC49, 0x3F8F103D, 0x3F8F7428,
  0x3F8FD80A, 0x3F903BE1, 0x3F909FAF, 0x3F910373, 0x3F91672C, 0x3F91CADA, 0x3F922E7E, 0x3F929216,
  0x3F92F5A3, 0x3F935924, 0x3F93BC9A, 0x3F942003, 0x3F94835F, 0x3F94E6B0, 0x3F9549F3, 0x3F95AD29,
  0x3F961052, 0x3F96736D, 0x3F96D67A, 0x3F97397A, 0x3F979C6B, 0x3F97FF4D, 0x3F986221, 0x3F98C4E6]

/-- `WINDOW` (R451), entries 576 to 639. -/
def windowPart09 : List Nat := [
  0x3F99279B, 0x3F998A41, 0x3F99ECD7, 0x3F9A4F5E, 0x3F9AB1D4, 0x3F9B1439, 0x3F9B768E, 0x3F9BD8D2,
  0x3F9C3B05, 0x3F9C9D26, 0x3F9CFF36, 0x3F9D6134, 0x3F9DC320, 0x3F9E24FA, 0x3F9E86C1, 0x3F9EE875,
  0x3F9F4A16, 0x3F9FABA4, 0x3FA00D1E, 0x3FA06E84, 0x3FA0CFD7, 0x3FA13115, 0x3FA1923F, 0x3FA1F354,
  0x3FA25455, 0x3FA2B540, 0x3FA31615, 0x3FA376D6, 0x3FA3D780, 0x3FA43814, 0x3FA49892, 0x3FA4F8F9,
  0x3FA55949, 0x3FA5B983, 0x3FA619A5, 0x3FA679B0, 0x3FA6D9A3, 0x3FA7397E, 0x3FA79941, 0x3FA7F8EB,
  0x3FA8587D, 0x3FA8B7F6, 0x3FA91756, 0x3FA9769C, 0x3FA9D5C9, 0x3FAA34DC, 0x3FAA93D5, 0x3FAAF2B4,
  0x3FAB5179, 0x3FABB022, 0x3FAC0EB1, 0x3FAC6D24, 0x3FACCB7D, 0x3FAD29B9, 0x3FAD87DA, 0x3FADE5DF,
  0x3FAE43C7, 0x3FAEA193, 0x3FAEFF42, 0x3FAF5CD4, 0x3FAFBA49, 0x3FB017A0, 0x3FB074DA, 0x3FB0D1F6]

/-- `WINDOW` (R451), entries 640 to 703. -/
def windowPart10 : List Nat := [
  0x3FB12EF4, 0x3FB18BD3, 0x3FB1E894, 0x3FB24536, 0x3FB2A1B9, 0x3FB2FE1D, 0x3FB35A62, 0x3FB3B686,
  0x3FB4128B, 0x3FB46E70, 0x3FB4CA35, 0x3FB525D8, 0x3FB5815C, 0x3FB5DCBE, 0x3FB637FF, 0x3FB6931E,
  0x3FB6EE1C, 0x3FB748F8, 0x3FB7A3B2, 0x3FB7FE49, 0x3FB858BE, 0x3FB8B310, 0x3FB90D40, 0x3FB9674C,
  0x3FB9C134, 0x3FBA1AF9, 0x3FBA749A, 0x3FBACE18, 0x3FBB2770, 0x3FBB80A5, 0x3FBBD9B5, 0x3FBC329F,
  0x3FBC8B65, 0x3FBCE405, 0x3FBD3C80, 0x3FBD94D5, 0x3FBDED04, 0x3FBE450D, 0x3FBE9CEF, 0x3FBEF4AB,
  0x3FBF4C40, 0x3FBFA3AE, 0x3FBFFAF4, 0x3FC05213, 0x3FC0A90B, 0x3FC0FFDA, 0x3FC15682, 0x3FC1AD01,
  0x3FC20358, 0x3FC25986, 0x3FC2AF8B, 0x3FC30567, 0x3FC35B19, 0x3FC3B0A2, 0x3FC40601, 0x3FC45B37,
  0x3FC4B042, 0x3FC50522, 0x3FC559D9, 0x3FC5AE64, 0x3FC602C4, 0x3FC656FA, 0x3FC6AB03, 0x3FC6FEE2]

/-- `WINDOW` (R451), entries 704 to 767. -/
def windowPart11 : List Nat := [
  0x3FC75294, 0x3FC7A61A, 0x3FC7F975, 0x3FC84CA2, 0x3FC89FA4, 0x3FC8F278, 0x3FC9451F, 0x3FC9979A,
  0x3FC9E9E6, 0x3FCA3C06, 0x3FCA8DF7, 0x3FCADFBA, 0x3FCB3150, 0x3FCB82B6, 0x3FCBD3EF, 0x3FCC24F8,
  0x3FCC75D3, 0x3FCCC67E, 0x3FCD16FA, 0x3FCD6746, 0x3FCDB763, 0x3FCE074F, 0x3FCE570C, 0x3FCEA698,
  0x3FCEF5F4, 0x3FCF451F, 0x3FCF9419, 0x3FCFE2E2, 0x3FD0317A, 0x3FD07FE0, 0x3FD0CE14, 0x3FD11C17,
  0x3FD169E8, 0x3FD1B786, 0x3FD204F2, 0x3FD2522B, 0x3FD29F32, 0x3FD2EC05, 0x3FD338A6, 0x3FD38513,
  0x3FD3D14D, 0x3FD41D52, 0x3FD46924, 0x3FD4B4C2, 0x3FD5002C, 0x3FD54B61, 0x3FD59662, 0x3FD5E12D,
  0x3FD62BC4, 0x3FD67626, 0x3FD6C052, 0x3FD70A49, 0x3FD7540A, 0x3FD79D95, 0x3FD7E6EA, 0x3FD83009,
  0x3FD878F1, 0x3FD8C1A3, 0x3FD90A1E, 0x3FD95262, 0x3FD99A6F, 0x3FD9E245, 0x3FDA29E3, 0x3FDA714A]

/-- `WINDOW` (R451), entries 768 to 831. -/
def windowPart12 : List Nat := [
  0x3FDAB878, 0x3FDAFF6F, 0x3FDB462E, 0x3FDB8CB4, 0x3FDBD302, 0x3FDC1917, 0x3FDC5EF4, 0x3FDCA497,
  0x3FDCEA01, 0x3FDD2F32, 0x3FDD742A, 0x3FDDB8E7, 0x3FDDFD6B, 0x3FDE41B5, 0x3FDE85C5, 0x3FDEC99A,
  0x3FDF0D35, 0x3FDF5096, 0x3FDF93BB, 0x3FDFD6A6, 0x3FE01955, 0x3FE05BC9, 0x3FE09E02, 0x3FE0DFFF,
  0x3FE121C0, 0x3FE16345, 0x3FE1A48E, 0x3FE1E59B, 0x3FE2266C, 0x3FE26700, 0x3FE2A757, 0x3FE2E771,
  0x3FE3274F, 0x3FE366EF, 0x3FE3A652, 0x3FE3E577, 0x3FE4245F, 0x3FE46309, 0x3FE4A174, 0x3FE4DFA2,
  0x3FE51D92, 0x3FE55B43, 0x3FE598B6, 0x3FE5D5EA, 0x3FE612DF, 0x3FE64F95, 0x3FE68C0C, 0x3FE6C844,
  0x3FE7043C, 0x3FE73FF5, 0x3FE77B6E, 0x3FE7B6A7, 0x3FE7F1A0, 0x3FE82C59, 0x3FE866D2, 0x3FE8A10A,
  0x3FE8DB02, 0x3FE914B9, 0x3FE94E2F, 0x3FE98764, 0x3FE9C058, 0x3FE9F90B, 0x3FEA317D, 0x3FEA69AD]

/-- `WINDOW` (R451), entries 832 to 895. -/
def windowPart13 : List Nat := [
  0x3FEAA19B, 0x3FEAD947, 0x3FEB10B2, 0x3FEB47DA, 0x3FEB7EC0, 0x3FEBB564, 0x3FEBEBC6, 0x3FEC21E5,
  0x3FEC57C1, 0x3FEC8D5A, 0x3FECC2B0, 0x3FECF7C3, 0x3FED2C93, 0x3FED6120, 0x3FED9569, 0x3FEDC96E,
  0x3FEDFD30, 0x3FEE30AE, 0x3FEE63E8, 0x3FEE96DD, 0x3FEEC98F, 0x3FEEFBFC, 0x3FEF2E24, 0x3FEF6008,
  0x3FEF91A7, 0x3FEFC302, 0x3FEFF417, 0x3FF024E8, 0x3FF05573, 0x3FF085B9, 0x3FF0B5B9, 0x3FF0E574,
  0x3FF114E9, 0x3FF14418, 0x3FF17302, 0x3FF1A1A5, 0x3FF1D002, 0x3FF1FE19, 0x3FF22BEA, 0x3FF25974,
  0x3FF286B8, 0x3FF2B3B5, 0x3FF2E06B, 0x3FF30CDB, 0x3FF33903, 0x3FF364E4, 0x3FF3907E, 0x3FF3BBD1,
  0x3FF3E6DC, 0x3FF411A0, 0x3FF43C1C, 0x3FF46651, 0x3FF4903D, 0x3FF4B9E2, 0x3FF4E33F, 0x3FF50C53,
  0x3FF5351F, 0x3FF55DA3, 0x3FF585DF, 0x3FF5ADD2, 0x3FF5D57C, 0x3FF5FCDE, 0x3FF623F7, 0x3FF64AC6]

/-- `WINDOW` (R451), entries 896 to 959. -/
def windowPart14 : List Nat := [
  0x3FF6714D, 0x3FF6978B, 0x3FF6BD80, 0x3FF6E32B, 0x3FF7088D, 0x3FF72DA6, 0x3FF75275, 0x3FF776FA,
  0x3FF79B35, 0x3FF7BF27, 0x3FF7E2CF, 0x3FF8062D, 0x3FF82941, 0x3FF84C0B, 0x3FF86E8A, 0x3FF890BF,
  0x3FF8B2AA, 0x3FF8D44A, 0x3FF8F5A0, 0x3FF916AB, 0x3FF9376B, 0x3FF957E1, 0x3FF9780B, 0x3FF997EB,
  0x3FF9B77F, 0x3FF9D6C9, 0x3FF9F5C7, 0x3FFA147A, 0x3FFA32E2, 0x3FFA50FE, 0x3FFA6ECF, 0x3FFA8C54,
  0x3FFAA98E, 0x3FFAC67C, 0x3FFAE31E, 0x3FFAFF74, 0x3FFB1B7E, 0x3FFB373D, 0x3FFB52AF, 0x3FFB6DD5,
  0x3FFB88AF, 0x3FFBA33D, 0x3FFBBD7F, 0x3FFBD774, 0x3FFBF11D, 0x3FFC0A79, 0x3FFC2389, 0x3FFC3C4C,
  0x3FFC54C2, 0x3FFC6CEC, 0x3FFC84C9, 0x3FFC9C59, 0x3FFCB39C, 0x3FFCCA92, 0x3FFCE13B, 0x3FFCF798,
  0x3FFD0DA6, 0x3FFD2368, 0x3FFD38DD, 0x3FFD4E04, 0x3FFD62DE, 0x3FFD776B, 0x3FFD8BAA, 0x3FFD9F9C]

/-- `WINDOW` (R451), entries 960 to 1023. -/
def windowPart15 : List Nat := [
  0x3FFDB340, 0x3FFDC696, 0x3FFDD99F, 0x3FFDEC5B, 0x3FFDFEC8, 0x3FFE10E8, 0x3FFE22BA, 0x3FFE343E,
  0x3FFE4575, 0x3FFE565D, 0x3FFE66F7, 0x3FFE7744, 0x3FFE8742, 0x3FFE96F2, 0x3FFEA654, 0x3FFEB568,
  0x3FFEC42E, 0x3FFED2A6, 0x3FFEE0CF, 0x3FFEEEAA, 0x3FFEFC37, 0x3FFF0975, 0x3FFF1665, 0x3FFF2306,
  0x3FFF2F59, 0x3FFF3B5D, 0x3FFF4713, 0x3FFF527B, 0x3FFF5D94, 0x3FFF685E, 0x3FFF72D9, 0x3FFF7D06,
  0x3FFF86E5, 0x3FFF9074, 0x3FFF99B5, 0x3FFFA2A7, 0x3FFFAB4A, 0x3FFFB39F, 0x3FFFBBA5, 0x3FFFC35C,
  0x3FFFCAC4, 0x3FFFD1DD, 0x3FFFD8A7, 0x3FFFDF22, 0x3FFFE54F, 0x3FFFEB2C, 0x3FFFF0BB, 0x3FFFF5FB,
  0x3FFFFAEB, 0x3FFFFF8D, 0x400001F0, 0x400003F2, 0x400005CC, 0x4000077F, 0x4000090A, 0x40000A6E,
  0x40000BAA, 0x40000CBF, 0x40000DAC, 0x40000E72, 0x40000F10, 0x40000F86, 0x40000FD6, 0x40000FFD]

/-- `WINDOW` (R451), entries 1024 to 1087. -/
def windowPart16 : List Nat := [
  0x40000FFD, 0x40000FD6, 0x40000F86, 0x40000F10, 0x40000E72, 0x40000DAC, 0x40000CBF, 0x40000BAA,
  0x40000A6E, 0x4000090A, 0x4000077F, 0x400005CC, 0x400003F2, 0x400001F0, 0x3FFFFF8D, 0x3FFFFAEB,
  0x3FFFF5FB, 0x3FFFF0BB, 0x3FFFEB2C, 0x3FFFE54F, 0x3FFFDF22, 0x3FFFD8A7, 0x3FFFD1DD, 0x3FFFCAC4,
  0x3FFFC35C, 0x3FFFBBA5, 0x3FFFB39F, 0x3FFFAB4A, 0x3FFFA2A7, 0x3FFF99B5, 0x3FFF9074, 0x3FFF86E5,
  0x3FFF7D06, 0x3FFF72D9, 0x3FFF685E, 0x3FFF5D94, 0x3FFF527B, 0x3FFF4713, 0x3FFF3B5D, 0x3FFF2F59,
  0x3FFF2306, 0x3FFF1665, 0x3FFF0975, 0x3FFEFC37, 0x3FFEEEAA, 0x3FFEE0CF, 0x3FFED2A6, 0x3FFEC42E,
  0x3FFEB568, 0x3FFEA654, 0x3FFE96F2, 0x3FFE8742, 0x3FFE7744, 0x3FFE66F7, 0x3FFE565D, 0x3FFE4575,
  0x3FFE343E, 0x3FFE22BA, 0x3FFE10E8, 0x3FFDFEC8, 0x3FFDEC5B, 0x3FFDD99F, 0x3FFDC696, 0x3FFDB340]

/-- `WINDOW` (R451), entries 1088 to 1151. -/
def windowPart17 : List Nat := [
  0x3FFD9F9C, 0x3FFD8BAA, 0x3FFD776B, 0x3FFD62DE, 0x3FFD4E04, 0x3FFD38DD, 0x3FFD2368, 0x3FFD0DA6,
  0x3FFCF798, 0x3FFCE13B, 0x3FFCCA92, 0x3FFCB39C, 0x3FFC9C59, 0x3FFC84C9, 0x3FFC6CEC, 0x3FFC54C2,
  0x3FFC3C4C, 0x3FFC2389, 0x3FFC0A79, 0x3FFBF11D, 0x3FFBD774, 0x3FFBBD7F, 0x3FFBA33D, 0x3FFB88AF,
  0x3FFB6DD5, 0x3FFB52AF, 0x3FFB373D, 0x3FFB1B7E, 0x3FFAFF74, 0x3FFAE31E, 0x3FFAC67C, 0x3FFAA98E,
  0x3FFA8C54, 0x3FFA6ECF, 0x3FFA50FE, 0x3FFA32E2, 0x3FFA147A, 0x3FF9F5C7, 0x3FF9D6C9, 0x3FF9B77F,
  0x3FF997EB, 0x3FF9780B, 0x3FF957E1, 0x3FF9376B, 0x3FF916AB, 0x3FF8F5A0, 0x3FF8D44A, 0x3FF8B2AA,
  0x3FF890BF, 0x3FF86E8A, 0x3FF84C0B, 0x3FF82941, 0x3FF8062D, 0x3FF7E2CF, 0x3FF7BF27, 0x3FF79B35,
  0x3FF776FA, 0x3FF75275, 0x3FF72DA6, 0x3FF7088D, 0x3FF6E32B, 0x3FF6BD80, 0x3FF6978B, 0x3FF6714D]

/-- `WINDOW` (R451), entries 1152 to 1215. -/
def windowPart18 : List Nat := [
  0x3FF64AC6, 0x3FF623F7, 0x3FF5FCDE, 0x3FF5D57C, 0x3FF5ADD2, 0x3FF585DF, 0x3FF55DA3, 0x3FF5351F,
  0x3FF50C53, 0x3FF4E33F, 0x3FF4B9E2, 0x3FF4903D, 0x3FF46651, 0x3FF43C1C, 0x3FF411A0, 0x3FF3E6DC,
  0x3FF3BBD1, 0x3FF3907E, 0x3FF364E4, 0x3FF33903, 0x3FF30CDB, 0x3FF2E06B, 0x3FF2B3B5, 0x3FF286B8,
  0x3FF25974, 0x3FF22BEA, 0x3FF1FE19, 0x3FF1D002, 0x3FF1A1A5, 0x3FF17302, 0x3FF14418, 0x3FF114E9,
  0x3FF0E574, 0x3FF0B5B9, 0x3FF085B9, 0x3FF05573, 0x3FF024E8, 0x3FEFF417, 0x3FEFC302, 0x3FEF91A7,
  0x3FEF6008, 0x3FEF2E24, 0x3FEEFBFC, 0x3FEEC98F, 0x3FEE96DD, 0x3FEE63E8, 0x3FEE30AE, 0x3FEDFD30,
  0x3FEDC96E, 0x3FED9569, 0x3FED6120, 0x3FED2C93, 0x3FECF7C3, 0x3FECC2B0, 0x3FEC8D5A, 0x3FEC57C1,
  0x3FEC21E5, 0x3FEBEBC6, 0x3FEBB564, 0x3FEB7EC0, 0x3FEB47DA, 0x3FEB10B2, 0x3FEAD947, 0x3FEAA19B]

/-- `WINDOW` (R451), entries 1216 to 1279. -/
def windowPart19 : List Nat := [
  0x3FEA69AD, 0x3FEA317D, 0x3FE9F90B, 0x3FE9C058, 0x3FE98764, 0x3FE94E2F, 0x3FE914B9, 0x3FE8DB02,
  0x3FE8A10A, 0x3FE866D2, 0x3FE82C59, 0x3FE7F1A0, 0x3FE7B6A7, 0x3FE77B6E, 0x3FE73FF5, 0x3FE7043C,
  0x3FE6C844, 0x3FE68C0C, 0x3FE64F95, 0x3FE612DF, 0x3FE5D5EA, 0x3FE598B6, 0x3FE55B43, 0x3FE51D92,
  0x3FE4DFA2, 0x3FE4A174, 0x3FE46309, 0x3FE4245F, 0x3FE3E577, 0x3FE3A652, 0x3FE366EF, 0x3FE3274F,
  0x3FE2E771, 0x3FE2A757, 0x3FE26700, 0x3FE2266C, 0x3FE1E59B, 0x3FE1A48E, 0x3FE16345, 0x3FE121C0,
  0x3FE0DFFF, 0x3FE09E02, 0x3FE05BC9, 0x3FE01955, 0x3FDFD6A6, 0x3FDF93BB, 0x3FDF5096, 0x3FDF0D35,
  0x3FDEC99A, 0x3FDE85C5, 0x3FDE41B5, 0x3FDDFD6B, 0x3FDDB8E7, 0x3FDD742A, 0x3FDD2F32, 0x3FDCEA01,
  0x3FDCA497, 0x3FDC5EF4, 0x3FDC1917, 0x3FDBD302, 0x3FDB8CB4, 0x3FDB462E, 0x3FDAFF6F, 0x3FDAB878]

/-- `WINDOW` (R451), entries 1280 to 1343. -/
def windowPart20 : List Nat := [
  0x3FDA714A, 0x3FDA29E3, 0x3FD9E245, 0x3FD99A6F, 0x3FD95262, 0x3FD90A1E, 0x3FD8C1A3, 0x3FD878F1,
  0x3FD83009, 0x3FD7E6EA, 0x3FD79D95, 0x3FD7540A, 0x3FD70A49, 0x3FD6C052, 0x3FD67626, 0x3FD62BC4,
  0x3FD5E12D, 0x3FD59662, 0x3FD54B61, 0x3FD5002C, 0x3FD4B4C2, 0x3FD46924, 0x3FD41D52, 0x3FD3D14D,
  0x3FD38513, 0x3FD338A6, 0x3FD2EC05, 0x3FD29F32, 0x3FD2522B, 0x3FD204F2, 0x3FD1B786, 0x3FD169E8,
  0x3FD11C17, 0x3FD0CE14, 0x3FD07FE0, 0x3FD0317A, 0x3FCFE2E2, 0x3FCF9419, 0x3FCF451F, 0x3FCEF5F4,
  0x3FCEA698, 0x3FCE570C, 0x3FCE074F, 0x3FCDB763, 0x3FCD6746, 0x3FCD16FA, 0x3FCCC67E, 0x3FCC75D3,
  0x3FCC24F8, 0x3FCBD3EF, 0x3FCB82B6, 0x3FCB3150, 0x3FCADFBA, 0x3FCA8DF7, 0x3FCA3C06, 0x3FC9E9E6,
  0x3FC9979A, 0x3FC9451F, 0x3FC8F278, 0x3FC89FA4, 0x3FC84CA2, 0x3FC7F975, 0x3FC7A61A, 0x3FC75294]

/-- `WINDOW` (R451), entries 1344 to 1407. -/
def windowPart21 : List Nat := [
  0x3FC6FEE2, 0x3FC6AB03, 0x3FC656FA, 0x3FC602C4, 0x3FC5AE64, 0x3FC559D9, 0x3FC50522, 0x3FC4B042,
  0x3FC45B37, 0x3FC40601, 0x3FC3B0A2, 0x3FC35B19, 0x3FC30567, 0x3FC2AF8B, 0x3FC25986, 0x3FC20358,
  0x3FC1AD01, 0x3FC15682, 0x3FC0FFDA, 0x3FC0A90B, 0x3FC05213, 0x3FBFFAF4, 0x3FBFA3AE, 0x3FBF4C40,
  0x3FBEF4AB, 0x3FBE9CEF, 0x3FBE450D, 0x3FBDED04, 0x3FBD94D5, 0x3FBD3C80, 0x3FBCE405, 0x3FBC8B65,
  0x3FBC329F, 0x3FBBD9B5, 0x3FBB80A5, 0x3FBB2770, 0x3FBACE18, 0x3FBA749A, 0x3FBA1AF9, 0x3FB9C134,
  0x3FB9674C, 0x3FB90D40, 0x3FB8B310, 0x3FB858BE, 0x3FB7FE49, 0x3FB7A3B2, 0x3FB748F8, 0x3FB6EE1C,
  0x3FB6931E, 0x3FB637FF, 0x3FB5DCBE, 0x3FB5815C, 0x3FB525D8, 0x3FB4CA35, 0x3FB46E70, 0x3FB4128B,
  0x3FB3B686, 0x3FB35A62, 0x3FB2FE1D, 0x3FB2A1B9, 0x3FB24536, 0x3FB1E894, 0x3FB18BD3, 0x3FB12EF4]

/-- `WINDOW` (R451), entries 1408 to 1471. -/
def windowPart22 : List Nat := [
  0x3FB0D1F6, 0x3FB074DA, 0x3FB017A0, 0x3FAFBA49, 0x3FAF5CD4, 0x3FAEFF42, 0x3FAEA193, 0x3FAE43C7,
  0x3FADE5DF, 0x3FAD87DA, 0x3FAD29B9, 0x3FACCB7D, 0x3FAC6D24, 0x3FAC0EB1, 0x3FABB022, 0x3FAB5179,
  0x3FAAF2B4, 0x3FAA93D5, 0x3FAA34DC, 0x3FA9D5C9, 0x3FA9769C, 0x3FA91756, 0x3FA8B7F6, 0x3FA8587D,
  0x3FA7F8EB, 0x3FA79941, 0x3FA7397E, 0x3FA6D9A3, 0x3FA679B0, 0x3FA619A5, 0x3FA5B983, 0x3FA55949,
  0x3FA4F8F9, 0x3FA49892, 0x3FA43814, 0x3FA3D780, 0x3FA376D6, 0x3FA31615, 0x3FA2B540, 0x3FA25455,
  0x3FA1F354, 0x3FA1923F, 0x3FA13115, 0x3FA0CFD7, 0x3FA06E84, 0x3FA00D1E, 0x3F9FABA4, 0x3F9F4A16,
  0x3F9EE875, 0x3F9E86C1, 0x3F9E24FA, 0x3F9DC320, 0x3F9D6134, 0x3F9CFF36, 0x3F9C9D26, 0x3F9C3B05,
  0x3F9BD8D2, 0x3F9B768E, 0x3F9B1439, 0x3F9AB1D4, 0x3F9A4F5E, 0x3F99ECD7, 0x3F998A41, 0x3F99279B]

/-- `WINDOW` (R451), entries 1472 to 1535. -/
def windowPart23 : List Nat := [
  0x3F98C4E6, 0x3F986221, 0x3F97FF4D, 0x3F979C6B, 0x3F97397A, 0x3F96D67A, 0x3F96736D, 0x3F961052,
  0x3F95AD29, 0x3F9549F3, 0x3F94E6B0, 0x3F94835F, 0x3F942003, 0x3F93BC9A, 0x3F935924, 0x3F92F5A3,
  0x3F929216, 0x3F922E7E, 0x3F91CADA, 0x3F91672C, 0x3F910373, 0x3F909FAF, 0x3F903BE1, 0x3F8FD80A,
  0x3F8F7428, 0x3F8F103D, 0x3F8EAC49, 0x3F8E484B, 0x3F8DE445, 0x3F8D8037, 0x3F8D1C20, 0x3F8CB801,
  0x3F8C53DA, 0x3F8BEFAB, 0x3F8B8B76, 0x3F8B2739, 0x3F8AC2F5, 0x3F8A5EAB, 0x3F89FA5A, 0x3F899603,
  0x3F8931A7, 0x3F88CD45, 0x3F8868DD, 0x3F880470, 0x3F879FFE, 0x3F873B88, 0x3F86D70D, 0x3F86728E,
  0x3F860E0B, 0x3F85A984, 0x3F8544FA, 0x3F84E06D, 0x3F847BDD, 0x3F841749, 0x3F83B2B4, 0x3F834E1C,
  0x3F82E982, 0x3F8284E7, 0x3F82204A, 0x3F81BBAB, 0x3F81570C, 0x3F80F26C, 0x3F808DCB, 0x3F80292A]

/-- `WINDOW` (R451), entries 1536 to 1599. -/
def windowPart24 : List Nat := [
  0x3F7F8912, 0x3F7EBFD1, 0x3F7DF690, 0x3F7D2D50, 0x3F7C6412, 0x3F7B9AD7, 0x3F7AD19E, 0x3F7A0869,
  0x3F793F37, 0x3F78760A, 0x3F77ACE1, 0x3F76E3BE, 0x3F761AA0, 0x3F755189, 0x3F748878, 0x3F73BF6E,
  0x3F72F66C, 0x3F722D72, 0x3F716481, 0x3F709B99, 0x3F6FD2BA, 0x3F6F09E5, 0x3F6E411B, 0x3F6D785C,
  0x3F6CAFA9, 0x3F6BE701, 0x3F6B1E66, 0x3F6A55D8, 0x3F698D58, 0x3F68C4E5, 0x3F67FC81, 0x3F67342C,
  0x3F666BE6, 0x3F65A3B0, 0x3F64DB8A, 0x3F641375, 0x3F634B72, 0x3F628380, 0x3F61BBA1, 0x3F60F3D4,
  0x3F602C1A, 0x3F5F6475, 0x3F5E9CE3, 0x3F5DD566, 0x3F5D0DFF, 0x3F5C46AD, 0x3F5B7F71, 0x3F5AB84C,
  0x3F59F13E, 0x3F592A47, 0x3F586369, 0x3F579CA3, 0x3F56D5F6, 0x3F560F62, 0x3F5548E9, 0x3F54828A,
  0x3F53BC46, 0x3F52F61D, 0x3F523010, 0x3F516A20, 0x3F50A44C, 0x3F4FDE96, 0x3F4F18FD, 0x3F4E5383]

/-- `WINDOW` (R451), entries 1600 to 1663. -/
def windowPart25 : List Nat := [
  0x3F4D8E28, 0x3F4CC8EC, 0x3F4C03CF, 0x3F4B3ED3, 0x3F4A79F7, 0x3F49B53C, 0x3F48F0A3, 0x3F482C2C,
  0x3F4767D8, 0x3F46A3A7, 0x3F45DF99, 0x3F451BAF, 0x3F4457EA, 0x3F439449, 0x3F42D0CE, 0x3F420D79,
  0x3F414A4A, 0x3F408742, 0x3F3FC461, 0x3F3F01A8, 0x3F3E3F17, 0x3F3D7CAE, 0x3F3CBA6F, 0x3F3BF85A,
  0x3F3B366E, 0x3F3A74AD, 0x3F39B318, 0x3F38F1AD, 0x3F38306F, 0x3F376F5D, 0x3F36AE78, 0x3F35EDC0,
  0x3F352D36, 0x3F346CDA, 0x3F33ACAD, 0x3F32ECB0, 0x3F322CE1, 0x3F316D44, 0x3F30ADD6, 0x3F2FEE9A,
  0x3F2F2F8F, 0x3F2E70B6, 0x3F2DB210, 0x3F2CF39C, 0x3F2C355C, 0x3F2B7750, 0x3F2AB978, 0x3F29FBD5,
  0x3F293E67, 0x3F28812E, 0x3F27C42C, 0x3F270760, 0x3F264ACB, 0x3F258E6E, 0x3F24D248, 0x3F24165B,
  0x3F235AA7, 0x3F229F2C, 0x3F21E3EB, 0x3F2128E4, 0x3F206E18, 0x3F1FB387, 0x3F1EF931, 0x3F1E3F17]

/-- `WINDOW` (R451), entries 1664 to 1727. -/
def windowPart26 : List Nat := [
  0x3F1D853A, 0x3F1CCB99, 0x3F1C1236, 0x3F1B5911, 0x3F1AA02A, 0x3F19E781, 0x3F192F18, 0x3F1876EE,
  0x3F17BF05, 0x3F17075B, 0x3F164FF3, 0x3F1598CC, 0x3F14E1E7, 0x3F142B43, 0x3F1374E3, 0x3F12BEC6,
  0x3F1208EC, 0x3F115356, 0x3F109E05, 0x3F0FE8F8, 0x3F0F3431, 0x3F0E7FAF, 0x3F0DCB74, 0x3F0D177F,
  0x3F0C63D2, 0x3F0BB06B, 0x3F0AFD4D, 0x3F0A4A77, 0x3F0997E9, 0x3F08E5A5, 0x3F0833AB, 0x3F0781FA,
  0x3F06D094, 0x3F061F79, 0x3F056EAA, 0x3F04BE26, 0x3F040DEE, 0x3F035E03, 0x3F02AE64, 0x3F01FF14,
  0x3F015011, 0x3F00A15C, 0x3EFFE5ED, 0x3EFE89C0, 0x3EFD2E31, 0x3EFBD343, 0x3EFA78F6, 0x3EF91F4A,
  0x3EF7C641, 0x3EF66DDB, 0x3EF51619, 0x3EF3BEFC, 0x3EF26885, 0x3EF112B4, 0x3EEFBD8B, 0x3EEE690A,
  0x3EED1532, 0x3EEBC204, 0x3EEA6F81, 0x3EE91DAA, 0x3EE7CC7E, 0x3EE67C00, 0x3EE52C30, 0x3EE3DD0F]

/-- `WINDOW` (R451), entries 1728 to 1791. -/
def windowPart27 : List Nat := [
  0x3EE28E9D, 0x3EE140DC, 0x3EDFF3CC, 0x3EDEA76E, 0x3EDD5BC2, 0x3EDC10CB, 0x3EDAC687, 0x3ED97CF9,
  0x3ED83421, 0x3ED6EC00, 0x3ED5A496, 0x3ED45DE5, 0x3ED317ED, 0x3ED1D2AF, 0x3ED08E2B, 0x3ECF4A63,
  0x3ECE0757, 0x3ECCC509, 0x3ECB8378, 0x3ECA42A6, 0x3EC90293, 0x3EC7C341, 0x3EC684AF, 0x3EC546E0,
  0x3EC409D2, 0x3EC2CD88, 0x3EC19202, 0x3EC05741, 0x3EBF1D45, 0x3EBDE40F, 0x3EBCABA1, 0x3EBB73FA,
  0x3EBA3D1C, 0x3EB90707, 0x3EB7D1BC, 0x3EB69D3C, 0x3EB56988, 0x3EB436A0, 0x3EB30484, 0x3EB1D337,
  0x3EB0A2B8, 0x3EAF7308, 0x3EAE4429, 0x3EAD161A, 0x3EABE8DC, 0x3EAABC70, 0x3EA990D8, 0x3EA86613,
  0x3EA73C22, 0x3EA61306, 0x3EA4EAC0, 0x3EA3C351, 0x3EA29CB9, 0x3EA176F8, 0x3EA05210, 0x3E9F2E02,
  0x3E9E0ACD, 0x3E9CE873, 0x3E9BC6F5, 0x3E9AA653, 0x3E99868D, 0x3E9867A5, 0x3E97499B, 0x3E962C70]

/-- `WINDOW` (R451), entries 1792 to 1855. -/
def windowPart28 : List Nat := [
  0x3E951025, 0x3E93F4BA, 0x3E92DA30, 0x3E91C087, 0x3E90A7C1, 0x3E8F8FDD, 0x3E8E78DE, 0x3E8D62C2,
  0x3E8C4D8C, 0x3E8B393B, 0x3E8A25D1, 0x3E89134E, 0x3E8801B2, 0x3E86F0FE, 0x3E85E134, 0x3E84D253,
  0x3E83C45D, 0x3E82B751, 0x3E81AB31, 0x3E809FFD, 0x3E7F2B6D, 0x3E7D18BA, 0x3E7B07E3, 0x3E78F8EA,
  0x3E76EBD0, 0x3E74E096, 0x3E72D73D, 0x3E70CFC8, 0x3E6ECA35, 0x3E6CC688, 0x3E6AC4C2, 0x3E68C4E3,
  0x3E66C6ED, 0x3E64CAE1, 0x3E62D0C0, 0x3E60D88C, 0x3E5EE246, 0x3E5CEDEE, 0x3E5AFB87, 0x3E590B11,
  0x3E571C8E, 0x3E552FFE, 0x3E534563, 0x3E515CBF, 0x3E4F7612, 0x3E4D915D, 0x3E4BAEA2, 0x3E49CDE2,
  0x3E47EF1E, 0x3E461256, 0x3E44378E, 0x3E425EC4, 0x3E4087FB, 0x3E3EB334, 0x3E3CE070, 0x3E3B0FAF,
  0x3E3940F4, 0x3E37743F, 0x3E35A991, 0x3E33E0EC, 0x3E321A50, 0x3E3055BF, 0x3E2E9339, 0x3E2CD2C0]

/-- `WINDOW` (R451), entries 1856 to 1919. -/
def windowPart29 : List Nat := [
  0x3E2B1455, 0x3E2957FA, 0x3E279DAE, 0x3E25E573, 0x3E242F4A, 0x3E227B35, 0x3E20C933, 0x3E1F1947,
  0x3E1D6B72, 0x3E1BBFB4, 0x3E1A160E, 0x3E186E81, 0x3E16C910, 0x3E1525B9, 0x3E13847F, 0x3E11E563,
  0x3E104865, 0x3E0EAD86, 0x3E0D14C8, 0x3E0B7E2C, 0x3E09E9B2, 0x3E08575B, 0x3E06C729, 0x3E05391C,
  0x3E03AD36, 0x3E022376, 0x3E009BDF, 0x3DFE2CE3, 0x3DFB265B, 0x3DF8242A, 0x3DF52651, 0x3DF22CD1,
  0x3DEF37AD, 0x3DEC46E6, 0x3DE95A7F, 0x3DE67279, 0x3DE38ED5, 0x3DE0AF96, 0x3DDDD4BE, 0x3DDAFE4E,
  0x3DD82C48, 0x3DD55EAD, 0x3DD29580, 0x3DCFD0C2, 0x3DCD1075, 0x3DCA549B, 0x3DC79D34, 0x3DC4EA44,
  0x3DC23BCB, 0x3DBF91CC, 0x3DBCEC47, 0x3DBA4B3F, 0x3DB7AEB5, 0x3DB516AA, 0x3DB28321, 0x3DAFF41B,
  0x3DAD699A, 0x3DAAE39E, 0x3DA8622A, 0x3DA5E540, 0x3DA36CE0, 0x3DA0F90C, 0x3D9E89C6, 0x3D9C1F10]

/-- `WINDOW` (R451), entries 1920 to 1983. -/
def windowPart30 : List Nat := [
  0x3D99B8EA, 0x3D975756, 0x3D94FA57, 0x3D92A1EC, 0x3D904E18, 0x3D8DFEDC, 0x3D8BB439, 0x3D896E32,
  0x3D872CC6, 0x3D84EFF9, 0x3D82B7CA, 0x3D80843C, 0x3D7CAAA0, 0x3D78560D, 0x3D740AC4, 0x3D6FC8C6,
  0x3D6B9017, 0x3D6760B8, 0x3D633AAD, 0x3D5F1DF8, 0x3D5B0A9C, 0x3D57009B, 0x3D52FFF7, 0x3D4F08B3,
  0x3D4B1AD2, 0x3D473655, 0x3D435B40, 0x3D3F8995, 0x3D3BC155, 0x3D380284, 0x3D344D24, 0x3D30A137,
  0x3D2CFEBF, 0x3D2965BF, 0x3D25D638, 0x3D22502D, 0x3D1ED3A0, 0x3D1B6094, 0x3D17F70A, 0x3D149704,
  0x3D114085, 0x3D0DF38F, 0x3D0AB023, 0x3D077644, 0x3D0445F4, 0x3D011F34, 0x3CFC040E, 0x3CF5DCDD,
  0x3CEFC8D8, 0x3CE9C805, 0x3CE3DA65, 0x3CDDFFFE, 0x3CD838D2, 0x3CD284E5, 0x3CCCE43B, 0x3CC756D7,
  0x3CC1DCBD, 0x3CBC75EF, 0x3CB72272, 0x3CB1E248, 0x3CACB575, 0x3CA79BFD, 0x3CA295E1, 0x3C9DA325]

/-- `WINDOW` (R451), entries 1984 to 2047. -/
def windowPart31 : List Nat := [
  0x3C98C3CD, 0x3C93F7DC, 0x3C8F3F53, 0x3C8A9A37, 0x3C860889, 0x3C818A4E, 0x3C7A3F0F, 0x3C719070,
  0x3C6908C5, 0x3C60A814, 0x3C586E62, 0x3C505BB3, 0x3C48700C, 0x3C40AB74, 0x3C390DED, 0x3C31977E,
  0x3C2A482A, 0x3C231FF6, 0x3C1C1EE7, 0x3C154501, 0x3C0E9248, 0x3C0806C0, 0x3C01A26E, 0x3BF6CAA9,
  0x3BEA9EF1, 0x3BDEC1BA, 0x3BD3330C, 0x3BC7F2EF, 0x3BBD0169, 0x3BB25E80, 0x3BA80A3C, 0x3B9E04A3,
  0x3B944DBB, 0x3B8AE58A, 0x3B81CC15, 0x3B7202C6, 0x3B610AF2, 0x3B50B0B8, 0x3B40F422, 0x3B31D53A,
  0x3B23540A, 0x3B15709A, 0x3B082AF3, 0x3AF70639, 0x3ADEF23E, 0x3AC81A04, 0x3AB27D99, 0x3A9E1D0A,
  0x3A8AF863, 0x3A721F63, 0x3A50C5FE, 0x3A31E4AC, 0x3A157B82, 0x39F7151F, 0x39C823CB, 0x399E2324,
  0x3972268A, 0x3931E889, 0x38F718D8, 0x389E24AB, 0x3831E980, 0x379E250C, 0x369E2525, 0x00000000]

/-- `WINDOW` (R451), as numbers. -/
def windowEntries : List Nat :=
  (windowPart00 ++ windowPart01 ++ windowPart02 ++ windowPart03 ++ windowPart04 ++ windowPart05 ++ windowPart06 ++ windowPart07)
    ++ (windowPart08 ++ windowPart09 ++ windowPart10 ++ windowPart11 ++ windowPart12 ++ windowPart13 ++ windowPart14 ++ windowPart15)
    ++ (windowPart16 ++ windowPart17 ++ windowPart18 ++ windowPart19 ++ windowPart20 ++ windowPart21 ++ windowPart22 ++ windowPart23)
    ++ (windowPart24 ++ windowPart25 ++ windowPart26 ++ windowPart27 ++ windowPart28 ++ windowPart29 ++ windowPart30 ++ windowPart31)

/-- `WINDOW` (R451). -/
def windowRom : List Word := windowEntries.map (BitVec.ofNat 32)

/-- `TW_COS` (R452), entries 0 to 63. -/
def twCosPart00 : List Nat := [
  0x3F800000, 0x3F7FFFB1, 0x3F7FFEC4, 0x3F7FFD39, 0x3F7FFB11, 0x3F7FF84A, 0x3F7FF4E6, 0x3F7FF0E3,
  0x3F7FEC43, 0x3F7FE705, 0x3F7FE129, 0x3F7FDAAF, 0x3F7FD397, 0x3F7FCBE2, 0x3F7FC38F, 0x3F7FBA9E,
  0x3F7FB10F, 0x3F7FA6E3, 0x3F7F9C18, 0x3F7F90B1, 0x3F7F84AB, 0x3F7F7808, 0x3F7F6AC7, 0x3F7F5CE9,
  0x3F7F4E6D, 0x3F7F3F54, 0x3F7F2F9D, 0x3F7F1F49, 0x3F7F0E58, 0x3F7EFCC9, 0x3F7EEA9D, 0x3F7ED7D4,
  0x3F7EC46D, 0x3F7EB069, 0x3F7E9BC9, 0x3F7E868B, 0x3F7E70B0, 0x3F7E5A38, 0x3F7E4323, 0x3F7E2B72,
  0x3F7E1324, 0x3F7DFA38, 0x3F7DE0B1, 0x3F7DC68C, 0x3F7DABCC, 0x3F7D906E, 0x3F7D7474, 0x3F7D57DE,
  0x3F7D3AAC, 0x3F7D1CDD, 0x3F7CFE73, 0x3F7CDF6C, 0x3F7CBFC9, 0x3F7C9F8A, 0x3F7C7EB0, 0x3F7C5D3A,
  0x3F7C3B28, 0x3F7C187A, 0x3F7BF531, 0x3F7BD14D, 0x3F7BACCD, 0x3F7B87B2, 0x3F7B61FC, 0x3F7B3BAB]

/-- `TW_COS` (R452), entries 64 to 127. -/
def twCosPart01 : List Nat := [
  0x3F7B14BE, 0x3F7AED37, 0x3F7AC516, 0x3F7A9C59, 0x3F7A7302, 0x3F7A4910, 0x3F7A1E84, 0x3F79F35E,
  0x3F79C79D, 0x3F799B43, 0x3F796E4E, 0x3F7940C0, 0x3F791298, 0x3F78E3D6, 0x3F78B47B, 0x3F788486,
  0x3F7853F8, 0x3F7822D1, 0x3F77F110, 0x3F77BEB7, 0x3F778BC5, 0x3F77583A, 0x3F772417, 0x3F76EF5B,
  0x3F76BA07, 0x3F76841B, 0x3F764D97, 0x3F76167A, 0x3F75DEC6, 0x3F75A67B, 0x3F756D97, 0x3F75341D,
  0x3F74FA0B, 0x3F74BF62, 0x3F748422, 0x3F74484B, 0x3F740BDD, 0x3F73CED9, 0x3F73913F, 0x3F73530E,
  0x3F731447, 0x3F72D4EB, 0x3F7294F8, 0x3F725470, 0x3F721352, 0x3F71D19F, 0x3F718F57, 0x3F714C7A,
  0x3F710908, 0x3F70C501, 0x3F708066, 0x3F703B37, 0x3F6FF573, 0x3F6FAF1B, 0x3F6F6830, 0x3F6F20B0,
  0x3F6ED89E, 0x3F6E8FF8, 0x3F6E46BE, 0x3F6DFCF2, 0x3F6DB293, 0x3F6D67A1, 0x3F6D1C1D, 0x3F6CD007]

/-- `TW_COS` (R452), entries 128 to 191. -/
def twCosPart02 : List Nat := [
  0x3F6C835E, 0x3F6C3624, 0x3F6BE858, 0x3F6B99FB, 0x3F6B4B0C, 0x3F6AFB8C, 0x3F6AAB7B, 0x3F6A5AD9,
  0x3F6A09A7, 0x3F69B7E4, 0x3F696591, 0x3F6912AE, 0x3F68BF3C, 0x3F686B39, 0x3F6816A8, 0x3F67C187,
  0x3F676BD8, 0x3F671599, 0x3F66BECC, 0x3F666771, 0x3F660F88, 0x3F65B710, 0x3F655E0B, 0x3F650479,
  0x3F64AA59, 0x3F644FAC, 0x3F63F473, 0x3F6398AC, 0x3F633C5A, 0x3F62DF7B, 0x3F628210, 0x3F62241A,
  0x3F61C598, 0x3F61668A, 0x3F6106F2, 0x3F60A6CF, 0x3F604621, 0x3F5FE4E9, 0x3F5F8327, 0x3F5F20DB,
  0x3F5EBE05, 0x3F5E5AA6, 0x3F5DF6BE, 0x3F5D924D, 0x3F5D2D53, 0x3F5CC7D1, 0x3F5C61C7, 0x3F5BFB34,
  0x3F5B941A, 0x3F5B2C79, 0x3F5AC450, 0x3F5A5BA0, 0x3F59F26A, 0x3F5988AD, 0x3F591E6A, 0x3F58B3A1,
  0x3F584853, 0x3F57DC7F, 0x3F577026, 0x3F570348, 0x3F5695E5, 0x3F5627FE, 0x3F55B993, 0x3F554AA4]

/-- `TW_COS` (R452), entries 192 to 255. -/
def twCosPart03 : List Nat := [
  0x3F54DB31, 0x3F546B3B, 0x3F53FAC3, 0x3F5389C7, 0x3F531849, 0x3F52A649, 0x3F5233C6, 0x3F51C0C2,
  0x3F514D3D, 0x3F50D937, 0x3F5064AF, 0x3F4FEFA8, 0x3F4F7A1F, 0x3F4F0417, 0x3F4E8D90, 0x3F4E1689,
  0x3F4D9F02, 0x3F4D26FD, 0x3F4CAE79, 0x3F4C3578, 0x3F4BBBF8, 0x3F4B41FA, 0x3F4AC77F, 0x3F4A4C87,
  0x3F49D112, 0x3F495521, 0x3F48D8B3, 0x3F485BCA, 0x3F47DE65, 0x3F476085, 0x3F46E22A, 0x3F466354,
  0x3F45E403, 0x3F456439, 0x3F44E3F5, 0x3F446337, 0x3F43E200, 0x3F436051, 0x3F42DE29, 0x3F425B89,
  0x3F41D870, 0x3F4154E1, 0x3F40D0DA, 0x3F404C5C, 0x3F3FC767, 0x3F3F41FC, 0x3F3EBC1B, 0x3F3E35C5,
  0x3F3DAEF9, 0x3F3D27B8, 0x3F3CA003, 0x3F3C17D9, 0x3F3B8F3B, 0x3F3B0629, 0x3F3A7CA4, 0x3F39F2AC,
  0x3F396842, 0x3F38DD65, 0x3F385216, 0x3F37C655, 0x3F373A23, 0x3F36AD7F, 0x3F36206C, 0x3F3592E7]

/-- `TW_COS` (R452), entries 256 to 319. -/
def twCosPart04 : List Nat := [
  0x3F3504F3, 0x3F34768F, 0x3F33E7BC, 0x3F33587A, 0x3F32C8C9, 0x3F3238AA, 0x3F31A81D, 0x3F311722,
  0x3F3085BB, 0x3F2FF3E6, 0x3F2F61A5, 0x3F2ECEF7, 0x3F2E3BDE, 0x3F2DA859, 0x3F2D1469, 0x3F2C800F,
  0x3F2BEB4A, 0x3F2B561B, 0x3F2AC082, 0x3F2A2A80, 0x3F299415, 0x3F28FD41, 0x3F286605, 0x3F27CE61,
  0x3F273656, 0x3F269DE3, 0x3F26050A, 0x3F256BCB, 0x3F24D225, 0x3F24381A, 0x3F239DA9, 0x3F2302D3,
  0x3F226799, 0x3F21CBFB, 0x3F212FF9, 0x3F209393, 0x3F1FF6CB, 0x3F1F599F, 0x3F1EBC12, 0x3F1E1E22,
  0x3F1D7FD1, 0x3F1CE11F, 0x3F1C420C, 0x3F1BA299, 0x3F1B02C6, 0x3F1A6293, 0x3F19C200, 0x3F19210F,
  0x3F187FC0, 0x3F17DE12, 0x3F173C07, 0x3F16999F, 0x3F15F6D9, 0x3F1553B7, 0x3F14B039, 0x3F140C5F,
  0x3F13682A, 0x3F12C39A, 0x3F121EB0, 0x3F11796B, 0x3F10D3CD, 0x3F102DD5, 0x3F0F8784, 0x3F0EE0DB]

/-- `TW_COS` (R452), entries 320 to 383. -/
def twCosPart05 : List Nat := [
  0x3F0E39DA, 0x3F0D9281, 0x3F0CEAD0, 0x3F0C42C9, 0x3F0B9A6B, 0x3F0AF1B7, 0x3F0A48AD, 0x3F099F4E,
  0x3F08F59B, 0x3F084B92, 0x3F07A136, 0x3F06F686, 0x3F064B82, 0x3F05A02C, 0x3F04F484, 0x3F044889,
  0x3F039C3D, 0x3F02EF9F, 0x3F0242B1, 0x3F019573, 0x3F00E7E4, 0x3F003A06, 0x3EFF17B2, 0x3EFDBABB,
  0x3EFC5D27, 0x3EFAFEF7, 0x3EF9A02D, 0x3EF840C8, 0x3EF6E0CB, 0x3EF58035, 0x3EF41F07, 0x3EF2BD43,
  0x3EF15AEA, 0x3EEFF7FB, 0x3EEE9479, 0x3EED3063, 0x3EEBCBBB, 0x3EEA6681, 0x3EE900B7, 0x3EE79A5D,
  0x3EE63375, 0x3EE4CBFE, 0x3EE363FA, 0x3EE1FB6A, 0x3EE0924F, 0x3EDF28A9, 0x3EDDBE79, 0x3EDC53C1,
  0x3EDAE880, 0x3ED97CB9, 0x3ED8106B, 0x3ED6A399, 0x3ED53641, 0x3ED3C867, 0x3ED25A09, 0x3ED0EB2A,
  0x3ECF7BCA, 0x3ECE0BEA, 0x3ECC9B8B, 0x3ECB2AAE, 0x3EC9B953, 0x3EC8477C, 0x3EC6D529, 0x3EC5625C]

/-- `TW_COS` (R452), entries 384 to 447. -/
def twCosPart06 : List Nat := [
  0x3EC3EF15, 0x3EC27B55, 0x3EC1071E, 0x3EBF926F, 0x3EBE1D4A, 0x3EBCA7AF, 0x3EBB31A0, 0x3EB9BB1E,
  0x3EB8442A, 0x3EB6CCC3, 0x3EB554EC, 0x3EB3DCA5, 0x3EB263EF, 0x3EB0EACB, 0x3EAF713A, 0x3EADF73C,
  0x3EAC7CD4, 0x3EAB0201, 0x3EA986C4, 0x3EA80B1F, 0x3EA68F12, 0x3EA5129F, 0x3EA395C5, 0x3EA21887,
  0x3EA09AE5, 0x3E9F1CDF, 0x3E9D9E78, 0x3E9C1FAF, 0x3E9AA086, 0x3E9920FE, 0x3E97A117, 0x3E9620D2,
  0x3E94A031, 0x3E931F35, 0x3E919DDD, 0x3E901C2C, 0x3E8E9A22, 0x3E8D17C0, 0x3E8B9507, 0x3E8A11F7,
  0x3E888E93, 0x3E870ADA, 0x3E8586CE, 0x3E840270, 0x3E827DC0, 0x3E80F8C0, 0x3E7EE6E1, 0x3E7BDBA4,
  0x3E78CFCC, 0x3E75C35A, 0x3E72B651, 0x3E6FA8B2, 0x3E6C9A7F, 0x3E698BBA, 0x3E667C66, 0x3E636C83,
  0x3E605C13, 0x3E5D4B1A, 0x3E5A3997, 0x3E57278F, 0x3E541501, 0x3E5101F1, 0x3E4DEE60, 0x3E4ADA4F]

/-- `TW_COS` (R452), entries 448 to 511. -/
def twCosPart07 : List Nat := [
  0x3E47C5C2, 0x3E44B0B9, 0x3E419B37, 0x3E3E853E, 0x3E3B6ECF, 0x3E3857EC, 0x3E354098, 0x3E3228D4,
  0x3E2F10A2, 0x3E2BF804, 0x3E28DEFC, 0x3E25C58C, 0x3E22ABB6, 0x3E1F917B, 0x3E1C76DE, 0x3E195BE0,
  0x3E164083, 0x3E1324CA, 0x3E1008B7, 0x3E0CEC4A, 0x3E09CF86, 0x3E06B26E, 0x3E039502, 0x3E007745,
  0x3DFAB273, 0x3DF475C0, 0x3DEE3876, 0x3DE7FA9A, 0x3DE1BC2E, 0x3DDB7D37, 0x3DD53DB9, 0x3DCEFDB7,
  0x3DC8BD36, 0x3DC27C39, 0x3DBC3AC3, 0x3DB5F8DA, 0x3DAFB680, 0x3DA973BA, 0x3DA3308C, 0x3D9CECF9,
  0x3D96A905, 0x3D9064B4, 0x3D8A200A, 0x3D83DB0A, 0x3D7B2B74, 0x3D6EA038, 0x3D621469, 0x3D55880E,
  0x3D48FB30, 0x3D3C6DD5, 0x3D2FE007, 0x3D2351CB, 0x3D16C32C, 0x3D0A342F, 0x3CFB49BA, 0x3CE22A7A,
  0x3CC90AB0, 0x3CAFEA69, 0x3C96C9B6, 0x3C7B514B, 0x3C490E90, 0x3C16CB58, 0x3BC90F88, 0x3B490FC6]

/-- `TW_COS` (R452), entries 512 to 575. -/
def twCosPart08 : List Nat := [
  0x00000000, 0xBB490FC6, 0xBBC90F88, 0xBC16CB58, 0xBC490E90, 0xBC7B514B, 0xBC96C9B6, 0xBCAFEA69,
  0xBCC90AB0, 0xBCE22A7A, 0xBCFB49BA, 0xBD0A342F, 0xBD16C32C, 0xBD2351CB, 0xBD2FE007, 0xBD3C6DD5,
  0xBD48FB30, 0xBD55880E, 0xBD621469, 0xBD6EA038, 0xBD7B2B74, 0xBD83DB0A, 0xBD8A200A, 0xBD9064B4,
  0xBD96A905, 0xBD9CECF9, 0xBDA3308C, 0xBDA973BA, 0xBDAFB680, 0xBDB5F8DA, 0xBDBC3AC3, 0xBDC27C39,
  0xBDC8BD36, 0xBDCEFDB7, 0xBDD53DB9, 0xBDDB7D37, 0xBDE1BC2E, 0xBDE7FA9A, 0xBDEE3876, 0xBDF475C0,
  0xBDFAB273, 0xBE007745, 0xBE039502, 0xBE06B26E, 0xBE09CF86, 0xBE0CEC4A, 0xBE1008B7, 0xBE1324CA,
  0xBE164083, 0xBE195BE0, 0xBE1C76DE, 0xBE1F917B, 0xBE22ABB6, 0xBE25C58C, 0xBE28DEFC, 0xBE2BF804,
  0xBE2F10A2, 0xBE3228D4, 0xBE354098, 0xBE3857EC, 0xBE3B6ECF, 0xBE3E853E, 0xBE419B37, 0xBE44B0B9]

/-- `TW_COS` (R452), entries 576 to 639. -/
def twCosPart09 : List Nat := [
  0xBE47C5C2, 0xBE4ADA4F, 0xBE4DEE60, 0xBE5101F1, 0xBE541501, 0xBE57278F, 0xBE5A3997, 0xBE5D4B1A,
  0xBE605C13, 0xBE636C83, 0xBE667C66, 0xBE698BBA, 0xBE6C9A7F, 0xBE6FA8B2, 0xBE72B651, 0xBE75C35A,
  0xBE78CFCC, 0xBE7BDBA4, 0xBE7EE6E1, 0xBE80F8C0, 0xBE827DC0, 0xBE840270, 0xBE8586CE, 0xBE870ADA,
  0xBE888E93, 0xBE8A11F7, 0xBE8B9507, 0xBE8D17C0, 0xBE8E9A22, 0xBE901C2C, 0xBE919DDD, 0xBE931F35,
  0xBE94A031, 0xBE9620D2, 0xBE97A117, 0xBE9920FE, 0xBE9AA086, 0xBE9C1FAF, 0xBE9D9E78, 0xBE9F1CDF,
  0xBEA09AE5, 0xBEA21887, 0xBEA395C5, 0xBEA5129F, 0xBEA68F12, 0xBEA80B1F, 0xBEA986C4, 0xBEAB0201,
  0xBEAC7CD4, 0xBEADF73C, 0xBEAF713A, 0xBEB0EACB, 0xBEB263EF, 0xBEB3DCA5, 0xBEB554EC, 0xBEB6CCC3,
  0xBEB8442A, 0xBEB9BB1E, 0xBEBB31A0, 0xBEBCA7AF, 0xBEBE1D4A, 0xBEBF926F, 0xBEC1071E, 0xBEC27B55]

/-- `TW_COS` (R452), entries 640 to 703. -/
def twCosPart10 : List Nat := [
  0xBEC3EF15, 0xBEC5625C, 0xBEC6D529, 0xBEC8477C, 0xBEC9B953, 0xBECB2AAE, 0xBECC9B8B, 0xBECE0BEA,
  0xBECF7BCA, 0xBED0EB2A, 0xBED25A09, 0xBED3C867, 0xBED53641, 0xBED6A399, 0xBED8106B, 0xBED97CB9,
  0xBEDAE880, 0xBEDC53C1, 0xBEDDBE79, 0xBEDF28A9, 0xBEE0924F, 0xBEE1FB6A, 0xBEE363FA, 0xBEE4CBFE,
  0xBEE63375, 0xBEE79A5D, 0xBEE900B7, 0xBEEA6681, 0xBEEBCBBB, 0xBEED3063, 0xBEEE9479, 0xBEEFF7FB,
  0xBEF15AEA, 0xBEF2BD43, 0xBEF41F07, 0xBEF58035, 0xBEF6E0CB, 0xBEF840C8, 0xBEF9A02D, 0xBEFAFEF7,
  0xBEFC5D27, 0xBEFDBABB, 0xBEFF17B2, 0xBF003A06, 0xBF00E7E4, 0xBF019573, 0xBF0242B1, 0xBF02EF9F,
  0xBF039C3D, 0xBF044889, 0xBF04F484, 0xBF05A02C, 0xBF064B82, 0xBF06F686, 0xBF07A136, 0xBF084B92,
  0xBF08F59B, 0xBF099F4E, 0xBF0A48AD, 0xBF0AF1B7, 0xBF0B9A6B, 0xBF0C42C9, 0xBF0CEAD0, 0xBF0D9281]

/-- `TW_COS` (R452), entries 704 to 767. -/
def twCosPart11 : List Nat := [
  0xBF0E39DA, 0xBF0EE0DB, 0xBF0F8784, 0xBF102DD5, 0xBF10D3CD, 0xBF11796B, 0xBF121EB0, 0xBF12C39A,
  0xBF13682A, 0xBF140C5F, 0xBF14B039, 0xBF1553B7, 0xBF15F6D9, 0xBF16999F, 0xBF173C07, 0xBF17DE12,
  0xBF187FC0, 0xBF19210F, 0xBF19C200, 0xBF1A6293, 0xBF1B02C6, 0xBF1BA299, 0xBF1C420C, 0xBF1CE11F,
  0xBF1D7FD1, 0xBF1E1E22, 0xBF1EBC12, 0xBF1F599F, 0xBF1FF6CB, 0xBF209393, 0xBF212FF9, 0xBF21CBFB,
  0xBF226799, 0xBF2302D3, 0xBF239DA9, 0xBF24381A, 0xBF24D225, 0xBF256BCB, 0xBF26050A, 0xBF269DE3,
  0xBF273656, 0xBF27CE61, 0xBF286605, 0xBF28FD41, 0xBF299415, 0xBF2A2A80, 0xBF2AC082, 0xBF2B561B,
  0xBF2BEB4A, 0xBF2C800F, 0xBF2D1469, 0xBF2DA859, 0xBF2E3BDE, 0xBF2ECEF7, 0xBF2F61A5, 0xBF2FF3E6,
  0xBF3085BB, 0xBF311722, 0xBF31A81D, 0xBF3238AA, 0xBF32C8C9, 0xBF33587A, 0xBF33E7BC, 0xBF34768F]

/-- `TW_COS` (R452), entries 768 to 831. -/
def twCosPart12 : List Nat := [
  0xBF3504F3, 0xBF3592E7, 0xBF36206C, 0xBF36AD7F, 0xBF373A23, 0xBF37C655, 0xBF385216, 0xBF38DD65,
  0xBF396842, 0xBF39F2AC, 0xBF3A7CA4, 0xBF3B0629, 0xBF3B8F3B, 0xBF3C17D9, 0xBF3CA003, 0xBF3D27B8,
  0xBF3DAEF9, 0xBF3E35C5, 0xBF3EBC1B, 0xBF3F41FC, 0xBF3FC767, 0xBF404C5C, 0xBF40D0DA, 0xBF4154E1,
  0xBF41D870, 0xBF425B89, 0xBF42DE29, 0xBF436051, 0xBF43E200, 0xBF446337, 0xBF44E3F5, 0xBF456439,
  0xBF45E403, 0xBF466354, 0xBF46E22A, 0xBF476085, 0xBF47DE65, 0xBF485BCA, 0xBF48D8B3, 0xBF495521,
  0xBF49D112, 0xBF4A4C87, 0xBF4AC77F, 0xBF4B41FA, 0xBF4BBBF8, 0xBF4C3578, 0xBF4CAE79, 0xBF4D26FD,
  0xBF4D9F02, 0xBF4E1689, 0xBF4E8D90, 0xBF4F0417, 0xBF4F7A1F, 0xBF4FEFA8, 0xBF5064AF, 0xBF50D937,
  0xBF514D3D, 0xBF51C0C2, 0xBF5233C6, 0xBF52A649, 0xBF531849, 0xBF5389C7, 0xBF53FAC3, 0xBF546B3B]

/-- `TW_COS` (R452), entries 832 to 895. -/
def twCosPart13 : List Nat := [
  0xBF54DB31, 0xBF554AA4, 0xBF55B993, 0xBF5627FE, 0xBF5695E5, 0xBF570348, 0xBF577026, 0xBF57DC7F,
  0xBF584853, 0xBF58B3A1, 0xBF591E6A, 0xBF5988AD, 0xBF59F26A, 0xBF5A5BA0, 0xBF5AC450, 0xBF5B2C79,
  0xBF5B941A, 0xBF5BFB34, 0xBF5C61C7, 0xBF5CC7D1, 0xBF5D2D53, 0xBF5D924D, 0xBF5DF6BE, 0xBF5E5AA6,
  0xBF5EBE05, 0xBF5F20DB, 0xBF5F8327, 0xBF5FE4E9, 0xBF604621, 0xBF60A6CF, 0xBF6106F2, 0xBF61668A,
  0xBF61C598, 0xBF62241A, 0xBF628210, 0xBF62DF7B, 0xBF633C5A, 0xBF6398AC, 0xBF63F473, 0xBF644FAC,
  0xBF64AA59, 0xBF650479, 0xBF655E0B, 0xBF65B710, 0xBF660F88, 0xBF666771, 0xBF66BECC, 0xBF671599,
  0xBF676BD8, 0xBF67C187, 0xBF6816A8, 0xBF686B39, 0xBF68BF3C, 0xBF6912AE, 0xBF696591, 0xBF69B7E4,
  0xBF6A09A7, 0xBF6A5AD9, 0xBF6AAB7B, 0xBF6AFB8C, 0xBF6B4B0C, 0xBF6B99FB, 0xBF6BE858, 0xBF6C3624]

/-- `TW_COS` (R452), entries 896 to 959. -/
def twCosPart14 : List Nat := [
  0xBF6C835E, 0xBF6CD007, 0xBF6D1C1D, 0xBF6D67A1, 0xBF6DB293, 0xBF6DFCF2, 0xBF6E46BE, 0xBF6E8FF8,
  0xBF6ED89E, 0xBF6F20B0, 0xBF6F6830, 0xBF6FAF1B, 0xBF6FF573, 0xBF703B37, 0xBF708066, 0xBF70C501,
  0xBF710908, 0xBF714C7A, 0xBF718F57, 0xBF71D19F, 0xBF721352, 0xBF725470, 0xBF7294F8, 0xBF72D4EB,
  0xBF731447, 0xBF73530E, 0xBF73913F, 0xBF73CED9, 0xBF740BDD, 0xBF74484B, 0xBF748422, 0xBF74BF62,
  0xBF74FA0B, 0xBF75341D, 0xBF756D97, 0xBF75A67B, 0xBF75DEC6, 0xBF76167A, 0xBF764D97, 0xBF76841B,
  0xBF76BA07, 0xBF76EF5B, 0xBF772417, 0xBF77583A, 0xBF778BC5, 0xBF77BEB7, 0xBF77F110, 0xBF7822D1,
  0xBF7853F8, 0xBF788486, 0xBF78B47B, 0xBF78E3D6, 0xBF791298, 0xBF7940C0, 0xBF796E4E, 0xBF799B43,
  0xBF79C79D, 0xBF79F35E, 0xBF7A1E84, 0xBF7A4910, 0xBF7A7302, 0xBF7A9C59, 0xBF7AC516, 0xBF7AED37]

/-- `TW_COS` (R452), entries 960 to 1023. -/
def twCosPart15 : List Nat := [
  0xBF7B14BE, 0xBF7B3BAB, 0xBF7B61FC, 0xBF7B87B2, 0xBF7BACCD, 0xBF7BD14D, 0xBF7BF531, 0xBF7C187A,
  0xBF7C3B28, 0xBF7C5D3A, 0xBF7C7EB0, 0xBF7C9F8A, 0xBF7CBFC9, 0xBF7CDF6C, 0xBF7CFE73, 0xBF7D1CDD,
  0xBF7D3AAC, 0xBF7D57DE, 0xBF7D7474, 0xBF7D906E, 0xBF7DABCC, 0xBF7DC68C, 0xBF7DE0B1, 0xBF7DFA38,
  0xBF7E1324, 0xBF7E2B72, 0xBF7E4323, 0xBF7E5A38, 0xBF7E70B0, 0xBF7E868B, 0xBF7E9BC9, 0xBF7EB069,
  0xBF7EC46D, 0xBF7ED7D4, 0xBF7EEA9D, 0xBF7EFCC9, 0xBF7F0E58, 0xBF7F1F49, 0xBF7F2F9D, 0xBF7F3F54,
  0xBF7F4E6D, 0xBF7F5CE9, 0xBF7F6AC7, 0xBF7F7808, 0xBF7F84AB, 0xBF7F90B1, 0xBF7F9C18, 0xBF7FA6E3,
  0xBF7FB10F, 0xBF7FBA9E, 0xBF7FC38F, 0xBF7FCBE2, 0xBF7FD397, 0xBF7FDAAF, 0xBF7FE129, 0xBF7FE705,
  0xBF7FEC43, 0xBF7FF0E3, 0xBF7FF4E6, 0xBF7FF84A, 0xBF7FFB11, 0xBF7FFD39, 0xBF7FFEC4, 0xBF7FFFB1]

/-- `TW_COS` (R452), as numbers. -/
def twCosEntries : List Nat :=
  (twCosPart00 ++ twCosPart01 ++ twCosPart02 ++ twCosPart03 ++ twCosPart04 ++ twCosPart05 ++ twCosPart06 ++ twCosPart07)
    ++ (twCosPart08 ++ twCosPart09 ++ twCosPart10 ++ twCosPart11 ++ twCosPart12 ++ twCosPart13 ++ twCosPart14 ++ twCosPart15)

/-- `TW_COS` (R452). -/
def twCosRom : List Word := twCosEntries.map (BitVec.ofNat 32)

/-- `TW_SIN` (R453), entries 0 to 63. -/
def twSinPart00 : List Nat := [
  0x00000000, 0x3B490FC6, 0x3BC90F88, 0x3C16CB58, 0x3C490E90, 0x3C7B514B, 0x3C96C9B6, 0x3CAFEA69,
  0x3CC90AB0, 0x3CE22A7A, 0x3CFB49BA, 0x3D0A342F, 0x3D16C32C, 0x3D2351CB, 0x3D2FE007, 0x3D3C6DD5,
  0x3D48FB30, 0x3D55880E, 0x3D621469, 0x3D6EA038, 0x3D7B2B74, 0x3D83DB0A, 0x3D8A200A, 0x3D9064B4,
  0x3D96A905, 0x3D9CECF9, 0x3DA3308C, 0x3DA973BA, 0x3DAFB680, 0x3DB5F8DA, 0x3DBC3AC3, 0x3DC27C39,
  0x3DC8BD36, 0x3DCEFDB7, 0x3DD53DB9, 0x3DDB7D37, 0x3DE1BC2E, 0x3DE7FA9A, 0x3DEE3876, 0x3DF475C0,
  0x3DFAB273, 0x3E007745, 0x3E039502, 0x3E06B26E, 0x3E09CF86, 0x3E0CEC4A, 0x3E1008B7, 0x3E1324CA,
  0x3E164083, 0x3E195BE0, 0x3E1C76DE, 0x3E1F917B, 0x3E22ABB6, 0x3E25C58C, 0x3E28DEFC, 0x3E2BF804,
  0x3E2F10A2, 0x3E3228D4, 0x3E354098, 0x3E3857EC, 0x3E3B6ECF, 0x3E3E853E, 0x3E419B37, 0x3E44B0B9]

/-- `TW_SIN` (R453), entries 64 to 127. -/
def twSinPart01 : List Nat := [
  0x3E47C5C2, 0x3E4ADA4F, 0x3E4DEE60, 0x3E5101F1, 0x3E541501, 0x3E57278F, 0x3E5A3997, 0x3E5D4B1A,
  0x3E605C13, 0x3E636C83, 0x3E667C66, 0x3E698BBA, 0x3E6C9A7F, 0x3E6FA8B2, 0x3E72B651, 0x3E75C35A,
  0x3E78CFCC, 0x3E7BDBA4, 0x3E7EE6E1, 0x3E80F8C0, 0x3E827DC0, 0x3E840270, 0x3E8586CE, 0x3E870ADA,
  0x3E888E93, 0x3E8A11F7, 0x3E8B9507, 0x3E8D17C0, 0x3E8E9A22, 0x3E901C2C, 0x3E919DDD, 0x3E931F35,
  0x3E94A031, 0x3E9620D2, 0x3E97A117, 0x3E9920FE, 0x3E9AA086, 0x3E9C1FAF, 0x3E9D9E78, 0x3E9F1CDF,
  0x3EA09AE5, 0x3EA21887, 0x3EA395C5, 0x3EA5129F, 0x3EA68F12, 0x3EA80B1F, 0x3EA986C4, 0x3EAB0201,
  0x3EAC7CD4, 0x3EADF73C, 0x3EAF713A, 0x3EB0EACB, 0x3EB263EF, 0x3EB3DCA5, 0x3EB554EC, 0x3EB6CCC3,
  0x3EB8442A, 0x3EB9BB1E, 0x3EBB31A0, 0x3EBCA7AF, 0x3EBE1D4A, 0x3EBF926F, 0x3EC1071E, 0x3EC27B55]

/-- `TW_SIN` (R453), entries 128 to 191. -/
def twSinPart02 : List Nat := [
  0x3EC3EF15, 0x3EC5625C, 0x3EC6D529, 0x3EC8477C, 0x3EC9B953, 0x3ECB2AAE, 0x3ECC9B8B, 0x3ECE0BEA,
  0x3ECF7BCA, 0x3ED0EB2A, 0x3ED25A09, 0x3ED3C867, 0x3ED53641, 0x3ED6A399, 0x3ED8106B, 0x3ED97CB9,
  0x3EDAE880, 0x3EDC53C1, 0x3EDDBE79, 0x3EDF28A9, 0x3EE0924F, 0x3EE1FB6A, 0x3EE363FA, 0x3EE4CBFE,
  0x3EE63375, 0x3EE79A5D, 0x3EE900B7, 0x3EEA6681, 0x3EEBCBBB, 0x3EED3063, 0x3EEE9479, 0x3EEFF7FB,
  0x3EF15AEA, 0x3EF2BD43, 0x3EF41F07, 0x3EF58035, 0x3EF6E0CB, 0x3EF840C8, 0x3EF9A02D, 0x3EFAFEF7,
  0x3EFC5D27, 0x3EFDBABB, 0x3EFF17B2, 0x3F003A06, 0x3F00E7E4, 0x3F019573, 0x3F0242B1, 0x3F02EF9F,
  0x3F039C3D, 0x3F044889, 0x3F04F484, 0x3F05A02C, 0x3F064B82, 0x3F06F686, 0x3F07A136, 0x3F084B92,
  0x3F08F59B, 0x3F099F4E, 0x3F0A48AD, 0x3F0AF1B7, 0x3F0B9A6B, 0x3F0C42C9, 0x3F0CEAD0, 0x3F0D9281]

/-- `TW_SIN` (R453), entries 192 to 255. -/
def twSinPart03 : List Nat := [
  0x3F0E39DA, 0x3F0EE0DB, 0x3F0F8784, 0x3F102DD5, 0x3F10D3CD, 0x3F11796B, 0x3F121EB0, 0x3F12C39A,
  0x3F13682A, 0x3F140C5F, 0x3F14B039, 0x3F1553B7, 0x3F15F6D9, 0x3F16999F, 0x3F173C07, 0x3F17DE12,
  0x3F187FC0, 0x3F19210F, 0x3F19C200, 0x3F1A6293, 0x3F1B02C6, 0x3F1BA299, 0x3F1C420C, 0x3F1CE11F,
  0x3F1D7FD1, 0x3F1E1E22, 0x3F1EBC12, 0x3F1F599F, 0x3F1FF6CB, 0x3F209393, 0x3F212FF9, 0x3F21CBFB,
  0x3F226799, 0x3F2302D3, 0x3F239DA9, 0x3F24381A, 0x3F24D225, 0x3F256BCB, 0x3F26050A, 0x3F269DE3,
  0x3F273656, 0x3F27CE61, 0x3F286605, 0x3F28FD41, 0x3F299415, 0x3F2A2A80, 0x3F2AC082, 0x3F2B561B,
  0x3F2BEB4A, 0x3F2C800F, 0x3F2D1469, 0x3F2DA859, 0x3F2E3BDE, 0x3F2ECEF7, 0x3F2F61A5, 0x3F2FF3E6,
  0x3F3085BB, 0x3F311722, 0x3F31A81D, 0x3F3238AA, 0x3F32C8C9, 0x3F33587A, 0x3F33E7BC, 0x3F34768F]

/-- `TW_SIN` (R453), entries 256 to 319. -/
def twSinPart04 : List Nat := [
  0x3F3504F3, 0x3F3592E7, 0x3F36206C, 0x3F36AD7F, 0x3F373A23, 0x3F37C655, 0x3F385216, 0x3F38DD65,
  0x3F396842, 0x3F39F2AC, 0x3F3A7CA4, 0x3F3B0629, 0x3F3B8F3B, 0x3F3C17D9, 0x3F3CA003, 0x3F3D27B8,
  0x3F3DAEF9, 0x3F3E35C5, 0x3F3EBC1B, 0x3F3F41FC, 0x3F3FC767, 0x3F404C5C, 0x3F40D0DA, 0x3F4154E1,
  0x3F41D870, 0x3F425B89, 0x3F42DE29, 0x3F436051, 0x3F43E200, 0x3F446337, 0x3F44E3F5, 0x3F456439,
  0x3F45E403, 0x3F466354, 0x3F46E22A, 0x3F476085, 0x3F47DE65, 0x3F485BCA, 0x3F48D8B3, 0x3F495521,
  0x3F49D112, 0x3F4A4C87, 0x3F4AC77F, 0x3F4B41FA, 0x3F4BBBF8, 0x3F4C3578, 0x3F4CAE79, 0x3F4D26FD,
  0x3F4D9F02, 0x3F4E1689, 0x3F4E8D90, 0x3F4F0417, 0x3F4F7A1F, 0x3F4FEFA8, 0x3F5064AF, 0x3F50D937,
  0x3F514D3D, 0x3F51C0C2, 0x3F5233C6, 0x3F52A649, 0x3F531849, 0x3F5389C7, 0x3F53FAC3, 0x3F546B3B]

/-- `TW_SIN` (R453), entries 320 to 383. -/
def twSinPart05 : List Nat := [
  0x3F54DB31, 0x3F554AA4, 0x3F55B993, 0x3F5627FE, 0x3F5695E5, 0x3F570348, 0x3F577026, 0x3F57DC7F,
  0x3F584853, 0x3F58B3A1, 0x3F591E6A, 0x3F5988AD, 0x3F59F26A, 0x3F5A5BA0, 0x3F5AC450, 0x3F5B2C79,
  0x3F5B941A, 0x3F5BFB34, 0x3F5C61C7, 0x3F5CC7D1, 0x3F5D2D53, 0x3F5D924D, 0x3F5DF6BE, 0x3F5E5AA6,
  0x3F5EBE05, 0x3F5F20DB, 0x3F5F8327, 0x3F5FE4E9, 0x3F604621, 0x3F60A6CF, 0x3F6106F2, 0x3F61668A,
  0x3F61C598, 0x3F62241A, 0x3F628210, 0x3F62DF7B, 0x3F633C5A, 0x3F6398AC, 0x3F63F473, 0x3F644FAC,
  0x3F64AA59, 0x3F650479, 0x3F655E0B, 0x3F65B710, 0x3F660F88, 0x3F666771, 0x3F66BECC, 0x3F671599,
  0x3F676BD8, 0x3F67C187, 0x3F6816A8, 0x3F686B39, 0x3F68BF3C, 0x3F6912AE, 0x3F696591, 0x3F69B7E4,
  0x3F6A09A7, 0x3F6A5AD9, 0x3F6AAB7B, 0x3F6AFB8C, 0x3F6B4B0C, 0x3F6B99FB, 0x3F6BE858, 0x3F6C3624]

/-- `TW_SIN` (R453), entries 384 to 447. -/
def twSinPart06 : List Nat := [
  0x3F6C835E, 0x3F6CD007, 0x3F6D1C1D, 0x3F6D67A1, 0x3F6DB293, 0x3F6DFCF2, 0x3F6E46BE, 0x3F6E8FF8,
  0x3F6ED89E, 0x3F6F20B0, 0x3F6F6830, 0x3F6FAF1B, 0x3F6FF573, 0x3F703B37, 0x3F708066, 0x3F70C501,
  0x3F710908, 0x3F714C7A, 0x3F718F57, 0x3F71D19F, 0x3F721352, 0x3F725470, 0x3F7294F8, 0x3F72D4EB,
  0x3F731447, 0x3F73530E, 0x3F73913F, 0x3F73CED9, 0x3F740BDD, 0x3F74484B, 0x3F748422, 0x3F74BF62,
  0x3F74FA0B, 0x3F75341D, 0x3F756D97, 0x3F75A67B, 0x3F75DEC6, 0x3F76167A, 0x3F764D97, 0x3F76841B,
  0x3F76BA07, 0x3F76EF5B, 0x3F772417, 0x3F77583A, 0x3F778BC5, 0x3F77BEB7, 0x3F77F110, 0x3F7822D1,
  0x3F7853F8, 0x3F788486, 0x3F78B47B, 0x3F78E3D6, 0x3F791298, 0x3F7940C0, 0x3F796E4E, 0x3F799B43,
  0x3F79C79D, 0x3F79F35E, 0x3F7A1E84, 0x3F7A4910, 0x3F7A7302, 0x3F7A9C59, 0x3F7AC516, 0x3F7AED37]

/-- `TW_SIN` (R453), entries 448 to 511. -/
def twSinPart07 : List Nat := [
  0x3F7B14BE, 0x3F7B3BAB, 0x3F7B61FC, 0x3F7B87B2, 0x3F7BACCD, 0x3F7BD14D, 0x3F7BF531, 0x3F7C187A,
  0x3F7C3B28, 0x3F7C5D3A, 0x3F7C7EB0, 0x3F7C9F8A, 0x3F7CBFC9, 0x3F7CDF6C, 0x3F7CFE73, 0x3F7D1CDD,
  0x3F7D3AAC, 0x3F7D57DE, 0x3F7D7474, 0x3F7D906E, 0x3F7DABCC, 0x3F7DC68C, 0x3F7DE0B1, 0x3F7DFA38,
  0x3F7E1324, 0x3F7E2B72, 0x3F7E4323, 0x3F7E5A38, 0x3F7E70B0, 0x3F7E868B, 0x3F7E9BC9, 0x3F7EB069,
  0x3F7EC46D, 0x3F7ED7D4, 0x3F7EEA9D, 0x3F7EFCC9, 0x3F7F0E58, 0x3F7F1F49, 0x3F7F2F9D, 0x3F7F3F54,
  0x3F7F4E6D, 0x3F7F5CE9, 0x3F7F6AC7, 0x3F7F7808, 0x3F7F84AB, 0x3F7F90B1, 0x3F7F9C18, 0x3F7FA6E3,
  0x3F7FB10F, 0x3F7FBA9E, 0x3F7FC38F, 0x3F7FCBE2, 0x3F7FD397, 0x3F7FDAAF, 0x3F7FE129, 0x3F7FE705,
  0x3F7FEC43, 0x3F7FF0E3, 0x3F7FF4E6, 0x3F7FF84A, 0x3F7FFB11, 0x3F7FFD39, 0x3F7FFEC4, 0x3F7FFFB1]

/-- `TW_SIN` (R453), entries 512 to 575. -/
def twSinPart08 : List Nat := [
  0x3F800000, 0x3F7FFFB1, 0x3F7FFEC4, 0x3F7FFD39, 0x3F7FFB11, 0x3F7FF84A, 0x3F7FF4E6, 0x3F7FF0E3,
  0x3F7FEC43, 0x3F7FE705, 0x3F7FE129, 0x3F7FDAAF, 0x3F7FD397, 0x3F7FCBE2, 0x3F7FC38F, 0x3F7FBA9E,
  0x3F7FB10F, 0x3F7FA6E3, 0x3F7F9C18, 0x3F7F90B1, 0x3F7F84AB, 0x3F7F7808, 0x3F7F6AC7, 0x3F7F5CE9,
  0x3F7F4E6D, 0x3F7F3F54, 0x3F7F2F9D, 0x3F7F1F49, 0x3F7F0E58, 0x3F7EFCC9, 0x3F7EEA9D, 0x3F7ED7D4,
  0x3F7EC46D, 0x3F7EB069, 0x3F7E9BC9, 0x3F7E868B, 0x3F7E70B0, 0x3F7E5A38, 0x3F7E4323, 0x3F7E2B72,
  0x3F7E1324, 0x3F7DFA38, 0x3F7DE0B1, 0x3F7DC68C, 0x3F7DABCC, 0x3F7D906E, 0x3F7D7474, 0x3F7D57DE,
  0x3F7D3AAC, 0x3F7D1CDD, 0x3F7CFE73, 0x3F7CDF6C, 0x3F7CBFC9, 0x3F7C9F8A, 0x3F7C7EB0, 0x3F7C5D3A,
  0x3F7C3B28, 0x3F7C187A, 0x3F7BF531, 0x3F7BD14D, 0x3F7BACCD, 0x3F7B87B2, 0x3F7B61FC, 0x3F7B3BAB]

/-- `TW_SIN` (R453), entries 576 to 639. -/
def twSinPart09 : List Nat := [
  0x3F7B14BE, 0x3F7AED37, 0x3F7AC516, 0x3F7A9C59, 0x3F7A7302, 0x3F7A4910, 0x3F7A1E84, 0x3F79F35E,
  0x3F79C79D, 0x3F799B43, 0x3F796E4E, 0x3F7940C0, 0x3F791298, 0x3F78E3D6, 0x3F78B47B, 0x3F788486,
  0x3F7853F8, 0x3F7822D1, 0x3F77F110, 0x3F77BEB7, 0x3F778BC5, 0x3F77583A, 0x3F772417, 0x3F76EF5B,
  0x3F76BA07, 0x3F76841B, 0x3F764D97, 0x3F76167A, 0x3F75DEC6, 0x3F75A67B, 0x3F756D97, 0x3F75341D,
  0x3F74FA0B, 0x3F74BF62, 0x3F748422, 0x3F74484B, 0x3F740BDD, 0x3F73CED9, 0x3F73913F, 0x3F73530E,
  0x3F731447, 0x3F72D4EB, 0x3F7294F8, 0x3F725470, 0x3F721352, 0x3F71D19F, 0x3F718F57, 0x3F714C7A,
  0x3F710908, 0x3F70C501, 0x3F708066, 0x3F703B37, 0x3F6FF573, 0x3F6FAF1B, 0x3F6F6830, 0x3F6F20B0,
  0x3F6ED89E, 0x3F6E8FF8, 0x3F6E46BE, 0x3F6DFCF2, 0x3F6DB293, 0x3F6D67A1, 0x3F6D1C1D, 0x3F6CD007]

/-- `TW_SIN` (R453), entries 640 to 703. -/
def twSinPart10 : List Nat := [
  0x3F6C835E, 0x3F6C3624, 0x3F6BE858, 0x3F6B99FB, 0x3F6B4B0C, 0x3F6AFB8C, 0x3F6AAB7B, 0x3F6A5AD9,
  0x3F6A09A7, 0x3F69B7E4, 0x3F696591, 0x3F6912AE, 0x3F68BF3C, 0x3F686B39, 0x3F6816A8, 0x3F67C187,
  0x3F676BD8, 0x3F671599, 0x3F66BECC, 0x3F666771, 0x3F660F88, 0x3F65B710, 0x3F655E0B, 0x3F650479,
  0x3F64AA59, 0x3F644FAC, 0x3F63F473, 0x3F6398AC, 0x3F633C5A, 0x3F62DF7B, 0x3F628210, 0x3F62241A,
  0x3F61C598, 0x3F61668A, 0x3F6106F2, 0x3F60A6CF, 0x3F604621, 0x3F5FE4E9, 0x3F5F8327, 0x3F5F20DB,
  0x3F5EBE05, 0x3F5E5AA6, 0x3F5DF6BE, 0x3F5D924D, 0x3F5D2D53, 0x3F5CC7D1, 0x3F5C61C7, 0x3F5BFB34,
  0x3F5B941A, 0x3F5B2C79, 0x3F5AC450, 0x3F5A5BA0, 0x3F59F26A, 0x3F5988AD, 0x3F591E6A, 0x3F58B3A1,
  0x3F584853, 0x3F57DC7F, 0x3F577026, 0x3F570348, 0x3F5695E5, 0x3F5627FE, 0x3F55B993, 0x3F554AA4]

/-- `TW_SIN` (R453), entries 704 to 767. -/
def twSinPart11 : List Nat := [
  0x3F54DB31, 0x3F546B3B, 0x3F53FAC3, 0x3F5389C7, 0x3F531849, 0x3F52A649, 0x3F5233C6, 0x3F51C0C2,
  0x3F514D3D, 0x3F50D937, 0x3F5064AF, 0x3F4FEFA8, 0x3F4F7A1F, 0x3F4F0417, 0x3F4E8D90, 0x3F4E1689,
  0x3F4D9F02, 0x3F4D26FD, 0x3F4CAE79, 0x3F4C3578, 0x3F4BBBF8, 0x3F4B41FA, 0x3F4AC77F, 0x3F4A4C87,
  0x3F49D112, 0x3F495521, 0x3F48D8B3, 0x3F485BCA, 0x3F47DE65, 0x3F476085, 0x3F46E22A, 0x3F466354,
  0x3F45E403, 0x3F456439, 0x3F44E3F5, 0x3F446337, 0x3F43E200, 0x3F436051, 0x3F42DE29, 0x3F425B89,
  0x3F41D870, 0x3F4154E1, 0x3F40D0DA, 0x3F404C5C, 0x3F3FC767, 0x3F3F41FC, 0x3F3EBC1B, 0x3F3E35C5,
  0x3F3DAEF9, 0x3F3D27B8, 0x3F3CA003, 0x3F3C17D9, 0x3F3B8F3B, 0x3F3B0629, 0x3F3A7CA4, 0x3F39F2AC,
  0x3F396842, 0x3F38DD65, 0x3F385216, 0x3F37C655, 0x3F373A23, 0x3F36AD7F, 0x3F36206C, 0x3F3592E7]

/-- `TW_SIN` (R453), entries 768 to 831. -/
def twSinPart12 : List Nat := [
  0x3F3504F3, 0x3F34768F, 0x3F33E7BC, 0x3F33587A, 0x3F32C8C9, 0x3F3238AA, 0x3F31A81D, 0x3F311722,
  0x3F3085BB, 0x3F2FF3E6, 0x3F2F61A5, 0x3F2ECEF7, 0x3F2E3BDE, 0x3F2DA859, 0x3F2D1469, 0x3F2C800F,
  0x3F2BEB4A, 0x3F2B561B, 0x3F2AC082, 0x3F2A2A80, 0x3F299415, 0x3F28FD41, 0x3F286605, 0x3F27CE61,
  0x3F273656, 0x3F269DE3, 0x3F26050A, 0x3F256BCB, 0x3F24D225, 0x3F24381A, 0x3F239DA9, 0x3F2302D3,
  0x3F226799, 0x3F21CBFB, 0x3F212FF9, 0x3F209393, 0x3F1FF6CB, 0x3F1F599F, 0x3F1EBC12, 0x3F1E1E22,
  0x3F1D7FD1, 0x3F1CE11F, 0x3F1C420C, 0x3F1BA299, 0x3F1B02C6, 0x3F1A6293, 0x3F19C200, 0x3F19210F,
  0x3F187FC0, 0x3F17DE12, 0x3F173C07, 0x3F16999F, 0x3F15F6D9, 0x3F1553B7, 0x3F14B039, 0x3F140C5F,
  0x3F13682A, 0x3F12C39A, 0x3F121EB0, 0x3F11796B, 0x3F10D3CD, 0x3F102DD5, 0x3F0F8784, 0x3F0EE0DB]

/-- `TW_SIN` (R453), entries 832 to 895. -/
def twSinPart13 : List Nat := [
  0x3F0E39DA, 0x3F0D9281, 0x3F0CEAD0, 0x3F0C42C9, 0x3F0B9A6B, 0x3F0AF1B7, 0x3F0A48AD, 0x3F099F4E,
  0x3F08F59B, 0x3F084B92, 0x3F07A136, 0x3F06F686, 0x3F064B82, 0x3F05A02C, 0x3F04F484, 0x3F044889,
  0x3F039C3D, 0x3F02EF9F, 0x3F0242B1, 0x3F019573, 0x3F00E7E4, 0x3F003A06, 0x3EFF17B2, 0x3EFDBABB,
  0x3EFC5D27, 0x3EFAFEF7, 0x3EF9A02D, 0x3EF840C8, 0x3EF6E0CB, 0x3EF58035, 0x3EF41F07, 0x3EF2BD43,
  0x3EF15AEA, 0x3EEFF7FB, 0x3EEE9479, 0x3EED3063, 0x3EEBCBBB, 0x3EEA6681, 0x3EE900B7, 0x3EE79A5D,
  0x3EE63375, 0x3EE4CBFE, 0x3EE363FA, 0x3EE1FB6A, 0x3EE0924F, 0x3EDF28A9, 0x3EDDBE79, 0x3EDC53C1,
  0x3EDAE880, 0x3ED97CB9, 0x3ED8106B, 0x3ED6A399, 0x3ED53641, 0x3ED3C867, 0x3ED25A09, 0x3ED0EB2A,
  0x3ECF7BCA, 0x3ECE0BEA, 0x3ECC9B8B, 0x3ECB2AAE, 0x3EC9B953, 0x3EC8477C, 0x3EC6D529, 0x3EC5625C]

/-- `TW_SIN` (R453), entries 896 to 959. -/
def twSinPart14 : List Nat := [
  0x3EC3EF15, 0x3EC27B55, 0x3EC1071E, 0x3EBF926F, 0x3EBE1D4A, 0x3EBCA7AF, 0x3EBB31A0, 0x3EB9BB1E,
  0x3EB8442A, 0x3EB6CCC3, 0x3EB554EC, 0x3EB3DCA5, 0x3EB263EF, 0x3EB0EACB, 0x3EAF713A, 0x3EADF73C,
  0x3EAC7CD4, 0x3EAB0201, 0x3EA986C4, 0x3EA80B1F, 0x3EA68F12, 0x3EA5129F, 0x3EA395C5, 0x3EA21887,
  0x3EA09AE5, 0x3E9F1CDF, 0x3E9D9E78, 0x3E9C1FAF, 0x3E9AA086, 0x3E9920FE, 0x3E97A117, 0x3E9620D2,
  0x3E94A031, 0x3E931F35, 0x3E919DDD, 0x3E901C2C, 0x3E8E9A22, 0x3E8D17C0, 0x3E8B9507, 0x3E8A11F7,
  0x3E888E93, 0x3E870ADA, 0x3E8586CE, 0x3E840270, 0x3E827DC0, 0x3E80F8C0, 0x3E7EE6E1, 0x3E7BDBA4,
  0x3E78CFCC, 0x3E75C35A, 0x3E72B651, 0x3E6FA8B2, 0x3E6C9A7F, 0x3E698BBA, 0x3E667C66, 0x3E636C83,
  0x3E605C13, 0x3E5D4B1A, 0x3E5A3997, 0x3E57278F, 0x3E541501, 0x3E5101F1, 0x3E4DEE60, 0x3E4ADA4F]

/-- `TW_SIN` (R453), entries 960 to 1023. -/
def twSinPart15 : List Nat := [
  0x3E47C5C2, 0x3E44B0B9, 0x3E419B37, 0x3E3E853E, 0x3E3B6ECF, 0x3E3857EC, 0x3E354098, 0x3E3228D4,
  0x3E2F10A2, 0x3E2BF804, 0x3E28DEFC, 0x3E25C58C, 0x3E22ABB6, 0x3E1F917B, 0x3E1C76DE, 0x3E195BE0,
  0x3E164083, 0x3E1324CA, 0x3E1008B7, 0x3E0CEC4A, 0x3E09CF86, 0x3E06B26E, 0x3E039502, 0x3E007745,
  0x3DFAB273, 0x3DF475C0, 0x3DEE3876, 0x3DE7FA9A, 0x3DE1BC2E, 0x3DDB7D37, 0x3DD53DB9, 0x3DCEFDB7,
  0x3DC8BD36, 0x3DC27C39, 0x3DBC3AC3, 0x3DB5F8DA, 0x3DAFB680, 0x3DA973BA, 0x3DA3308C, 0x3D9CECF9,
  0x3D96A905, 0x3D9064B4, 0x3D8A200A, 0x3D83DB0A, 0x3D7B2B74, 0x3D6EA038, 0x3D621469, 0x3D55880E,
  0x3D48FB30, 0x3D3C6DD5, 0x3D2FE007, 0x3D2351CB, 0x3D16C32C, 0x3D0A342F, 0x3CFB49BA, 0x3CE22A7A,
  0x3CC90AB0, 0x3CAFEA69, 0x3C96C9B6, 0x3C7B514B, 0x3C490E90, 0x3C16CB58, 0x3BC90F88, 0x3B490FC6]

/-- `TW_SIN` (R453), as numbers. -/
def twSinEntries : List Nat :=
  (twSinPart00 ++ twSinPart01 ++ twSinPart02 ++ twSinPart03 ++ twSinPart04 ++ twSinPart05 ++ twSinPart06 ++ twSinPart07)
    ++ (twSinPart08 ++ twSinPart09 ++ twSinPart10 ++ twSinPart11 ++ twSinPart12 ++ twSinPart13 ++ twSinPart14 ++ twSinPart15)

/-- `TW_SIN` (R453). -/
def twSinRom : List Word := twSinEntries.map (BitVec.ofNat 32)

/-- `SKEW_IDX` (R454), entries 0 to 63. -/
def skewIdxPart00 : List Nat := [
  0, 0, 0, 0, 0, 1, 1, 1, 1, 1, 2, 2, 2, 2, 2, 3,
  3, 3, 3, 3, 4, 4, 4, 4, 4, 5, 5, 5, 5, 5, 6, 6,
  6, 6, 6, 7, 7, 7, 7, 7, 8, 8, 8, 8, 8, 9, 9, 9,
  9, 9, 10, 10, 10, 10, 11, 11, 11, 11, 11, 12, 12, 12, 12, 12]

/-- `SKEW_IDX` (R454), entries 64 to 127. -/
def skewIdxPart01 : List Nat := [
  13, 13, 13, 13, 13, 14, 14, 14, 14, 15, 15, 15, 15, 15, 16, 16,
  16, 16, 16, 17, 17, 17, 17, 18, 18, 18, 18, 18, 19, 19, 19, 19,
  19, 20, 20, 20, 20, 21, 21, 21, 21, 21, 22, 22, 22, 22, 23, 23,
  23, 23, 23, 24, 24, 24, 24, 24, 25, 25, 25, 25, 26, 26, 26, 26]

/-- `SKEW_IDX` (R454), entries 128 to 191. -/
def skewIdxPart02 : List Nat := [
  26, 27, 27, 27, 27, 28, 28, 28, 28, 28, 29, 29, 29, 29, 30, 30,
  30, 30, 31, 31, 31, 31, 31, 32, 32, 32, 32, 33, 33, 33, 33, 33,
  34, 34, 34, 34, 35, 35, 35, 35, 36, 36, 36, 36, 36, 37, 37, 37,
  37, 38, 38, 38, 38, 39, 39, 39, 39, 40, 40, 40, 40, 40, 41, 41]

/-- `SKEW_IDX` (R454), entries 192 to 255. -/
def skewIdxPart03 : List Nat := [
  41, 41, 42, 42, 42, 42, 43, 43, 43, 43, 44, 44, 44, 44, 44, 45,
  45, 45, 45, 46, 46, 46, 46, 47, 47, 47, 47, 48, 48, 48, 48, 49,
  49, 49, 49, 50, 50, 50, 50, 51, 51, 51, 51, 52, 52, 52, 52, 53,
  53, 53, 53, 54, 54, 54, 54, 54, 55, 55, 55, 55, 56, 56, 56, 57]

/-- `SKEW_IDX` (R454), entries 256 to 319. -/
def skewIdxPart04 : List Nat := [
  57, 57, 57, 58, 58, 58, 58, 59, 59, 59, 59, 60, 60, 60, 60, 61,
  61, 61, 61, 62, 62, 62, 62, 63, 63, 63, 63, 64, 64, 64, 64, 65,
  65, 65, 65, 66, 66, 66, 67, 67, 67, 67, 68, 68, 68, 68, 69, 69,
  69, 69, 70, 70, 70, 70, 71, 71, 71, 72, 72, 72, 72, 73, 73, 73]

/-- `SKEW_IDX` (R454), entries 320 to 383. -/
def skewIdxPart05 : List Nat := [
  73, 74, 74, 74, 75, 75, 75, 75, 76, 76, 76, 76, 77, 77, 77, 78,
  78, 78, 78, 79, 79, 79, 79, 80, 80, 80, 81, 81, 81, 81, 82, 82,
  82, 83, 83, 83, 83, 84, 84, 84, 84, 85, 85, 85, 86, 86, 86, 86,
  87, 87, 87, 88, 88, 88, 88, 89, 89, 89, 90, 90, 90, 90, 91, 91]

/-- `SKEW_IDX` (R454), entries 384 to 447. -/
def skewIdxPart06 : List Nat := [
  91, 92, 92, 92, 93, 93, 93, 93, 94, 94, 94, 95, 95, 95, 95, 96,
  96, 96, 97, 97, 97, 98, 98, 98, 98, 99, 99, 99, 100, 100, 100, 101,
  101, 101, 101, 102, 102, 102, 103, 103, 103, 104, 104, 104, 105, 105, 105, 105,
  106, 106, 106, 107, 107, 107, 108, 108, 108, 109, 109, 109, 110, 110, 110, 110]

/-- `SKEW_IDX` (R454), entries 448 to 511. -/
def skewIdxPart07 : List Nat := [
  111, 111, 111, 112, 112, 112, 113, 113, 113, 114, 114, 114, 115, 115, 115, 116,
  116, 116, 117, 117, 117, 118, 118, 118, 119, 119, 119, 120, 120, 120, 121, 121,
  121, 122, 122, 122, 123, 123, 123, 124, 124, 124, 125, 125, 125, 126, 126, 126,
  127, 127, 127, 128, 128, 128, 129, 129, 129, 130, 130, 130, 131, 131, 131, 132]

/-- `SKEW_IDX` (R454), entries 512 to 575. -/
def skewIdxPart08 : List Nat := [
  132, 132, 133, 133, 133, 134, 134, 135, 135, 135, 136, 136, 136, 137, 137, 137,
  138, 138, 138, 139, 139, 139, 140, 140, 141, 141, 141, 142, 142, 142, 143, 143,
  143, 144, 144, 145, 145, 145, 146, 146, 146, 147, 147, 148, 148, 148, 149, 149,
  149, 150, 150, 151, 151, 151, 152, 152, 152, 153, 153, 154, 154, 154, 155, 155]

/-- `SKEW_IDX` (R454), entries 576 to 639. -/
def skewIdxPart09 : List Nat := [
  156, 156, 156, 157, 157, 157, 158, 158, 159, 159, 159, 160, 160, 161, 161, 161,
  162, 162, 163, 163, 163, 164, 164, 165, 165, 165, 166, 166, 167, 167, 167, 168,
  168, 169, 169, 170, 170, 170, 171, 171, 172, 172, 172, 173, 173, 174, 174, 175,
  175, 175, 176, 176, 177, 177, 178, 178, 178, 179, 179, 180, 180, 181, 181, 181]

/-- `SKEW_IDX` (R454), entries 640 to 703. -/
def skewIdxPart10 : List Nat := [
  182, 182, 183, 183, 184, 184, 185, 185, 185, 186, 186, 187, 187, 188, 188, 189,
  189, 189, 190, 190, 191, 191, 192, 192, 193, 193, 194, 194, 195, 195, 195, 196,
  196, 197, 197, 198, 198, 199, 199, 200, 200, 201, 201, 202, 202, 203, 203, 204,
  204, 205, 205, 206, 206, 207, 207, 208, 208, 209, 209, 210, 210, 211, 211, 212]

/-- `SKEW_IDX` (R454), entries 704 to 767. -/
def skewIdxPart11 : List Nat := [
  212, 213, 213, 214, 214, 215, 215, 216, 216, 217, 217, 218, 218, 219, 219, 220,
  220, 221, 221, 222, 222, 223, 224, 224, 225, 225, 226, 226, 227, 227, 228, 228,
  229, 230, 230, 231, 231, 232, 232, 233, 233, 234, 235, 235, 236, 236, 237, 237,
  238, 239, 239, 240, 240, 241, 241, 242, 243, 243, 244, 244, 245, 246, 246, 247]

/-- `SKEW_IDX` (R454), entries 768 to 831. -/
def skewIdxPart12 : List Nat := [
  247, 248, 249, 249, 250, 251, 251, 252, 252, 253, 254, 254, 255, 256, 256, 257,
  257, 258, 259, 259, 260, 261, 261, 262, 263, 263, 264, 265, 265, 266, 267, 267,
  268, 269, 269, 270, 271, 271, 272, 273, 273, 274, 275, 275, 276, 277, 278, 278,
  279, 280, 280, 281, 282, 283, 283, 284, 285, 286, 286, 287, 288, 289, 289, 290]

/-- `SKEW_IDX` (R454), entries 832 to 895. -/
def skewIdxPart13 : List Nat := [
  291, 292, 292, 293, 294, 295, 295, 296, 297, 298, 299, 299, 300, 301, 302, 303,
  303, 304, 305, 306, 307, 308, 308, 309, 310, 311, 312, 313, 314, 314, 315, 316,
  317, 318, 319, 320, 321, 322, 322, 323, 324, 325, 326, 327, 328, 329, 330, 331,
  332, 333, 334, 335, 336, 337, 338, 339, 340, 341, 342, 343, 344, 345, 346, 347]

/-- `SKEW_IDX` (R454), entries 896 to 959. -/
def skewIdxPart14 : List Nat := [
  348, 349, 350, 351, 352, 353, 354, 355, 357, 358, 359, 360, 361, 362, 363, 365,
  366, 367, 368, 369, 370, 372, 373, 374, 375, 377, 378, 379, 380, 382, 383, 384,
  386, 387, 388, 390, 391, 392, 394, 395, 397, 398, 400, 401, 402, 404, 405, 407,
  409, 410, 412, 413, 415, 416, 418, 420, 421, 423, 425, 426, 428, 430, 432, 434]

/-- `SKEW_IDX` (R454), entries 960 to 1023. -/
def skewIdxPart15 : List Nat := [
  435, 437, 439, 441, 443, 445, 447, 449, 451, 453, 455, 457, 459, 461, 464, 466,
  468, 471, 473, 475, 478, 480, 483, 485, 488, 491, 494, 496, 499, 502, 505, 508,
  512, 515, 518, 521, 525, 529, 532, 536, 540, 544, 548, 553, 557, 562, 567, 572,
  578, 583, 590, 596, 603, 610, 618, 626, 635, 646, 657, 670, 686, 705, 729, 768]

/-- `SKEW_IDX` (R454), as numbers. -/
def skewIdxEntries : List Nat :=
  (skewIdxPart00 ++ skewIdxPart01 ++ skewIdxPart02 ++ skewIdxPart03 ++ skewIdxPart04 ++ skewIdxPart05 ++ skewIdxPart06 ++ skewIdxPart07)
    ++ (skewIdxPart08 ++ skewIdxPart09 ++ skewIdxPart10 ++ skewIdxPart11 ++ skewIdxPart12 ++ skewIdxPart13 ++ skewIdxPart14 ++ skewIdxPart15)

end Sys2Proof.Machine
end

