-- ==== Sys2Proof/Machine/Visual.lean ====
section
/-! DEFINITION. The visualization channels (42_visualization.md): `VIS_PUSH`, and engine A's push into the waveform ring
and the spectrum FIFO. -/

namespace Sys2Proof.Machine

open Sys2Proof

/-- `VIS_PUSH` (R350). -/
def execVisPush (s : State) : Host.Outcome State Fault Refusal := .next (s.enqueue [s.arg0])

/-- The waveform ring write and the cursor's increment modulo 2^32 (R352). -/
def State.pushRing (s : State) (x : Word) : State :=
  (s.setMem (s.mem.writeWord (ringAddr (s.vis.waveCursor.toNat % Config.waveCap)) x)).setVis
    { s.vis with waveCursor := s.vis.waveCursor + 1#32 }

/-- The FIFO with `x` written at `FIFO_INDEX` (R353). -/
def State.fifoWritten (s : State) (x : Word) : List Word :=
  putAt (freeFifo s.ramDraw) 0 s.vis.fifoIndex.toNat x s.vis.fifo

/-- The block copy of a full FIFO: real parts the samples, imaginary parts `+0` (R354). -/
def blockCopy (draw : Nat) (fifo : List Word) : List (Word × Word) :=
  (window (freeFifo draw) 0 Config.fifoCap fifo).map (fun x => (x, fZero))

/-- The spectrum FIFO write, with the block copy or the skip where it fills (R353, R354, R355). -/
def State.pushFifo (s : State) (x : Word) : State :=
  if s.vis.fifoIndex.toNat + 1 < Config.fifoCap then
    s.setVis { s.vis with fifo := s.fifoWritten x, fifoIndex := s.vis.fifoIndex + 1#11 }
  else if s.vis.ready then
    (s.setVis { s.vis with fifo := s.fifoWritten x, fifoIndex := 0#11 }).setStatusD
      { s.statusD with specSkipped := true }
  else
    s.setVis { s.vis with
      fifo := s.fifoWritten x
      fifoIndex := 0#11
      tbuf := blockCopy s.ramDraw (s.fifoWritten x)
      ready := true }

/-- A push of a sample: the ring, then the FIFO (R351). -/
def State.push (s : State) (x : Word) : State := (s.pushRing x).pushFifo x

/-- The engine A step: the head of `PUSHQ` is removed and pushed (R356). -/
def State.engineAStep (s : State) : State :=
  match s.pushq with
  | [] => s
  | x :: rest => (s.setPushq rest).push x

end Sys2Proof.Machine
end

