-- ==== Sys2Proof/Machine/Spectrum.lean ====
section
/-! DEFINITION. The spectrum job (43_spectrum.md): `SPEC_PROCESS`, windowing, the radix-2 transform, magnitudes, the bin
remap and levels, and completion. -/

namespace Sys2Proof.Machine

open Sys2Proof

/-- A complex sample `(re, im)` (R401). -/
abbrev Cplx := Word × Word

/-- `SPEC_PROCESS` (R400): the job is left to engine D where a block is ready. -/
def execSpecProcess (s : State) : Host.Outcome State Fault Refusal :=
  if s.vis.ready then .next (s.setJob true) else .next (s.setProcessed false)

/-- Windowing (R402). -/
def windowed (tbuf : List Cplx) : List Cplx := List.zipWith (fun x w => (fmul x.1 w, x.2)) tbuf windowRom

/-- `n` with its `b` low bits reversed (R403). -/
def revBits : Nat → Nat → Nat
  | 0, _ => 0
  | b + 1, n => n % 2 * 2 ^ b + revBits b (n / 2)

/-- Input reordering (R403). -/
def bitReversed (x : List Cplx) : List Cplx := (List.range 2048).map (fun n => x.getD (revBits 11 n) (fZero, fZero))

/-- The twiddle `(TW_COS[t], TW_SIN[t])` (R405). -/
def twiddle (t : Nat) : Cplx := (twCosRom.getD t fZero, twSinRom.getD t fZero)

/-- `W^t * c` (R405). -/
def twiddled (w c : Cplx) : Cplx :=
  (fadd (fmul w.1 c.1) (fmul w.2 c.2), fsub (fmul w.1 c.2) (fmul w.2 c.1))

/-- The upper output of a butterfly (R405). -/
def butterflyAdd (a t : Cplx) : Cplx := (fadd a.1 t.1, fadd a.2 t.2)

/-- The lower output of a butterfly (R405). -/
def butterflySub (a t : Cplx) : Cplx := (fsub a.1 t.1, fsub a.2 t.2)

/-- The butterflies of one block of a stage: `lo` is `A[b .. b+h-1]`, `hi` is `A[b+h .. b+2h-1]` (R404, R405). -/
def stageBlock (tw lo hi : List Cplx) : List Cplx :=
  List.zipWith butterflyAdd lo (List.zipWith twiddled tw hi)
    ++ List.zipWith butterflySub lo (List.zipWith twiddled tw hi)

/-- The blocks of a stage of half-length `h`, from the left (R404). -/
def stageBlocks (tw : List Cplx) (h : Nat) : Nat → List Cplx → List Cplx
  | 0, _ => []
  | blocks + 1, xs =>
    stageBlock tw (xs.take h) ((xs.drop h).take h) ++ stageBlocks tw h blocks (xs.drop (2 * h))

/-- The twiddles of a stage of half-length `h`: `t = k * (2048 / m)` with `m = 2h` (R404). -/
def stageTwiddles (h : Nat) : List Cplx := (List.range h).map (fun k => twiddle (k * (1024 / h)))

/-- Stage `s` (R404). -/
def stage (s : Nat) (xs : List Cplx) : List Cplx :=
  stageBlocks (stageTwiddles (2 ^ (s - 1))) (2 ^ (s - 1)) (2048 / 2 ^ s) xs

/-- The transform: the stages 1 to 11 in order, after the reordering (R403, R404). -/
def transform (x : List Cplx) : List Cplx := (List.range 11).foldl (fun a s => stage (s + 1) a) (bitReversed x)

/-- A magnitude (R406). -/
def magnitude (a : Cplx) : Word := fsqrt (fadd (fmul a.1 a.1) (fmul a.2 a.2))

/-- `MAG[0..1024]` (R406). -/
def magnitudes (a : List Cplx) : List Word := (a.take 1025).map magnitude

/-- The 1024 levels of a block (R407, R408). -/
def scopeLevels (tbuf : List Cplx) : List Word :=
  let mag := magnitudes (transform (windowed tbuf))
  skewIdxEntries.map (fun k => level (mag.getD k fZero))

/-- The transform buffer of the job (R401). -/
def State.jobInput (s : State) : List Cplx := window (freeTbuf s.vis.tbufDraw) 0 Config.fifoCap s.vis.tbuf

/-- The engine D step: the whole job and its completion (R401 to R409). `TBUF`'s contents are unspecified after it
(R411): no element is listed, and a new draw begins. -/
def State.engineDStep (s : State) : State :=
  ((((s.setMem (s.mem.writeWords (scopeAddr 0) (scopeLevels s.jobInput))).setVis
    { s.vis with ready := false, tbuf := [], tbufDraw := s.vis.tbufDraw + 1 }).setProcessed true).setJob false)

end Sys2Proof.Machine
end

