-- ==== Sys2Proof/Machine/Dispatch.lean ====
section
/-! DEFINITION. The meaning of every command: the immediate effect of R152 with the command's own checks (R208 (3), (4)). -/

namespace Sys2Proof.Machine

open Sys2Proof

def exec (i : Instr) (s : State) : Host.Outcome State Fault Refusal :=
  match i with
  | .nopA => Sys2Proof.Machine.execNopA s
  | .noteOn voice => Sys2Proof.Machine.execNoteOn voice s
  | .noteOff voice tail => Sys2Proof.Machine.execNoteOff voice tail s
  | .renderBlock start count => Sys2Proof.Machine.execRenderBlock start count s
  | .outClear start count => Sys2Proof.Machine.execOutClear start count s
  | .visPush => Sys2Proof.Machine.execVisPush s
  | .peek voice space index => Sys2Proof.Machine.execPeek voice space index s
  | .nopD => Sys2Proof.Machine.execNopD s
  | .specProcess => Sys2Proof.Machine.execSpecProcess s

end Sys2Proof.Machine
end

