-- ==== Sys2Proof/Machine/Agents.lean ====
section
/-! DEFINITION. The agents' steps (R150, R151): a host access with the whole immediate effect of a command it issues,
engine A's push, engine D's job, the platform's reset, which of them are enabled, and which takes the next step. -/

namespace Sys2Proof.Machine

open Sys2Proof

/-- A command word issued on a port (R158, R208): it is decoded, and performed or refused with the error recorded. -/
def issue (p : Port) (w : Word) (s : State) : Host.Outcome State Fault Refusal :=
  match decode p w with
  | .ok i => exec i s
  | .error e => failCommand p e s

/-- A write to a mapped offset: a command register issues its word, any other stores (R158). -/
def writeAccess (t : Target) (x : Word) (s : State) : Host.Outcome State Fault Refusal :=
  match t with
  | .cmdA => issue .a x s
  | .cmdD => issue .d x s
  | t => .next (s.writeTarget t x)

/-- The host on a port (R150). -/
def hostAgent : Port → Agent
  | .a => .hostA
  | .d => .hostD

/-- The host port of a port name: host A is on port A, host D on port D (R150). -/
def State.hostPort (s : State) (p : Port) : HostPort :=
  match p with
  | .a => s.env.hostA
  | .d => s.env.hostD

/-- Replaces a host port. -/
def State.setHostPort (s : State) (p : Port) (x : HostPort) : State :=
  match p with
  | .a => s.setEnv { s.env with hostA := x }
  | .d => s.setEnv { s.env with hostD := x }

/-- The response to an access that is a bus error: a read returns `0x00000000`, a write is discarded (R159). -/
def errorResponse (x : Access) (f : Fault) : Response :=
  match x with
  | .read _ _ => .readError f 0x00000000#32
  | .write _ _ _ => .writeError f

/-- Performs an access of host `p` whose later accesses are `rest`. A bus error changes no state of the block and stops
the host's program (R159, R505): its later accesses are dropped. -/
def performAccess (p : Port) (x : Access) (rest : List Access) (s : State) : Host.Outcome State Fault Refusal :=
  match busFault x.width x.offset, targetAt x.offset, x with
  | some f, _, _ => .next (s.setHostPort p ⟨[], errorResponse x f⟩)
  | none, none, _ => .next (s.setHostPort p ⟨[], errorResponse x .unmapped⟩)
  | none, some t, .read _ _ => .next (s.setHostPort p ⟨rest, .readData (s.readTarget t)⟩)
  | none, some t, .write _ _ v => writeAccess t v (s.setHostPort p ⟨rest, .writeDone⟩)

/-- The step of a host: its oldest access is performed (R151, R165). -/
def hostStep (p : Port) (s : State) : Host.Outcome State Fault Refusal :=
  match (s.hostPort p).pending with
  | [] => .next s
  | x :: rest => performAccess p x rest s

/-- The platform's reset (R550): every piece of the block's state takes its reset state in one step. The RAM contents are
a new draw (R552). What stands outside the block is kept: the accesses the hosts have issued and the choices made from
outside; the reset input goes low. -/
def State.platformReset (s : State) : State :=
  { State.reset with
    ramDraw := s.ramDraw + 1
    vis := { State.reset.vis with tbufDraw := s.vis.tbufDraw + 1 }
    env := { s.env with resetInput := false } }

/-- A host has an access to perform that is not held (R151, R160). -/
def State.hostEnabled (s : State) (p : Port) : Bool :=
  match (s.hostPort p).pending with
  | [] => false
  | x :: _ => !s.holds x

/-- An agent has an enabled step (R151); the platform's is enabled while the reset input is high. -/
def State.enabled (s : State) (a : Agent) : Bool :=
  match a with
  | .hostA => s.hostEnabled .a
  | .hostD => s.hostEnabled .d
  | .engineA => !s.pushq.isEmpty
  | .engineD => s.job
  | .platform => s.env.resetInput

/-- The agents. -/
def agents : List Agent := [.hostA, .hostD, .engineA, .engineD, .platform]

/-- The agents with an enabled step. -/
def State.enabledAgents (s : State) : List Agent := agents.filter s.enabled

/-- The agent the free choice falls on, of a list of agents (R151, R165: any of them may take the next step). -/
def freeChoice (turn : Nat) (xs : List Agent) : Option Agent :=
  match xs with
  | [] => none
  | [a] => some a
  | xs => xs[Config.agentChoice turn % xs.length]?

/-- The agent that takes the next step: the one the oldest choice from outside names where it is enabled, else any
enabled one; none where no step is enabled. -/
def State.nextAgent (s : State) : Option Agent :=
  match s.env.choices with
  | a :: _ => if s.enabled a then some a else freeChoice s.env.turn s.enabledAgents
  | [] => freeChoice s.env.turn s.enabledAgents

/-- The state in which the chosen agent's step is taken: one more turn, one choice used. -/
def State.beginTurn (s : State) : State :=
  s.setEnv { s.env with turn := s.env.turn + 1, choices := s.env.choices.tail }

/-- The step of an agent. -/
def agentStep (a : Agent) (s : State) : Host.Outcome State Fault Refusal :=
  match a with
  | .hostA => hostStep .a s
  | .hostD => hostStep .d s
  | .engineA => .next s.engineAStep
  | .engineD => .next s.engineDStep
  | .platform => .next s.platformReset

/-- The offset of a port's command register (R57, R68). -/
def cmdOffset : Port → Offset
  | .a => 0x018#16
  | .d => 0x104#16

/-- A host's write of a command word to the port that decodes it. -/
def commandAccess (w : Word) : Access := .write .w32 (cmdOffset (tablePort w)) w

end Sys2Proof.Machine
end

