-- ==== Sys2Proof/Machine/Step.lean ====
section
/-! DEFINITION. One step of the block and its hosts (R151), and where a command word stands so that the next step
performs it. -/

namespace Sys2Proof.Machine

open Sys2Proof

/-- One atomic step of one agent. Where no agent has an enabled step the state stays as it is (R515, R553). -/
def step (s : State) : Host.Outcome State Fault Refusal :=
  match s.nextAgent with
  | none => .next s
  | some a => agentStep a s.beginTurn

/-- The state with a command word issued by host A before its other accesses, and host A chosen for the next step. The
block fetches nothing (R51, R168): a command runs when a host writes it. -/
def State.withFetchWord (s : State) (nbits w : Nat) : State :=
  s.setEnv { s.env with
    hostA := ⟨commandAccess (tableWord nbits w) :: s.env.hostA.pending, s.env.hostA.response⟩
    choices := .hostA :: s.env.choices }

end Sys2Proof.Machine
end

