-- ==== Sys2Proof/Safety.lean ====
section
/-! DEFINITION. What the statements about the machine speak of: the states the block can be in between steps, and the
frames that a command leaves unchanged. -/

namespace Sys2Proof.Machine

open Sys2Proof

/-- Not NaN and not below zero. -/
def NonNeg (w : Word) : Prop := isNaN w = false ∧ 0 ≤ value w

/-- A number in `[0, 1]` (one is 2^149 units). -/
def UnitLevel (w : Word) : Prop := isNaN w = false ∧ 0 ≤ value w ∧ value w ≤ 2 ^ 149

/-- The word `r` is `rnd` of the real `num / den` (R14), all in units of 2^-149: infinity of its sign from
`2^128 - 2^103` on; below that a finite number to which no other is nearer, with an even fraction where another is as
near; and of the real's sign, even where it rounds to zero. -/
def IsRnd (r : Word) (num : Int) (den : Nat) : Prop :=
  ((2 ^ 277 - 2 ^ 252) * den ≤ |num| → r = if num < 0 then 0xFF800000#32 else 0x7F800000#32) ∧
  (|num| < (2 ^ 277 - 2 ^ 252) * den → isFinite r = true ∧
    ∀ w : Word, isFinite w = true → |value r * den - num| ≤ |value w * den - num| ∧
      (w ≠ r → |value w * den - num| = |value r * den - num| → r.getLsbD 0 = false)) ∧
  (num ≠ 0 → signBit r = decide (num < 0))

/-- The envelope of a voice: the levels lie in `[0, 1]` and no rate is negative or NaN (R308). -/
structure EnvOk (v : Voice) : Prop where
  level : UnitLevel v.envLevel
  sustain : UnitLevel v.sustainLevel
  attack : NonNeg v.attackRate
  decay : NonNeg v.decayRate
  release : NonNeg v.releaseRate

/-- A voice context between steps: `ACTIVE` agrees with `ENV_STAGE` (R87); `L` is 0 before the first note, 1 for a
degenerate note, else in `2..L_MAX` with both lines listed (R82, R83); the indices lie where R257 and R258 put them; the
envelope levels and the velocity lie in [0, 1] (R252, R308). -/
structure VoiceOk (v : Voice) : Prop where
  activeStage : v.active = true ↔ v.stage ≠ .idle
  bound : v.l.toNat ≤ Config.lMax
  degenLength : v.degen = true → v.l.toNat = 1
  lines : v.degen = false → v.l.toNat = 0 ∨
    (2 ≤ v.l.toNat ∧ v.l.toNat ≤ v.left.length ∧ v.l.toNat ≤ v.right.length)
  started : v.active = true → v.l.toNat ≠ 0
  pluck : v.degen = false → 3 ≤ v.l.toNat → 1 ≤ v.pluckIdx.toNat ∧ v.pluckIdx.toNat ≤ v.l.toNat - 2
  pickup : v.degen = false → v.pickupIdx.toNat = v.l.toNat / 2
  env : EnvOk v
  velocity : UnitLevel v.velocity

/-- The block between steps. -/
structure Inv (s : State) : Prop where
  memWf : Memory.wf s.mem = true
  memMapped : ∀ c ∈ s.mem, ramAddr c.1 = true
  voices : ∀ v, VoiceOk (s.voice v)
  queue : s.pushq.length ≤ Config.blockMax
  jobReady : s.job = true → s.vis.ready = true
  blockWhole : s.vis.ready = true → s.vis.tbuf.length = Config.fifoCap
  fifoListed : s.vis.fifoIndex.toNat ≤ s.vis.fifo.length
  errorA : (s.statusA.err = false → s.statusA.errCode = 0#4) ∧
    (s.statusA.err = true → 1 ≤ s.statusA.errCode.toNat ∧ s.statusA.errCode.toNat ≤ 6)
  errorD : (s.statusD.err = false → s.statusD.errCode = 0#4) ∧
    (s.statusD.err = true → 1 ≤ s.statusD.errCode.toNat ∧ s.statusD.errCode.toNat ≤ 2)

/-- Every byte of the RAM windows reads as before. -/
def SameBytes (s t : State) : Prop := ∀ a, t.readByte a = s.readByte a

/-- Every byte outside the addresses of `inside` reads as before. -/
def SameBytesBut (inside : Nat → Prop) (s t : State) : Prop := ∀ a, ¬ inside a → t.readByte a = s.readByte a

/-- Every voice is as before. -/
def SameVoices (s t : State) : Prop := ∀ v, t.voice v = s.voice v

/-- Every voice but one is as before. -/
def SameVoicesBut (v : Fin Config.numVoices) (s t : State) : Prop := ∀ w, w ≠ v → t.voice w = s.voice w

/-- The registers that no command writes, and the hosts' side, are as before: `CTRL`, `ARG0`, `ARG1` and the
configuration registers; the accesses, responses and choices; and the draw of the RAM contents. -/
def SameHostSide (s t : State) : Prop :=
  t.ctrl = s.ctrl ∧ t.arg0 = s.arg0 ∧ t.arg1 = s.arg1 ∧ t.note = s.note ∧ t.env = s.env ∧ t.ramDraw = s.ramDraw

/-- The visualization channels and port D are as before. -/
def SameDisplay (s t : State) : Prop :=
  t.vis = s.vis ∧ t.job = s.job ∧ t.statusD = s.statusD ∧ t.processed = s.processed

/-- The block is as before, whatever happened on the hosts' side. -/
def SameBlock (s t : State) : Prop :=
  t.ctrl = s.ctrl ∧ t.statusA = s.statusA ∧ t.resultA = s.resultA ∧ t.arg0 = s.arg0 ∧ t.arg1 = s.arg1 ∧
  t.note = s.note ∧ SameVoices s t ∧ SameBytes s t ∧ t.ramDraw = s.ramDraw ∧ t.pushq = s.pushq ∧ SameDisplay s t

/-- The byte addresses of `OUT_BUF[c][start .. start + count - 1]` over all channels (R300, R310). -/
def blockBytes (start count a : Nat) : Prop :=
  ∃ c j k, c < Config.numChannels ∧ j < count ∧ k < 4 ∧ a = outAddr c (start + j) + k

/-- The byte addresses of one word. -/
def wordBytes (addr a : Nat) : Prop := ∃ k, k < 4 ∧ a = addr + k

/-- The byte addresses of `SCOPE`. -/
def scopeBytes (a : Nat) : Prop := ∃ i k, i < Config.scopeSize ∧ k < 4 ∧ a = scopeAddr i + k

/-- The fields a render never writes: the note's geometry, parameters and latched coefficients (R317(a), R567). -/
def SameNote (v w : Voice) : Prop :=
  w.degen = v.degen ∧ w.l = v.l ∧ w.pluckIdx = v.pluckIdx ∧ w.pickupIdx = v.pickupIdx ∧
  w.attackRate = v.attackRate ∧ w.decayRate = v.decayRate ∧ w.releaseRate = v.releaseRate ∧
  w.sustainLevel = v.sustainLevel ∧ w.releaseTime = v.releaseTime ∧ w.velocity = v.velocity ∧
  w.refl = v.refl ∧ w.sr = v.sr ∧ w.vMode = v.vMode ∧ w.vB0 = v.vB0 ∧ w.vB1 = v.vB1 ∧ w.vB2 = v.vB2 ∧
  w.vA1 = v.vA1 ∧ w.vA2 = v.vA2

/-- The state `t` is `s` with a command error of a number recorded on a port (R501), and nothing else changed (R504):
`ERR` is 1, and `ERR_CODE` is the number where `ERR` was 0, else the earlier one. -/
def RecordsError (p : Port) (code : BitVec 4) (s t : State) : Prop :=
  match p with
  | .a => t = { s with statusA :=
      { s.statusA with err := true, errCode := if s.statusA.err then s.statusA.errCode else code } }
  | .d => t = { s with statusD :=
      { s.statusD with err := true, errCode := if s.statusD.err then s.statusD.errCode else code } }

/-- What a command that works on one voice alone leaves: every other voice, every byte of the RAM windows, the queue,
`RESULT_A`, the hosts' side and the display side. -/
def OnlyVoice (v : Fin Config.numVoices) (s t : State) : Prop :=
  SameVoicesBut v s t ∧ SameBytes s t ∧ t.pushq = s.pushq ∧ t.resultA = s.resultA ∧ SameHostSide s t ∧ SameDisplay s t

/-- The frame of a command that changes no voice, no byte of the RAM windows, no flag of `STATUS_A` and nothing on the
hosts' side; what it does change is said beside it. -/
def SameSound (s t : State) : Prop :=
  SameVoices s t ∧ SameBytes s t ∧ t.statusA = s.statusA ∧ SameHostSide s t

/-- A run: each state is what a step of the one before answers (R151). -/
def IsRun (run : Nat → State) : Prop := ∀ k, step (run k) = .next (run (k + 1))

/-- A run is weakly fair to an agent: a step of it that stays enabled is eventually taken (R170). -/
def WeaklyFair (run : Nat → State) (a : Agent) : Prop :=
  ∀ k, ∃ j, k ≤ j ∧ ((run j).enabled a = false ∨ (run j).nextAgent = some a)

/-- A run is strongly fair to an agent: where a step of it is enabled again and again, it is taken again and again. -/
def StronglyFair (run : Nat → State) (a : Agent) : Prop :=
  (∀ k, ∃ j, k ≤ j ∧ (run j).enabled a = true) → ∀ k, ∃ j, k ≤ j ∧ (run j).nextAgent = some a

/-- The fairness the spec gives the engines (R170); no step assumes it, a statement about a run names it. -/
def EnginesFair (run : Nat → State) : Prop := WeaklyFair run .engineA ∧ WeaklyFair run .engineD

/-- A step is safe when it answers a next state: no access, command or engine step stops the block (R500). -/
def Safe (s : State) : Prop := ∃ t, step s = .next t

end Sys2Proof.Machine
end

