-- ==== Sys2Proof/Certificates/Slice0/Obligations.lean ====
section
/-! DEFINITION. The statements for the provers, in the order of the spec's files: encoding and errors (30, 60), numbers
(00), the note commands (40), rendering (41), the visualization channels (42), the spectrum job (43, 44), `PEEK` (45),
the bus (10, 20), reset (70), and the invariant of every step. Each docstring says which rule is formalised. -/

section Statements

open Sys2Proof Sys2Proof.Machine

/-! ### Encoding and errors -/

/-- R208, R212: the word of every well-formed command decodes, on its port, to that command: no operand bit is lost. -/
def Obligations.DecodeOfEncode : Prop :=
  ∀ i : Instr, i.WellFormed → decode i.port (encode i) = .ok i

/-- R200, R210: a word that a port accepts is the word of one command only, a well-formed command of that port. -/
def Obligations.EncodeOfDecode : Prop :=
  ∀ (p : Port) (w : Word) (i : Instr), decode p w = .ok i → i.WellFormed ∧ i.port = p ∧ encode i = w

/-- R208: decoding is the match/mask table, and a word that no row matches is `ILLEGAL_OPCODE` where its opcode is not in
the port's map and `RESERVED_FIELD` where it is. -/
def Obligations.DecodeIsMatchMask : Prop :=
  ∀ w : Word,
    (decode .a w = .ok .nopA ↔ w &&& 0xFFFFFFFF#32 = 0x00000000#32) ∧
    ((∃ v, decode .a w = .ok (.noteOn v)) ↔ w &&& 0xFFE0FFFF#32 = 0x01000000#32) ∧
    ((∃ v t, decode .a w = .ok (.noteOff v t)) ↔ w &&& 0xFFE0FFFE#32 = 0x02000000#32) ∧
    ((∃ s n, decode .a w = .ok (.renderBlock s n)) ↔ w &&& 0xFF000000#32 = 0x03000000#32) ∧
    ((∃ s n, decode .a w = .ok (.outClear s n)) ↔ w &&& 0xFF000000#32 = 0x04000000#32) ∧
    (decode .a w = .ok .visPush ↔ w &&& 0xFFFFFFFF#32 = 0x05000000#32) ∧
    ((∃ v k n, decode .a w = .ok (.peek v k n)) ↔
      w &&& 0xFFE00000#32 = 0x06000000#32 ∧ w &&& 0x0000C000#32 ≠ 0x0000C000#32) ∧
    (decode .d w = .ok .nopD ↔ w &&& 0xFFFFFFFF#32 = 0x00000000#32) ∧
    (decode .d w = .ok .specProcess ↔ w &&& 0xFFFFFFFF#32 = 0x10000000#32) ∧
    (∀ e, decode .a w = .error e → e = if w.toNat / 2 ^ 24 ≤ 6 then .reservedField else .illegalOpcode) ∧
    (∀ e, decode .d w = .error e →
      e = if w.toNat / 2 ^ 24 = 0 ∨ w.toNat / 2 ^ 24 = 0x10 then .reservedField else .illegalOpcode)

/-- A few words written out from R212 and R206 decode to the commands they stand for. -/
def Obligations.ExampleWordsDecode : Prop :=
  decode .a 0x00000000#32 = .ok .nopA ∧ decode .a 0x01000000#32 = .ok (.noteOn 0) ∧
  decode .a 0x02030001#32 = .ok (.noteOff 3 true) ∧ decode .a 0x03010064#32 = .ok (.renderBlock 16 100) ∧
  decode .a 0x04000400#32 = .ok (.outClear 0 1024) ∧ decode .a 0x05000000#32 = .ok .visPush ∧
  decode .a 0x06024005#32 = .ok (.peek 2 .right 5) ∧ decode .d 0x00000000#32 = .ok .nopD ∧
  decode .d 0x10000000#32 = .ok .specProcess ∧ decode .a 0x10000000#32 = .error .illegalOpcode

/-- R501 and R504, with the checks of R251, R269, R300 and R472 and the numbers of R502: a command that fails, in decoding or in a
check of its own, completes with its error recorded on its port and nothing else changed. -/
def Obligations.FailedCommandOnlyRecordsItsError : Prop :=
  ∀ s : State,
    (∀ p w, decode p w = .error .illegalOpcode → ∃ t, issue p w s = .next t ∧ RecordsError p 1#4 s t) ∧
    (∀ p w, decode p w = .error .reservedField → ∃ t, issue p w s = .next t ∧ RecordsError p 2#4 s t) ∧
    (∀ v, 8 ≤ v → ∃ t, exec (.noteOn v) s = .next t ∧ RecordsError .a 3#4 s t) ∧
    (∀ v tail, 8 ≤ v → ∃ t, exec (.noteOff v tail) s = .next t ∧ RecordsError .a 3#4 s t) ∧
    (∀ v space n, 8 ≤ v → ∃ t, exec (.peek v space n) s = .next t ∧ RecordsError .a 3#4 s t) ∧
    (∀ start count, 1024 < start + count →
      ∃ t, exec (.renderBlock start count) s = .next t ∧ RecordsError .a 4#4 s t) ∧
    (∀ start count, 1024 < start + count →
      ∃ t, exec (.outClear start count) s = .next t ∧ RecordsError .a 4#4 s t) ∧
    (∀ (v : Fin 8) (space : PeekSpace) (n : Nat), space ≠ .reg →
      (s.voice v).degen = true ∨ (s.voice v).l.toNat < 2 ∨ (s.voice v).l.toNat ≤ n →
      ∃ t, exec (.peek v space n) s = .next t ∧ RecordsError .a 5#4 s t) ∧
    (∀ (v : Fin 8) (n : Nat), 20 < n →
      ∃ t, exec (.peek v .reg n) s = .next t ∧ RecordsError .a 5#4 s t) ∧
    (∀ v : Fin 8, ¬ (isFinite s.note.sampleRate = true ∧ fgt s.note.sampleRate fZero = true) →
      ∃ t, exec (.noteOn v) s = .next t ∧ RecordsError .a 6#4 s t)

/-- R516: a host's write of `w` to a status register clears `ERR` and `ERR_CODE` where bit 1 of `w` is set, and each
warning bit whose bit of `w` is set; everything else of the block is as before. -/
def Obligations.StatusWriteClears : Prop :=
  ∀ (s : State) (w : Word),
    s.writeTarget .statusA w = { s with statusA := {
      err := if w.getLsbD 1 then false else s.statusA.err
      errCode := if w.getLsbD 1 then 0#4 else s.statusA.errCode
      rUnstable := if w.getLsbD 8 then false else s.statusA.rUnstable
      lClamped := if w.getLsbD 9 then false else s.statusA.lClamped
      degenNote := if w.getLsbD 10 then false else s.statusA.degenNote
      nonfinite := if w.getLsbD 11 then false else s.statusA.nonfinite } } ∧
    s.writeTarget .statusD w = { s with statusD := {
      err := if w.getLsbD 1 then false else s.statusD.err
      errCode := if w.getLsbD 1 then 0#4 else s.statusD.errCode
      specSkipped := if w.getLsbD 9 then false else s.statusD.specSkipped } }

/-- R470: `NOP.A` and `NOP.D` complete and leave the whole state as it is. -/
def Obligations.NopsDoNothing : Prop :=
  ∀ s : State, exec .nopA s = .next s ∧ exec .nopD s = .next s

/-! ### Numbers -/

/-- R14, R15: for finite operands the sum, difference, product and quotient (by a number other than zero) are `rnd` of the
exact result (`IsRnd`, in units of 2^-149): infinity of its sign from `2^128 - 2^103` on, below that the nearest finite
number and on a tie the even one. A sum or difference that is exactly zero is `+0`, but of two negative zeros (for a
difference, of `-0` and `+0`) it is `-0`. -/
def Obligations.OperationsRoundToNearest : Prop :=
  ∀ a b : Word, isFinite a = true → isFinite b = true →
    IsRnd (fadd a b) (value a + value b) 1 ∧ IsRnd (fsub a b) (value a - value b) 1 ∧
    IsRnd (fmul a b) (value a * value b) (2 ^ 149) ∧
    (value b ≠ 0 → IsRnd (fdiv a b) (value a * 2 ^ 149 * (value b).sign) (value b).natAbs) ∧
    (value a + value b = 0 → fadd a b = if signBit a && signBit b then fNegZero else fZero) ∧
    (value a - value b = 0 → fsub a b = if signBit a && !signBit b then fNegZero else fZero)

/-- R14: the rounding of `num / den` units takes the even fraction where another number is as near, and becomes infinity
exactly from `2^128 - 2^103` on. -/
def Obligations.RoundingTiesAndOverflow : Prop :=
  ∀ num den : Nat, 0 < den →
    (∀ w : Word, isFinite w = true → isFinite (pack false (rndMag num den)) = true → w ≠ pack false (rndMag num den) →
      |value w * den - num| = |value (pack false (rndMag num den)) * den - num| →
      (pack false (rndMag num den)).getLsbD 0 = false) ∧
    (pack false (rndMag num den) = 0x7F800000#32 ↔ (2 ^ 277 - 2 ^ 252) * den ≤ num) ∧
    (num < (2 ^ 277 - 2 ^ 252) * den → isFinite (pack false (rndMag num den)) = true)

/-- R15: no binary32 number is nearer to the exact square root of a positive finite number than `fsqrt` (in units of
2^-149 the root of `n` units is the root of `n * 2^149`). -/
def Obligations.RootRoundsToNearest : Prop :=
  ∀ a w : Word, isFinite a = true → 0 < value a → isFinite w = true →
    isFinite (fsqrt a) = true ∧
    |(value (fsqrt a) : ℝ) - Real.sqrt (value a * 2 ^ 149)| ≤ |(value w : ℝ) - Real.sqrt (value a * 2 ^ 149)|

/-- R16: every NaN result is exactly `QNAN`, and a NaN operand gives one; R15: the special cases of the operations, and
what they do with an infinity. -/
def Obligations.SpecialAndNaNResults : Prop :=
  ∀ a b : Word,
    (isNaN (fadd a b) = true → fadd a b = 0x7FC00000#32) ∧ (isNaN (fsub a b) = true → fsub a b = 0x7FC00000#32) ∧
    (isNaN (fmul a b) = true → fmul a b = 0x7FC00000#32) ∧ (isNaN (fdiv a b) = true → fdiv a b = 0x7FC00000#32) ∧
    (isNaN (fsqrt a) = true → fsqrt a = 0x7FC00000#32) ∧
    (isNaN a = true ∨ isNaN b = true → fadd a b = qNaN ∧ fsub a b = qNaN ∧ fmul a b = qNaN ∧ fdiv a b = qNaN) ∧
    (isNaN a = true → fsqrt a = qNaN) ∧
    (isInf a = true → isFinite b = true → fadd a b = a ∧ fadd b a = a ∧ fsub a b = a ∧ fsub b a = fneg a ∧
      isInf (fdiv a b) = true ∧ isFinite (fdiv b a) = true ∧ value (fdiv b a) = 0 ∧
      (value b ≠ 0 → isInf (fmul a b) = true ∧ isInf (fmul b a) = true)) ∧
    (isInf a = true → isInf b = true → isInf (fmul a b) = true ∧ (signBit a = signBit b → fadd a b = a) ∧
      (signBit a ≠ signBit b → fsub a b = a)) ∧
    (fsqrt fZero = fZero ∧ fsqrt 0x7F800000#32 = 0x7F800000#32) ∧
    (isInf a = true → isInf b = true → signBit a ≠ signBit b → fadd a b = qNaN) ∧
    (isInf a = true → isInf b = true → signBit a = signBit b → fsub a b = qNaN) ∧
    (isInf a = true → units b = 0 → fmul a b = qNaN ∧ fmul b a = qNaN) ∧
    (units a = 0 → units b = 0 → fdiv a b = qNaN) ∧
    (isInf a = true → isInf b = true → fdiv a b = qNaN) ∧
    (isNaN a = false → value a < 0 → fsqrt a = qNaN) ∧
    (isFinite a = true → units a ≠ 0 → units b = 0 →
      isInf (fdiv a b) = true ∧ signBit (fdiv a b) = (signBit a != signBit b)) ∧
    (fsqrt fNegZero = fNegZero ∧ fadd fNegZero fNegZero = fNegZero) ∧
    (isFinite a = true → fsub a a = fZero) ∧
    (isNaN (fmul a b) = false → signBit (fmul a b) = (signBit a != signBit b)) ∧
    (isNaN (fdiv a b) = false → signBit (fdiv a b) = (signBit a != signBit b))

/-- R18: `i2f` is exact below `2^24`, and `clamp01` is the parameter clamp, whose result is always a number in [0, 1]. -/
def Obligations.IntegersAndClamp : Prop :=
  (∀ n : Nat, n < 2 ^ 24 → isFinite (i2f n) = true ∧ signBit (i2f n) = false ∧ value (i2f n) = n * 2 ^ 149) ∧
  (∀ a : Word,
    (isNaN a = true ∨ value a ≤ 0 → clamp01 a = fZero) ∧
    (isNaN a = false → 2 ^ 149 ≤ value a → clamp01 a = fOne) ∧
    (isNaN a = false → 0 < value a → value a < 2 ^ 149 → clamp01 a = a) ∧
    UnitLevel (clamp01 a))

/-! ### Note commands -/

/-- R252, R253, R261: an error-free `NOTE_ON`, whatever the pitch, latches the sample rate, the clamped velocity, the
unclamped reflection coefficient with its warning, and the loss filter, whose registers it clears only where
`CTRL.FILT_RST_ON_NOTEON` is set. -/
def Obligations.NoteOnLatchesNote : Prop :=
  ∀ (s : State) (v : Fin 8), isFinite s.note.sampleRate = true → fgt s.note.sampleRate fZero = true →
    ∃ t, exec (.noteOn v) s = .next t ∧
      (t.voice v).sr = s.note.sampleRate ∧ (t.voice v).velocity = clamp01 s.arg1 ∧
      (t.voice v).refl = s.note.bridgeR ∧
      t.statusA.rUnstable = (s.statusA.rUnstable || !flt (fabs s.note.bridgeR) fOne) ∧
      (t.voice v).vMode = s.note.filtMode ∧ (t.voice v).vB0 = s.note.filtB0 ∧ (t.voice v).vB1 = s.note.filtB1 ∧
      (t.voice v).vB2 = s.note.filtB2 ∧ (t.voice v).vA1 = s.note.filtA1 ∧ (t.voice v).vA2 = s.note.filtA2 ∧
      (s.ctrl.filtRstOnNoteOn = true → (t.voice v).s1 = fZero ∧ (t.voice v).s2 = fZero) ∧
      (s.ctrl.filtRstOnNoteOn = false → (t.voice v).s1 = (s.voice v).s1 ∧ (t.voice v).s2 = (s.voice v).s2)

/-- R262 to R266: an error-free `NOTE_ON` latches the clamped envelope parameters, sets the rates (the attack rate positive
and at most 1/64), and starts the attack from level 0 on an active voice. The last clause, that the envelope is then within
`EnvOk`, is R308's own inference as the model reads it: a rate may be infinite (log entry 22). -/
def Obligations.NoteOnStartsEnvelope : Prop :=
  ∀ (s : State) (v : Fin 8), isFinite s.note.sampleRate = true → fgt s.note.sampleRate fZero = true →
    ∃ t, exec (.noteOn v) s = .next t ∧
      (t.voice v).sustainLevel = clamp01 s.note.sustain ∧ (t.voice v).releaseTime = clamp01 s.note.release ∧
      (let ta := fmul (clamp01 s.note.attack) s.note.sampleRate
       (t.voice v).attackRate = fdiv fOne (if fge ta 0x42800000#32 then ta else 0x42800000#32)) ∧
      0 < value (t.voice v).attackRate ∧ 64 * value (t.voice v).attackRate ≤ 2 ^ 149 ∧
      (let td := fmul (clamp01 s.note.decay) s.note.sampleRate
       (fgt td fZero = true → (t.voice v).decayRate = fdiv (fsub fOne (clamp01 s.note.sustain)) td) ∧
       (fgt td fZero = false → (t.voice v).decayRate = fZero)) ∧
      (t.voice v).stage = .attack ∧ (t.voice v).envLevel = fZero ∧ (t.voice v).releaseRate = fZero ∧
      (t.voice v).active = true ∧ EnvOk (t.voice v)

/-- R254 to R258: the length, the pluck index and the pickup index of a note of valid pitch, by exact arithmetic, and the
clamp warning. -/
def Obligations.NoteOnSetsGeometry : Prop :=
  ∀ (s : State) (v : Fin 8), isFinite s.note.sampleRate = true → fgt s.note.sampleRate fZero = true →
    isFinite s.arg0 = true → fgt s.arg0 fZero = true →
    ∃ t, exec (.noteOn v) s = .next t ∧ (t.voice v).degen = false ∧
      ((t.voice v).l.toNat : Int) = min (max 2 (value s.note.sampleRate / value s.arg0)) 8192 ∧
      t.statusA.lClamped = (s.statusA.lClamped || decide (8192 < value s.note.sampleRate / value s.arg0)) ∧
      t.statusA.degenNote = s.statusA.degenNote ∧
      (let p := s.note.pluckPos
       let pEff := if isNaN p || fle p fZero then 0x3C000000#32 else if fge p fOne then fOne else p
       let l : Int := (t.voice v).l.toNat
       let raw : Int := value pEff * (l - 1) / 2 ^ 149
       ((t.voice v).pluckIdx.toNat : Int) = if l = 2 then 1 else min (max raw 1) (l - 2)) ∧
      (t.voice v).pickupIdx.toNat = (t.voice v).l.toNat / 2

/-- R259, R260: both lines of a note of valid pitch hold the triangle of its pluck index at half amplitude at the indices
below `L`; elements from `L` on are not written. -/
def Obligations.NoteOnSeedsLines : Prop :=
  ∀ (s : State) (v : Fin 8), isFinite s.note.sampleRate = true → fgt s.note.sampleRate fZero = true →
    isFinite s.arg0 = true → fgt s.arg0 fZero = true →
    ∃ t, exec (.noteOn v) s = .next t ∧
      (let l := (t.voice v).l.toNat
       let k := (t.voice v).pluckIdx.toNat
       (∀ i, i ≤ k → i < l → t.leftAt v i = fmul (fdiv (i2f i) (i2f k)) fHalf) ∧
       (∀ i, k < i → i < l → t.leftAt v i = fmul (fdiv (i2f (l - 1 - i)) (i2f (l - 1 - k))) fHalf) ∧
       (∀ i, i < l → t.rightAt v i = t.leftAt v i) ∧
       (∀ i, l ≤ i → t.leftAt v i = s.leftAt v i ∧ t.rightAt v i = s.rightAt v i))

/-- R254: a `NOTE_ON` whose pitch is not positive and finite starts a degenerate note, whose lines are not written. -/
def Obligations.NoteOnDegenerate : Prop :=
  ∀ (s : State) (v : Fin 8), isFinite s.note.sampleRate = true → fgt s.note.sampleRate fZero = true →
    ¬ (isFinite s.arg0 = true ∧ fgt s.arg0 fZero = true) →
    ∃ t, exec (.noteOn v) s = .next t ∧ (t.voice v).degen = true ∧ (t.voice v).l = 1#14 ∧
      (t.voice v).pluckIdx = 0#14 ∧ (t.voice v).pickupIdx = 0#14 ∧ t.statusA.degenNote = true ∧
      t.statusA.lClamped = s.statusA.lClamped ∧
      (∀ i, t.leftAt v i = s.leftAt v i ∧ t.rightAt v i = s.rightAt v i) ∧
      (t.voice v).active = true ∧ (t.voice v).stage = .attack ∧ (t.voice v).envLevel = fZero

/-- R266: the frame of an error-free `NOTE_ON`: the other voices, every byte of memory, the queue, `RESULT_A`, the host
registers and the display side are as before, and of `STATUS_A` only the warnings can rise. -/
def Obligations.NoteOnFrame : Prop :=
  ∀ (s : State) (v : Fin 8), isFinite s.note.sampleRate = true → fgt s.note.sampleRate fZero = true →
    ∃ t, exec (.noteOn v) s = .next t ∧ OnlyVoice v s t ∧
      t.statusA.err = s.statusA.err ∧ t.statusA.errCode = s.statusA.errCode ∧
      t.statusA.nonfinite = s.statusA.nonfinite ∧
      (s.statusA.rUnstable = true → t.statusA.rUnstable = true) ∧
      (s.statusA.lClamped = true → t.statusA.lClamped = true) ∧
      (s.statusA.degenNote = true → t.statusA.degenNote = true)

/-- R267: a note inherits nothing of the voice's earlier note but `S1` and `S2` (and not these where
`CTRL.FILT_RST_ON_NOTEON` is set): two states that differ in what the voice held give the same note. -/
def Obligations.NoteOnForgetsEarlierNote : Prop :=
  ∀ (s : State) (v : Fin 8) (x y : Voice), isFinite s.note.sampleRate = true → fgt s.note.sampleRate fZero = true →
    (s.ctrl.filtRstOnNoteOn = true ∨ (x.s1 = y.s1 ∧ x.s2 = y.s2)) →
    ∃ t u, exec (.noteOn v) (s.setVoice v x) = .next t ∧ exec (.noteOn v) (s.setVoice v y) = .next u ∧
      { t.voice v with left := [], right := [] } = { u.voice v with left := [], right := [] } ∧
      ((t.voice v).degen = false → ∀ i, i < (t.voice v).l.toNat →
        t.leftAt v i = u.leftAt v i ∧ t.rightAt v i = u.rightAt v i) ∧
      t.statusA = u.statusA ∧ SameVoicesBut v t u

/-- R259, as derived there: the excitation is in [0, 1], is 1 at the pluck index, and is +0 at index 0 and, where the
falling ramp is not empty, at index `L - 1`. -/
def Obligations.ExcitationShape : Prop :=
  ∀ l k : Nat, 2 ≤ l → l ≤ 8192 → 1 ≤ k → k < l →
    (∀ i, i < l → UnitLevel (excitation l k i)) ∧ excitation l k k = fOne ∧ excitation l k 0 = fZero ∧
    (k < l - 1 → excitation l k (l - 1) = fZero)

/-- R256, R257: the pluck index of a line of three elements or more lies in [1, L-2] for every `PLUCK_POS`, NaN and
infinities included; of a line of two it is 1. -/
def Obligations.PluckIndexInside : Prop :=
  ∀ (p : Word) (l : Nat),
    (3 ≤ l → 1 ≤ pluckIndex p l ∧ pluckIndex p l ≤ l - 2) ∧ (l = 2 → pluckIndex p l = 1) ∧
    (3 ≤ l → isNaN p = true ∨ value p ≤ 0 → pluckIndex p l = min (max ((l - 1) / 128) 1) (l - 2)) ∧
    (3 ≤ l → isNaN p = false → 2 ^ 149 ≤ value p → pluckIndex p l = l - 2)

/-- R269, R270: `NOTE_OFF` of a voice below `NUM_VOICES`: nothing on an idle voice; idle at once without a tail or with no
positive rate; else the release stage at the rate from the live level. Nothing else changes. Of a higher voice number it
is `VOICE_RANGE`. -/
def Obligations.NoteOffReleases : Prop :=
  (∀ (s : State) (v : Nat) (tail : Bool), 8 ≤ v →
    ∃ t, exec (.noteOff v tail) s = .next t ∧ RecordsError .a 3#4 s t) ∧
  ∀ (s : State) (v : Fin 8) (tail : Bool),
    ∃ t, exec (.noteOff v tail) s = .next t ∧ OnlyVoice v s t ∧ t.statusA = s.statusA ∧
      ((s.voice v).active = false → t.voice v = s.voice v) ∧
      ((s.voice v).active = true → tail = false →
        t.voice v = { s.voice v with stage := .idle, envLevel := fZero, active := false }) ∧
      ((s.voice v).active = true → tail = true →
        (let tr := fmul (s.voice v).releaseTime (s.voice v).sr
         let rate := if fgt tr fZero then fdiv (s.voice v).envLevel tr else fZero
         (fgt rate fZero = true → t.voice v = { s.voice v with releaseRate := rate, stage := .release }) ∧
         (fgt rate fZero = false →
           t.voice v = { s.voice v with stage := .idle, envLevel := fZero, active := false })))

/-! ### Rendering -/

/-- R303: the waveguide step on lines of `L >= 2` elements: `LEFT` moves towards index 0, `RIGHT` away from it, the nut is
the negated old `LEFT[0]`, and the bridge is `-r` times the new `RIGHT[L-1]`. -/
def Obligations.WaveguideStepReflects : Prop :=
  ∀ (refl : Word) (left right : List Word), 2 ≤ left.length → right.length = left.length →
    (let w := waveguideStep refl left right
     w.1.length = left.length ∧ w.2.length = left.length ∧
     (∀ i, i + 1 < left.length → w.1[i]? = left[i + 1]?) ∧
     (∀ i, 1 ≤ i → i < left.length → w.2[i]? = right[i - 1]?) ∧
     w.2[0]? = left[0]?.map fneg ∧
     w.1[left.length - 1]? = w.2[left.length - 1]?.map (fmul (fneg refl)))

/-- R304, R305, R306: the loss filter runs over the interior indices `1..L-2` in ascending order with its state threaded
through, leaves the two ends as they are, and is the one-pole or the biquad form by `V_MODE`. -/
def Obligations.InteriorFilterThreads : Prop :=
  ∀ (v : Voice) (st : FiltState) (left : List Word), 2 ≤ left.length →
    (let out := filterInterior v st left
     out.1.length = left.length ∧ out.1[0]? = left[0]? ∧ out.1[left.length - 1]? = left[left.length - 1]? ∧
     ∃ states : Nat → FiltState, states 1 = st ∧ states (left.length - 1) = out.2 ∧
       ∀ i x y, 1 ≤ i → i + 1 < left.length → left[i]? = some x → out.1[i]? = some y →
         (v.vMode = false →
           y = fsub (fmul v.vB0 x) (fmul v.vA1 (states i).s1) ∧ states (i + 1) = ⟨y, (states i).s2⟩) ∧
         (v.vMode = true →
           y = fadd (fmul v.vB0 x) (states i).s1 ∧
           states (i + 1) = ⟨fadd (fsub (fmul v.vB1 x) (fmul v.vA1 y)) (states i).s2,
             fsub (fmul v.vB2 x) (fmul v.vA2 y)⟩))

/-- R66, R305, R306, as derived there: the reset coefficients pass every finite input unchanged in value, in the one-pole
form for any finite `S1`, in the biquad form for `S1 = S2 = +0`. -/
def Obligations.IdentityFilterPasses : Prop :=
  ∀ (v : Voice) (x : Word), isFinite x = true →
    v.vB0 = fOne → v.vB1 = fZero → v.vB2 = fZero → v.vA1 = fZero → v.vA2 = fZero →
    (v.vMode = false → isFinite v.s1 = true →
      isFinite (filterStep v ⟨v.s1, v.s2⟩ x).1 = true ∧ value (filterStep v ⟨v.s1, v.s2⟩ x).1 = value x) ∧
    (v.vMode = true →
      isFinite (filterStep v ⟨fZero, fZero⟩ x).1 = true ∧ value (filterStep v ⟨fZero, fZero⟩ x).1 = value x)

/-- R302, R303, R304, R307, R308, R309: one sample of a voice with lines: the waveguide step on the elements below `L`,
the interior filter, the pickup read after it, the envelope's next value, and the scaling; elements from `L` on stay. -/
def Obligations.RenderSampleSteps : Prop :=
  ∀ (draw n : Nat) (v : Voice), v.degen = false → 2 ≤ v.l.toNat → v.pickupIdx.toNat < v.l.toNat →
    (let left := (List.range v.l.toNat).map (fun i => v.left.getD i (freeLeft draw n i))
     let right := (List.range v.l.toNat).map (fun i => v.right.getD i (freeRight draw n i))
     let w := waveguideStep v.refl left right
     let f := filterInterior v ⟨v.s1, v.s2⟩ w.1
     let r := v.renderSample draw n
     (∀ i, i < v.l.toNat →
       r.1.left.getD i (freeLeft draw n i) = f.1.getD i fZero ∧
       r.1.right.getD i (freeRight draw n i) = w.2.getD i fZero) ∧
     (∀ i, v.l.toNat ≤ i →
       r.1.left.getD i (freeLeft draw n i) = v.left.getD i (freeLeft draw n i) ∧
       r.1.right.getD i (freeRight draw n i) = v.right.getD i (freeRight draw n i)) ∧
     r.1.s1 = f.2.s1 ∧ r.1.s2 = f.2.s2 ∧
     r.1.envLevel = v.envNext.envLevel ∧ r.1.stage = v.envNext.stage ∧ r.1.active = v.active ∧
     SameNote v r.1 ∧
     r.2 = fmul (fmul (fadd (f.1.getD v.pickupIdx.toNat fZero) (w.2.getD v.pickupIdx.toNat fZero))
       v.envNext.envLevel) v.velocity)

/-- R302, R311: the samples of a voice are computed in order, each from the voice as the one before left it; a degenerate
voice only runs its envelope, once a sample, and gives no output. -/
def Obligations.RenderSamplesInOrder : Prop :=
  ∀ (draw n count : Nat) (v : Voice),
    (v.degen = false → 2 ≤ v.l.toNat →
      (let next := fun x : Voice => (x.renderSample draw n).1
       (v.renderSamples draw n count).1 = next^[count] v ∧
       (v.renderSamples draw n count).2.length = count ∧
       ∀ j, j < count → (v.renderSamples draw n count).2[j]? = some ((next^[j] v).renderSample draw n).2)) ∧
    (v.degen = true → v.renderSamples draw n count = (Voice.envNext^[count] v, []))

/-- R308: the envelope's next value in every stage; and, as inferred there, levels that stay in [0, 1], in the model's
reading that a rate may be infinite (log entry 22). -/
def Obligations.EnvelopeFollowsItsStage : Prop :=
  ∀ v : Voice,
    (v.stage = .idle → v.envNext = { v with envLevel := fZero }) ∧
    (v.stage = .attack →
      (fge (fadd v.envLevel v.attackRate) fOne = true →
        v.envNext = { v with envLevel := fOne, stage := if fgt v.decayRate fZero then .decay else .sustain }) ∧
      (fge (fadd v.envLevel v.attackRate) fOne = false →
        v.envNext = { v with envLevel := fadd v.envLevel v.attackRate })) ∧
    (v.stage = .decay →
      (fle (fsub v.envLevel v.decayRate) v.sustainLevel = true →
        v.envNext = { v with envLevel := v.sustainLevel, stage := .sustain }) ∧
      (fle (fsub v.envLevel v.decayRate) v.sustainLevel = false →
        v.envNext = { v with envLevel := fsub v.envLevel v.decayRate })) ∧
    (v.stage = .sustain → v.envNext = { v with envLevel := v.sustainLevel }) ∧
    (v.stage = .release →
      (fle (fsub v.envLevel v.releaseRate) fZero = true → v.envNext = { v with envLevel := fZero, stage := .idle }) ∧
      (fle (fsub v.envLevel v.releaseRate) fZero = false →
        v.envNext = { v with envLevel := fsub v.envLevel v.releaseRate })) ∧
    (EnvOk v → EnvOk v.envNext)

/-- R301, R302, R309 to R312: `RENDER_BLOCK` of a block in range renders every active voice and no other, adds each
non-degenerate voice's samples into every channel in ascending voice number, sets `NONFINITE` for a non-finite sample,
and ends a voice at `IDLE` after the block. The premise on lengths is a clause of `Inv` (R82). -/
def Obligations.RenderBlockAccumulates : Prop :=
  ∀ (s : State) (start count : Nat), start + count ≤ 1024 →
    (∀ v, (s.voice v).active = true → (s.voice v).degen = false → 2 ≤ (s.voice v).l.toNat) →
    ∃ t, exec (.renderBlock start count) s = .next t ∧
      (∀ v : Fin 8, (s.voice v).active = false → t.voice v = s.voice v) ∧
      (∀ v : Fin 8, (s.voice v).active = true →
        (let r := ((s.voice v).renderSamples s.ramDraw v count).1
         t.voice v = { r with active := !decide (r.stage = .idle) })) ∧
      (∀ c j, c < 2 → j < count →
        t.outBuf c (start + j) = (List.finRange 8).foldl
          (fun acc v =>
            if (s.voice v).active && !(s.voice v).degen then
              fadd acc (((s.voice v).renderSamples s.ramDraw v count).2.getD j fZero)
            else acc)
          (s.outBuf c (start + j))) ∧
      t.statusA.nonfinite = (s.statusA.nonfinite || (List.finRange 8).any (fun v =>
        (s.voice v).active && ((s.voice v).renderSamples s.ramDraw v count).2.any (fun o => !isFinite o)))

/-- R313, R314, R317(a): the frame of `RENDER_BLOCK` of a block in range: only the block's own words of `OUT_BUF` change;
no voice's note, latched values, length or elements from `L` on change; of `STATUS_A` only `NONFINITE` can rise; and the
queue gets the block's channel-0 sums, as they are after the render, exactly where `CTRL.VIS_AUTO` is set. -/
def Obligations.RenderBlockFrame : Prop :=
  ∀ (s : State) (start count : Nat), start + count ≤ 1024 →
    ∃ t, exec (.renderBlock start count) s = .next t ∧ SameBytesBut (blockBytes start count) s t ∧
      (∀ v, SameNote (s.voice v) (t.voice v)) ∧
      (∀ v i, (s.voice v).l.toNat ≤ i → t.leftAt v i = s.leftAt v i ∧ t.rightAt v i = s.rightAt v i) ∧
      t.resultA = s.resultA ∧ SameHostSide s t ∧ SameDisplay s t ∧
      t.statusA = { s.statusA with nonfinite := t.statusA.nonfinite } ∧
      (s.statusA.nonfinite = true → t.statusA.nonfinite = true) ∧
      t.pushq = if s.ctrl.visAuto then s.pushq ++ (List.range count).map (fun j => t.outBuf 0 (start + j))
        else s.pushq

/-- R317(b): with `REFL` zero, finite lines, and a loss filter without memory whose gain is at most 1 (the identity filter
in either form is one; the biquad with zero state), every element of both lines and every output is a zero after `2L`
samples. The premises on the envelope, the velocity and the pickup are clauses of `Inv`. -/
def Obligations.SilentAfterTwoLengths : Prop :=
  ∀ (draw n count : Nat) (v : Voice), v.degen = false → 2 ≤ v.l.toNat → v.pickupIdx.toNat < v.l.toNat →
    value v.refl = 0 → |value v.vB0| ≤ 2 ^ 149 → value v.vA1 = 0 →
    (v.vMode = false → isFinite v.s1 = true) →
    (v.vMode = true → value v.vB1 = 0 ∧ value v.vB2 = 0 ∧ value v.vA2 = 0 ∧ value v.s1 = 0 ∧ value v.s2 = 0) →
    EnvOk v → UnitLevel v.velocity →
    (∀ i, i < v.l.toNat → isFinite (v.left.getD i (freeLeft draw n i)) = true ∧
      isFinite (v.right.getD i (freeRight draw n i)) = true) →
    2 * v.l.toNat ≤ count →
    (∀ i, i < v.l.toNat →
      value ((v.renderSamples draw n count).1.left.getD i (freeLeft draw n i)) = 0 ∧
      value ((v.renderSamples draw n count).1.right.getD i (freeRight draw n i)) = 0) ∧
    ∀ j out, 2 * v.l.toNat ≤ j → (v.renderSamples draw n count).2[j]? = some out → value out = 0

/-- R315: `OUT_CLEAR` of a block in range makes the block's elements of every channel `+0` and changes nothing else; of a
block out of range it is `BLOCK_RANGE`. -/
def Obligations.OutClearZeroesItsBlock : Prop :=
  (∀ (s : State) (start count : Nat), 1024 < start + count →
    ∃ t, exec (.outClear start count) s = .next t ∧ RecordsError .a 4#4 s t) ∧
  ∀ (s : State) (start count : Nat), start + count ≤ 1024 →
    ∃ t, exec (.outClear start count) s = .next t ∧
      (∀ c j, c < 2 → j < count → t.outBuf c (start + j) = fZero) ∧ SameBytesBut (blockBytes start count) s t ∧
      SameVoices s t ∧ t.statusA = s.statusA ∧ t.resultA = s.resultA ∧ t.pushq = s.pushq ∧ SameHostSide s t ∧
      SameDisplay s t

/-! ### Visualization -/

/-- R350: `VIS_PUSH` appends `ARG0`, whatever its pattern, to the queue, so that `STATUS_A.BUSY` is 1, and changes nothing
else. -/
def Obligations.VisPushQueuesItsSample : Prop :=
  ∀ s : State, ∃ t, exec .visPush s = .next t ∧ t.pushq = s.pushq ++ [s.arg0] ∧ t.busyA = true ∧ SameSound s t ∧
    t.resultA = s.resultA ∧ SameDisplay s t

/-- R352, R356: engine A's step removes the head of the queue, writes it at `WAVE_RING[WAVE_CURSOR mod 512]` and nowhere
else in memory, and increments the cursor modulo 2^32. -/
def Obligations.PushWritesRing : Prop :=
  ∀ (s : State) (x : Word) (rest : List Word), s.pushq = x :: rest →
    (let t := s.engineAStep
     t.pushq = rest ∧ t.waveRing (s.vis.waveCursor.toNat % 512) = x ∧
     SameBytesBut (wordBytes (ringAddr (s.vis.waveCursor.toNat % 512))) s t ∧
     t.vis.waveCursor.toNat = (s.vis.waveCursor.toNat + 1) % 2 ^ 32 ∧
     SameVoices s t ∧ t.statusA = s.statusA ∧ t.resultA = s.resultA ∧ SameHostSide s t ∧ t.job = s.job ∧
     t.processed = s.processed)

/-- R353, R354, R355: the same step writes the sample at `FIFO[FIFO_INDEX]`; a push that fills the FIFO copies it into
`TBUF` and sets `READY`, or, where a block is still ready, keeps `TBUF` and sets `SPEC_SKIPPED`; the index then restarts
at 0. -/
def Obligations.PushFillsFifo : Prop :=
  ∀ (s : State) (x : Word) (rest : List Word), s.pushq = x :: rest →
    (let t := s.engineAStep
     let k := s.vis.fifoIndex.toNat
     t.fifoAt k = x ∧ (∀ j, j ≠ k → t.fifoAt j = s.fifoAt j) ∧
     (k < 2047 → t.vis.fifoIndex.toNat = k + 1 ∧ t.vis.ready = s.vis.ready ∧ t.statusD = s.statusD ∧
       ∀ n, t.tbufAt n = s.tbufAt n) ∧
     (k = 2047 → s.vis.ready = false → t.vis.fifoIndex = 0#11 ∧ t.vis.ready = true ∧ t.statusD = s.statusD ∧
       ∀ n, n < 2048 → t.tbufAt n = (t.fifoAt n, fZero)) ∧
     (k = 2047 → s.vis.ready = true → t.vis.fifoIndex = 0#11 ∧ t.vis.ready = true ∧
       t.statusD = { s.statusD with specSkipped := true } ∧ ∀ n, t.tbufAt n = s.tbufAt n))

/-- R161, R170: `STATUS_A.BUSY` becomes 0 after as many engine A steps as the queue is long, and not before. In a run that
is weakly fair to both engines no access stays held for ever; so an access a host has issued, held or not, is performed
in the end, where the host itself is not passed over for ever while its access is enabled again and again (a premise of
the model's own: R170 gives none for hosts, log entry 6). -/
def Obligations.QueueDrains : Prop :=
  (∀ (s : State) (n : Nat), (State.engineAStep^[n] s).pushq = s.pushq.drop n ∧
    ((State.engineAStep^[n] s).busyA = false ↔ s.pushq.length ≤ n)) ∧
  ∀ run : Nat → State, IsRun run → EnginesFair run →
    (∀ (x : Access) (k : Nat), ∃ j, k ≤ j ∧ (run j).holds x = false) ∧
    ∀ p : Port, StronglyFair run (hostAgent p) →
      ∀ (k : Nat) (x : Access) (rest : List Access), ((run k).hostPort p).pending = x :: rest →
        ∃ j, k ≤ j ∧ ((run j).hostPort p).pending = x :: rest ∧ (run j).holds x = false ∧
          (run j).nextAgent = some (hostAgent p)

/-! ### Spectrum -/

/-- R400: `SPEC_PROCESS` starts a job where a block is ready and reports `PROCESSED = 0` where none is; nothing else
changes. -/
def Obligations.SpecProcessStartsJob : Prop :=
  ∀ s : State, ∃ t, exec .specProcess s = .next t ∧ SameSound s t ∧ t.resultA = s.resultA ∧ t.pushq = s.pushq ∧
    t.vis = s.vis ∧ t.statusD = s.statusD ∧
    (s.vis.ready = false → t.processed = false ∧ t.job = s.job) ∧
    (s.vis.ready = true → t.processed = s.processed ∧ t.job = true)

/-- R403, R404, R405: the reordering reverses the 11 index bits, and each stage `s` is the butterfly of R405 on every pair
`(b + k, b + k + h)` with the twiddle `k * (2048 / 2^s)`; the transform is the stages 1 to 11 after the reordering. -/
def Obligations.TransformStageButterflies : Prop :=
  (∀ x, transform x = (List.range' 1 11).foldl (fun a s => stage s a) (bitReversed x)) ∧
  (∀ n, n < 2048 → revBits 11 n < 2048 ∧ ∀ b, b < 11 → (revBits 11 n).testBit b = n.testBit (10 - b)) ∧
  (∀ (x : List Cplx) (n : Nat), x.length = 2048 → n < 2048 → (bitReversed x)[n]? = x[revBits 11 n]?) ∧
  (∀ (xs : List Cplx) (s : Nat), xs.length = 2048 → 1 ≤ s → s ≤ 11 →
    (stage s xs).length = 2048 ∧
    ∀ (q k : Nat) (a c : Cplx), q < 2048 / 2 ^ s → k < 2 ^ s / 2 →
      xs[q * 2 ^ s + k]? = some a → xs[q * 2 ^ s + k + 2 ^ s / 2]? = some c →
      (let cs := twCosRom.getD (k * (2048 / 2 ^ s)) fZero
       let sn := twSinRom.getD (k * (2048 / 2 ^ s)) fZero
       let tr := fadd (fmul cs c.1) (fmul sn c.2)
       let ti := fsub (fmul cs c.2) (fmul sn c.1)
       (stage s xs)[q * 2 ^ s + k]? = some (fadd a.1 tr, fadd a.2 ti) ∧
       (stage s xs)[q * 2 ^ s + k + 2 ^ s / 2]? = some (fsub a.1 tr, fsub a.2 ti)))

/-- R402, R406 to R409: engine D's step on a whole block writes every `SCOPE[i]` with the level of the magnitude of its
bin, a number in [0, 1], and completes the job; every byte outside `SCOPE`, every voice and port A are as before. -/
def Obligations.SpectrumJobCompletes : Prop :=
  ∀ s : State,
    (let t := s.engineDStep
     let x := (List.range 2048).map (fun n => (fmul (s.tbufAt n).1 (windowRom.getD n fZero), (s.tbufAt n).2))
     let a := transform x
     (∀ i k, skewIdxEntries[i]? = some k →
       (let c := a.getD k (fZero, fZero)
        t.scope i = level (fsqrt (fadd (fmul c.1 c.1) (fmul c.2 c.2))) ∧ UnitLevel (t.scope i))) ∧
     t.vis.ready = false ∧ t.processed = true ∧ t.job = false ∧ SameBytesBut scopeBytes s t ∧ SameVoices s t ∧
     t.statusA = s.statusA ∧ t.statusD = s.statusD ∧ t.resultA = s.resultA ∧ t.pushq = s.pushq ∧ SameHostSide s t ∧
     t.vis.waveCursor = s.vis.waveCursor ∧ t.vis.fifoIndex = s.vis.fifoIndex ∧ ∀ n, t.fifoAt n = s.fifoAt n)

/-- R408: the clamps of the level are exact, and every level is a number in [0, 1]. The level of a negative pattern, which
no magnitude is, is the model's choice (log entry 16). -/
def Obligations.LevelClampsToUnit : Prop :=
  ∀ m : Word,
    (isNaN m = true ∨ units m = 0 → level m = fZero) ∧ (m = 0x7F800000#32 → level m = fOne) ∧
    (isFinite m = true → 0 < value m → value m * 10 ^ 5 ≤ 2 ^ 160 → level m = fZero) ∧
    (isFinite m = true → 2 ^ 160 ≤ value m → level m = fOne) ∧
    UnitLevel (level m)

/-- R408, R19: between the clamps the level is `rnd` (R14) of the exact real `1 + log10(val(m) / 2048) / 5`: no binary32
number is nearer to it, and of two as near the level is the even one (in units of 2^-149; 2048 is 2^160 units). With it
the model's means (log entry 15): the two rationals whose roundings are `levelLo` and `levelHi` enclose that real. -/
def Obligations.LevelBoundsEncloseLogarithm : Prop :=
  (∀ n : Nat, 2 ^ 160 < n * 10 ^ 5 → n < 2 ^ 160 →
    ((5 * ln10Lo - dropHi n : ℕ) : ℝ) / (5 * ln10Hi : ℕ) ≤ 1 + Real.logb 10 (n / 2 ^ 160) / 5 ∧
    1 + Real.logb 10 (n / 2 ^ 160) / 5 ≤ ((5 * ln10Hi - dropLo n : ℕ) : ℝ) / (5 * ln10Lo : ℕ)) ∧
  ∀ m w : Word, isFinite m = true → 2 ^ 160 < value m * 10 ^ 5 → value m < 2 ^ 160 → isFinite w = true →
    (let x : ℝ := (1 + Real.logb 10 (value m / 2 ^ 160) / 5) * 2 ^ 149
     |(value (level m) : ℝ) - x| ≤ |(value w : ℝ) - x| ∧
     (w ≠ level m → |(value (level m) : ℝ) - x| = |(value w : ℝ) - x| → (level m).getLsbD 0 = false))

/-- R451 to R454: the properties and checksums the spec gives the ROM tables, and the integer form of `SKEW_IDX`. -/
def Obligations.RomTables : Prop :=
  windowRom.length = 2048 ∧ twCosRom.length = 1024 ∧ twSinRom.length = 1024 ∧ skewIdxEntries.length = 1024 ∧
  windowEntries.sum % 2 ^ 32 = 0x58EC98EA ∧ twCosEntries.sum % 2 ^ 32 = 0x2CD1EC76 ∧
  twSinEntries.sum % 2 ^ 32 = 0xACD1EC76 ∧ skewIdxEntries.sum = 0x0002A70D ∧
  windowRom.reverse = windowRom ∧ windowRom.getD 1023 fZero = 0x40000FFD#32 ∧ windowRom.getD 0 fOne = fZero ∧
  (∀ t, 1 ≤ t → t < 512 → twCosRom.getD (1024 - t) fZero = fneg (twCosRom.getD t fZero)) ∧
  (∀ t, t ≤ 512 → twSinRom.getD t fZero = twCosRom.getD (512 - t) fZero) ∧
  (∀ t, 1 ≤ t → t < 512 → twSinRom.getD t fZero = twSinRom.getD (1024 - t) fZero) ∧
  (∀ i k, skewIdxEntries[i]? = some k →
    k ≤ 768 ∧ 2 ^ 40 * (1024 - i) ≤ (1024 - k) ^ 5 ∧ (1023 - k) ^ 5 < 2 ^ 40 * (1024 - i))

/-! ### PEEK -/

/-- R473, R475: `PEEK` of a line element below `L` of a voice that has lines writes it to `RESULT_A` and changes nothing
else. -/
def Obligations.PeekReadsLines : Prop :=
  ∀ (s : State) (v : Fin 8) (n : Nat), (s.voice v).degen = false → 2 ≤ (s.voice v).l.toNat →
    n < (s.voice v).l.toNat →
    exec (.peek v .left n) s = .next { s with resultA := s.leftAt v n } ∧
    exec (.peek v .right n) s = .next { s with resultA := s.rightAt v n }

/-- R474, R475: `PEEK` of a voice register 0 to 20 writes it to `RESULT_A`, in the table's order, and changes nothing
else. -/
def Obligations.PeekReadsRegisters : Prop :=
  ∀ (s : State) (v : Fin 8) (n : Nat) (w : Word),
    (let x := s.voice v
     let stage := match x.stage with
       | .idle => 0
       | .attack => 1
       | .decay => 2
       | .sustain => 3
       | .release => 4
     [BitVec.ofNat 32 (x.active.toNat + 2 * stage + 16 * x.degen.toNat), x.l.setWidth 32, x.pluckIdx.setWidth 32,
       x.pickupIdx.setWidth 32, x.envLevel, x.attackRate, x.decayRate, x.releaseRate, x.sustainLevel, x.releaseTime,
       x.velocity, x.refl, x.sr, x.s1, x.s2, BitVec.ofNat 32 x.vMode.toNat, x.vB0, x.vB1, x.vB2, x.vA1,
       x.vA2][n]? = some w) →
    exec (.peek v .reg n) s = .next { s with resultA := w }

/-! ### The bus and the agents -/

/-- R56, R67, R55, R60: the bits of `STATUS_A`, `STATUS_D`, `CTRL` and `VOICE_ACTIVE`; reserved bits read 0. -/
def Obligations.StatusWordBits : Prop :=
  ∀ (s : State) (b : Nat),
    (s.statusAWord.getLsbD b =
      if b = 0 then !s.pushq.isEmpty else if b = 1 then s.statusA.err
      else if 4 ≤ b ∧ b < 8 then s.statusA.errCode.getLsbD (b - 4)
      else if b = 8 then s.statusA.rUnstable else if b = 9 then s.statusA.lClamped
      else if b = 10 then s.statusA.degenNote else if b = 11 then s.statusA.nonfinite else false) ∧
    (s.statusDWord.getLsbD b =
      if b = 0 then s.job else if b = 1 then s.statusD.err
      else if 4 ≤ b ∧ b < 8 then s.statusD.errCode.getLsbD (b - 4)
      else if b = 8 then s.vis.ready else if b = 9 then s.statusD.specSkipped else false) ∧
    (s.ctrlWord.getLsbD b =
      if b = 0 then s.ctrl.visAuto else if b = 1 then s.ctrl.filtRstOnNoteOn else false) ∧
    (s.voiceActiveWord.getLsbD b = if h : b < 8 then (s.voice ⟨b, h⟩).active else false)

/-- R157: a host's read changes nothing of the block; mapped, aligned and 32 bits wide it returns the element's value, and
the host's later accesses wait in their order. The value of every element is the piece of state its rule names (R52 to R71,
R90, R91, R95), reserved bits 0, `CMD_A` and `CMD_D` 0. -/
def Obligations.ReadsHaveNoSideEffect : Prop :=
  ∀ (p : Port) (s : State) (w : Width) (o : Offset) (rest : List Access),
    (s.hostPort p).pending = .read w o :: rest →
    ∃ t, hostStep p s = .next t ∧ SameBlock s t ∧
      ∀ r, w = .w32 → o.toNat % 4 = 0 → targetAt o.toNat = some r →
        ∃ x : Word, t.hostPort p = ⟨rest, .readData x⟩ ∧ s.readTarget r = x ∧
          match r with
          | .id => x = 0x57475645#32
          | .version => x = 0x00000001#32
          | .config0 => x = 0x00000288#32
          | .config1 => x = 0x04002000#32
          | .ctrl => x = s.ctrlWord
          | .statusA => x = s.statusAWord
          | .cmdA => x = 0#32
          | .resultA => x = s.resultA
          | .arg0 => x = s.arg0
          | .arg1 => x = s.arg1
          | .voiceActive => x = s.voiceActiveWord
          | .sampleRate => x = s.note.sampleRate
          | .attack => x = s.note.attack
          | .decay => x = s.note.decay
          | .sustain => x = s.note.sustain
          | .release => x = s.note.release
          | .bridgeR => x = s.note.bridgeR
          | .pluckPos => x = s.note.pluckPos
          | .filtMode => x = if s.note.filtMode then 1#32 else 0#32
          | .filtB0 => x = s.note.filtB0
          | .filtB1 => x = s.note.filtB1
          | .filtB2 => x = s.note.filtB2
          | .filtA1 => x = s.note.filtA1
          | .filtA2 => x = s.note.filtA2
          | .statusD => x = s.statusDWord
          | .cmdD => x = 0#32
          | .resultD => x = if s.processed then 1#32 else 0#32
          | .waveCursor => x = s.vis.waveCursor
          | .fifoIndex => x.toNat = s.vis.fifoIndex.toNat
          | .waveRing k => x = s.waveRing k
          | .scope i => x = s.scope i
          | .outBuf c i => x = s.outBuf c i

/-- R158: a host's step that performs a 32-bit write to a mapped element other than a command register answers the state
with that element written. There RW elements read back what was stored (with reserved bits 0), RO elements ignore it, and
no other element, no voice and no queue changes; `StatusWriteClears` says what the status registers do. -/
def Obligations.WritesStoreTheirElement : Prop :=
  ∀ (s : State) (x : Word),
    (∀ (p : Port) (o : Offset) (r : Target) (rest : List Access),
      (s.hostPort p).pending = .write .w32 o x :: rest → o.toNat % 4 = 0 → targetAt o.toNat = some r →
      r ≠ .cmdA → r ≠ .cmdD →
      hostStep p s = .next ((s.setHostPort p ⟨rest, .writeDone⟩).writeTarget r x)) ∧
    (∀ r ∈ [Target.arg0, .arg1, .sampleRate, .attack, .decay, .sustain, .release, .bridgeR, .pluckPos, .filtB0,
      .filtB1, .filtB2, .filtA1, .filtA2], (s.writeTarget r x).readTarget r = x) ∧
    (s.writeTarget .ctrl x).readTarget .ctrl = x &&& 0x3#32 ∧
    (s.writeTarget .filtMode x).readTarget .filtMode = x &&& 0x1#32 ∧
    (∀ c i, (s.writeTarget (.outBuf c i) x).readTarget (.outBuf c i) = x ∧
      SameBytesBut (wordBytes (outAddr c i)) s (s.writeTarget (.outBuf c i) x)) ∧
    (∀ r ∈ [Target.id, .version, .config0, .config1, .resultA, .voiceActive, .resultD, .waveCursor, .fifoIndex],
      s.writeTarget r x = s) ∧
    (∀ k, s.writeTarget (.waveRing k) x = s ∧ s.writeTarget (.scope k) x = s) ∧
    (∀ r, SameVoices s (s.writeTarget r x) ∧ (s.writeTarget r x).pushq = s.pushq ∧
      (s.writeTarget r x).vis = s.vis ∧ (s.writeTarget r x).job = s.job) ∧
    (∀ o o' r r', targetAt o = some r → targetAt o' = some r' → o % 4 = 0 → o' % 4 = 0 → o ≠ o' →
      (s.writeTarget r x).readTarget r' = s.readTarget r')

/-- R153, R154: what each offset of the map names, and that the aligned offsets that name nothing are the listed gaps and
everything above `OUT_BUF`. -/
def Obligations.UnmappedOffsets : Prop :=
  (∀ o : Offset, o.toNat % 4 = 0 →
    (targetAt o.toNat = none ↔
      o.toNat = 0x02C ∨ (0x064 ≤ o.toNat ∧ o.toNat < 0x100) ∨ (0x114 ≤ o.toNat ∧ o.toNat < 0x1000) ∨
      (0x1800 ≤ o.toNat ∧ o.toNat < 0x2000) ∨ (0x3000 ≤ o.toNat ∧ o.toNat < 0x4000) ∨ 0x6000 ≤ o.toNat)) ∧
  (∀ e ∈ [(0x000, Target.id), (0x004, .version), (0x008, .config0), (0x00C, .config1), (0x010, .ctrl), (0x014, .statusA),
    (0x018, .cmdA), (0x01C, .resultA), (0x020, .arg0), (0x024, .arg1), (0x028, .voiceActive), (0x030, .sampleRate),
    (0x034, .attack), (0x038, .decay), (0x03C, .sustain), (0x040, .release), (0x044, .bridgeR), (0x048, .pluckPos),
    (0x04C, .filtMode), (0x050, .filtB0), (0x054, .filtB1), (0x058, .filtB2), (0x05C, .filtA1), (0x060, .filtA2),
    (0x100, .statusD), (0x104, .cmdD), (0x108, .resultD), (0x10C, .waveCursor), (0x110, .fifoIndex)],
    targetAt e.1 = some e.2) ∧
  (∀ k, k < 512 → targetAt (0x1000 + 4 * k) = some (.waveRing k)) ∧
  (∀ i, i < 1024 → targetAt (0x2000 + 4 * i) = some (.scope i)) ∧
  ∀ c i, c < 2 → i < 1024 → targetAt (0x4000 + 0x1000 * c + 4 * i) = some (.outBuf c i)

/-- R159, R505: an access of another width, misaligned or unmapped changes no state of the block, so that a write is
discarded, and is answered by an error response, with which a read returns `0x00000000`. -/
def Obligations.BusErrorChangesNothing : Prop :=
  ∀ (p : Port) (s : State) (x : Access) (rest : List Access), (s.hostPort p).pending = x :: rest →
    (x.width ≠ .w32 ∨ x.offset % 4 ≠ 0 ∨ targetAt x.offset = none) →
    ∃ t e, hostStep p s = .next t ∧ SameBlock s t ∧
      (x.isRead = true → (t.hostPort p).response = .readError e 0x00000000#32) ∧
      (x.isRead = false → (t.hostPort p).response = .writeError e)

/-- R160, R161, R162: which aligned accesses are held, and that a host whose oldest access is held does not take the next
step, so that the access is not performed. That the unmapped gap 0x02C and accesses of 8, 16 and 64 bits in the held
ranges are held too, their bus error waiting, is the model's choice (log entry 11). -/
def Obligations.HeldAccesses : Prop :=
  ∀ (s : State) (x : Access),
    (x.offset % 4 = 0 →
      (s.holds x = true ↔
        (s.pushq ≠ [] ∧ ((0x010 ≤ x.offset ∧ x.offset ≤ 0x060 ∧ ¬ (x.isRead = true ∧ x.offset = 0x014)) ∨
          (0x4000 ≤ x.offset ∧ x.offset < 0x6000))) ∨
        (s.job = true ∧ (x.offset = 0x104 ∨ x.offset = 0x108 ∨ (0x2000 ≤ x.offset ∧ x.offset < 0x3000) ∨
          (x.isRead = false ∧ x.offset = 0x100))))) ∧
    (∀ rest, s.holds x = true → s.env.hostA.pending = x :: rest → s.nextAgent ≠ some .hostA) ∧
    (∀ rest, s.holds x = true → s.env.hostD.pending = x :: rest → s.nextAgent ≠ some .hostD)

/-- R158, R208: a step in which a host (either one, R510) performs its write of a word to a command register runs the
command the word decodes to, on the state with that write taken off the host's accesses; a word that does not decode
records its error. -/
def Obligations.StepRunsTheWrittenCommand : Prop :=
  ∀ (s : State) (p q : Port) (w : Word) (rest : List Access),
    s.nextAgent = some (match p with | .a => .hostA | .d => .hostD) →
    (s.hostPort p).pending = .write .w32 (match q with | .a => 0x018#16 | .d => 0x104#16) w :: rest →
    (∀ i, decode q w = .ok i → i.WellFormed ∧ step s = exec i (s.beginTurn.setHostPort p ⟨rest, .writeDone⟩)) ∧
    (∀ e, decode q w = .error e →
      ∃ t, step s = .next t ∧ RecordsError q (errorCode e) (s.beginTurn.setHostPort p ⟨rest, .writeDone⟩) t)

/-- The model's interface (log entry 12): a well-formed command placed by `withFetchWord` runs in the very next step where
its port is not busy. `NOP.D` is left out because its word is `NOP.A`'s (log entry 13). -/
def Obligations.PlacedCommandRuns : Prop :=
  ∀ (s : State) (i : Instr), i.WellFormed → i ≠ .nopD → s.pushq = [] → s.job = false →
    step (s.withFetchWord 32 (encode i).toNat) =
      exec i { s with env := { s.env with hostA := ⟨s.env.hostA.pending, .writeDone⟩, turn := s.env.turn + 1 } }

/-- R151: a step is one atomic step of one enabled agent, and any enabled agent may take the next one. An engine is enabled
where it has work, and a host where its oldest access is not held. That the next agent is named by a list of choices, that
the platform's reset is an agent, and that the state stays where no agent has an enabled step, is the model's choice (log
entries 6, 7 and 9). -/
def Obligations.StepIsOneAgentsStep : Prop :=
  ∀ s : State,
    (∀ a, s.nextAgent = some a → s.enabled a = true ∧ step s = agentStep a s.beginTurn) ∧
    (∀ a rest, s.enabled a = true → s.env.choices = a :: rest → s.nextAgent = some a) ∧
    ((∀ a, s.enabled a = false) → step s = .next s) ∧
    (s.enabled .engineA = true ↔ s.pushq ≠ []) ∧ (s.enabled .engineD = true ↔ s.job = true) ∧
    (∀ p : Port, s.enabled (hostAgent p) = true ↔
      ∃ x rest, (s.hostPort p).pending = x :: rest ∧ s.holds x = false) ∧
    (s.enabled .platform = true ↔ s.env.resetInput = true)

/-- R500: no command, access or engine step stops the block: every step of every state answers a next state. -/
def Obligations.StepNeverStops : Prop :=
  ∀ s : State, Safe s

/-- R72, R562: no command but `NOTE_ON`, and no engine step, reads a configuration register: with other values in them it
does the same. -/
def Obligations.OnlyNoteOnReadsNoteRegisters : Prop :=
  ∀ (s : State) (n : NoteRegs),
    (∀ i : Instr, (∀ v, i ≠ .noteOn v) →
      ∃ t, exec i s = .next t ∧ exec i (s.setNote n) = .next (t.setNote n)) ∧
    (s.setNote n).engineAStep = s.engineAStep.setNote n ∧ (s.setNote n).engineDStep = s.engineDStep.setNote n

/-! ### Reset and the invariant -/

/-- R550, R551: the platform's reset, at any step, puts every piece of state into its reset state. Only what stands
outside the block (`env`) and the numbers of the RAM draws (R552) are not those of `State.reset`, which is the model's
choice (log entries 3 and 7). -/
def Obligations.PlatformResetRestores : Prop :=
  ∀ s : State, s.nextAgent = some .platform →
    ∃ t, step s = .next t ∧
      { t with env := State.reset.env, ramDraw := State.reset.ramDraw,
               vis := { t.vis with tbufDraw := State.reset.vis.tbufDraw } } = State.reset

/-- R551 with R52 to R71 and R81 to R86: what the registers read as after reset, over the bus and by `PEEK`. -/
def Obligations.ResetValues : Prop :=
  (∀ e ∈ [(Target.id, 0x57475645#32), (.version, 0x00000001#32), (.config0, 0x00000288#32), (.config1, 0x04002000#32),
    (.ctrl, 0x00000001#32), (.statusA, 0#32), (.cmdA, 0#32), (.resultA, 0#32), (.arg0, 0#32), (.arg1, 0#32),
    (.voiceActive, 0#32), (.sampleRate, 0#32), (.attack, 0#32), (.decay, 0#32), (.sustain, 0#32), (.release, 0#32),
    (.bridgeR, 0#32), (.pluckPos, 0#32), (.filtMode, 0#32), (.filtB0, 0x3F800000#32), (.filtB1, 0#32),
    (.filtB2, 0#32), (.filtA1, 0#32), (.filtA2, 0#32), (.statusD, 0#32), (.cmdD, 0#32), (.resultD, 0#32),
    (.waveCursor, 0#32), (.fifoIndex, 0#32)], State.reset.readTarget e.1 = e.2) ∧
  (∀ (v : Fin 8) (n : Fin 21), exec (.peek v .reg n) State.reset =
    .next { State.reset with resultA := if n.val = 16 then 0x3F800000#32 else 0#32 })

/-- R553: after reset no engine step is enabled, no access is held, no block is ready, and every voice is idle. That no host
and no platform step is enabled is the model's choice (log entry 8: no access issued, the reset input low), as is that the
step then answers the same state (log entry 9). -/
def Obligations.ResetIsIdle : Prop :=
  (∀ a, State.reset.enabled a = false) ∧ (∀ x, State.reset.holds x = false) ∧ State.reset.vis.ready = false ∧
  State.reset.pushq = [] ∧ State.reset.job = false ∧ State.reset.busyA = false ∧ State.reset.busyD = false ∧
  step State.reset = .next State.reset ∧
  ∀ v, (State.reset.voice v).active = false ∧ (State.reset.voice v).stage = .idle

/-- The invariant of the block holds after reset. -/
def Obligations.InvAtReset : Prop := Inv State.reset

/-- Every step of every state that meets the invariant gives a state that meets it: memory keeps its canonical form and
stays in the RAM windows, `ACTIVE` agrees with `ENV_STAGE` (R87), lengths and indices stay in range (R82, R257, R258),
envelope levels and the velocity stay in [0, 1] (R252, R308, log entry 22), the queue stays within `BLOCK_MAX` (R100), a
job has a whole block ready (R401), and the error codes stay those of R502. -/
def Obligations.InvKeptByEveryStep : Prop :=
  ∀ s t : State, Inv s → step s = .next t → Inv t

end Statements
end

