-- ==== Sys2Proof/Laws/Lists.lean ====
section
/-! SUPPORT. The hidden RAMs as lists: what `window` and `putAt` list and read. -/

namespace Sys2Proof.Machine

open Sys2Proof

variable {α : Type}

@[simp] theorem window_length (free : Nat → α) (n : Nat) :
    ∀ (k : Nat) (xs : List α), (window free k n xs).length = n := by
  induction n with
  | zero => intro k xs; rfl
  | succ n ih =>
    intro k xs
    cases xs <;> simp [window, ih]

/-- An element of the window: what is listed, else the free value of its place. -/
theorem window_getElem (free : Nat → α) (n : Nat) :
    ∀ (k : Nat) (xs : List α) (i : Nat) (h : i < (window free k n xs).length),
      (window free k n xs)[i] = xs.getD i (free (k + i)) := by
  induction n with
  | zero => intro k xs i h; simp [window] at h
  | succ n ih =>
    intro k xs i h
    cases xs with
    | nil =>
      cases i with
      | zero => simp [window]
      | succ i =>
        simp only [window, List.getElem_cons_succ]
        rw [ih]
        simp [show k + 1 + i = k + (i + 1) by omega]
    | cons x xs =>
      cases i with
      | zero => simp [window]
      | succ i =>
        simp only [window, List.getElem_cons_succ]
        rw [ih]
        simp [show k + 1 + i = k + (i + 1) by omega]

/-- Where enough elements are listed the window is the listed prefix. -/
theorem window_eq_take (free : Nat → α) (n : Nat) :
    ∀ (k : Nat) (xs : List α), n ≤ xs.length → window free k n xs = xs.take n := by
  induction n with
  | zero => intro k xs h; rfl
  | succ n ih =>
    intro k xs h
    cases xs with
    | nil => simp at h
    | cons x xs => simp [window, ih (k + 1) xs (by simpa using h)]

theorem putAt_length (free : Nat → α) (i : Nat) (x : α) :
    ∀ (k : Nat) (xs : List α), (putAt free k i x xs).length = max xs.length (i + 1) := by
  induction i with
  | zero => intro k xs; cases xs <;> simp [putAt]
  | succ i ih =>
    intro k xs
    cases xs with
    | nil => simp [putAt, ih]
    | cons y ys => simp [putAt, ih]

/-- A write changes its own element and no other reading. -/
theorem putAt_getD (free : Nat → α) (i : Nat) (x : α) :
    ∀ (k : Nat) (xs : List α) (j : Nat),
      (putAt free k i x xs).getD j (free (k + j)) = if j = i then x else xs.getD j (free (k + j)) := by
  induction i with
  | zero =>
    intro k xs j
    cases xs <;> cases j <;> simp [putAt]
  | succ i ih =>
    intro k xs j
    cases xs with
    | nil =>
      cases j with
      | zero => simp [putAt]
      | succ j =>
        have := ih (k + 1) [] j
        simp only [putAt, List.getD_cons_succ]
        rw [show k + (j + 1) = k + 1 + j by omega, this]
        simp
    | cons y ys =>
      cases j with
      | zero => simp [putAt]
      | succ j =>
        have := ih (k + 1) ys j
        simp only [putAt, List.getD_cons_succ]
        rw [show k + (j + 1) = k + 1 + j by omega, this]
        simp

end Sys2Proof.Machine
end

