-- ==== Sys2Proof/Laws/State.lean ====
section
/-! SUPPORT. One lemma per field and update of `State`, so that no later proof unfolds a record update. -/

namespace Sys2Proof.Machine

open Sys2Proof

@[simp] theorem State.setCtrl_ctrl (s : State) (x : Ctrl) : (s.setCtrl x).ctrl = x := rfl
@[simp] theorem State.setCtrl_statusA (s : State) (x : Ctrl) : (s.setCtrl x).statusA = s.statusA := rfl
@[simp] theorem State.setCtrl_resultA (s : State) (x : Ctrl) : (s.setCtrl x).resultA = s.resultA := rfl
@[simp] theorem State.setCtrl_arg0 (s : State) (x : Ctrl) : (s.setCtrl x).arg0 = s.arg0 := rfl
@[simp] theorem State.setCtrl_arg1 (s : State) (x : Ctrl) : (s.setCtrl x).arg1 = s.arg1 := rfl
@[simp] theorem State.setCtrl_note (s : State) (x : Ctrl) : (s.setCtrl x).note = s.note := rfl
@[simp] theorem State.setCtrl_voices (s : State) (x : Ctrl) : (s.setCtrl x).voices = s.voices := rfl
@[simp] theorem State.setCtrl_mem (s : State) (x : Ctrl) : (s.setCtrl x).mem = s.mem := rfl
@[simp] theorem State.setCtrl_ramDraw (s : State) (x : Ctrl) : (s.setCtrl x).ramDraw = s.ramDraw := rfl
@[simp] theorem State.setCtrl_pushq (s : State) (x : Ctrl) : (s.setCtrl x).pushq = s.pushq := rfl
@[simp] theorem State.setCtrl_vis (s : State) (x : Ctrl) : (s.setCtrl x).vis = s.vis := rfl
@[simp] theorem State.setCtrl_job (s : State) (x : Ctrl) : (s.setCtrl x).job = s.job := rfl
@[simp] theorem State.setCtrl_statusD (s : State) (x : Ctrl) : (s.setCtrl x).statusD = s.statusD := rfl
@[simp] theorem State.setCtrl_processed (s : State) (x : Ctrl) : (s.setCtrl x).processed = s.processed := rfl
@[simp] theorem State.setCtrl_env (s : State) (x : Ctrl) : (s.setCtrl x).env = s.env := rfl
@[simp] theorem State.setCtrl_voice (s : State) (x : Ctrl) (v : Fin Config.numVoices) : (s.setCtrl x).voice v = s.voice v := rfl

@[simp] theorem State.setStatusA_ctrl (s : State) (x : StatusA) : (s.setStatusA x).ctrl = s.ctrl := rfl
@[simp] theorem State.setStatusA_statusA (s : State) (x : StatusA) : (s.setStatusA x).statusA = x := rfl
@[simp] theorem State.setStatusA_resultA (s : State) (x : StatusA) : (s.setStatusA x).resultA = s.resultA := rfl
@[simp] theorem State.setStatusA_arg0 (s : State) (x : StatusA) : (s.setStatusA x).arg0 = s.arg0 := rfl
@[simp] theorem State.setStatusA_arg1 (s : State) (x : StatusA) : (s.setStatusA x).arg1 = s.arg1 := rfl
@[simp] theorem State.setStatusA_note (s : State) (x : StatusA) : (s.setStatusA x).note = s.note := rfl
@[simp] theorem State.setStatusA_voices (s : State) (x : StatusA) : (s.setStatusA x).voices = s.voices := rfl
@[simp] theorem State.setStatusA_mem (s : State) (x : StatusA) : (s.setStatusA x).mem = s.mem := rfl
@[simp] theorem State.setStatusA_ramDraw (s : State) (x : StatusA) : (s.setStatusA x).ramDraw = s.ramDraw := rfl
@[simp] theorem State.setStatusA_pushq (s : State) (x : StatusA) : (s.setStatusA x).pushq = s.pushq := rfl
@[simp] theorem State.setStatusA_vis (s : State) (x : StatusA) : (s.setStatusA x).vis = s.vis := rfl
@[simp] theorem State.setStatusA_job (s : State) (x : StatusA) : (s.setStatusA x).job = s.job := rfl
@[simp] theorem State.setStatusA_statusD (s : State) (x : StatusA) : (s.setStatusA x).statusD = s.statusD := rfl
@[simp] theorem State.setStatusA_processed (s : State) (x : StatusA) : (s.setStatusA x).processed = s.processed := rfl
@[simp] theorem State.setStatusA_env (s : State) (x : StatusA) : (s.setStatusA x).env = s.env := rfl
@[simp] theorem State.setStatusA_voice (s : State) (x : StatusA) (v : Fin Config.numVoices) : (s.setStatusA x).voice v = s.voice v := rfl

@[simp] theorem State.setResultA_ctrl (s : State) (x : Word) : (s.setResultA x).ctrl = s.ctrl := rfl
@[simp] theorem State.setResultA_statusA (s : State) (x : Word) : (s.setResultA x).statusA = s.statusA := rfl
@[simp] theorem State.setResultA_resultA (s : State) (x : Word) : (s.setResultA x).resultA = x := rfl
@[simp] theorem State.setResultA_arg0 (s : State) (x : Word) : (s.setResultA x).arg0 = s.arg0 := rfl
@[simp] theorem State.setResultA_arg1 (s : State) (x : Word) : (s.setResultA x).arg1 = s.arg1 := rfl
@[simp] theorem State.setResultA_note (s : State) (x : Word) : (s.setResultA x).note = s.note := rfl
@[simp] theorem State.setResultA_voices (s : State) (x : Word) : (s.setResultA x).voices = s.voices := rfl
@[simp] theorem State.setResultA_mem (s : State) (x : Word) : (s.setResultA x).mem = s.mem := rfl
@[simp] theorem State.setResultA_ramDraw (s : State) (x : Word) : (s.setResultA x).ramDraw = s.ramDraw := rfl
@[simp] theorem State.setResultA_pushq (s : State) (x : Word) : (s.setResultA x).pushq = s.pushq := rfl
@[simp] theorem State.setResultA_vis (s : State) (x : Word) : (s.setResultA x).vis = s.vis := rfl
@[simp] theorem State.setResultA_job (s : State) (x : Word) : (s.setResultA x).job = s.job := rfl
@[simp] theorem State.setResultA_statusD (s : State) (x : Word) : (s.setResultA x).statusD = s.statusD := rfl
@[simp] theorem State.setResultA_processed (s : State) (x : Word) : (s.setResultA x).processed = s.processed := rfl
@[simp] theorem State.setResultA_env (s : State) (x : Word) : (s.setResultA x).env = s.env := rfl
@[simp] theorem State.setResultA_voice (s : State) (x : Word) (v : Fin Config.numVoices) : (s.setResultA x).voice v = s.voice v := rfl

@[simp] theorem State.setArg0_ctrl (s : State) (x : Word) : (s.setArg0 x).ctrl = s.ctrl := rfl
@[simp] theorem State.setArg0_statusA (s : State) (x : Word) : (s.setArg0 x).statusA = s.statusA := rfl
@[simp] theorem State.setArg0_resultA (s : State) (x : Word) : (s.setArg0 x).resultA = s.resultA := rfl
@[simp] theorem State.setArg0_arg0 (s : State) (x : Word) : (s.setArg0 x).arg0 = x := rfl
@[simp] theorem State.setArg0_arg1 (s : State) (x : Word) : (s.setArg0 x).arg1 = s.arg1 := rfl
@[simp] theorem State.setArg0_note (s : State) (x : Word) : (s.setArg0 x).note = s.note := rfl
@[simp] theorem State.setArg0_voices (s : State) (x : Word) : (s.setArg0 x).voices = s.voices := rfl
@[simp] theorem State.setArg0_mem (s : State) (x : Word) : (s.setArg0 x).mem = s.mem := rfl
@[simp] theorem State.setArg0_ramDraw (s : State) (x : Word) : (s.setArg0 x).ramDraw = s.ramDraw := rfl
@[simp] theorem State.setArg0_pushq (s : State) (x : Word) : (s.setArg0 x).pushq = s.pushq := rfl
@[simp] theorem State.setArg0_vis (s : State) (x : Word) : (s.setArg0 x).vis = s.vis := rfl
@[simp] theorem State.setArg0_job (s : State) (x : Word) : (s.setArg0 x).job = s.job := rfl
@[simp] theorem State.setArg0_statusD (s : State) (x : Word) : (s.setArg0 x).statusD = s.statusD := rfl
@[simp] theorem State.setArg0_processed (s : State) (x : Word) : (s.setArg0 x).processed = s.processed := rfl
@[simp] theorem State.setArg0_env (s : State) (x : Word) : (s.setArg0 x).env = s.env := rfl
@[simp] theorem State.setArg0_voice (s : State) (x : Word) (v : Fin Config.numVoices) : (s.setArg0 x).voice v = s.voice v := rfl

@[simp] theorem State.setArg1_ctrl (s : State) (x : Word) : (s.setArg1 x).ctrl = s.ctrl := rfl
@[simp] theorem State.setArg1_statusA (s : State) (x : Word) : (s.setArg1 x).statusA = s.statusA := rfl
@[simp] theorem State.setArg1_resultA (s : State) (x : Word) : (s.setArg1 x).resultA = s.resultA := rfl
@[simp] theorem State.setArg1_arg0 (s : State) (x : Word) : (s.setArg1 x).arg0 = s.arg0 := rfl
@[simp] theorem State.setArg1_arg1 (s : State) (x : Word) : (s.setArg1 x).arg1 = x := rfl
@[simp] theorem State.setArg1_note (s : State) (x : Word) : (s.setArg1 x).note = s.note := rfl
@[simp] theorem State.setArg1_voices (s : State) (x : Word) : (s.setArg1 x).voices = s.voices := rfl
@[simp] theorem State.setArg1_mem (s : State) (x : Word) : (s.setArg1 x).mem = s.mem := rfl
@[simp] theorem State.setArg1_ramDraw (s : State) (x : Word) : (s.setArg1 x).ramDraw = s.ramDraw := rfl
@[simp] theorem State.setArg1_pushq (s : State) (x : Word) : (s.setArg1 x).pushq = s.pushq := rfl
@[simp] theorem State.setArg1_vis (s : State) (x : Word) : (s.setArg1 x).vis = s.vis := rfl
@[simp] theorem State.setArg1_job (s : State) (x : Word) : (s.setArg1 x).job = s.job := rfl
@[simp] theorem State.setArg1_statusD (s : State) (x : Word) : (s.setArg1 x).statusD = s.statusD := rfl
@[simp] theorem State.setArg1_processed (s : State) (x : Word) : (s.setArg1 x).processed = s.processed := rfl
@[simp] theorem State.setArg1_env (s : State) (x : Word) : (s.setArg1 x).env = s.env := rfl
@[simp] theorem State.setArg1_voice (s : State) (x : Word) (v : Fin Config.numVoices) : (s.setArg1 x).voice v = s.voice v := rfl

@[simp] theorem State.setNote_ctrl (s : State) (x : NoteRegs) : (s.setNote x).ctrl = s.ctrl := rfl
@[simp] theorem State.setNote_statusA (s : State) (x : NoteRegs) : (s.setNote x).statusA = s.statusA := rfl
@[simp] theorem State.setNote_resultA (s : State) (x : NoteRegs) : (s.setNote x).resultA = s.resultA := rfl
@[simp] theorem State.setNote_arg0 (s : State) (x : NoteRegs) : (s.setNote x).arg0 = s.arg0 := rfl
@[simp] theorem State.setNote_arg1 (s : State) (x : NoteRegs) : (s.setNote x).arg1 = s.arg1 := rfl
@[simp] theorem State.setNote_note (s : State) (x : NoteRegs) : (s.setNote x).note = x := rfl
@[simp] theorem State.setNote_voices (s : State) (x : NoteRegs) : (s.setNote x).voices = s.voices := rfl
@[simp] theorem State.setNote_mem (s : State) (x : NoteRegs) : (s.setNote x).mem = s.mem := rfl
@[simp] theorem State.setNote_ramDraw (s : State) (x : NoteRegs) : (s.setNote x).ramDraw = s.ramDraw := rfl
@[simp] theorem State.setNote_pushq (s : State) (x : NoteRegs) : (s.setNote x).pushq = s.pushq := rfl
@[simp] theorem State.setNote_vis (s : State) (x : NoteRegs) : (s.setNote x).vis = s.vis := rfl
@[simp] theorem State.setNote_job (s : State) (x : NoteRegs) : (s.setNote x).job = s.job := rfl
@[simp] theorem State.setNote_statusD (s : State) (x : NoteRegs) : (s.setNote x).statusD = s.statusD := rfl
@[simp] theorem State.setNote_processed (s : State) (x : NoteRegs) : (s.setNote x).processed = s.processed := rfl
@[simp] theorem State.setNote_env (s : State) (x : NoteRegs) : (s.setNote x).env = s.env := rfl
@[simp] theorem State.setNote_voice (s : State) (x : NoteRegs) (v : Fin Config.numVoices) : (s.setNote x).voice v = s.voice v := rfl

@[simp] theorem State.setMem_ctrl (s : State) (x : Memory) : (s.setMem x).ctrl = s.ctrl := rfl
@[simp] theorem State.setMem_statusA (s : State) (x : Memory) : (s.setMem x).statusA = s.statusA := rfl
@[simp] theorem State.setMem_resultA (s : State) (x : Memory) : (s.setMem x).resultA = s.resultA := rfl
@[simp] theorem State.setMem_arg0 (s : State) (x : Memory) : (s.setMem x).arg0 = s.arg0 := rfl
@[simp] theorem State.setMem_arg1 (s : State) (x : Memory) : (s.setMem x).arg1 = s.arg1 := rfl
@[simp] theorem State.setMem_note (s : State) (x : Memory) : (s.setMem x).note = s.note := rfl
@[simp] theorem State.setMem_voices (s : State) (x : Memory) : (s.setMem x).voices = s.voices := rfl
@[simp] theorem State.setMem_mem (s : State) (x : Memory) : (s.setMem x).mem = x := rfl
@[simp] theorem State.setMem_ramDraw (s : State) (x : Memory) : (s.setMem x).ramDraw = s.ramDraw := rfl
@[simp] theorem State.setMem_pushq (s : State) (x : Memory) : (s.setMem x).pushq = s.pushq := rfl
@[simp] theorem State.setMem_vis (s : State) (x : Memory) : (s.setMem x).vis = s.vis := rfl
@[simp] theorem State.setMem_job (s : State) (x : Memory) : (s.setMem x).job = s.job := rfl
@[simp] theorem State.setMem_statusD (s : State) (x : Memory) : (s.setMem x).statusD = s.statusD := rfl
@[simp] theorem State.setMem_processed (s : State) (x : Memory) : (s.setMem x).processed = s.processed := rfl
@[simp] theorem State.setMem_env (s : State) (x : Memory) : (s.setMem x).env = s.env := rfl
@[simp] theorem State.setMem_voice (s : State) (x : Memory) (v : Fin Config.numVoices) : (s.setMem x).voice v = s.voice v := rfl

@[simp] theorem State.setPushq_ctrl (s : State) (x : List Word) : (s.setPushq x).ctrl = s.ctrl := rfl
@[simp] theorem State.setPushq_statusA (s : State) (x : List Word) : (s.setPushq x).statusA = s.statusA := rfl
@[simp] theorem State.setPushq_resultA (s : State) (x : List Word) : (s.setPushq x).resultA = s.resultA := rfl
@[simp] theorem State.setPushq_arg0 (s : State) (x : List Word) : (s.setPushq x).arg0 = s.arg0 := rfl
@[simp] theorem State.setPushq_arg1 (s : State) (x : List Word) : (s.setPushq x).arg1 = s.arg1 := rfl
@[simp] theorem State.setPushq_note (s : State) (x : List Word) : (s.setPushq x).note = s.note := rfl
@[simp] theorem State.setPushq_voices (s : State) (x : List Word) : (s.setPushq x).voices = s.voices := rfl
@[simp] theorem State.setPushq_mem (s : State) (x : List Word) : (s.setPushq x).mem = s.mem := rfl
@[simp] theorem State.setPushq_ramDraw (s : State) (x : List Word) : (s.setPushq x).ramDraw = s.ramDraw := rfl
@[simp] theorem State.setPushq_pushq (s : State) (x : List Word) : (s.setPushq x).pushq = x := rfl
@[simp] theorem State.setPushq_vis (s : State) (x : List Word) : (s.setPushq x).vis = s.vis := rfl
@[simp] theorem State.setPushq_job (s : State) (x : List Word) : (s.setPushq x).job = s.job := rfl
@[simp] theorem State.setPushq_statusD (s : State) (x : List Word) : (s.setPushq x).statusD = s.statusD := rfl
@[simp] theorem State.setPushq_processed (s : State) (x : List Word) : (s.setPushq x).processed = s.processed := rfl
@[simp] theorem State.setPushq_env (s : State) (x : List Word) : (s.setPushq x).env = s.env := rfl
@[simp] theorem State.setPushq_voice (s : State) (x : List Word) (v : Fin Config.numVoices) : (s.setPushq x).voice v = s.voice v := rfl

@[simp] theorem State.setVis_ctrl (s : State) (x : Vis) : (s.setVis x).ctrl = s.ctrl := rfl
@[simp] theorem State.setVis_statusA (s : State) (x : Vis) : (s.setVis x).statusA = s.statusA := rfl
@[simp] theorem State.setVis_resultA (s : State) (x : Vis) : (s.setVis x).resultA = s.resultA := rfl
@[simp] theorem State.setVis_arg0 (s : State) (x : Vis) : (s.setVis x).arg0 = s.arg0 := rfl
@[simp] theorem State.setVis_arg1 (s : State) (x : Vis) : (s.setVis x).arg1 = s.arg1 := rfl
@[simp] theorem State.setVis_note (s : State) (x : Vis) : (s.setVis x).note = s.note := rfl
@[simp] theorem State.setVis_voices (s : State) (x : Vis) : (s.setVis x).voices = s.voices := rfl
@[simp] theorem State.setVis_mem (s : State) (x : Vis) : (s.setVis x).mem = s.mem := rfl
@[simp] theorem State.setVis_ramDraw (s : State) (x : Vis) : (s.setVis x).ramDraw = s.ramDraw := rfl
@[simp] theorem State.setVis_pushq (s : State) (x : Vis) : (s.setVis x).pushq = s.pushq := rfl
@[simp] theorem State.setVis_vis (s : State) (x : Vis) : (s.setVis x).vis = x := rfl
@[simp] theorem State.setVis_job (s : State) (x : Vis) : (s.setVis x).job = s.job := rfl
@[simp] theorem State.setVis_statusD (s : State) (x : Vis) : (s.setVis x).statusD = s.statusD := rfl
@[simp] theorem State.setVis_processed (s : State) (x : Vis) : (s.setVis x).processed = s.processed := rfl
@[simp] theorem State.setVis_env (s : State) (x : Vis) : (s.setVis x).env = s.env := rfl
@[simp] theorem State.setVis_voice (s : State) (x : Vis) (v : Fin Config.numVoices) : (s.setVis x).voice v = s.voice v := rfl

@[simp] theorem State.setJob_ctrl (s : State) (x : Bool) : (s.setJob x).ctrl = s.ctrl := rfl
@[simp] theorem State.setJob_statusA (s : State) (x : Bool) : (s.setJob x).statusA = s.statusA := rfl
@[simp] theorem State.setJob_resultA (s : State) (x : Bool) : (s.setJob x).resultA = s.resultA := rfl
@[simp] theorem State.setJob_arg0 (s : State) (x : Bool) : (s.setJob x).arg0 = s.arg0 := rfl
@[simp] theorem State.setJob_arg1 (s : State) (x : Bool) : (s.setJob x).arg1 = s.arg1 := rfl
@[simp] theorem State.setJob_note (s : State) (x : Bool) : (s.setJob x).note = s.note := rfl
@[simp] theorem State.setJob_voices (s : State) (x : Bool) : (s.setJob x).voices = s.voices := rfl
@[simp] theorem State.setJob_mem (s : State) (x : Bool) : (s.setJob x).mem = s.mem := rfl
@[simp] theorem State.setJob_ramDraw (s : State) (x : Bool) : (s.setJob x).ramDraw = s.ramDraw := rfl
@[simp] theorem State.setJob_pushq (s : State) (x : Bool) : (s.setJob x).pushq = s.pushq := rfl
@[simp] theorem State.setJob_vis (s : State) (x : Bool) : (s.setJob x).vis = s.vis := rfl
@[simp] theorem State.setJob_job (s : State) (x : Bool) : (s.setJob x).job = x := rfl
@[simp] theorem State.setJob_statusD (s : State) (x : Bool) : (s.setJob x).statusD = s.statusD := rfl
@[simp] theorem State.setJob_processed (s : State) (x : Bool) : (s.setJob x).processed = s.processed := rfl
@[simp] theorem State.setJob_env (s : State) (x : Bool) : (s.setJob x).env = s.env := rfl
@[simp] theorem State.setJob_voice (s : State) (x : Bool) (v : Fin Config.numVoices) : (s.setJob x).voice v = s.voice v := rfl

@[simp] theorem State.setStatusD_ctrl (s : State) (x : StatusD) : (s.setStatusD x).ctrl = s.ctrl := rfl
@[simp] theorem State.setStatusD_statusA (s : State) (x : StatusD) : (s.setStatusD x).statusA = s.statusA := rfl
@[simp] theorem State.setStatusD_resultA (s : State) (x : StatusD) : (s.setStatusD x).resultA = s.resultA := rfl
@[simp] theorem State.setStatusD_arg0 (s : State) (x : StatusD) : (s.setStatusD x).arg0 = s.arg0 := rfl
@[simp] theorem State.setStatusD_arg1 (s : State) (x : StatusD) : (s.setStatusD x).arg1 = s.arg1 := rfl
@[simp] theorem State.setStatusD_note (s : State) (x : StatusD) : (s.setStatusD x).note = s.note := rfl
@[simp] theorem State.setStatusD_voices (s : State) (x : StatusD) : (s.setStatusD x).voices = s.voices := rfl
@[simp] theorem State.setStatusD_mem (s : State) (x : StatusD) : (s.setStatusD x).mem = s.mem := rfl
@[simp] theorem State.setStatusD_ramDraw (s : State) (x : StatusD) : (s.setStatusD x).ramDraw = s.ramDraw := rfl
@[simp] theorem State.setStatusD_pushq (s : State) (x : StatusD) : (s.setStatusD x).pushq = s.pushq := rfl
@[simp] theorem State.setStatusD_vis (s : State) (x : StatusD) : (s.setStatusD x).vis = s.vis := rfl
@[simp] theorem State.setStatusD_job (s : State) (x : StatusD) : (s.setStatusD x).job = s.job := rfl
@[simp] theorem State.setStatusD_statusD (s : State) (x : StatusD) : (s.setStatusD x).statusD = x := rfl
@[simp] theorem State.setStatusD_processed (s : State) (x : StatusD) : (s.setStatusD x).processed = s.processed := rfl
@[simp] theorem State.setStatusD_env (s : State) (x : StatusD) : (s.setStatusD x).env = s.env := rfl
@[simp] theorem State.setStatusD_voice (s : State) (x : StatusD) (v : Fin Config.numVoices) : (s.setStatusD x).voice v = s.voice v := rfl

@[simp] theorem State.setProcessed_ctrl (s : State) (x : Bool) : (s.setProcessed x).ctrl = s.ctrl := rfl
@[simp] theorem State.setProcessed_statusA (s : State) (x : Bool) : (s.setProcessed x).statusA = s.statusA := rfl
@[simp] theorem State.setProcessed_resultA (s : State) (x : Bool) : (s.setProcessed x).resultA = s.resultA := rfl
@[simp] theorem State.setProcessed_arg0 (s : State) (x : Bool) : (s.setProcessed x).arg0 = s.arg0 := rfl
@[simp] theorem State.setProcessed_arg1 (s : State) (x : Bool) : (s.setProcessed x).arg1 = s.arg1 := rfl
@[simp] theorem State.setProcessed_note (s : State) (x : Bool) : (s.setProcessed x).note = s.note := rfl
@[simp] theorem State.setProcessed_voices (s : State) (x : Bool) : (s.setProcessed x).voices = s.voices := rfl
@[simp] theorem State.setProcessed_mem (s : State) (x : Bool) : (s.setProcessed x).mem = s.mem := rfl
@[simp] theorem State.setProcessed_ramDraw (s : State) (x : Bool) : (s.setProcessed x).ramDraw = s.ramDraw := rfl
@[simp] theorem State.setProcessed_pushq (s : State) (x : Bool) : (s.setProcessed x).pushq = s.pushq := rfl
@[simp] theorem State.setProcessed_vis (s : State) (x : Bool) : (s.setProcessed x).vis = s.vis := rfl
@[simp] theorem State.setProcessed_job (s : State) (x : Bool) : (s.setProcessed x).job = s.job := rfl
@[simp] theorem State.setProcessed_statusD (s : State) (x : Bool) : (s.setProcessed x).statusD = s.statusD := rfl
@[simp] theorem State.setProcessed_processed (s : State) (x : Bool) : (s.setProcessed x).processed = x := rfl
@[simp] theorem State.setProcessed_env (s : State) (x : Bool) : (s.setProcessed x).env = s.env := rfl
@[simp] theorem State.setProcessed_voice (s : State) (x : Bool) (v : Fin Config.numVoices) : (s.setProcessed x).voice v = s.voice v := rfl

@[simp] theorem State.setEnv_ctrl (s : State) (x : Env) : (s.setEnv x).ctrl = s.ctrl := rfl
@[simp] theorem State.setEnv_statusA (s : State) (x : Env) : (s.setEnv x).statusA = s.statusA := rfl
@[simp] theorem State.setEnv_resultA (s : State) (x : Env) : (s.setEnv x).resultA = s.resultA := rfl
@[simp] theorem State.setEnv_arg0 (s : State) (x : Env) : (s.setEnv x).arg0 = s.arg0 := rfl
@[simp] theorem State.setEnv_arg1 (s : State) (x : Env) : (s.setEnv x).arg1 = s.arg1 := rfl
@[simp] theorem State.setEnv_note (s : State) (x : Env) : (s.setEnv x).note = s.note := rfl
@[simp] theorem State.setEnv_voices (s : State) (x : Env) : (s.setEnv x).voices = s.voices := rfl
@[simp] theorem State.setEnv_mem (s : State) (x : Env) : (s.setEnv x).mem = s.mem := rfl
@[simp] theorem State.setEnv_ramDraw (s : State) (x : Env) : (s.setEnv x).ramDraw = s.ramDraw := rfl
@[simp] theorem State.setEnv_pushq (s : State) (x : Env) : (s.setEnv x).pushq = s.pushq := rfl
@[simp] theorem State.setEnv_vis (s : State) (x : Env) : (s.setEnv x).vis = s.vis := rfl
@[simp] theorem State.setEnv_job (s : State) (x : Env) : (s.setEnv x).job = s.job := rfl
@[simp] theorem State.setEnv_statusD (s : State) (x : Env) : (s.setEnv x).statusD = s.statusD := rfl
@[simp] theorem State.setEnv_processed (s : State) (x : Env) : (s.setEnv x).processed = s.processed := rfl
@[simp] theorem State.setEnv_env (s : State) (x : Env) : (s.setEnv x).env = x := rfl
@[simp] theorem State.setEnv_voice (s : State) (x : Env) (v : Fin Config.numVoices) : (s.setEnv x).voice v = s.voice v := rfl

@[simp] theorem State.setVoice_ctrl (s : State) (v : Fin Config.numVoices) (x : Voice) : (s.setVoice v x).ctrl = s.ctrl := rfl
@[simp] theorem State.setVoice_statusA (s : State) (v : Fin Config.numVoices) (x : Voice) : (s.setVoice v x).statusA = s.statusA := rfl
@[simp] theorem State.setVoice_resultA (s : State) (v : Fin Config.numVoices) (x : Voice) : (s.setVoice v x).resultA = s.resultA := rfl
@[simp] theorem State.setVoice_arg0 (s : State) (v : Fin Config.numVoices) (x : Voice) : (s.setVoice v x).arg0 = s.arg0 := rfl
@[simp] theorem State.setVoice_arg1 (s : State) (v : Fin Config.numVoices) (x : Voice) : (s.setVoice v x).arg1 = s.arg1 := rfl
@[simp] theorem State.setVoice_note (s : State) (v : Fin Config.numVoices) (x : Voice) : (s.setVoice v x).note = s.note := rfl
@[simp] theorem State.setVoice_mem (s : State) (v : Fin Config.numVoices) (x : Voice) : (s.setVoice v x).mem = s.mem := rfl
@[simp] theorem State.setVoice_ramDraw (s : State) (v : Fin Config.numVoices) (x : Voice) : (s.setVoice v x).ramDraw = s.ramDraw := rfl
@[simp] theorem State.setVoice_pushq (s : State) (v : Fin Config.numVoices) (x : Voice) : (s.setVoice v x).pushq = s.pushq := rfl
@[simp] theorem State.setVoice_vis (s : State) (v : Fin Config.numVoices) (x : Voice) : (s.setVoice v x).vis = s.vis := rfl
@[simp] theorem State.setVoice_job (s : State) (v : Fin Config.numVoices) (x : Voice) : (s.setVoice v x).job = s.job := rfl
@[simp] theorem State.setVoice_statusD (s : State) (v : Fin Config.numVoices) (x : Voice) : (s.setVoice v x).statusD = s.statusD := rfl
@[simp] theorem State.setVoice_processed (s : State) (v : Fin Config.numVoices) (x : Voice) : (s.setVoice v x).processed = s.processed := rfl
@[simp] theorem State.setVoice_env (s : State) (v : Fin Config.numVoices) (x : Voice) : (s.setVoice v x).env = s.env := rfl

@[simp] theorem State.setVoice_voice_same (s : State) (v : Fin Config.numVoices) (x : Voice) :
    (s.setVoice v x).voice v = x := by
  simp [State.setVoice, State.voice]

@[simp] theorem State.setVoice_voice_other (s : State) (v w : Fin Config.numVoices) (x : Voice) (h : w ≠ v) :
    (s.setVoice v x).voice w = s.voice w := by
  have h' : v.val ≠ w.val := fun e => h (Fin.ext e.symm)
  simp [State.setVoice, State.voice, h']

theorem State.setVoice_voice (s : State) (v w : Fin Config.numVoices) (x : Voice) :
    (s.setVoice v x).voice w = if w = v then x else s.voice w := by
  by_cases h : w = v
  · subst h; simp
  · simp [h]

@[simp] theorem State.reset_voice (v : Fin Config.numVoices) : State.reset.voice v = Voice.reset := by
  simp [State.reset, State.voice]

end Sys2Proof.Machine
end

