-- ==== Sys2Proof/Laws/Memory.lean ====
section
/-! SUPPORT. The laws of the memory: what each write changes and leaves, and that every operation keeps the canonical
form. -/

namespace Sys2Proof.Machine

open Sys2Proof

theorem Memory.lookup_writeByte (m : Memory) (a b : Nat) (x : Byte) :
    Memory.lookup (Memory.writeByte m a x) b = if b = a then some x else Memory.lookup m b := by
  induction m with
  | nil => simp [Memory.writeByte, Memory.lookup]
  | cons c m ih =>
    obtain ⟨d, y⟩ := c
    simp only [Memory.writeByte]
    split
    · simp only [Memory.lookup]
    · split
      · subst_vars
        simp only [Memory.lookup]
        split <;> simp_all
      · simp only [Memory.lookup, ih]
        split <;> split <;> simp_all

/-- A byte reads as written, and a write leaves every other byte alone. -/
@[simp] theorem Memory.readByte_writeByte (draw : Nat) (m : Memory) (a b : Nat) (x : Byte) :
    Memory.readByte draw (Memory.writeByte m a x) b = if b = a then x else Memory.readByte draw m b := by
  unfold Memory.readByte
  rw [Memory.lookup_writeByte]
  split <;> rfl

/-- What a word write does to every byte. -/
theorem Memory.readByte_writeWord (draw : Nat) (m : Memory) (a b : Nat) (w : Word) :
    Memory.readByte draw (Memory.writeWord m a w) b =
      if b = a + 3 then byteOfWord w 3 else if b = a + 2 then byteOfWord w 2
      else if b = a + 1 then byteOfWord w 1 else if b = a then byteOfWord w 0
      else Memory.readByte draw m b := by
  simp [Memory.writeWord]

theorem Memory.readByte_writeWord_other (draw : Nat) (m : Memory) (a b : Nat) (w : Word)
    (h : b < a ∨ a + 4 ≤ b) : Memory.readByte draw (Memory.writeWord m a w) b = Memory.readByte draw m b := by
  rw [Memory.readByte_writeWord]
  repeat (first | rw [if_neg (by omega)] | rfl)

theorem wordOfBytes_byteOfWord (w : Word) :
    wordOfBytes (byteOfWord w 0) (byteOfWord w 1) (byteOfWord w 2) (byteOfWord w 3) = w := by
  apply BitVec.eq_of_getLsbD_eq
  intro i hi
  simp only [wordOfBytes, byteOfWord, BitVec.getLsbD_append, BitVec.getLsbD_extractLsb']
  by_cases h1 : i < 8
  · simp [h1]
  · by_cases h2 : i < 16
    · simp [h1, show i - 8 < 8 by omega, show 8 + (i - 8) = i by omega]
    · by_cases h3 : i < 24
      · simp [h1, show ¬ (i - 8 < 8) by omega, show i - 8 - 8 < 8 by omega,
          show 16 + (i - 8 - 8) = i by omega]
      · simp [h1, show ¬ (i - 8 < 8) by omega, show ¬ (i - 8 - 8 < 8) by omega,
          show i - 8 - 8 - 8 < 8 by omega, show 24 + (i - 8 - 8 - 8) = i by omega]

/-- A word reads as written. -/
@[simp] theorem Memory.readWord_writeWord_same (draw : Nat) (m : Memory) (a : Nat) (w : Word) :
    Memory.readWord draw (Memory.writeWord m a w) a = w := by
  unfold Memory.readWord
  simp only [Memory.readByte_writeWord]
  have e : ∀ x y : Nat, a + x = a + y ↔ x = y := by intros; omega
  simp [wordOfBytes_byteOfWord]

/-- A word write leaves every word that shares no byte with it alone. -/
theorem Memory.readWord_writeWord_other (draw : Nat) (m : Memory) (a b : Nat) (w : Word)
    (h : b + 4 ≤ a ∨ a + 4 ≤ b) : Memory.readWord draw (Memory.writeWord m a w) b = Memory.readWord draw m b := by
  unfold Memory.readWord
  rw [Memory.readByte_writeWord_other _ _ _ _ _ (by omega), Memory.readByte_writeWord_other _ _ _ _ _ (by omega),
    Memory.readByte_writeWord_other _ _ _ _ _ (by omega), Memory.readByte_writeWord_other _ _ _ _ _ (by omega)]

theorem Memory.readByte_writeWords_other (draw : Nat) (ws : List Word) :
    ∀ (m : Memory) (a b : Nat), (b < a ∨ a + 4 * ws.length ≤ b) →
      Memory.readByte draw (Memory.writeWords m a ws) b = Memory.readByte draw m b := by
  induction ws with
  | nil => intros; rfl
  | cons w ws ih =>
    intro m a b h
    simp only [Memory.writeWords, List.length_cons] at *
    rw [ih _ _ _ (by omega), Memory.readByte_writeWord_other _ _ _ _ _ (by omega)]

theorem Memory.readWord_writeWords_other (draw : Nat) (ws : List Word) (m : Memory) (a b : Nat)
    (h : b + 4 ≤ a ∨ a + 4 * ws.length ≤ b) :
    Memory.readWord draw (Memory.writeWords m a ws) b = Memory.readWord draw m b := by
  unfold Memory.readWord
  rw [Memory.readByte_writeWords_other _ _ _ _ _ (by omega), Memory.readByte_writeWords_other _ _ _ _ _ (by omega),
    Memory.readByte_writeWords_other _ _ _ _ _ (by omega), Memory.readByte_writeWords_other _ _ _ _ _ (by omega)]

/-- Words written at rising addresses read back each at its own. -/
theorem Memory.readWord_writeWords (draw : Nat) (ws : List Word) :
    ∀ (m : Memory) (a j : Nat) (h : j < ws.length),
      Memory.readWord draw (Memory.writeWords m a ws) (a + 4 * j) = ws[j] := by
  induction ws with
  | nil => intro m a j h; simp at h
  | cons w ws ih =>
    intro m a j h
    cases j with
    | zero =>
      simp only [Memory.writeWords, Nat.mul_zero, Nat.add_zero, List.getElem_cons_zero]
      rw [Memory.readWord_writeWords_other _ _ _ _ _ (by omega), Memory.readWord_writeWord_same]
    | succ j =>
      simp only [Memory.writeWords, List.getElem_cons_succ]
      rw [show a + 4 * (j + 1) = (a + 4) + 4 * j by omega]
      exact ih _ _ _ (by simpa using h)

/-- The head of a canonical memory stands below a bound. -/
theorem Memory.wf_cons (c : Host.Cell) (m : Memory) :
    Memory.wf (c :: m) = true ↔ (∀ d ∈ m.head?, c.1 < d.1) ∧ Memory.wf m = true := by
  cases m with
  | nil => simp [Memory.wf]
  | cons d m => simp [Memory.wf]

theorem Memory.writeByte_head (m : Memory) (a : Nat) (x : Byte) (b : Nat)
    (h : ∀ d ∈ m.head?, b < d.1) (hb : b < a) : ∀ d ∈ (Memory.writeByte m a x).head?, b < d.1 := by
  cases m with
  | nil => simp [Memory.writeByte, hb]
  | cons c m =>
    obtain ⟨e, y⟩ := c
    simp only [Memory.writeByte]
    split
    · simp [hb]
    · split
      · simp [hb]
      · simpa using h

/-- A byte write keeps the canonical form. -/
theorem Memory.writeByte_wf (m : Memory) (a : Nat) (x : Byte) (h : Memory.wf m = true) :
    Memory.wf (Memory.writeByte m a x) = true := by
  induction m with
  | nil => rfl
  | cons c m ih =>
    obtain ⟨d, y⟩ := c
    rw [Memory.wf_cons] at h
    simp only [Memory.writeByte]
    split
    · rw [Memory.wf_cons, Memory.wf_cons]
      exact ⟨by simpa using ‹a < d›, h⟩
    · split
      · subst_vars
        rw [Memory.wf_cons]
        exact h
      · rw [Memory.wf_cons]
        exact ⟨Memory.writeByte_head _ _ _ _ h.1 (by omega), ih h.2⟩

/-- A word write keeps the canonical form. -/
theorem Memory.writeWord_wf (m : Memory) (a : Nat) (w : Word) (h : Memory.wf m = true) :
    Memory.wf (Memory.writeWord m a w) = true := by
  unfold Memory.writeWord
  exact Memory.writeByte_wf _ _ _ (Memory.writeByte_wf _ _ _ (Memory.writeByte_wf _ _ _ (Memory.writeByte_wf _ _ _ h)))

/-- A run of word writes keeps the canonical form. -/
theorem Memory.writeWords_wf (ws : List Word) :
    ∀ (m : Memory) (a : Nat), Memory.wf m = true → Memory.wf (Memory.writeWords m a ws) = true := by
  induction ws with
  | nil => intro m a h; exact h
  | cons w ws ih => intro m a h; exact ih _ _ (Memory.writeWord_wf _ _ _ h)

/-- Adding a sample keeps the canonical form. -/
theorem addToOut_wf (draw : Nat) (m : Memory) (i : Nat) (out : Word) (h : Memory.wf m = true) :
    Memory.wf (addToOut draw m i out) = true := by
  unfold addToOut
  generalize List.range Config.numChannels = cs
  induction cs generalizing m with
  | nil => exact h
  | cons c cs ih => exact ih _ (Memory.writeWord_wf _ _ _ h)

/-- Adding samples keeps the canonical form. -/
theorem addOuts_wf (draw : Nat) (outs : List Word) :
    ∀ (m : Memory) (i : Nat), Memory.wf m = true → Memory.wf (addOuts draw m i outs) = true := by
  induction outs with
  | nil => intro m i h; exact h
  | cons o os ih => intro m i h; exact ih _ _ (addToOut_wf _ _ _ _ h)

/-- Clearing a block keeps the canonical form. -/
theorem clearOut_wf (m : Memory) (start count : Nat) (h : Memory.wf m = true) :
    Memory.wf (clearOut m start count) = true := by
  unfold clearOut
  generalize List.range Config.numChannels = cs
  induction cs generalizing m with
  | nil => exact h
  | cons c cs ih => exact ih _ (Memory.writeWords_wf _ _ _ h)

/-- The memory after reset has the canonical form. -/
theorem reset_mem_wf : Memory.wf State.reset.mem = true := rfl

theorem Memory.writeByte_mem (m : Memory) (a : Nat) (x : Byte) (c : Host.Cell)
    (h : c ∈ Memory.writeByte m a x) : c = (a, x) ∨ c ∈ m := by
  induction m with
  | nil => simpa [Memory.writeByte] using h
  | cons d m ih =>
    obtain ⟨e, y⟩ := d
    simp only [Memory.writeByte] at h
    split at h
    · simpa using h
    · split at h
      · simp only [List.mem_cons] at h ⊢
        tauto
      · simp only [List.mem_cons] at h ⊢
        rcases h with h | h
        · exact .inr (.inl h)
        · rcases ih h with h | h
          · exact .inl h
          · exact .inr (.inr h)

/-- A word write lists only the bytes of its word beside what was listed. -/
theorem Memory.writeWord_mem (m : Memory) (a : Nat) (w : Word) (c : Host.Cell)
    (h : c ∈ Memory.writeWord m a w) : (∃ k, k < 4 ∧ c.1 = a + k) ∨ c ∈ m := by
  unfold Memory.writeWord at h
  rcases Memory.writeByte_mem _ _ _ _ h with h | h
  · exact .inl ⟨3, by omega, by rw [h]⟩
  rcases Memory.writeByte_mem _ _ _ _ h with h | h
  · exact .inl ⟨2, by omega, by rw [h]⟩
  rcases Memory.writeByte_mem _ _ _ _ h with h | h
  · exact .inl ⟨1, by omega, by rw [h]⟩
  rcases Memory.writeByte_mem _ _ _ _ h with h | h
  · exact .inl ⟨0, by omega, by rw [h]; rfl⟩
  · exact .inr h

/-- A run of word writes lists only the bytes of its words beside what was listed. -/
theorem Memory.writeWords_mem (ws : List Word) :
    ∀ (m : Memory) (a : Nat) (c : Host.Cell), c ∈ Memory.writeWords m a ws →
      (a ≤ c.1 ∧ c.1 < a + 4 * ws.length) ∨ c ∈ m := by
  induction ws with
  | nil => intro m a c h; exact .inr h
  | cons w ws ih =>
    intro m a c h
    simp only [Memory.writeWords, List.length_cons] at *
    rcases ih _ _ _ h with h | h
    · exact .inl (by omega)
    · rcases Memory.writeWord_mem _ _ _ _ h with ⟨k, hk, e⟩ | h
      · exact .inl (by omega)
      · exact .inr h

end Sys2Proof.Machine
end

