-- ==== Sys2Proof/Laws/Ops.lean ====
section
/-! SUPPORT. What each shared operation does, once: recording and clearing errors, adding into and clearing `OUT_BUF`,
the queue, the push, and the choice of the next agent. -/

namespace Sys2Proof.Machine

open Sys2Proof

/-- Recording an error where none is recorded. -/
theorem StatusA.record_first (x : StatusA) (e : CmdError) (h : x.err = false) :
    x.record e = { x with err := true, errCode := errorCode e } := by
  simp [StatusA.record, h]

/-- A later error is not recorded. -/
theorem StatusA.record_later (x : StatusA) (e : CmdError) (h : x.err = true) : x.record e = x := by
  simp [StatusA.record, h]

/-- Recording an error where none is recorded. -/
theorem StatusD.record_first (x : StatusD) (e : CmdError) (h : x.err = false) :
    x.record e = { x with err := true, errCode := errorCode e } := by
  simp [StatusD.record, h]

/-- A later error is not recorded. -/
theorem StatusD.record_later (x : StatusD) (e : CmdError) (h : x.err = true) : x.record e = x := by
  simp [StatusD.record, h]

@[simp] theorem State.raise_a (s : State) (e : CmdError) : s.raise .a e = s.setStatusA (s.statusA.record e) := rfl

@[simp] theorem State.raise_d (s : State) (e : CmdError) : s.raise .d e = s.setStatusD (s.statusD.record e) := rfl

@[simp] theorem State.clearStatus_a (s : State) (w : Word) :
    s.clearStatus .a w = s.setStatusA (s.statusA.clear w) := rfl

@[simp] theorem State.clearStatus_d (s : State) (w : Word) :
    s.clearStatus .d w = s.setStatusD (s.statusD.clear w) := rfl

@[simp] theorem State.enqueue_eq (s : State) (xs : List Word) : s.enqueue xs = s.setPushq (s.pushq ++ xs) := rfl

/-- Adding a sample leaves every byte outside its element's words alone. -/
theorem addToOut_readByte_other (draw : Nat) (m : Memory) (i : Nat) (out : Word) (a : Nat)
    (h : ∀ c k, c < Config.numChannels → k < 4 → a ≠ outAddr c i + k) :
    Memory.readByte draw (addToOut draw m i out) a = Memory.readByte draw m a := by
  have step : ∀ c (m : Memory) (w : Word), c < Config.numChannels →
      Memory.readByte draw (m.writeWord (outAddr c i) w) a = Memory.readByte draw m a := by
    intro c m w hc
    apply Memory.readByte_writeWord_other
    by_contra hn
    exact h c (a - outAddr c i) hc (by omega) (by omega)
  simp only [addToOut, List.range_succ, List.range_zero, List.nil_append, List.cons_append, List.foldl_cons,
    List.foldl_nil]
  rw [step _ _ _ (by decide), step _ _ _ (by decide)]

/-- Adding a sample adds it into every channel's element. -/
theorem addToOut_readWord_same (draw : Nat) (m : Memory) (i : Nat) (out : Word) (c : Nat)
    (hc : c < Config.numChannels) :
    Memory.readWord draw (addToOut draw m i out) (outAddr c i) = fadd (Memory.readWord draw m (outAddr c i)) out := by
  simp only [addToOut, List.range_succ, List.range_zero, List.nil_append, List.cons_append, List.foldl_cons,
    List.foldl_nil]
  have hc' : c = 0 ∨ c = 1 := by simp only [Config.numChannels] at hc; omega
  rcases hc' with rfl | rfl
  · rw [Memory.readWord_writeWord_other _ _ _ _ _ (by simp only [outAddr]; omega), Memory.readWord_writeWord_same]
  · rw [Memory.readWord_writeWord_same, Memory.readWord_writeWord_other _ _ _ _ _ (by simp only [outAddr]; omega)]

/-- Adding samples leaves every byte outside their elements' words alone. -/
theorem addOuts_readByte_other (draw : Nat) (outs : List Word) :
    ∀ (m : Memory) (i a : Nat),
      (∀ c j k, c < Config.numChannels → j < outs.length → k < 4 → a ≠ outAddr c (i + j) + k) →
      Memory.readByte draw (addOuts draw m i outs) a = Memory.readByte draw m a := by
  induction outs with
  | nil => intros; rfl
  | cons o os ih =>
    intro m i a h
    simp only [addOuts]
    rw [ih]
    · exact addToOut_readByte_other _ _ _ _ _ (fun c k hc hk => by simpa using h c 0 k hc (by simp) hk)
    · intro c j k hc hj hk
      rw [show i + 1 + j = i + (j + 1) by omega]
      exact h c (j + 1) k hc (by simpa using hj) hk

/-- Adding samples leaves every word outside their elements alone. -/
theorem addOuts_readWord_other (draw : Nat) (outs : List Word) (m : Memory) (i a : Nat)
    (h : ∀ k, k < 4 → ∀ c j k', c < Config.numChannels → j < outs.length → k' < 4 → a + k ≠ outAddr c (i + j) + k') :
    Memory.readWord draw (addOuts draw m i outs) a = Memory.readWord draw m a := by
  unfold Memory.readWord
  rw [addOuts_readByte_other _ _ _ _ _ (by simpa using h 0 (by omega)),
    addOuts_readByte_other _ _ _ _ _ (h 1 (by omega)), addOuts_readByte_other _ _ _ _ _ (h 2 (by omega)),
    addOuts_readByte_other _ _ _ _ _ (h 3 (by omega))]

/-- Adding samples adds each into its element of every channel, once. -/
theorem addOuts_readWord (draw : Nat) (outs : List Word) :
    ∀ (m : Memory) (i : Nat) (c j : Nat) (hj : j < outs.length), c < Config.numChannels →
      i + outs.length ≤ Config.blockMax →
      Memory.readWord draw (addOuts draw m i outs) (outAddr c (i + j)) =
        fadd (Memory.readWord draw m (outAddr c (i + j))) outs[j] := by
  induction outs with
  | nil => intro m i c j hj; simp at hj
  | cons o os ih =>
    intro m i c j hj hc hb
    simp only [List.length_cons] at hj hb
    have hb' := hb
    simp only [Config.blockMax] at hb'
    cases j with
    | zero =>
      simp only [addOuts, Nat.add_zero, List.getElem_cons_zero]
      rw [addOuts_readWord_other, addToOut_readWord_same _ _ _ _ _ hc]
      intro k hk c' j' k' hc' hj' hk'
      simp only [outAddr, Config.numChannels] at *
      omega
    | succ j =>
      simp only [addOuts, List.getElem_cons_succ]
      rw [show i + (j + 1) = i + 1 + j by omega, ih _ _ _ _ (by omega) hc (by omega)]
      congr 1
      unfold Memory.readWord
      have hb2 : ∀ k, k < 4 → ∀ c' k', c' < Config.numChannels → k' < 4 →
          outAddr c (i + 1 + j) + k ≠ outAddr c' i + k' := by
        intro k hk c' k' hc' hk'
        simp only [outAddr, Config.numChannels] at *
        omega
      rw [addToOut_readByte_other _ _ _ _ _ (by simpa using hb2 0 (by omega)),
        addToOut_readByte_other _ _ _ _ _ (hb2 1 (by omega)), addToOut_readByte_other _ _ _ _ _ (hb2 2 (by omega)),
        addToOut_readByte_other _ _ _ _ _ (hb2 3 (by omega))]

/-- Clearing a block leaves every byte outside it alone. -/
theorem clearOut_readByte_other (draw : Nat) (m : Memory) (start count a : Nat)
    (h : ∀ c, c < Config.numChannels → a < outAddr c start ∨ outAddr c start + 4 * count ≤ a) :
    Memory.readByte draw (clearOut m start count) a = Memory.readByte draw m a := by
  simp only [clearOut, List.range_succ, List.range_zero, List.nil_append, List.cons_append, List.foldl_cons,
    List.foldl_nil]
  rw [Memory.readByte_writeWords_other, Memory.readByte_writeWords_other]
  · simpa using h 0 (by decide)
  · simpa using h 1 (by decide)

/-- Every element of a cleared block reads `+0`. -/
theorem clearOut_readWord (draw : Nat) (m : Memory) (start count c j : Nat) (hc : c < Config.numChannels)
    (hj : j < count) (hb : start + count ≤ Config.blockMax) :
    Memory.readWord draw (clearOut m start count) (outAddr c (start + j)) = fZero := by
  simp only [clearOut, List.range_succ, List.range_zero, List.nil_append, List.cons_append, List.foldl_cons,
    List.foldl_nil]
  have e : ∀ c, outAddr c (start + j) = outAddr c start + 4 * j := by intro c; simp only [outAddr]; omega
  simp only [Config.blockMax] at hb
  have hc' : c = 0 ∨ c = 1 := by simp only [Config.numChannels] at hc; omega
  rcases hc' with rfl | rfl
  · rw [Memory.readWord_writeWords_other _ _ _ _ _ (by simp only [outAddr]; omega), e,
      Memory.readWord_writeWords _ _ _ _ _ (by simpa using hj)]
    simp
  · rw [e, Memory.readWord_writeWords _ _ _ _ _ (by simpa using hj)]
    simp

/-- The free choice falls on one of the agents offered. -/
theorem freeChoice_mem (turn : Nat) (xs : List Agent) (a : Agent) (h : freeChoice turn xs = some a) : a ∈ xs := by
  unfold freeChoice at h
  split at h
  · cases h
  · simp_all
  · exact List.mem_of_getElem? h

/-- The agent that takes the next step has an enabled step. -/
theorem State.nextAgent_enabled (s : State) (a : Agent) (h : s.nextAgent = some a) : s.enabled a = true := by
  have key : freeChoice s.env.turn s.enabledAgents = some a → s.enabled a = true := fun h =>
    (List.mem_filter.1 (freeChoice_mem _ _ _ h)).2
  unfold State.nextAgent at h
  split at h
  · split at h
    · cases h; assumption
    · exact key h
  · exact key h

/-- Some agent takes the next step where one is enabled. -/
theorem State.nextAgent_isSome (s : State) (a : Agent) (h : s.enabled a = true) : s.nextAgent.isSome = true := by
  have hm : a ∈ s.enabledAgents := by
    refine List.mem_filter.2 ⟨?_, h⟩
    cases a <;> decide
  have key : (freeChoice s.env.turn s.enabledAgents).isSome = true := by
    unfold freeChoice
    split
    · simp_all
    · rfl
    · have : 0 < s.enabledAgents.length := List.length_pos_of_mem hm
      simp [Nat.mod_lt _ this]
  unfold State.nextAgent
  split
  · split
    · rfl
    · exact key
  · exact key

/-- A push that does not fill the FIFO (R353). -/
theorem State.pushFifo_partial (s : State) (x : Word) (h : s.vis.fifoIndex.toNat + 1 < Config.fifoCap) :
    s.pushFifo x = s.setVis { s.vis with fifo := s.fifoWritten x, fifoIndex := s.vis.fifoIndex + 1#11 } := if_pos h

/-- A push that fills the FIFO while a block is ready: the skip (R355). -/
theorem State.pushFifo_skip (s : State) (x : Word) (h : ¬ s.vis.fifoIndex.toNat + 1 < Config.fifoCap)
    (hr : s.vis.ready = true) :
    s.pushFifo x = (s.setVis { s.vis with fifo := s.fifoWritten x, fifoIndex := 0#11 }).setStatusD
      { s.statusD with specSkipped := true } := by
  rw [State.pushFifo, if_neg h, if_pos hr]

/-- A push that fills the FIFO while no block is ready: the block copy (R354). -/
theorem State.pushFifo_copy (s : State) (x : Word) (h : ¬ s.vis.fifoIndex.toNat + 1 < Config.fifoCap)
    (hr : s.vis.ready = false) :
    s.pushFifo x = s.setVis { s.vis with
      fifo := s.fifoWritten x
      fifoIndex := 0#11
      tbuf := blockCopy s.ramDraw (s.fifoWritten x)
      ready := true } := by
  rw [State.pushFifo, if_neg h, if_neg (by simp [hr])]

/-- Engine A's step on a queue that is not empty (R356). -/
theorem State.engineAStep_cons (s : State) (x : Word) (rest : List Word) (h : s.pushq = x :: rest) :
    s.engineAStep = (s.setPushq rest).push x := by
  rw [State.engineAStep, h]

/-- Engine A's step on an empty queue. -/
theorem State.engineAStep_nil (s : State) (h : s.pushq = []) : s.engineAStep = s := by
  rw [State.engineAStep, h]

end Sys2Proof.Machine
end

