-- ==== Sys2Proof/Laws/Render.lean ====
section
/-! SUPPORT. What a voice's rendering changes: the lengths of its lines, the fields it keeps, and how many samples it
gives. -/

namespace Sys2Proof.Machine

open Sys2Proof

theorem waveguideStep_left_length (refl : Word) (left right : List Word) (h : left ≠ []) :
    (waveguideStep refl left right).1.length = left.length := by
  have : 0 < left.length := List.length_pos_of_ne_nil h
  simp [waveguideStep]; omega

theorem waveguideStep_right_length (refl : Word) (left right : List Word) (h : right ≠ []) :
    (waveguideStep refl left right).2.length = right.length := by
  have : 0 < right.length := List.length_pos_of_ne_nil h
  simp [waveguideStep]; omega

theorem filterRun_length (v : Voice) (xs : List Word) :
    ∀ st, (filterRun v st xs).1.length = xs.length := by
  induction xs with
  | nil => intro st; rfl
  | cons x xs ih => intro st; simp [filterRun, ih]

theorem filterInterior_length (v : Voice) (st : FiltState) (left : List Word) :
    (filterInterior v st left).1.length = left.length := by
  cases left with
  | nil => rfl
  | cons x xs =>
    cases h : xs.getLast? with
    | none => simp_all [filterInterior, filterRun]
    | some y =>
      have : xs ≠ [] := by rintro rfl; simp at h
      have : 0 < xs.length := List.length_pos_of_ne_nil this
      simp only [filterInterior, h, List.length_cons, List.length_append, filterRun_length, List.length_dropLast,
        Option.toList_some, List.cons_append, List.length_nil]
      omega

/-- The envelope changes only the level and the stage. -/
theorem Voice.envNext_eq (v : Voice) :
    v.envNext = { v with envLevel := v.envNext.envLevel, stage := v.envNext.stage } := by
  unfold Voice.envNext
  split <;> (try simp only) <;> (try split) <;> rfl

/-- Steps 1 to 6 of a sample change only the lines and the filter's registers. -/
theorem Voice.stepLines_eq (draw n : Nat) (v : Voice) :
    v.stepLines draw n =
      { v with
        left := (v.stepLines draw n).left, right := (v.stepLines draw n).right
        s1 := (v.stepLines draw n).s1, s2 := (v.stepLines draw n).s2 } := rfl

theorem Voice.stepLines_left_length (draw n : Nat) (v : Voice) (h : 2 ≤ v.l.toNat) :
    (v.stepLines draw n).left.length = max v.l.toNat v.left.length := by
  simp only [Voice.stepLines, List.length_append, filterInterior_length, List.length_drop]
  rw [waveguideStep_left_length]
  · simp; omega
  · intro hc
    have := congrArg List.length hc
    simp at this; omega

theorem Voice.stepLines_right_length (draw n : Nat) (v : Voice) (h : 2 ≤ v.l.toNat) :
    (v.stepLines draw n).right.length = max v.l.toNat v.right.length := by
  simp only [Voice.stepLines, List.length_append, List.length_drop]
  rw [waveguideStep_right_length]
  · simp; omega
  · intro hc
    have := congrArg List.length hc
    simp at this; omega

/-- One sample: the fields of the voice that steps 1 to 6 and the envelope write. -/
theorem Voice.renderSample_eq (draw n : Nat) (v : Voice) :
    (v.renderSample draw n).1 = (v.stepLines draw n).envNext := rfl

@[simp] theorem Voice.hasLines_envNext (v : Voice) : v.envNext.hasLines = v.hasLines := by
  rw [Voice.envNext_eq]; rfl

@[simp] theorem Voice.hasLines_renderSample (draw n : Nat) (v : Voice) :
    (v.renderSample draw n).1.hasLines = v.hasLines := by
  rw [Voice.renderSample_eq, Voice.hasLines_envNext]; rfl

/-- A voice with lines gives one output a sample, a voice without none. -/
theorem Voice.renderSamples_length (draw n : Nat) (count : Nat) :
    ∀ v : Voice, (v.renderSamples draw n count).2.length = if v.hasLines then count else 0 := by
  induction count with
  | zero => intro v; simp [Voice.renderSamples]
  | succ count ih =>
    intro v
    by_cases h : v.hasLines
    · simp [Voice.renderSamples, h, ih]
    · simp only [Bool.not_eq_true] at h
      simp [Voice.renderSamples, h, ih]

/-- A property that every sample of a voice keeps holds after the block. -/
theorem Voice.renderSamples_keeps (draw n : Nat) (P : Voice → Prop)
    (hs : ∀ v, P v → v.hasLines = true → P (v.renderSample draw n).1) (he : ∀ v, P v → P v.envNext)
    (count : Nat) : ∀ v : Voice, P v → P (v.renderSamples draw n count).1 := by
  induction count with
  | zero => intro v h; exact h
  | succ count ih =>
    intro v h
    by_cases hl : v.hasLines
    · simp only [Voice.renderSamples, hl, if_true]
      exact ih _ (hs _ h hl)
    · simp only [Voice.renderSamples, hl]
      exact ih _ (he _ h)

/-- What rendering one voice does to the state. -/
theorem State.renderVoice_active (s : State) (start count : Nat) (v : Fin Config.numVoices)
    (h : (s.voice v).active = true) :
    s.renderVoice start count v =
      ((s.setVoice v ((s.voice v).renderSamples s.ramDraw v.val count).1.endBlock).setMem
        (addOuts s.ramDraw s.mem start ((s.voice v).renderSamples s.ramDraw v.val count).2)).setStatusA
          (noteNonfinite s.statusA ((s.voice v).renderSamples s.ramDraw v.val count).2) := by
  simp [State.renderVoice, h]

/-- An inactive voice renders nothing. -/
theorem State.renderVoice_inactive (s : State) (start count : Nat) (v : Fin Config.numVoices)
    (h : (s.voice v).active = false) : s.renderVoice start count v = s := by
  simp [State.renderVoice, h]

/-- A property of states that rendering any one voice keeps holds after all of them. -/
theorem State.renderVoices_keeps (P : State → Prop) (start count : Nat)
    (h : ∀ s v, P s → P (s.renderVoice start count v)) (s : State) (hs : P s) :
    P (s.renderVoices start count) := by
  unfold State.renderVoices
  generalize List.finRange Config.numVoices = vs
  induction vs generalizing s with
  | nil => exact hs
  | cons v vs ih => exact ih _ (h _ _ hs)

end Sys2Proof.Machine
end

