-- ==== Sys2Proof/Laws/Exec.lean ====
section
/-! SUPPORT. What each command answers where its checks pass and where they fail, so that no later proof unfolds `exec`
and its checks. -/

namespace Sys2Proof.Machine

open Sys2Proof

theorem blockInRange_iff (start count : Nat) : blockInRange start count = true ↔ start + count ≤ Config.blockMax := by
  simp [blockInRange]

theorem sampleRateOk_iff (s : State) : s.sampleRateOk = true ↔
    isFinite s.note.sampleRate = true ∧ fgt s.note.sampleRate fZero = true := by
  simp [State.sampleRateOk, positiveFinite]

theorem positiveFinite_iff (a : Word) : positiveFinite a = true ↔ isFinite a = true ∧ fgt a fZero = true := by
  simp [positiveFinite]

theorem exec_noteOn (s : State) (v : Fin Config.numVoices) (h : s.sampleRateOk = true) :
    exec (.noteOn v) s = .next (s.startNote v) := by
  simp [exec, execNoteOn, h]

theorem exec_noteOn_badRate (s : State) (v : Fin Config.numVoices) (h : s.sampleRateOk = false) :
    exec (.noteOn v) s = .next (s.raise .a .badSampleRate) := by
  simp [exec, execNoteOn, h, failCommand]

theorem exec_noteOn_range (s : State) (v : Nat) (h : Config.numVoices ≤ v) :
    exec (.noteOn v) s = .next (s.raise .a .voiceRange) := by
  simp only [exec, execNoteOn]
  rw [dif_neg (by omega)]; rfl

theorem exec_noteOff_active (s : State) (v : Fin Config.numVoices) (tail : Bool) (h : (s.voice v).active = true) :
    exec (.noteOff v tail) s = .next (s.setVoice v ((s.voice v).noteOff tail)) := by
  simp [exec, execNoteOff, h]

theorem exec_noteOff_idle (s : State) (v : Fin Config.numVoices) (tail : Bool) (h : (s.voice v).active = false) :
    exec (.noteOff v tail) s = .next s := by
  simp [exec, execNoteOff, h]

theorem exec_noteOff_range (s : State) (v : Nat) (tail : Bool) (h : Config.numVoices ≤ v) :
    exec (.noteOff v tail) s = .next (s.raise .a .voiceRange) := by
  simp only [exec, execNoteOff]
  rw [dif_neg (by omega)]; rfl

theorem exec_renderBlock (s : State) (start count : Nat) (h : start + count ≤ Config.blockMax) :
    exec (.renderBlock start count) s = .next ((s.renderVoices start count).handOff start count) := by
  simp only [exec, execRenderBlock]
  rw [if_pos ((blockInRange_iff _ _).2 h)]

theorem exec_renderBlock_range (s : State) (start count : Nat) (h : Config.blockMax < start + count) :
    exec (.renderBlock start count) s = .next (s.raise .a .blockRange) := by
  simp only [exec, execRenderBlock]
  rw [if_neg (by rw [blockInRange_iff]; omega)]; rfl

theorem exec_outClear (s : State) (start count : Nat) (h : start + count ≤ Config.blockMax) :
    exec (.outClear start count) s = .next (s.setMem (clearOut s.mem start count)) := by
  simp only [exec, execOutClear]
  rw [if_pos ((blockInRange_iff _ _).2 h)]

theorem exec_outClear_range (s : State) (start count : Nat) (h : Config.blockMax < start + count) :
    exec (.outClear start count) s = .next (s.raise .a .blockRange) := by
  simp only [exec, execOutClear]
  rw [if_neg (by rw [blockInRange_iff]; omega)]; rfl

theorem exec_peek (s : State) (v : Fin Config.numVoices) (space : PeekSpace) (index : Nat) (w : Word)
    (h : s.peekValue v space index = some w) : exec (.peek v space index) s = .next (s.setResultA w) := by
  simp only [exec, execPeek]
  rw [dif_pos v.2]
  simp only [Fin.eta, h]

theorem exec_peek_index (s : State) (v : Fin Config.numVoices) (space : PeekSpace) (index : Nat)
    (h : s.peekValue v space index = none) :
    exec (.peek v space index) s = .next (s.raise .a .indexRange) := by
  simp only [exec, execPeek]
  rw [dif_pos v.2]
  simp only [Fin.eta, h]; rfl

theorem exec_peek_range (s : State) (v : Nat) (space : PeekSpace) (index : Nat) (h : Config.numVoices ≤ v) :
    exec (.peek v space index) s = .next (s.raise .a .voiceRange) := by
  simp only [exec, execPeek]
  rw [dif_neg (by omega)]; rfl

theorem lineIndexOk_iff (v : Voice) (index : Nat) :
    v.lineIndexOk index = true ↔ v.degen = false ∧ 2 ≤ v.l.toNat ∧ index < v.l.toNat := by
  simp [Voice.lineIndexOk, and_assoc]

/-- What a failed command leaves. -/
theorem State.raise_records (s : State) (p : Port) (e : CmdError) : RecordsError p (errorCode e) s (s.raise p e) := by
  cases p with
  | a =>
    cases h : s.statusA.err with
    | false => simp only [RecordsError, State.raise, StatusA.record_first _ _ h, h]; rfl
    | true =>
      simp only [RecordsError, State.raise, StatusA.record_later _ _ h, h, if_true]
      rw [← h]; rfl
  | d =>
    cases h : s.statusD.err with
    | false => simp only [RecordsError, State.raise, StatusD.record_first _ _ h, h]; rfl
    | true =>
      simp only [RecordsError, State.raise, StatusD.record_later _ _ h, h, if_true]
      rw [← h]; rfl

/-- A host's 32-bit write to a command register issues the word on that register's port, whichever host writes it
(R158, R510). -/
theorem performAccess_command (p q : Port) (w : Word) (rest : List Access) (s : State) :
    performAccess p (.write .w32 (cmdOffset q) w) rest s = issue q w (s.setHostPort p ⟨rest, .writeDone⟩) := by
  cases q
  · have hf : busFault .w32 (cmdOffset .a).toNat = none := by decide +kernel
    have ht : targetAt (cmdOffset .a).toNat = some .cmdA := by decide +kernel
    simp only [performAccess, Access.width, Access.offset, hf, ht]
    rfl
  · have hf : busFault .w32 (cmdOffset .d).toNat = none := by decide +kernel
    have ht : targetAt (cmdOffset .d).toNat = some .cmdD := by decide +kernel
    simp only [performAccess, Access.width, Access.offset, hf, ht]
    rfl

end Sys2Proof.Machine
end

