-- ==== Sys2Proof/Laws/Float.lean ====
section
/-! SUPPORT. The fields and the value of a packed pattern, the order of magnitudes, and what rounding does once: it is
bounded by infinity, monotone where it starts at a representable value, and exact on representable values. -/

namespace Sys2Proof.Machine

open Sys2Proof

theorem fracField_lt (a : Word) : fracField a < 2 ^ 23 := Nat.mod_lt _ (by norm_num)

theorem expField_lt (a : Word) : expField a < 2 ^ 8 := Nat.mod_lt _ (by norm_num)

theorem rndMag_le (num den : Nat) : rndMag num den ≤ infBits := by
  unfold rndMag
  simp only
  split <;> omega

theorem pack_toNat (neg : Bool) (mag : Nat) (h : mag < 2 ^ 31) :
    (pack neg mag).toNat = if neg then mag + 2 ^ 31 else mag := by
  unfold pack
  simp only [BitVec.toNat_ofNat]
  split <;> exact Nat.mod_eq_of_lt (by omega)

theorem signBit_pack (neg : Bool) (mag : Nat) (h : mag < 2 ^ 31) : signBit (pack neg mag) = neg := by
  unfold signBit
  rw [pack_toNat _ _ h]
  cases neg <;> (simp; try omega)

theorem expField_pack (neg : Bool) (mag : Nat) (h : mag < 2 ^ 31) :
    expField (pack neg mag) = mag / 2 ^ 23 := by
  unfold expField
  rw [pack_toNat _ _ h]
  cases neg <;> (simp; try omega)

theorem fracField_pack (neg : Bool) (mag : Nat) (h : mag < 2 ^ 31) :
    fracField (pack neg mag) = mag % 2 ^ 23 := by
  unfold fracField
  rw [pack_toNat _ _ h]
  cases neg <;> (simp; try omega)

/-- The units of the magnitude whose pattern is `mag`. -/
def unitsOfMag (mag : Nat) : Nat :=
  if mag / 2 ^ 23 = 0 then mag % 2 ^ 23 else (2 ^ 23 + mag % 2 ^ 23) * 2 ^ (mag / 2 ^ 23 - 1)

theorem units_pack (neg : Bool) (mag : Nat) (h : mag < 2 ^ 31) : units (pack neg mag) = unitsOfMag mag := by
  unfold units unitsOfMag
  rw [expField_pack _ _ h, fracField_pack _ _ h]

theorem value_pack (neg : Bool) (mag : Nat) (h : mag < 2 ^ 31) :
    value (pack neg mag) = if neg then -(unitsOfMag mag : Int) else (unitsOfMag mag : Int) := by
  unfold value
  rw [signBit_pack _ _ h, units_pack _ _ h]

/-- No pattern up to infinity's is a NaN. -/
theorem isNaN_pack (neg : Bool) (mag : Nat) (h : mag ≤ infBits) : isNaN (pack neg mag) = false := by
  have hi : infBits = 0x7F800000 := rfl
  unfold isNaN
  rw [expField_pack _ _ (by omega), fracField_pack _ _ (by omega)]
  simp only [Bool.and_eq_false_iff, decide_eq_false_iff_not, not_not]
  omega

theorem isNaN_pack_rndMag (neg : Bool) (num den : Nat) : isNaN (pack neg (rndMag num den)) = false :=
  isNaN_pack _ _ (rndMag_le _ _)

/-- Every step of one in a pattern is a step up in value. -/
theorem unitsOfMag_lt_succ (mag : Nat) : unitsOfMag mag < unitsOfMag (mag + 1) := by
  unfold unitsOfMag
  by_cases h : (mag + 1) / 2 ^ 23 = mag / 2 ^ 23
  · have h2 : (mag + 1) % 2 ^ 23 = mag % 2 ^ 23 + 1 := by omega
    rw [h, h2]
    split
    · omega
    · exact Nat.mul_lt_mul_of_pos_right (by omega) (by positivity)
  · have h1 : (mag + 1) / 2 ^ 23 = mag / 2 ^ 23 + 1 := by omega
    have h2 : (mag + 1) % 2 ^ 23 = 0 := by omega
    have h3 : mag % 2 ^ 23 = 2 ^ 23 - 1 := by omega
    rw [h1, h2, h3]
    rw [if_neg (by omega : ¬ (mag / 2 ^ 23 + 1 = 0))]
    split
    · rename_i h0
      rw [h0]; norm_num
    · rename_i h0
      obtain ⟨e, he⟩ : ∃ e, mag / 2 ^ 23 = e + 1 := ⟨mag / 2 ^ 23 - 1, by omega⟩
      rw [he, show e + 1 + 1 - 1 = e + 1 by omega, show e + 1 - 1 = e by omega,
        show 2 ^ (e + 1) = 2 ^ e * 2 from pow_succ 2 e]
      have hp : 0 < 2 ^ e := by positivity
      generalize 2 ^ e = p at *
      omega

theorem unitsOfMag_strictMono : StrictMono unitsOfMag := strictMono_nat_of_lt_succ unitsOfMag_lt_succ

theorem unitsOfMag_le_iff (a b : Nat) : unitsOfMag a ≤ unitsOfMag b ↔ a ≤ b := unitsOfMag_strictMono.le_iff_le

theorem unitsOfMag_zero : unitsOfMag 0 = 0 := by decide

theorem unitsOfMag_one : unitsOfMag 0x3F800000 = 2 ^ 149 := by decide +kernel

/-- Rounding to an integer stays at or above every integer that is not above the quotient. -/
theorem le_roundEven (num den k : Nat) (hd : 0 < den) (h : k * den ≤ num) : k ≤ roundEven num den := by
  have : k ≤ num / den := (Nat.le_div_iff_mul_le hd).2 h
  unfold roundEven
  split <;> omega

/-- Rounding to an integer stays at or below every integer that is not below the quotient. -/
theorem roundEven_le (num den k : Nat) (hd : 0 < den) (h : num ≤ k * den) : roundEven num den ≤ k := by
  have hq : num / den ≤ k := Nat.div_le_of_le_mul (by rw [Nat.mul_comm]; exact h)
  unfold roundEven
  split
  · rename_i hc
    have hr : 0 < num % den := by
      rcases hc with hc | hc
      · by_contra h0
        have : num % den = 0 := by omega
        rw [this] at hc; omega
      · by_contra h0
        have : num % den = 0 := by omega
        rw [this] at hc; omega
    have hdm := Nat.div_add_mod num den
    by_contra hk
    have hk' : num / den = k := by omega
    rw [hk'] at hdm
    have : k * den = den * k := Nat.mul_comm _ _
    omega
  · exact hq

theorem spacing_bound (q : Nat) (h : spacing q ≠ 0) : 2 ^ (23 + spacing q) ≤ q := by
  unfold spacing at *
  have hq : q ≠ 0 := by rintro rfl; simp at h
  rw [show 23 + (Nat.log2 q - 23) = Nat.log2 q by omega]
  exact Nat.log2_self_le hq

theorem lt_spacing_bound (q : Nat) : q < 2 ^ (24 + spacing q) := by
  unfold spacing
  by_cases hq : q = 0
  · subst hq; positivity
  calc q < 2 ^ (Nat.log2 q + 1) := Nat.lt_log2_self
    _ ≤ 2 ^ (24 + (Nat.log2 q - 23)) := Nat.pow_le_pow_right (by norm_num) (by omega)

/-- The significand that rounding gives at the spacing of the magnitude lies in one binade, its upper end included. -/
theorem roundEven_spacing_le (num den : Nat) (hd : 0 < den) :
    roundEven num (den * 2 ^ spacing (num / den)) ≤ 2 ^ 24 := by
  apply roundEven_le _ _ _ (by positivity)
  have h := lt_spacing_bound (num / den)
  have h2 : num < den * 2 ^ (24 + spacing (num / den)) := by
    have := Nat.div_lt_iff_lt_mul hd |>.1 h
    rw [Nat.mul_comm]; exact this
  rw [Nat.pow_add] at h2
  calc num ≤ den * (2 ^ 24 * 2 ^ spacing (num / den)) := h2.le
    _ = 2 ^ 24 * (den * 2 ^ spacing (num / den)) := by ring

theorem le_roundEven_spacing (num den : Nat) (hd : 0 < den) (h : spacing (num / den) ≠ 0) :
    2 ^ 23 ≤ roundEven num (den * 2 ^ spacing (num / den)) := by
  apply le_roundEven _ _ _ (by positivity)
  have h1 := spacing_bound _ h
  have h2 : 2 ^ (23 + spacing (num / den)) * den ≤ num := (Nat.le_div_iff_mul_le hd).1 h1
  rw [Nat.pow_add] at h2
  calc 2 ^ 23 * (den * 2 ^ spacing (num / den)) = 2 ^ 23 * 2 ^ spacing (num / den) * den := by ring
    _ ≤ num := h2

/-- The units of `e * 2^23 + m` for a significand `m` of the binade `e`, its upper end included. -/
theorem unitsOfMag_binade (e m : Nat) (h1 : e ≠ 0 → 2 ^ 23 ≤ m) (h2 : m ≤ 2 ^ 24) :
    unitsOfMag (e * 2 ^ 23 + m) = m * 2 ^ e := by
  by_cases ht : m = 2 ^ 24
  · subst ht
    unfold unitsOfMag
    have hd : (e * 2 ^ 23 + 2 ^ 24) / 2 ^ 23 = e + 2 := by omega
    have hm : (e * 2 ^ 23 + 2 ^ 24) % 2 ^ 23 = 0 := by omega
    rw [hd, hm, if_neg (by omega), show e + 2 - 1 = e + 1 by omega, pow_succ]
    ring
  by_cases hs : m < 2 ^ 23
  · have he : e = 0 := by by_contra h; exact absurd (h1 h) (by omega)
    subst he
    unfold unitsOfMag
    have hd : (0 * 2 ^ 23 + m) / 2 ^ 23 = 0 := by omega
    rw [if_pos hd]; omega
  · unfold unitsOfMag
    have hd : (e * 2 ^ 23 + m) / 2 ^ 23 = e + 1 := by omega
    have hm : (e * 2 ^ 23 + m) % 2 ^ 23 = m - 2 ^ 23 := by omega
    rw [hd, hm, if_neg (by omega), show e + 1 - 1 = e by omega, show 2 ^ 23 + (m - 2 ^ 23) = m by omega]

/-- What rounding gives, where it does not reach infinity: the significand at the spacing of the magnitude. -/
theorem unitsOfMag_rndMag (num den : Nat) (hd : 0 < den) (h : rndMag num den < infBits) :
    unitsOfMag (rndMag num den) =
      roundEven num (den * 2 ^ spacing (num / den)) * 2 ^ spacing (num / den) := by
  have : rndMag num den = spacing (num / den) * 2 ^ 23 + roundEven num (den * 2 ^ spacing (num / den)) := by
    unfold rndMag at *
    simp only at *
    split at h <;> simp_all
  rw [this]
  exact unitsOfMag_binade _ _ (fun he => le_roundEven_spacing _ _ hd he) (roundEven_spacing_le _ _ hd)

/-- The pattern that rounding gives before the cap at infinity. -/
def rawMag (num den : Nat) : Nat :=
  spacing (num / den) * 2 ^ 23 + roundEven num (den * 2 ^ spacing (num / den))

theorem rndMag_eq (num den : Nat) : rndMag num den = min (rawMag num den) infBits := by
  unfold rndMag rawMag
  simp only
  split <;> omega

theorem unitsOfMag_rawMag (num den : Nat) (hd : 0 < den) :
    unitsOfMag (rawMag num den) =
      roundEven num (den * 2 ^ spacing (num / den)) * 2 ^ spacing (num / den) :=
  unitsOfMag_binade _ _ (fun he => le_roundEven_spacing _ _ hd he) (roundEven_spacing_le _ _ hd)

/-- No integer is nearer to a quotient than its rounding. -/
theorem roundEven_nearest (num den : Nat) (hd : 0 < den) (k : Int) :
    |(roundEven num den : Int) * den - num| ≤ |k * den - num| := by
  have hdm := Nat.div_add_mod num den
  have hlt := Nat.mod_lt num hd
  obtain ⟨q, hq⟩ : ∃ q, q = num / den := ⟨_, rfl⟩
  obtain ⟨r, hr⟩ : ∃ r, r = num % den := ⟨_, rfl⟩
  have hnum : (num : Int) = q * den + r := by rw [hq, hr]; push_cast; rw [mul_comm]; exact_mod_cast hdm.symm
  have hrd : (r : Int) < den := by exact_mod_cast (by omega : r < den)
  have hr0 : (0 : Int) ≤ r := by positivity
  have hd' : (0 : Int) < den := by exact_mod_cast hd
  have hk : k ≤ q ∨ (q : Int) + 1 ≤ k := by omega
  have lo : k ≤ q → (r : Int) ≤ |k * den - num| := by
    intro h
    have : k * den ≤ q * den := mul_le_mul_of_nonneg_right h hd'.le
    rw [abs_of_nonpos (by linarith)]; linarith
  have hi : (q : Int) + 1 ≤ k → (den : Int) - r ≤ |k * den - num| := by
    intro h
    have : (q + 1) * (den : Int) ≤ k * den := mul_le_mul_of_nonneg_right h hd'.le
    rw [abs_of_nonneg (by nlinarith)]; nlinarith
  unfold roundEven
  rw [← hq, ← hr]
  split
  · rename_i hc
    have : (den : Int) ≤ 2 * r := by rcases hc with hc | ⟨hc, _⟩ <;> exact_mod_cast (by omega)
    have e : |((q + 1 : Nat) : Int) * den - num| = den - r := by
      push_cast; rw [hnum, abs_of_nonneg (by nlinarith)]; ring
    rw [e]; rcases hk with hk | hk
    · have := lo hk; linarith
    · exact hi hk
  · rename_i hc
    have : 2 * (r : Int) ≤ den := by
      by_contra h; apply hc; left; omega
    have e : |(q : Int) * den - num| = r := by rw [hnum, abs_of_nonpos (by linarith)]; ring
    rw [e]; rcases hk with hk | hk
    · exact lo hk
    · have := hi hk; linarith

/-- Where another integer is as near, the rounding is even. -/
theorem roundEven_tie (num den : Nat) (hd : 0 < den) (k : Int) (hne : k ≠ roundEven num den)
    (h : |k * den - num| = |(roundEven num den : Int) * den - num|) : roundEven num den % 2 = 0 := by
  have hdm := Nat.div_add_mod num den
  have hlt := Nat.mod_lt num hd
  obtain ⟨q, hq⟩ : ∃ q, q = num / den := ⟨_, rfl⟩
  obtain ⟨r, hr⟩ : ∃ r, r = num % den := ⟨_, rfl⟩
  have hnum : (num : Int) = q * den + r := by rw [hq, hr]; push_cast; rw [mul_comm]; exact_mod_cast hdm.symm
  have hrd : (r : Int) < den := by exact_mod_cast (by omega : r < den)
  have hr0 : (0 : Int) ≤ r := by positivity
  have hd' : (0 : Int) < den := by exact_mod_cast hd
  have hk : k ≤ q ∨ (q : Int) + 1 ≤ k := by omega
  have lo : k ≤ q → |k * den - num| = (q - k) * den + r := by
    intro h
    have : k * den ≤ q * den := mul_le_mul_of_nonneg_right h hd'.le
    rw [hnum, abs_of_nonpos (by linarith)]; ring
  have hi : (q : Int) + 1 ≤ k → |k * den - num| = (k - q) * den - r := by
    intro h
    have : (q + 1) * (den : Int) ≤ k * den := mul_le_mul_of_nonneg_right h hd'.le
    rw [hnum, abs_of_nonneg (by nlinarith)]; ring
  have hval : roundEven num den = if den < 2 * r ∨ (2 * r = den ∧ q % 2 = 1) then q + 1 else q := by
    unfold roundEven; rw [← hq, ← hr]
  rw [hval] at hne h ⊢
  by_cases hc : den < 2 * r ∨ (2 * r = den ∧ q % 2 = 1)
  · rw [if_pos hc] at hne h ⊢
    have e : |((q + 1 : Nat) : Int) * den - num| = den - r := by
      push_cast; rw [hnum, abs_of_nonneg (by nlinarith)]; ring
    rw [e] at h
    have hc1 : (den : Int) ≤ 2 * r := by rcases hc with hc | ⟨hc, _⟩ <;> exact_mod_cast (by omega)
    rcases hk with hk | hk
    · rw [lo hk] at h
      have : k = q := by
        by_contra hx
        have : (1 : Int) ≤ q - k := by omega
        nlinarith
      subst this
      have : 2 * (r : Int) = den := by linarith
      omega
    · rw [hi hk] at h
      exfalso; apply hne
      push_cast
      have : (k - q - 1) * (den : Int) = 0 := by linarith
      rcases mul_eq_zero.1 this with h | h <;> omega
  · rw [if_neg hc] at hne h ⊢
    have e : |(q : Int) * den - num| = r := by rw [hnum, abs_of_nonpos (by linarith)]; ring
    rw [e] at h
    have hc1 : 2 * (r : Int) ≤ den := by by_contra h; apply hc; left; omega
    rcases hk with hk | hk
    · rw [lo hk] at h
      exfalso; apply hne
      have : (q - k) * (den : Int) = 0 := by linarith
      rcases mul_eq_zero.1 this with h | h <;> omega
    · rw [hi hk] at h
      have : k = q + 1 := by
        by_contra hx
        have : (2 : Int) ≤ k - q := by omega
        nlinarith
      subst this
      have : 2 * (r : Int) = den := by linarith
      omega

/-- A magnitude is a multiple of the spacing `2^e`, or it lies below the binade of that spacing. -/
theorem unitsOfMag_grid (m e : Nat) : (∃ k, unitsOfMag m = k * 2 ^ e) ∨ unitsOfMag m < 2 ^ (23 + e) := by
  by_cases h : m / 2 ^ 23 - 1 < e
  · right
    unfold unitsOfMag
    split
    · have : m % 2 ^ 23 < 2 ^ 23 := Nat.mod_lt _ (by norm_num)
      calc m % 2 ^ 23 < 2 ^ 23 := this
        _ ≤ 2 ^ (23 + e) := Nat.pow_le_pow_right (by norm_num) (by omega)
    · have : m % 2 ^ 23 < 2 ^ 23 := Nat.mod_lt _ (by norm_num)
      calc (2 ^ 23 + m % 2 ^ 23) * 2 ^ (m / 2 ^ 23 - 1) < 2 ^ 24 * 2 ^ (m / 2 ^ 23 - 1) :=
            Nat.mul_lt_mul_of_pos_right (by omega) (by positivity)
        _ = 2 ^ (24 + (m / 2 ^ 23 - 1)) := by rw [← pow_add]
        _ ≤ 2 ^ (23 + e) := Nat.pow_le_pow_right (by norm_num) (by omega)
  · left
    unfold unitsOfMag
    split
    · have : e = 0 := by omega
      subst this; exact ⟨_, by simp; rfl⟩
    · refine ⟨(2 ^ 23 + m % 2 ^ 23) * 2 ^ (m / 2 ^ 23 - 1 - e), ?_⟩
      rw [mul_assoc, ← pow_add, show m / 2 ^ 23 - 1 - e + e = m / 2 ^ 23 - 1 by omega]

/-- No magnitude is nearer to the quotient than the rounding, the cap at infinity left out. -/
theorem rawMag_nearest (num den : Nat) (hd : 0 < den) (m : Nat) :
    |(unitsOfMag (rawMag num den) : Int) * den - num| ≤ |(unitsOfMag m : Int) * den - num| := by
  rw [unitsOfMag_rawMag _ _ hd]
  obtain ⟨e, he⟩ : ∃ e, e = spacing (num / den) := ⟨_, rfl⟩
  rw [← he]
  have hpos : 0 < den * 2 ^ e := by positivity
  have near : ∀ k : Int, |((roundEven num (den * 2 ^ e) * 2 ^ e : Nat) : Int) * den - num| ≤ |k * 2 ^ e * den - num| := by
    intro k
    have := roundEven_nearest num (den * 2 ^ e) hpos k
    push_cast at this ⊢
    rw [show (roundEven num (den * 2 ^ e) : Int) * 2 ^ e * den = roundEven num (den * 2 ^ e) * (den * 2 ^ e) by ring,
      show k * 2 ^ e * (den : Int) = k * (den * 2 ^ e) by ring]
    exact this
  rcases unitsOfMag_grid m e with ⟨k, hk⟩ | hlt
  · rw [hk]; have := near k; push_cast at this ⊢; exact this
  · by_cases h0 : e = 0
    · have := near (unitsOfMag m); rw [h0] at this ⊢; simpa using this
    · have hb := spacing_bound (num / den) (by rw [← he]; exact h0)
      rw [← he] at hb
      have hb2 : 2 ^ (23 + e) * den ≤ num := (Nat.le_div_iff_mul_le hd).1 hb
      have h1 := near (2 ^ 23)
      refine h1.trans ?_
      have hb3 : (2 : Int) ^ 23 * 2 ^ e * den ≤ num := by rw [← pow_add]; exact_mod_cast hb2
      have hl : (unitsOfMag m : Int) ≤ 2 ^ 23 * 2 ^ e := by rw [← pow_add]; exact_mod_cast hlt.le
      have hd' : (0 : Int) < den := by exact_mod_cast hd
      have := mul_le_mul_of_nonneg_right hl hd'.le
      rw [abs_of_nonpos (by linarith), abs_of_nonpos (by linarith)]; linarith

/-- Rounding does not pass a magnitude that the quotient does not pass. -/
theorem rndMag_le_of_le (num den m : Nat) (hd : 0 < den) (h : num ≤ unitsOfMag m * den) : rndMag num den ≤ m := by
  rw [rndMag_eq]
  refine (Nat.min_le_left _ _).trans ?_
  by_contra hc
  have hs := unitsOfMag_strictMono (by omega : m < rawMag num den)
  have := rawMag_nearest num den hd m
  have hd' : (0 : Int) < den := by exact_mod_cast hd
  have h1 : (num : Int) ≤ unitsOfMag m * den := by exact_mod_cast h
  have h2 : (unitsOfMag m : Int) + 1 ≤ unitsOfMag (rawMag num den) := by exact_mod_cast hs
  rw [abs_of_nonneg (by nlinarith), abs_of_nonneg (by linarith)] at this
  nlinarith

/-- Rounding does not fall below a finite magnitude that the quotient does not fall below. -/
theorem le_rndMag_of_le (num den m : Nat) (hd : 0 < den) (hm : m ≤ infBits) (h : unitsOfMag m * den ≤ num) :
    m ≤ rndMag num den := by
  rw [rndMag_eq]
  refine le_min ?_ hm
  by_contra hc
  have hs := unitsOfMag_strictMono (by omega : rawMag num den < m)
  have := rawMag_nearest num den hd m
  have hd' : (0 : Int) < den := by exact_mod_cast hd
  have h1 : (unitsOfMag m : Int) * den ≤ num := by exact_mod_cast h
  have h2 : (unitsOfMag (rawMag num den) : Int) + 1 ≤ unitsOfMag m := by exact_mod_cast hs
  rw [abs_of_nonpos (by nlinarith), abs_of_nonpos (by linarith)] at this
  nlinarith

/-- Rounding is exact on every magnitude. -/
theorem rndMag_exact (m den : Nat) (hd : 0 < den) (hm : m ≤ infBits) : rndMag (unitsOfMag m * den) den = m :=
  le_antisymm (rndMag_le_of_le _ _ _ hd le_rfl) (le_rndMag_of_le _ _ _ hd hm le_rfl)

end Sys2Proof.Machine
end

