-- ==== Sys2Proof/Laws/Level.lean ====
section
/-! SUPPORT. The level's exact rounding: what its integer comparisons say of the real `1 + log10(n / 2^160) / 5`, and what
the bit search finds. -/

namespace Sys2Proof.Machine

open Sys2Proof

/-- The real that R408 rounds, for a magnitude of `n` units (2048 is 2^160 units). -/
noncomputable def levelReal (n : Nat) : ℝ := 1 + Real.logb 10 (n / 2 ^ 160) / 5

/-- The logarithms of the two integers compared. -/
theorem logb_level_sides (n a b : Nat) (hn : 0 < n) (hab : a ≤ b) :
    Real.logb 10 ((n ^ b * 10 ^ (5 * (b - a)) : ℕ) : ℝ) - Real.logb 10 ((2 ^ (160 * b) : ℕ) : ℝ) =
      5 * (b * levelReal n - a) := by
  have hn' : (0 : ℝ) < n := by exact_mod_cast hn
  push_cast
  rw [Real.logb_mul (by positivity) (by positivity), Real.logb_pow, Real.logb_pow,
    Real.logb_self_eq_one (by norm_num), pow_mul, Real.logb_pow, levelReal,
    Real.logb_div hn'.ne' (by positivity)]
  push_cast [Nat.cast_sub hab]
  ring

/-- The comparison of the real with `a / b` from below, multiplied out. -/
theorem lt_levelReal_iff (n a b : Nat) (hn : 0 < n) (hb : 0 < b) (hab : a ≤ b) :
    (a : ℝ) / b < levelReal n ↔ 2 ^ (160 * b) < n ^ b * 10 ^ (5 * (b - a)) := by
  have hb' : (0 : ℝ) < b := by exact_mod_cast hb
  have hx : (0 : ℝ) < ((n ^ b * 10 ^ (5 * (b - a)) : ℕ) : ℝ) := by exact_mod_cast (by positivity)
  have hy : (0 : ℝ) < ((2 ^ (160 * b) : ℕ) : ℝ) := by exact_mod_cast (by positivity)
  have h := logb_level_sides n a b hn hab
  rw [← Nat.cast_lt (α := ℝ), ← Real.logb_lt_logb_iff (b := 10) (by norm_num) hy hx, div_lt_iff₀ hb']
  constructor <;> intro hl <;> linarith

/-- The comparison of the real with `a / b` from above, multiplied out. -/
theorem levelReal_lt_iff (n a b : Nat) (hn : 0 < n) (hb : 0 < b) (hab : a ≤ b) :
    levelReal n < (a : ℝ) / b ↔ n ^ b * 10 ^ (5 * (b - a)) < 2 ^ (160 * b) := by
  have hb' : (0 : ℝ) < b := by exact_mod_cast hb
  have hx : (0 : ℝ) < ((n ^ b * 10 ^ (5 * (b - a)) : ℕ) : ℝ) := by exact_mod_cast (by positivity)
  have hy : (0 : ℝ) < ((2 ^ (160 * b) : ℕ) : ℝ) := by exact_mod_cast (by positivity)
  have h := logb_level_sides n a b hn hab
  rw [← Nat.cast_lt (α := ℝ), ← Real.logb_lt_logb_iff (b := 10) (by norm_num) hx hy, lt_div_iff₀ hb']
  constructor <;> intro hl <;> linarith

theorem levelAbove_iff (n a b : Nat) (hn : 0 < n) (hb : 0 < b) (hab : a ≤ b) :
    levelAbove n a b = true ↔ (a : ℝ) / b < levelReal n := by
  rw [levelAbove, decide_eq_true_eq, lt_levelReal_iff n a b hn hb hab]

theorem levelAt_iff (n a b : Nat) (hn : 0 < n) (hb : 0 < b) (hab : a ≤ b) :
    levelAt n a b = true ↔ levelReal n = (a : ℝ) / b := by
  have h1 := lt_levelReal_iff n a b hn hb hab
  have h2 := levelReal_lt_iff n a b hn hb hab
  rw [levelAt, decide_eq_true_eq]
  constructor
  · intro h
    exact le_antisymm (not_lt.1 fun hc => absurd (h1.1 hc) (by omega)) (not_lt.1 fun hc => absurd (h2.1 hc) (by omega))
  · intro h
    exact le_antisymm (not_lt.1 fun hc => (h2.2 hc).ne h) (not_lt.1 fun hc => (h1.2 hc).ne' h)

/-- What the bit search finds: of an `f` that accepts an initial segment, all of it below `r`, the numbers `f` accepts
below `r + 2^k - 1` are those below the number found. -/
theorem firstRefused_spec (f : Nat → Bool) (hf : ∀ p q, p ≤ q → f q = true → f p = true) (k : Nat) :
    ∀ r, (∀ p, p < r → f p = true) → r ≤ firstRefused f k r ∧ firstRefused f k r < r + 2 ^ k ∧
      (∀ p, p < firstRefused f k r → f p = true) ∧
      (firstRefused f k r + 1 < r + 2 ^ k → f (firstRefused f k r) = false) := by
  induction k with
  | zero => intro r h; exact ⟨le_refl _, by simp [firstRefused], h, fun h => by simp [firstRefused] at h⟩
  | succ k ih =>
    intro r h
    have hp : 2 ^ (k + 1) = 2 * 2 ^ k := by ring
    have hk : 0 < 2 ^ k := by positivity
    simp only [firstRefused]
    by_cases hc : f (r + 2 ^ k - 1) = true
    · rw [if_pos hc]
      obtain ⟨h1, h2, h3, h4⟩ := ih (r + 2 ^ k) (fun p hpr => hf p _ (by omega) hc)
      exact ⟨by omega, by omega, h3, fun h => h4 (by omega)⟩
    · rw [if_neg hc]
      obtain ⟨h1, h2, h3, h4⟩ := ih r h
      refine ⟨h1, by omega, h3, fun _ => ?_⟩
      by_cases hl : firstRefused f k r + 1 < r + 2 ^ k
      · exact h4 hl
      · rw [show firstRefused f k r = r + 2 ^ k - 1 by omega]
        exact Bool.eq_false_iff.2 hc

end Sys2Proof.Machine
end

