-- ==== Sys2Proof/Laws/PerInstr.lean ====
section
/-! SUPPORT. The family `OpcodeField`: the word of a well-formed command carries the command's opcode in bits [31:24]
(R201, R206, R207), one lemma per constructor. -/

namespace Sys2Proof.Laws.OpcodeField

open Sys2Proof

/-- The statement of the family about one command. -/
def Statement (i : Instr) : Prop := i.WellFormed → opcodeField (encode i) = i.opcode

/-- A field of a word as arithmetic on its number. -/
theorem field_eq (w : Word) (lo len : Nat) : field w lo len = w.toNat / 2 ^ lo % 2 ^ len := by
  simp [field, Nat.shiftRight_eq_div_pow]

/-- The opcode of a word made of an opcode and 24 low bits. -/
theorem opcodeField_wordOf (opcode low : Nat) (ho : opcode < 2 ^ 8) (hl : low < 2 ^ 24) :
    opcodeField (wordOf opcode low) = opcode := by
  simp only [opcodeField, field_eq, wordOf, BitVec.toNat_ofNat]
  omega

theorem nopA : Statement .nopA := fun _ => opcodeField_wordOf _ _ (by decide) (by decide)

theorem noteOn (voice : Nat) : Statement (.noteOn voice) := by
  intro h
  simp only [Instr.WellFormed, Instr.wellFormed, decide_eq_true_eq] at h
  exact opcodeField_wordOf _ _ (show (1 : Nat) < 2 ^ 8 by decide) (by omega)

theorem noteOff (voice : Nat) (tail : Bool) : Statement (.noteOff voice tail) := by
  intro h
  simp only [Instr.WellFormed, Instr.wellFormed, decide_eq_true_eq] at h
  have := Bool.toNat_lt tail
  exact opcodeField_wordOf _ _ (show (2 : Nat) < 2 ^ 8 by decide) (by omega)

theorem renderBlock (start count : Nat) : Statement (.renderBlock start count) := by
  intro h
  simp only [Instr.WellFormed, Instr.wellFormed, Bool.and_eq_true, decide_eq_true_eq] at h
  exact opcodeField_wordOf _ _ (show (3 : Nat) < 2 ^ 8 by decide) (by omega)

theorem outClear (start count : Nat) : Statement (.outClear start count) := by
  intro h
  simp only [Instr.WellFormed, Instr.wellFormed, Bool.and_eq_true, decide_eq_true_eq] at h
  exact opcodeField_wordOf _ _ (show (4 : Nat) < 2 ^ 8 by decide) (by omega)

theorem visPush : Statement .visPush := fun _ => opcodeField_wordOf _ _ (by decide) (by decide)

theorem peek (voice : Nat) (space : PeekSpace) (index : Nat) : Statement (.peek voice space index) := by
  intro h
  simp only [Instr.WellFormed, Instr.wellFormed, Bool.and_eq_true, decide_eq_true_eq] at h
  have hs : space.code ≤ 2 := by cases space <;> decide
  exact opcodeField_wordOf _ _ (show (6 : Nat) < 2 ^ 8 by decide) (by omega)

theorem nopD : Statement .nopD := fun _ => opcodeField_wordOf _ _ (by decide) (by decide)

theorem specProcess : Statement .specProcess := fun _ => opcodeField_wordOf _ _ (by decide) (by decide)

end Sys2Proof.Laws.OpcodeField
end

