-- ==== Sys2Proof/Laws/Steps.lean ====
section
/-! SUPPORT. What every access, command and step keeps of the hosts' side, of the queue and of the spectrum job, so that
a claim about a run cites one lemma of a step and unfolds none. -/

namespace Sys2Proof.Machine

open Sys2Proof

/-- A plain write keeps the queue, the job and the hosts' side. -/
theorem State.writeTarget_keeps (s : State) (r : Target) (x : Word) :
    (s.writeTarget r x).pushq = s.pushq ∧ (s.writeTarget r x).job = s.job ∧ (s.writeTarget r x).env = s.env := by
  cases r <;> exact ⟨rfl, rfl, rfl⟩

/-- Recording an error keeps the queue, the job and the hosts' side. -/
theorem State.raise_keeps (s : State) (p : Port) (e : CmdError) :
    (s.raise p e).pushq = s.pushq ∧ (s.raise p e).job = s.job ∧ (s.raise p e).env = s.env := by
  cases p <;> exact ⟨rfl, rfl, rfl⟩

/-- Replacing one host port keeps the queue, the job and the other port. -/
theorem State.setHostPort_keeps (s : State) (p : Port) (x : HostPort) :
    (s.setHostPort p x).pushq = s.pushq ∧ (s.setHostPort p x).job = s.job ∧
    ∀ q, q ≠ p → (s.setHostPort p x).hostPort q = s.hostPort q := by
  cases p <;> refine ⟨rfl, rfl, fun q hq => ?_⟩ <;> cases q <;> first | rfl | exact absurd rfl hq

/-- Equal host sides have equal ports. -/
theorem State.hostPort_of_env {s t : State} (h : t.env = s.env) (p : Port) : t.hostPort p = s.hostPort p := by
  cases p <;> simp [State.hostPort, h]

/-- A render of the voices keeps the hosts' side and the job. -/
theorem State.renderVoices_keeps_env_job (s : State) (start count : Nat) :
    (s.renderVoices start count).env = s.env ∧ (s.renderVoices start count).job = s.job := by
  apply State.renderVoices_keeps (fun t => t.env = s.env ∧ t.job = s.job)
  · intro v t h; unfold State.renderVoice; split <;> exact h
  · exact ⟨rfl, rfl⟩

/-- Engine D's step keeps the hosts' side and the queue, and ends the job. -/
theorem State.engineDStep_keeps (s : State) :
    s.engineDStep.env = s.env ∧ s.engineDStep.pushq = s.pushq ∧ s.engineDStep.job = false := by
  have key : ∀ (m : Memory) (v : Vis), ((((s.setMem m).setVis v).setProcessed true).setJob false).env = s.env ∧
      ((((s.setMem m).setVis v).setProcessed true).setJob false).pushq = s.pushq ∧
      ((((s.setMem m).setVis v).setProcessed true).setJob false).job = false := fun _ _ => ⟨rfl, rfl, rfl⟩
  exact key _ _

/-- Engine A's step keeps the hosts' side and takes the oldest sample off the queue. -/
theorem State.engineAStep_keeps (s : State) (x : Word) (rest : List Word) (h : s.pushq = x :: rest) :
    s.engineAStep.env = s.env ∧ s.engineAStep.pushq = rest := by
  rw [State.engineAStep_cons s x rest h, State.push]
  unfold State.pushFifo
  split
  · exact ⟨rfl, rfl⟩
  · split <;> exact ⟨rfl, rfl⟩

/-- No command changes the hosts' side, and only `SPEC_PROCESS` changes the job. -/
theorem exec_keeps_env_job (i : Instr) (s t : State) (h : exec i s = .next t) :
    t.env = s.env ∧ (i ≠ .specProcess → t.job = s.job) := by
  have hr : ∀ p e, (s.raise p e).env = s.env ∧ (i ≠ .specProcess → (s.raise p e).job = s.job) :=
    fun p e => ⟨(s.raise_keeps p e).2.2, fun _ => (s.raise_keeps p e).2.1⟩
  cases i with
  | nopA => cases h; exact ⟨rfl, fun _ => rfl⟩
  | nopD => cases h; exact ⟨rfl, fun _ => rfl⟩
  | noteOn v =>
    simp only [exec, execNoteOn, failCommand] at h
    split at h <;> [split at h; skip] <;> cases h <;> first | exact hr _ _ | exact ⟨rfl, fun _ => rfl⟩
  | noteOff v b =>
    simp only [exec, execNoteOff, failCommand] at h
    split at h <;> [split at h; skip] <;> cases h <;> first | exact hr _ _ | exact ⟨rfl, fun _ => rfl⟩
  | renderBlock a b =>
    rw [show exec (.renderBlock a b) s = execRenderBlock a b s from rfl] at h
    unfold execRenderBlock at h
    have hv := s.renderVoices_keeps_env_job a b
    generalize s.renderVoices a b = u at h hv
    split at h <;> cases h
    · unfold State.handOff; split <;> exact ⟨hv.1, fun _ => hv.2⟩
    · exact hr _ _
  | outClear a b =>
    simp only [exec, execOutClear, failCommand] at h
    generalize clearOut s.mem a b = m at h
    split at h <;> cases h <;> exact ⟨rfl, fun _ => rfl⟩
  | visPush => cases h; exact ⟨rfl, fun _ => rfl⟩
  | peek v k n =>
    simp only [exec, execPeek, failCommand] at h
    split at h <;> [split at h; skip] <;> cases h <;> exact ⟨rfl, fun _ => rfl⟩
  | specProcess =>
    simp only [exec, execSpecProcess] at h
    split at h <;> cases h <;> exact ⟨rfl, fun hp => absurd rfl hp⟩

/-- A command word keeps the hosts' side. -/
theorem issue_keeps_env (p : Port) (w : Word) (s t : State) (h : issue p w s = .next t) : t.env = s.env := by
  unfold issue at h
  split at h
  · exact (exec_keeps_env_job _ _ _ h).1
  · cases h; exact (s.raise_keeps _ _).2.2

/-- No word of port A is `SPEC_PROCESS`. -/
theorem decodeA_ne_specProcess (w : Word) : decodeA w ≠ .ok .specProcess := by
  intro h
  simp only [decodeA] at h
  repeat' split at h
  all_goals simp_all [decodeN, decodeNoteOn, decodeNoteOff, decodePeek]
  all_goals (repeat' split at h)
  all_goals simp_all

/-- A command word of port A keeps the job. -/
theorem issue_a_keeps_job (w : Word) (s t : State) (h : issue .a w s = .next t) : t.job = s.job := by
  unfold issue at h
  split at h
  · rename_i i hd
    exact (exec_keeps_env_job _ _ _ h).2 (by rintro rfl; exact decodeA_ne_specProcess w hd)
  · cases h; exact (s.raise_keeps _ _).2.1

/-- A command word of port D keeps the queue. -/
theorem issue_d_keeps_pushq (w : Word) (s t : State) (h : issue .d w s = .next t) : t.pushq = s.pushq := by
  unfold issue at h
  split at h
  · rename_i i hd
    simp only [decode, decodeD] at hd
    split at hd
    · simp only [decodeN] at hd; split at hd <;> cases hd; cases h; rfl
    · split at hd
      · simp only [decodeN] at hd; split at hd <;> cases hd
        simp only [exec, execSpecProcess] at h; split at h <;> cases h <;> rfl
      · cases hd
  · cases h; rfl

/-- A command register has one offset, its port's (R57, R68). -/
theorem targetAt_cmd (o : Nat) :
    (targetAt o = some .cmdA → o = 0x018) ∧ (targetAt o = some .cmdD → o = 0x104) := by
  constructor
  all_goals
    intro h
    unfold targetAt at h
    split at h
    · rename_i t ht
      cases h
      simp only [registerMap, List.lookup] at ht
      repeat' split at ht
      all_goals simp_all
    · unfold windowTarget at h
      repeat' split at h
      all_goals simp at h

/-- What performing an access keeps: the other host's port, the queue while `STATUS_A.BUSY` is 1, and the job while
`STATUS_D.BUSY` is 1, where the access is not held (R160, R161, R162). -/
theorem performAccess_keeps (p : Port) (x : Access) (rest : List Access) (s t : State)
    (h : performAccess p x rest s = .next t) :
    (∀ q, q ≠ p → t.hostPort q = s.hostPort q) ∧ (s.busyA = true → s.holds x = false → t.pushq = s.pushq) ∧
    (s.busyD = true → s.holds x = false → t.job = s.job) := by
  have quiet : ∀ y, t = s.setHostPort p y → (∀ q, q ≠ p → t.hostPort q = s.hostPort q) ∧
      (s.busyA = true → s.holds x = false → t.pushq = s.pushq) ∧
      (s.busyD = true → s.holds x = false → t.job = s.job) := by
    rintro y rfl
    obtain ⟨a, b, c⟩ := s.setHostPort_keeps p y
    exact ⟨c, fun _ _ => a, fun _ _ => b⟩
  unfold performAccess at h
  split at h
  · cases h; exact quiet _ rfl
  · cases h; exact quiet _ rfl
  · cases h; exact quiet _ rfl
  · rename_i r w o v hf ht
    obtain ⟨a, b, c⟩ := s.setHostPort_keeps p ⟨rest, .writeDone⟩
    unfold writeAccess at h
    split at h
    · have e := issue_keeps_env _ _ _ _ h
      refine ⟨fun q hq => (State.hostPort_of_env e q).trans (c q hq), fun hb hh => ?_,
        fun _ _ => (issue_a_keeps_job _ _ _ h).trans b⟩
      have ho := (targetAt_cmd _).1 ht
      simp only [Access.offset] at ho
      simp [State.holds, hb, heldByA, Access.isRead, Access.offset, ho, wordOffset] at hh
    · have e := issue_keeps_env _ _ _ _ h
      refine ⟨fun q hq => (State.hostPort_of_env e q).trans (c q hq),
        fun _ _ => (issue_d_keeps_pushq _ _ _ h).trans a, fun hb hh => ?_⟩
      have ho := (targetAt_cmd _).2 ht
      simp only [Access.offset] at ho
      simp [State.holds, hb, heldByD, Access.isRead, Access.offset, ho, wordOffset] at hh
    · cases h
      obtain ⟨k1, k2, k3⟩ := State.writeTarget_keeps (s.setHostPort p ⟨rest, .writeDone⟩) r v
      exact ⟨fun q hq => (State.hostPort_of_env k3 q).trans (c q hq), fun _ _ => k1.trans a, fun _ _ => k2.trans b⟩

/-- A host's agent is enabled where its oldest access is not held (R151). -/
theorem State.enabled_hostAgent (s : State) (p : Port) : s.enabled (hostAgent p) = s.hostEnabled p := by
  cases p <;> rfl

/-- A host that is not next keeps its port; while the queue is not empty no step lengthens it and engine A's shortens
it; engine D's step ends the job. -/
theorem step_keeps (s t : State) (h : step s = .next t) :
    (∀ p, s.nextAgent ≠ some (hostAgent p) → t.hostPort p = s.hostPort p) ∧
    (s.pushq ≠ [] → t.pushq.length ≤ s.pushq.length ∧
      (s.nextAgent = some .engineA → t.pushq.length < s.pushq.length)) ∧
    (s.job = true → s.nextAgent = some .engineD → t.job = false) := by
  have hb : ∀ p, s.beginTurn.hostPort p = s.hostPort p := by intro p; cases p <;> rfl
  unfold step at h
  split at h
  · rename_i hn; cases h
    exact ⟨fun _ _ => rfl, fun _ => ⟨le_refl _, fun h => by rw [hn] at h; cases h⟩, fun _ h => by rw [hn] at h; cases h⟩
  · rename_i a hn
    have hen := State.nextAgent_enabled s a hn
    have host : ∀ p, a = hostAgent p → hostStep p s.beginTurn = .next t →
        (∀ q, q ≠ p → t.hostPort q = s.hostPort q) ∧ (s.pushq ≠ [] → t.pushq = s.pushq) := by
      intro p hp hs
      rw [hp, State.enabled_hostAgent] at hen
      unfold State.hostEnabled at hen
      unfold hostStep at hs
      rw [hb] at hs
      split at hen
      · cases hen
      · rename_i x rest hpd
        rw [hpd] at hs
        have hx : s.beginTurn.holds x = false := show s.holds x = false by simpa using hen
        obtain ⟨k1, k2, _⟩ := performAccess_keeps p x rest _ _ hs
        refine ⟨fun q hq => (k1 q hq).trans (hb q), fun hne => k2 ?_ hx⟩
        show (!s.pushq.isEmpty) = true
        cases hq : s.pushq with
        | nil => exact absurd hq hne
        | cons => rfl
    have port : ∀ p, a = hostAgent p → hostStep p s.beginTurn = .next t →
        ∀ q, s.nextAgent ≠ some (hostAgent q) → t.hostPort q = s.hostPort q := by
      intro p hp hs q hq
      refine (host p hp hs).1 q ?_
      rintro rfl
      exact hq (hp ▸ hn)
    cases a with
    | hostA =>
      exact ⟨port .a rfl h, fun hne => ⟨by rw [(host .a rfl h).2 hne], fun h => by rw [hn] at h; cases h⟩,
        fun _ h => by rw [hn] at h; cases h⟩
    | hostD =>
      exact ⟨port .d rfl h, fun hne => ⟨by rw [(host .d rfl h).2 hne], fun h => by rw [hn] at h; cases h⟩,
        fun _ h => by rw [hn] at h; cases h⟩
    | engineA =>
      cases h
      cases hx : s.pushq with
      | nil => simp [State.enabled, hx] at hen
      | cons x rest =>
        obtain ⟨q1, q2⟩ := s.beginTurn.engineAStep_keeps x rest hx
        exact ⟨fun p _ => (State.hostPort_of_env q1 p).trans (hb p),
          fun _ => ⟨by rw [q2]; simp, fun _ => by rw [q2]; simp⟩, fun _ h => by rw [hn] at h; cases h⟩
    | engineD =>
      obtain rfl : s.beginTurn.engineDStep = t := Host.Outcome.next.inj h
      obtain ⟨d1, d2, d3⟩ := s.beginTurn.engineDStep_keeps
      exact ⟨fun p _ => (State.hostPort_of_env d1 p).trans (hb p),
        fun _ => ⟨by rw [d2]; exact le_refl _, fun h => by rw [hn] at h; cases h⟩, fun _ _ => d3⟩
    | platform =>
      cases h
      exact ⟨fun p _ => by rw [← hb p]; cases p <;> rfl, fun _ => ⟨Nat.zero_le _, fun h => by rw [hn] at h; cases h⟩,
        fun _ h => by rw [hn] at h; cases h⟩

end Sys2Proof.Machine
end

