-- ==== Sys2Proof/Machine/Assembler.lean ====
section
/-! DEFINITION. The host's side of the interface: host assembly (R211 to R214) as the accesses it issues, and the
consumer procedures of R357, R359 and R410 as functions of what their reads returned. -/

namespace Sys2Proof.Machine

open Sys2Proof

/-- The offset of a register or window element (R153). -/
def Target.offset (t : Target) : Nat :=
  match t with
  | .waveRing k => ringAddr k
  | .scope i => scopeAddr i
  | .outBuf c i => outAddr c i
  | t => ((registerMap.find? (fun e => decide (e.2 = t))).map (fun e => e.1)).getD 0

/-- `st <reg>, <value>` (R211). -/
def asmSt (t : Target) (x : Word) : Access := .write .w32 (BitVec.ofNat 16 t.offset) x

/-- `ld <reg> -> <name>` (R211). -/
def asmLd (t : Target) : Access := .read .w32 (BitVec.ofNat 16 t.offset)

/-- A command statement (R211, R212); the assembler refuses an operand that does not fit. -/
def asmCommand (i : Instr) : Option Access :=
  if i.wellFormed then some (.write .w32 (cmdOffset i.port) (encode i)) else none

/-- `play <v>, <hz>, <vel>` (R214). -/
def asmPlay (v : Nat) (hz vel : Word) : Option (List Access) :=
  (asmCommand (.noteOn v)).map (fun c => [asmSt .arg0 hz, asmSt .arg1 vel, c])

/-- `push <s>` (R214). -/
def asmPush (x : Word) : Option (List Access) := (asmCommand .visPush).map (fun c => [asmSt .arg0 x, c])

/-- `clrerr.a` and `clrerr.d` (R214). -/
def asmClrerr (p : Port) : Access :=
  match p with
  | .a => asmSt .statusA 0x2#32
  | .d => asmSt .statusD 0x2#32

/-- `poll <reg>, <mask>, <value>` (R214) ends at a read of `t`. -/
def pollEnds (t mask x : Word) : Bool := decide (t &&& mask = x)

/-- `wait.a` and `wait.d` (R214) end at a read of the port's status register. -/
def waitEnds (t : Word) : Bool := pollEnds t 0x1#32 0x0#32

/-- How many samples `read_window n` reads at a cursor of `c1` (R357). -/
def windowCount (n : Nat) (c1 : Word) : Nat := min n c1.toNat

/-- The accesses of `read_window n` between its two cursor reads (R357). -/
def windowReads (n : Nat) (c1 : Word) : List Access :=
  (List.range (windowCount n c1)).map
    (fun j => asmLd (.waveRing ((c1.toNat - windowCount n c1 + j) % Config.waveCap)))

/-- What `read_window n` returns from its reads; none where the window may be torn and the host retries (R357). -/
def windowResult (n : Nat) (c1 c2 : Word) (out : List Word) : Option (List Word) :=
  if Config.waveCap - windowCount n c1 < (c2 - c1).toNat then none else some out

/-- `isSpectrumBlockReady()` of a read of `STATUS_D` (R359). -/
def blockReady (statusD : Word) : Bool := statusD.getLsbD 8

/-- The accesses of `consume` before its test (R410). -/
def consumeStart : List Access := [.write .w32 (cmdOffset .d) (encode .specProcess), asmLd .resultD]

/-- The accesses of `consume` after it read `p` from `RESULT_D`; none where no block was ready (R410). -/
def consumeReads (p : Word) : Option (List Access) :=
  if p.getLsbD 0 then some ((List.range Config.scopeSize).map (fun i => asmLd (.scope i))) else none

end Sys2Proof.Machine
end

