-- ==== Sys2Proof/Tests/Slice0.lean ====
section
/-! SUPPORT. Tests: well-formedness, decoding of words written from the spec's encodings, one or two steps' worth of each
command with the values of the spec's vectors (V1 to V60 of 95_test_vectors.md), and for each statement that has
hypotheses a witness that meets them. -/

namespace Sys2Proof.Tests

set_option Elab.async false

open Sys2Proof Sys2Proof.Machine

/-! ### Well-formedness: each check refuses an ill-formed term (R203 to R205) -/

theorem test_wf_noteOn : ¬ (Instr.noteOn 32).WellFormed ∧ (Instr.noteOn 31).WellFormed := by decide

theorem test_wf_noteOff : ¬ (Instr.noteOff 32 true).WellFormed ∧ (Instr.noteOff 31 false).WellFormed := by decide

theorem test_wf_renderBlock_start :
    ¬ (Instr.renderBlock 4096 0).WellFormed ∧ (Instr.renderBlock 4095 4095).WellFormed := by decide

theorem test_wf_renderBlock_count : ¬ (Instr.renderBlock 0 4096).WellFormed := by decide

theorem test_wf_outClear_start : ¬ (Instr.outClear 4096 0).WellFormed ∧ (Instr.outClear 4095 4095).WellFormed := by
  decide

theorem test_wf_outClear_count : ¬ (Instr.outClear 0 4096).WellFormed := by decide

theorem test_wf_peek_voice : ¬ (Instr.peek 32 .left 0).WellFormed ∧ (Instr.peek 31 .reg 16383).WellFormed := by decide

theorem test_wf_peek_index : ¬ (Instr.peek 0 .right 16384).WellFormed := by decide

/-! ### Decoding: words written out from R201 to R207, and those of V40 and V41 -/

theorem test_decode_nopA : decode .a 0b00000000_000_00000_0000000000000000#32 = .ok .nopA := by decide

theorem test_decode_noteOn : decode .a 0b00000001_000_00111_0000000000000000#32 = .ok (.noteOn 7) := by decide

theorem test_decode_noteOff : decode .a 0b00000010_000_00011_000000000000000_1#32 = .ok (.noteOff 3 true) ∧
    decode .a 0b00000010_000_00011_000000000000000_0#32 = .ok (.noteOff 3 false) := by decide

theorem test_decode_renderBlock :
    decode .a 0b00000011_001111101000_000000011001#32 = .ok (.renderBlock 1000 25) := by decide

theorem test_decode_outClear :
    decode .a 0b00000100_001111111111_000000000010#32 = .ok (.outClear 1023 2) := by decide

theorem test_decode_visPush : decode .a 0b00000101_000000000000000000000000#32 = .ok .visPush := by decide

theorem test_decode_peek : decode .a 0b00000110_000_00010_01_00000000000101#32 = .ok (.peek 2 .right 5) ∧
    decode .a 0b00000110_000_00000_10_00000000010100#32 = .ok (.peek 0 .reg 20) ∧
    decode .a 0b00000110_000_00000_00_00000001100011#32 = .ok (.peek 0 .left 99) := by decide

theorem test_decode_nopD : decode .d 0b00000000_000000000000000000000000#32 = .ok .nopD := by decide

theorem test_decode_specProcess : decode .d 0b00010000_000000000000000000000000#32 = .ok .specProcess := by decide

theorem test_decode_illegal :
    [0x07000000#32, 0x10000000#32, 0xFF000000#32].all (fun w => decode .a w == .error .illegalOpcode) = true ∧
    [0x01000000#32, 0x11000000#32].all (fun w => decode .d w == .error .illegalOpcode) = true := by decide +kernel

theorem test_decode_reserved :
    [0x00000001#32, 0x01000001#32, 0x01200000#32, 0x01008000#32, 0x02000002#32, 0x02200001#32, 0x05000001#32,
      0x0600C000#32, 0x06200000#32].all (fun w => decode .a w == .error .reservedField) = true ∧
    [0x00000100#32, 0x10000001#32].all (fun w => decode .d w == .error .reservedField) = true := by decide +kernel

theorem test_decodeTableWord : decodeTableWord 32 0x0300A002 = some (.renderBlock 10 2) ∧
    decodeTableWord 32 0x10000000 = some .specProcess ∧ decodeTableWord 32 0x07000000 = none := by decide

/-! ### One step of each command -/

/-- What a function reads off the next state of an outcome; none for a fault or a refusal. -/
def after {α : Type} (o : Host.Outcome State Fault Refusal) (f : State → α) : Option α :=
  match o with
  | .next t => some (f t)
  | .fault _ => none
  | .refused _ => none

/-- Setup S of 95_test_vectors.md, but for its `out_clear`. -/
def setup : State :=
  { State.reset with
    arg0 := 0x43DC0000#32
    arg1 := 0x3F800000#32
    note := { NoteRegs.reset with
      sampleRate := 0x472C4400#32
      sustain := 0x3F4CCCCD#32
      release := 0x3F000000#32
      bridgeR := 0x3F7D70A4#32
      pluckPos := 0x3F000000#32 } }

/-- The start of V14: a line of four elements and a one-pole filter, `OUT_BUF`'s first words cleared. -/
def shortSetup : State :=
  { setup with
    arg0 := 0x462C4400#32
    note := { setup.note with bridgeR := 0x3F000000#32, filtB0 := 0x3F000000#32, filtA1 := 0xBF000000#32 }
    mem := clearOut [] 0 2 }

/-- V14 after its `note_on 0`. -/
def shortNote : State := shortSetup.startNote 0

/-- V1: the note of scenario 1. -/
theorem test_noteOn : after (exec (.noteOn 0) setup) (fun t =>
    let v := t.voice 0
    ([v.l.toNat, v.pluckIdx.toNat, v.pickupIdx.toNat],
     [v.attackRate, v.decayRate, t.leftAt 0 1, t.leftAt 0 48, t.rightAt 0 49, t.leftAt 0 50, t.leftAt 0 99],
     v.vstatusWord, t.statusAWord)) =
    some ([100, 49, 50],
      [0x3C800000#32, 0#32, 0x3C272F05#32, 0x3EFAC688#32, 0x3F000000#32, 0x3EFAE148#32, 0#32], 0x03#32, 0#32) := by
  decide +kernel

/-- V3: `note_on 8`, and a sample rate of +0. -/
theorem test_noteOn_errors : after (exec (.noteOn 8) setup) State.statusAWord = some 0x32#32 ∧
    after (exec (.noteOn 0) State.reset) State.statusAWord = some 0x62#32 := by decide +kernel

/-- V5(a): straight after `NOTE_ON` a release ends at once. -/
theorem test_noteOff : after (exec (.noteOff 0 true) shortNote) (fun t => ((t.voice 0).vstatusWord, t.statusAWord)) =
    some (0#32, 0#32) := by decide +kernel

/-- V7: `note_off 8, 1`. -/
theorem test_noteOff_error : after (exec (.noteOff 8 true) setup) State.statusAWord = some 0x32#32 := by decide +kernel

/-- V14, sample 0: both lines, `S1`, the output on both channels, and the sample queued for the display. -/
theorem test_renderBlock : after (exec (.renderBlock 0 1) shortNote) (fun t =>
    ((List.range 4).map (t.leftAt 0), (List.range 4).map (t.rightAt 0), (t.voice 0).s1, t.outBuf 0 0, t.outBuf 1 0,
      t.pushq)) =
    some ([0x3F000000#32, 0x3E000000#32, 0x3D800000#32, 0xBE000000#32],
      [0x80000000#32, 0#32, 0x3F000000#32, 0x3E800000#32], 0x3D800000#32, 0x3C100000#32, 0x3C100000#32,
      [0x3C100000#32]) := by
  decide +kernel

/-- V24: a block past `BLOCK_MAX`. -/
theorem test_renderBlock_error : after (exec (.renderBlock 1000 25) shortNote) State.statusAWord = some 0x42#32 := by
  decide +kernel

/-- R315: a cleared word of each channel; V24: a range past `BLOCK_MAX` is refused. -/
theorem test_outClear : after (exec (.outClear 1022 2) setup) (fun t => (t.outBuf 0 1023, t.outBuf 1 1022)) =
    some (0#32, 0#32) ∧ after (exec (.outClear 1023 2) setup) State.statusAWord = some 0x42#32 := by decide +kernel

/-- V20: right after the command the queue is busy. -/
theorem test_visPush : after (exec .visPush (State.reset.setArg0 0x3E800000#32)) State.statusAWord = some 1#32 := by
  decide +kernel

/-- V20: after engine A's step. -/
theorem test_engineA : (let t := (State.reset.setPushq [0x3E800000#32]).engineAStep
    (t.waveRing 0, t.vis.waveCursor, t.vis.fifoIndex, t.statusAWord)) = (0x3E800000#32, 1#32, 1#11, 0#32) := by
  decide +kernel

/-- V40: `PEEK` of a register, and of one that does not exist. -/
theorem test_peek : after (exec (.peek 0 .reg 1) shortNote) State.resultA = some 4#32 ∧
    after (exec (.peek 0 .reg 21) shortNote) State.statusAWord = some 0x52#32 := by decide +kernel

/-- V40: `PEEK` past the line's end is refused and keeps `RESULT_A`; inside it reads (V14's `LEFT[1]`). -/
theorem test_peek_line : after (exec (.peek 0 .left 4) (shortNote.setResultA 9#32)) (fun t => (t.statusAWord, t.resultA)) =
    some (0x52#32, 9#32) ∧ after (exec (.peek 0 .left 1) shortNote) State.resultA = some 0x3F000000#32 := by
  decide +kernel

/-- V40, V41: the `NOP`s set nothing. -/
theorem test_nops : after (exec .nopA shortNote) State.statusAWord = some 0#32 ∧
    after (exec .nopD shortNote) State.statusDWord = some 0#32 := by decide +kernel

/-- V30, and R400 with a block ready: the job is pending. -/
theorem test_specProcess : after (exec .specProcess State.reset) (fun t => (t.processed, t.statusDWord)) =
    some (false, 0#32) ∧
    after (exec .specProcess (State.reset.setVis { State.reset.vis with ready := true })) State.statusDWord =
      some 0x101#32 := by decide +kernel

/-- V42: the first error is kept, ports are apart, and a write of 1 clears. -/
theorem test_errors_kept : (let s := (setup.raise .a .badSampleRate).raise .a .illegalOpcode
    (s.statusAWord, (s.raise .d .illegalOpcode).statusDWord, (s.clearStatus .a 0x2#32).statusAWord,
      (s.clearStatus .a 0#32).statusAWord)) = (0x62#32, 0x12#32, 0#32, 0x62#32) := by decide +kernel

/-! ### Numbers -/

/-- V2, V14, R18: a quotient, a product, a difference, a root and the integer conversion. -/
theorem test_arith : fdiv (i2f 48) (i2f 49) = 0x3F7AC688#32 ∧ fmul 0xBF7D70A4#32 0x3C23D70A#32 = 0xBC22339C#32 ∧
    fsub 0x3F800000#32 0x3F4CCCCD#32 = 0x3E4CCCCC#32 ∧ fsqrt 0x40800000#32 = 0x40000000#32 ∧
    fadd 0x7F7FFFFF#32 0x7F7FFFFF#32 = 0x7F800000#32 ∧ fdiv 0x00000001#32 0x40000000#32 = 0#32 := by decide +kernel

/-- V31: the levels of four of its magnitudes. -/
theorem test_level : level 0x45000000#32 = 0x3F800000#32 ∧ level 0x44801800#32 = 0x3F709A82#32 ∧
    level 0x3D88BFB7#32 = 0x3DD23B9F#32 ∧ level 0x3C8242D1#32 = 0#32 := by decide +kernel

/-- V35: spot values of the ROMs. -/
theorem test_roms : windowRom.getD 1023 fZero = 0x40000FFD#32 ∧ twCosRom.getD 512 fOne = 0#32 ∧
    twSinRom.getD 512 fZero = 0x3F800000#32 ∧
    [0, 1, 5, 10, 512, 781, 991, 992, 993, 1023].map (fun i => skewIdxEntries.getD i 0) =
      [0, 0, 1, 2, 132, 256, 508, 512, 515, 768] := by decide +kernel

/-! ### The bus -/

/-- V52: the bus errors. -/
theorem test_bus_errors : (∀ o ∈ [0x02C, 0x064, 0x114, 0x1800, 0x3000, 0x6000], busFault .w32 o = some .unmapped) ∧
    busFault .w32 0x002 = some .misaligned ∧ busFault .w16 0x010 = some .badWidth := by decide +kernel

/-- V50: reserved bits are not stored, a read-only register ignores a write. -/
theorem test_bus_writes : (State.reset.writeTarget .ctrl 0xFFFFFFFF#32).ctrlWord = 3#32 ∧
    (State.reset.writeTarget .filtMode 0xFFFFFFFF#32).readTarget .filtMode = 1#32 ∧
    State.reset.writeTarget .fifoIndex 5#32 = State.reset := by decide +kernel

/-- V21: the torn-window check and the window's size. -/
theorem test_window : windowResult 512 600#32 601#32 [] = none ∧ windowResult 500 600#32 610#32 [] = some [] ∧
    windowCount 8 5#32 = 5 := by decide +kernel

/-! ### Witnesses: for each statement with hypotheses, operands and states that meet them -/

theorem witness_DecodeOfEncode : (Instr.noteOff 31 true).WellFormed ∧ (Instr.outClear 4095 4095).WellFormed ∧
    (Instr.peek 31 .reg 16383).WellFormed := by decide

theorem witness_EncodeOfDecode : decode .a 0x021F0001#32 = .ok (.noteOff 31 true) ∧
    decode .d 0x10000000#32 = .ok .specProcess := by decide +kernel

theorem witness_DecodeIsMatchMask : decode .a 0x07000000#32 = .error .illegalOpcode ∧
    decode .a 0x0600C000#32 = .error .reservedField ∧ decode .d 0x11000000#32 = .error .illegalOpcode ∧
    decode .d 0x00000001#32 = .error .reservedField := by decide +kernel

theorem witness_FailedCommandOnlyRecordsItsError :
    (decode .a 0x07000000#32 = .error .illegalOpcode ∧ decode .d 0x01000000#32 = .error .illegalOpcode) ∧
    (decode .a 0x00000001#32 = .error .reservedField ∧ decode .d 0x10000001#32 = .error .reservedField) ∧
    8 ≤ 8 ∧ 1024 < 1024 + 1 ∧ (PeekSpace.left ≠ .reg ∧ (State.reset.voice 0).l.toNat < 2) ∧
    (PeekSpace.right ≠ .reg ∧ ((setup.setVoice 1 (State.reset.voice 1).degenerate).voice 1).degen = true) ∧
    (shortNote.voice 0).l.toNat ≤ 4 ∧ 20 < 21 ∧ isFinite State.reset.note.sampleRate = true ∧
    fgt State.reset.note.sampleRate fZero = false := by decide +kernel

/-- The premises of `OperationsRoundToNearest` and of its `IsRnd`: two finite operands; a sum at the last number below
infinity and one at the bound itself; a tie with `0x01000001`; an underflow to `-0`; zero sums and differences. -/
theorem witness_OperationsRoundToNearest :
    (isFinite 0x3F800000#32 = true ∧ isFinite 0x40400000#32 = true ∧ value 0x40400000#32 ≠ 0) ∧
    (isFinite 0x7F7FFFFF#32 = true ∧ isFinite 0x73000000#32 = true ∧ isFinite 0x72FFFFFF#32 = true ∧
      |value 0x7F7FFFFF#32 + value 0x73000000#32| = (2 ^ 25 - 1) * 2 ^ 252 ∧ fadd 0x7F7FFFFF#32 0x73000000#32 = 0x7F800000#32 ∧
      |value 0x7F7FFFFF#32 + value 0x72FFFFFF#32| < (2 ^ 25 - 1) * 2 ^ 252 ∧
      fadd 0x7F7FFFFF#32 0x72FFFFFF#32 = 0x7F7FFFFF#32) ∧
    (value 0x01000000#32 + value 0x00000001#32 = 2 ^ 24 + 1 ∧ isFinite 0x01000001#32 = true ∧
      0x01000001#32 ≠ fadd 0x01000000#32 0x00000001#32 ∧
      |value 0x01000001#32 - (2 ^ 24 + 1)| = |value (fadd 0x01000000#32 0x00000001#32) - (2 ^ 24 + 1)|) ∧
    (value 0x80000001#32 * value fHalf ≠ 0 ∧ fmul 0x80000001#32 fHalf = fNegZero) ∧
    value fOne + value 0xBF800000#32 = 0 ∧ value fNegZero - value fZero = 0 := by decide +kernel

theorem witness_RoundingTiesAndOverflow :
    (isFinite 0x01000001#32 = true ∧ isFinite (pack false (rndMag (2 ^ 24 + 1) 1)) = true ∧
      0x01000001#32 ≠ pack false (rndMag (2 ^ 24 + 1) 1) ∧
      |value 0x01000001#32 * (1 : ℕ) - (2 ^ 24 + 1 : ℕ)| =
        |value (pack false (rndMag (2 ^ 24 + 1) 1)) * (1 : ℕ) - (2 ^ 24 + 1 : ℕ)|) ∧
    pack false (rndMag (2 ^ 277 - 2 ^ 252) 1) = 0x7F800000#32 ∧
    pack false (rndMag (2 ^ 277 - 2 ^ 252 - 1) 1) = 0x7F7FFFFF#32 := by decide +kernel

theorem witness_RootRoundsToNearest : isFinite 0x40000000#32 = true ∧ 0 < value 0x40000000#32 ∧
    isFinite 0x3FB504F3#32 = true := by decide +kernel

theorem witness_SpecialAndNaNResults :
    (isNaN (fadd qNaN fOne) = true ∧ isNaN (fsub qNaN fOne) = true ∧ isNaN (fmul fOne 0xFFC00001#32) = true ∧
      isNaN (fdiv fZero fNegZero) = true ∧ isNaN (fsqrt 0xBF800000#32) = true) ∧
    (isInf 0x7F800000#32 = true ∧ isInf 0xFF800000#32 = true ∧ signBit 0x7F800000#32 ≠ signBit 0xFF800000#32) ∧
    (units fNegZero = 0 ∧ isNaN 0xFF800000#32 = false ∧ value 0xFF800000#32 < 0) ∧
    (isFinite fOne = true ∧ units fOne ≠ 0 ∧ isNaN (fmul fOne fNegZero) = false ∧ isNaN (fdiv fOne fNegZero) = false) ∧
    (isNaN 0x7F800001#32 = true ∧ isFinite fNegZero = true ∧ value fOne ≠ 0 ∧
      signBit 0x7F800000#32 = signBit 0x7F800000#32) := by
  decide +kernel

theorem witness_IntegersAndClamp : 16777215 < 2 ^ 24 ∧ isNaN qNaN = true ∧ value fNegZero ≤ 0 ∧
    (isNaN fOne = false ∧ 2 ^ 149 ≤ value fOne) ∧
    (isNaN 0x3F7FFFFF#32 = false ∧ 0 < value 0x3F7FFFFF#32 ∧ value 0x3F7FFFFF#32 < 2 ^ 149) := by decide +kernel

theorem witness_NoteOnLatchesNote : isFinite setup.note.sampleRate = true ∧
    fgt setup.note.sampleRate fZero = true ∧ setup.ctrl.filtRstOnNoteOn = false ∧
    (setup.setCtrl ⟨true, true⟩).ctrl.filtRstOnNoteOn = true := by decide +kernel

theorem witness_NoteOnStartsEnvelope : isFinite setup.note.sampleRate = true ∧
    fgt setup.note.sampleRate fZero = true ∧
    fgt (fmul (clamp01 setup.note.decay) setup.note.sampleRate) fZero = false ∧
    fgt (fmul (clamp01 0x3DCCCCCD#32) setup.note.sampleRate) fZero = true := by decide +kernel

theorem witness_NoteOnSetsGeometry : isFinite setup.note.sampleRate = true ∧
    fgt setup.note.sampleRate fZero = true ∧ isFinite setup.arg0 = true ∧ fgt setup.arg0 fZero = true := by decide +kernel

theorem witness_NoteOnSeedsLines : isFinite shortSetup.note.sampleRate = true ∧
    fgt shortSetup.note.sampleRate fZero = true ∧ isFinite shortSetup.arg0 = true ∧
    fgt shortSetup.arg0 fZero = true := by decide +kernel

theorem witness_NoteOnDegenerate : isFinite setup.note.sampleRate = true ∧ fgt setup.note.sampleRate fZero = true ∧
    [fZero, fNegZero, qNaN, 0x7F800000#32, 0xC3DC0000#32].all (fun f => !(isFinite f && fgt f fZero)) = true := by
  decide +kernel

theorem witness_NoteOnFrame : isFinite setup.note.sampleRate = true ∧ fgt setup.note.sampleRate fZero = true ∧
    (noteWarnings setup.statusA { setup.note with bridgeR := fOne } fZero).rUnstable = true ∧
    (noteWarnings setup.statusA setup.note fOne).lClamped = true ∧
    (noteWarnings setup.statusA setup.note fZero).degenNote = true := by decide +kernel

theorem witness_NoteOnForgetsEarlierNote : isFinite setup.note.sampleRate = true ∧
    fgt setup.note.sampleRate fZero = true ∧ (setup.setCtrl ⟨true, true⟩).ctrl.filtRstOnNoteOn = true ∧
    (shortNote.voice 0 ≠ Voice.reset ∧ (shortNote.voice 0).s1 = Voice.reset.s1 ∧
      (shortNote.voice 0).s2 = Voice.reset.s2) := by decide +kernel

theorem witness_ExcitationShape : (2 ≤ 2 ∧ 2 ≤ 8192 ∧ 1 ≤ 1 ∧ 1 < 2) ∧ (8192 ≤ 8192 ∧ 8190 < 8192 ∧ 8190 < 8192 - 1) := by
  decide

theorem witness_PluckIndexInside : 3 ≤ 3 ∧ 3 ≤ 8192 ∧ isNaN qNaN = true ∧ value fZero ≤ 0 ∧
    (isNaN fOne = false ∧ 2 ^ 149 ≤ value fOne) := by decide +kernel

theorem witness_NoteOffReleases : 8 ≤ 8 ∧ (State.reset.voice 0).active = false ∧ (shortNote.voice 0).active = true ∧
    fgt (shortNote.voice 0).releaseRateNow fZero = false ∧
    fgt ({ shortNote.voice 0 with envLevel := fHalf }).releaseRateNow fZero = true := by decide +kernel

theorem witness_WaveguideStepReflects : 2 ≤ [fZero, fHalf].length ∧ [fZero, fHalf].length = [fOne, fZero].length := by
  decide

theorem witness_InteriorFilterThreads : 2 ≤ [fZero, fHalf, fOne, fZero].length ∧ 1 + 1 < [fZero, fHalf, fOne].length ∧
    [fZero, fHalf, fOne][1]? = some fHalf ∧
    (filterInterior Voice.reset ⟨fZero, fZero⟩ [fZero, fHalf, fOne]).1[1]? = some fHalf ∧
    Voice.reset.vMode = false ∧ ({ Voice.reset with vMode := true }).vMode = true := by decide +kernel

theorem witness_IdentityFilterPasses : isFinite fHalf = true ∧ Voice.reset.vB0 = fOne ∧ Voice.reset.vB1 = fZero ∧
    Voice.reset.vB2 = fZero ∧ Voice.reset.vA1 = fZero ∧ Voice.reset.vA2 = fZero ∧ Voice.reset.vMode = false ∧
    isFinite Voice.reset.s1 = true ∧ ({ Voice.reset with vMode := true }).vMode = true := by decide +kernel

theorem witness_RenderSampleSteps : (shortNote.voice 0).degen = false ∧ 2 ≤ (shortNote.voice 0).l.toNat ∧
    (shortNote.voice 0).pickupIdx.toNat < (shortNote.voice 0).l.toNat ∧ 3 < (shortNote.voice 0).l.toNat ∧
    (shortNote.voice 0).l.toNat ≤ 4 := by decide +kernel

theorem witness_RenderSamplesInOrder : (shortNote.voice 0).degen = false ∧ 2 ≤ (shortNote.voice 0).l.toNat ∧
    0 < 1 ∧ (shortNote.voice 0).degenerate.degen = true := by decide +kernel

theorem witness_EnvelopeFollowsItsStage :
    Voice.reset.stage = .idle ∧
    (let v := { Voice.reset with stage := .attack, attackRate := fHalf, envLevel := fHalf, decayRate := fHalf }
     v.stage = .attack ∧ fge (fadd v.envLevel v.attackRate) fOne = true ∧
       fge (fadd fZero v.attackRate) fOne = false) ∧
    (let v := { Voice.reset with stage := .decay, decayRate := fHalf, envLevel := fOne, sustainLevel := fHalf }
     v.stage = .decay ∧ fle (fsub v.envLevel v.decayRate) v.sustainLevel = true ∧
       fle (fsub v.envLevel v.decayRate) fZero = false) ∧
    ({ Voice.reset with stage := .sustain }).stage = .sustain ∧
    (let v := { Voice.reset with stage := .release, releaseRate := fHalf, envLevel := fHalf }
     v.stage = .release ∧ fle (fsub v.envLevel v.releaseRate) fZero = true ∧
       fle (fsub fOne v.releaseRate) fZero = false) := by decide +kernel

theorem witness_EnvelopeFollowsItsStage_env : EnvOk (shortNote.voice 0) :=
  ⟨⟨by decide +kernel, by decide +kernel, by decide +kernel⟩, ⟨by decide +kernel, by decide +kernel, by decide +kernel⟩,
    ⟨by decide +kernel, by decide +kernel⟩, ⟨by decide +kernel, by decide +kernel⟩, ⟨by decide +kernel, by decide +kernel⟩⟩

theorem witness_RenderBlockAccumulates : 1023 + 1 ≤ 1024 ∧ (shortNote.voice 0).active = true ∧
    (shortNote.voice 1).active = false ∧ 1 < 2 ∧ 0 < 1 ∧
    (∀ v, (shortNote.voice v).active = true → (shortNote.voice v).degen = false → 2 ≤ (shortNote.voice v).l.toNat) := by
  decide +kernel

theorem witness_RenderBlockFrame : 1024 + 0 ≤ 1024 ∧ 0 + 1024 ≤ 1024 ∧ (shortNote.voice 0).l.toNat ≤ 4 := by decide +kernel

/-- The premises of `SilentAfterTwoLengths` on nine samples of a voice of at most four elements, for the one-pole filter
(with `REFL` -0) and for the biquad; the ninth sample has an output. -/
def SilentPremises (v : Voice) : Prop :=
  v.degen = false ∧ 2 ≤ v.l.toNat ∧ v.l.toNat ≤ 4 ∧ v.pickupIdx.toNat < v.l.toNat ∧ value v.refl = 0 ∧
  |value v.vB0| ≤ 2 ^ 149 ∧ value v.vA1 = 0 ∧ (v.vMode = false → isFinite v.s1 = true) ∧
  (v.vMode = true → value v.vB1 = 0 ∧ value v.vB2 = 0 ∧ value v.vA2 = 0 ∧ value v.s1 = 0 ∧ value v.s2 = 0) ∧
  (EnvOk v ∧ UnitLevel v.velocity) ∧
  (∀ i : Fin 4, isFinite (v.left.getD i (freeLeft 0 0 i)) = true ∧ isFinite (v.right.getD i (freeRight 0 0 i)) = true) ∧
  2 * v.l.toNat ≤ 8 ∧ 8 ≤ 9 ∧ ((v.renderSamples 0 0 9).2[8]?).isSome = true

theorem witness_SilentAfterTwoLengths :
    SilentPremises { (shortNote.voice 0) with refl := fNegZero, vB0 := 0xBF800000#32, vA1 := fZero } ∧
    SilentPremises { (shortNote.voice 0) with refl := fZero, vB0 := fOne, vA1 := fZero, vMode := true } := by
  have e : EnvOk (shortNote.voice 0) := witness_EnvelopeFollowsItsStage_env
  have u : UnitLevel (shortNote.voice 0).velocity := ⟨by decide +kernel, by decide +kernel, by decide +kernel⟩
  constructor
  · exact ⟨by decide +kernel, by decide +kernel, by decide +kernel, by decide +kernel, by decide +kernel,
      by decide +kernel, by decide +kernel, by decide +kernel, by decide +kernel,
      ⟨⟨e.level, e.sustain, e.attack, e.decay, e.release⟩, u⟩, by decide +kernel, by decide +kernel, by decide,
      by decide +kernel⟩
  · exact ⟨by decide +kernel, by decide +kernel, by decide +kernel, by decide +kernel, by decide +kernel,
      by decide +kernel, by decide +kernel, by decide +kernel, by decide +kernel,
      ⟨⟨e.level, e.sustain, e.attack, e.decay, e.release⟩, u⟩, by decide +kernel, by decide +kernel, by decide,
      by decide +kernel⟩

theorem witness_OutClearZeroesItsBlock : 1024 < 1024 + 1 ∧ 1024 + 0 ≤ 1024 ∧ 1023 + 1 ≤ 1024 ∧ 1 < 2 := by decide

theorem witness_PushWritesRing : (setup.setPushq [fHalf, fOne]).pushq = fHalf :: [fOne] := by decide +kernel

/-- A fair run: host A's read of `RESULT_A` is held for a sample's push, then performed, and then nothing happens. -/
def heldRun : Nat → State
  | 0 => (State.reset.setPushq [fOne]).setHostPort .a ⟨[.read .w32 0x01C#16], .none⟩
  | 1 => ((State.reset.setPushq [fOne]).setHostPort .a ⟨[.read .w32 0x01C#16], .none⟩).beginTurn.engineAStep
  | _ => (((State.reset.setPushq [fOne]).setHostPort .a
      ⟨[.read .w32 0x01C#16], .none⟩).beginTurn.engineAStep).beginTurn.setHostPort .a ⟨[], .readData 0#32⟩

theorem witness_QueueDrains : IsRun heldRun ∧ EnginesFair heldRun ∧ StronglyFair heldRun (hostAgent .a) ∧
    ((heldRun 0).hostPort .a).pending = .read .w32 0x01C#16 :: [] ∧
    (heldRun 0).holds (.read .w32 0x01C#16) = true := by
  have idle : ∀ k a, (heldRun (k + 2)).enabled a = false := by
    intro k a
    show (heldRun 2).enabled a = false
    cases a <;> decide +kernel
  refine ⟨?_, ⟨?_, ?_⟩, ?_, by decide +kernel, by decide +kernel⟩
  · rintro (_ | _ | k) <;> rfl
  · exact fun k => ⟨k + 2, by omega, .inl (idle k _)⟩
  · exact fun k => ⟨k + 2, by omega, .inl (idle k _)⟩
  · intro h
    obtain ⟨j, hj, he⟩ := h 2
    rw [show j = j - 2 + 2 by omega, idle] at he
    cases he

theorem witness_PushFillsFifo : (setup.setPushq [fHalf]).pushq = fHalf :: [] ∧
    (setup.setVis { setup.vis with fifoIndex := 2046#11 }).vis.fifoIndex.toNat < 2047 ∧
    (setup.setVis { setup.vis with fifoIndex := 2047#11 }).vis.fifoIndex.toNat = 2047 ∧ setup.vis.ready = false ∧
    (setup.setVis { setup.vis with fifoIndex := 2047#11, ready := true }).vis.ready = true := by decide +kernel

theorem witness_SpecProcessStartsJob : State.reset.vis.ready = false ∧
    (State.reset.setVis { State.reset.vis with ready := true }).vis.ready = true := by decide +kernel

theorem witness_TransformStageButterflies : 2047 < 2048 ∧ (List.replicate 2048 (fOne, fZero)).length = 2048 ∧
    1 ≤ 11 ∧ 0 < 2048 / 2 ^ 11 ∧ 1023 < 2 ^ 11 / 2 ∧ 1023 < 2048 / 2 ^ 1 ∧ 0 < 2 ^ 1 / 2 ∧
    (List.replicate 2048 (fOne, fZero))[0 * 2 ^ 11 + 1023]? = some (fOne, fZero) ∧
    (List.replicate 2048 (fOne, fZero))[0 * 2 ^ 11 + 1023 + 2 ^ 11 / 2]? = some (fOne, fZero) := by decide +kernel

theorem witness_SpectrumJobCompletes : skewIdxEntries[0]? = some 0 ∧ skewIdxEntries[1023]? = some 768 := by decide +kernel

theorem witness_LevelClampsToUnit : isNaN qNaN = true ∧ units fZero = 0 ∧
    (isFinite 0x3CA7C5AC#32 = true ∧ 0 < value 0x3CA7C5AC#32 ∧ value 0x3CA7C5AC#32 * 10 ^ 5 ≤ 2 ^ 160) ∧
    (isFinite 0x45000000#32 = true ∧ 2 ^ 160 ≤ value 0x45000000#32) ∧
    level 0x3CA7C5AC#32 = fZero ∧ level 0x44FFFFFF#32 ≠ fZero := by decide +kernel

theorem witness_LevelBoundsEncloseLogarithm : (2 ^ 160 < (2 ^ 160 / 10 ^ 5 + 1) * 10 ^ 5 ∧ 2 ^ 160 / 10 ^ 5 + 1 < 2 ^ 160) ∧
    (2 ^ 160 < (2 ^ 160 - 1) * 10 ^ 5 ∧ 2 ^ 160 - 1 < 2 ^ 160) ∧
    (isFinite 0x3CA7C5AD#32 = true ∧ 2 ^ 160 < value 0x3CA7C5AD#32 * 10 ^ 5 ∧ value 0x3CA7C5AD#32 < 2 ^ 160) ∧
    (isFinite 0x44FFFFFF#32 = true ∧ 2 ^ 160 < value 0x44FFFFFF#32 * 10 ^ 5 ∧ value 0x44FFFFFF#32 < 2 ^ 160) ∧
    isFinite fOne = true := by decide +kernel

theorem witness_RomTables : 1 ≤ 511 ∧ 511 < 512 ∧ 512 ≤ 512 ∧ skewIdxEntries[1023]? = some 768 := by decide +kernel

theorem witness_PeekReadsLines : (shortNote.voice 0).degen = false ∧ 2 ≤ (shortNote.voice 0).l.toNat ∧
    3 < (shortNote.voice 0).l.toNat := by decide +kernel

theorem witness_PeekReadsRegisters : [Voice.reset.vB0, Voice.reset.vB1, Voice.reset.vB2, Voice.reset.vA1,
    Voice.reset.vA2][4]? = some fZero := by decide +kernel

theorem witness_ReadsHaveNoSideEffect :
    ((State.reset.setHostPort .a ⟨[.read .w32 0x000#16], .none⟩).hostPort .a).pending = .read .w32 0x000#16 :: [] ∧
    ((State.reset.setHostPort .d ⟨[.read .w32 0x5FFC#16], .none⟩).hostPort .d).pending = .read .w32 0x5FFC#16 :: [] ∧
    (0x5FFC#16).toNat % 4 = 0 ∧ targetAt (0x5FFC#16).toNat = some (.outBuf 1 1023) := by decide +kernel

theorem witness_WritesStoreTheirElement : targetAt 0x4000 = some (.outBuf 0 0) ∧ targetAt 0x5FFC = some (.outBuf 1 1023) ∧
    0x4000 % 4 = 0 ∧ 0x5FFC % 4 = 0 ∧ 0x4000 ≠ 0x5FFC ∧
    (((State.reset.setHostPort .d ⟨[.write .w32 0x014#16 fOne], .none⟩).hostPort .d).pending =
      .write .w32 0x014#16 fOne :: [] ∧ targetAt (0x014#16).toNat = some .statusA ∧ (0x014#16).toNat % 4 = 0) := by
  decide +kernel

/-- R159: a read of the gap 0x02C answers an error and the data `0x00000000`. -/
theorem test_bus_error_read_is_zero :
    after (hostStep .a (setup.setHostPort .a ⟨[.read .w32 0x02C#16], .none⟩)) (fun t => (t.hostPort .a).response) =
      some (.readError .unmapped 0#32) := by decide +kernel

/-- R158: a host's write of `ARG1` is read back. -/
theorem test_host_write_stores :
    after (hostStep .d (setup.setHostPort .d ⟨[.write .w32 0x024#16 0x12345678#32], .none⟩)) (fun t => t.readTarget .arg1) =
      some 0x12345678#32 := by decide +kernel

/-- The premises of `UnmappedOffsets`: unmapped and mapped offsets at the edges, and the last element of each window. -/
theorem witness_UnmappedOffsets :
    [0x02C, 0x064, 0x0FC, 0x114, 0xFFC, 0x1800, 0x1FFC, 0x3000, 0x3FFC, 0x6000, 0xFFFC].all
      (fun o => decide (o % 4 = 0) && (targetAt o).isNone) = true ∧
    [0x028, 0x030, 0x060, 0x100, 0x110, 0x1000, 0x17FC, 0x2000, 0x2FFC, 0x4000, 0x5FFC].all
      (fun o => decide (o % 4 = 0) && (targetAt o).isSome) = true ∧
    511 < 512 ∧ 1023 < 1024 ∧ 1 < 2 ∧ targetAt (0x1000 + 4 * 511) = some (.waveRing 511) ∧
    targetAt (0x2000 + 4 * 1023) = some (.scope 1023) ∧
    targetAt (0x4000 + 0x1000 * 1 + 4 * 1023) = some (.outBuf 1 1023) := by decide +kernel

theorem witness_BusErrorChangesNothing :
    ((State.reset.setHostPort .a ⟨[.write .w16 0x010#16 0#32], .none⟩).hostPort .a).pending =
      .write .w16 0x010#16 0#32 :: [] ∧ (Access.write .w16 0x010#16 0#32).width ≠ .w32 ∧
    (Access.write .w16 0x010#16 0#32).isRead = false ∧ (Access.read .w32 0x02C#16).isRead = true ∧
    (Access.read .w32 0x002#16).offset % 4 ≠ 0 ∧ targetAt (Access.read .w32 0x02C#16).offset = none := by decide +kernel

theorem witness_HeldAccesses :
    (let s := (State.reset.setPushq [fOne]).setHostPort .a ⟨[.write .w32 0x018#16 0#32], .none⟩
     s.holds (.write .w32 0x018#16 0#32) = true ∧ s.env.hostA.pending = .write .w32 0x018#16 0#32 :: [] ∧
     s.holds (.write .w32 0x014#16 0#32) = true ∧ s.holds (.read .w32 0x014#16) = false ∧
     s.holds (.read .w32 0x00C#16) = false ∧ s.holds (.read .w32 0x100#16) = false) ∧
    (let s := (State.reset.setJob true).setHostPort .d ⟨[.read .w32 0x108#16], .none⟩
     s.holds (.read .w32 0x108#16) = true ∧ s.env.hostD.pending = .read .w32 0x108#16 :: [] ∧
     s.holds (.write .w32 0x100#16 0#32) = true ∧ s.holds (.read .w32 0x100#16) = false ∧
     s.holds (.read .w32 0x2FFC#16) = true ∧ s.holds (.read .w32 0x10C#16) = false) := by decide +kernel

/-- A state in which a host has written a word to a port's command register and is chosen. -/
def written (p q : Port) (w : Word) : State :=
  (setup.setEnv { setup.env with choices := [match p with | .a => .hostA | .d => .hostD] }).setHostPort p
    ⟨[.write .w32 (cmdOffset q) w], .none⟩

theorem witness_StepRunsTheWrittenCommand :
    (written .a .a 0x01000000#32).nextAgent = some .hostA ∧ decode .a 0x01000000#32 = .ok (.noteOn 0) ∧
    (written .d .a 0x01000000#32).nextAgent = some .hostD ∧ (written .d .d 0x10000000#32).nextAgent = some .hostD ∧
    ((written .d .a 0x01000000#32).hostPort .d).pending = .write .w32 0x018#16 0x01000000#32 :: [] ∧
    ((written .d .d 0x10000000#32).hostPort .d).pending = .write .w32 0x104#16 0x10000000#32 :: [] ∧
    decode .d 0x10000000#32 = .ok .specProcess ∧ decode .d 0x01000000#32 = .error .illegalOpcode := by decide +kernel

theorem witness_PlacedCommandRuns : (Instr.peek 31 .reg 16383).WellFormed ∧ Instr.peek 31 .reg 16383 ≠ .nopD ∧
    State.reset.pushq = [] ∧ State.reset.job = false := by decide +kernel

theorem witness_StepIsOneAgentsStep :
    ((State.reset.setJob true).setEnv { State.reset.env with choices := [.engineD] }).nextAgent = some .engineD ∧
    (State.reset.setJob true).enabled .engineD = true ∧ (State.reset.setPushq [fOne]).enabled .engineA = true ∧
    (∀ a ∈ agents, setup.enabled a = false) ∧ (written .a .a 0#32).enabled (hostAgent .a) = true ∧
    ((State.reset.setJob true).setHostPort .d ⟨[.read .w32 0x108#16], .none⟩).enabled (hostAgent .d) = false := by
  decide +kernel

theorem witness_OnlyNoteOnReadsNoteRegisters : ∀ v, Instr.renderBlock 0 1 ≠ .noteOn v := by
  intro v h; cases h

theorem witness_PlatformResetRestores :
    (shortNote.setEnv { shortNote.env with resetInput := true }).nextAgent = some .platform := by decide +kernel

/-- A state other than the reset state that meets the invariant: two samples are queued, and engine A's step is next. -/
theorem witness_InvKeptByEveryStep : Inv (State.reset.setPushq [fHalf, fOne]) ∧
    step (State.reset.setPushq [fHalf, fOne]) =
      .next ((State.reset.setPushq [fHalf, fOne]).beginTurn.engineAStep) := by
  refine ⟨?_, by rfl⟩
  constructor
  · rfl
  · intro c h; simp [State.reset, State.setPushq] at h
  · intro v
    have hv : (State.reset.setPushq [fHalf, fOne]).voice v = Voice.reset := by
      simp [State.voice, State.reset, State.setPushq]
    rw [hv]
    have z : UnitLevel fZero := ⟨by decide, by decide, by decide⟩
    have r : NonNeg fZero := ⟨by decide, by decide⟩
    constructor
    case env => exact ⟨z, z, r, r, r⟩
    case velocity => exact z
    all_goals decide
  all_goals decide

end Sys2Proof.Tests
end

