-- ==== Sys2Proof/Proofs/Rounding.lean ====
section
/-! SUPPORT. Words as packed magnitudes, and rounding to nearest even (R14) as a condition on a real: which reals a
magnitude is the rounding of. The operations, the root and the level are each shown to give such a magnitude. -/

namespace Sys2Proof.Machine

open Sys2Proof

-- One proof is elaborated after another here: each thread at work takes its share of the check's memory limit.
set_option Elab.async false

/-! ### Words as packed magnitudes -/

/-- The low 31 bits of a pattern. -/
def magOf (w : Word) : Nat := w.toNat % 2 ^ 31

theorem magOf_lt (w : Word) : magOf w < 2 ^ 31 := Nat.mod_lt _ (by norm_num)

theorem pack_magOf (w : Word) : pack (signBit w) (magOf w) = w := by
  apply BitVec.eq_of_toNat_eq
  rw [pack_toNat _ _ (magOf_lt w)]
  unfold signBit magOf
  have := w.isLt
  simp only [decide_eq_true_eq]
  split <;> omega

theorem magOf_pack (neg : Bool) (mag : Nat) (h : mag < 2 ^ 31) : magOf (pack neg mag) = mag := by
  unfold magOf
  rw [pack_toNat _ _ h]
  cases neg
  · exact Nat.mod_eq_of_lt h
  · simp only [if_true]; omega

theorem units_eq (w : Word) : units w = unitsOfMag (magOf w) := by
  rw [← units_pack (signBit w) _ (magOf_lt w), pack_magOf]

theorem value_eq (w : Word) : value w = if signBit w then -(units w : Int) else (units w : Int) := rfl

theorem natAbs_value (w : Word) : (value w).natAbs = units w := by
  rw [value_eq]; split <;> simp

/-- Infinity's magnitude is the least that is not finite. -/
theorem isFinite_pack (neg : Bool) (mag : Nat) (h : mag < 2 ^ 31) :
    isFinite (pack neg mag) = true ↔ mag < infBits := by
  have hi : infBits = 0x7F800000 := rfl
  rw [isFinite, expField_pack _ _ h, decide_eq_true_eq]
  omega

theorem isFinite_iff (w : Word) : isFinite w = true ↔ magOf w < infBits := by
  rw [← isFinite_pack (signBit w) _ (magOf_lt w), pack_magOf]

/-- The lowest bit of a pattern is the parity of its magnitude. -/
theorem getLsbD_zero_pack (neg : Bool) (mag : Nat) (h : mag % 2 = 0) : (pack neg mag).getLsbD 0 = false := by
  unfold pack
  rw [BitVec.getLsbD_ofNat, Nat.testBit_zero]
  split <;> simp <;> omega

theorem pack_injective (neg : Bool) (p q : Nat) (hp : p < 2 ^ 31) (hq : q < 2 ^ 31) (h : pack neg p = pack neg q) :
    p = q := by
  rw [← magOf_pack neg p hp, h, magOf_pack neg q hq]

theorem infBits_lt : infBits < 2 ^ 31 := by decide

theorem rndMag_lt (num den : Nat) : rndMag num den < 2 ^ 31 := (rndMag_le num den).trans_lt infBits_lt

theorem unitsOfMag_infBits : unitsOfMag infBits = 2 ^ 277 := by decide +kernel

/-- The point halfway between the largest finite number and infinity. -/
theorem halfway_infBits : unitsOfMag (infBits - 1) + unitsOfMag infBits = 2 * (2 ^ 277 - 2 ^ 252) := by
  decide +kernel

theorem units_lt_of_isFinite (w : Word) (h : isFinite w = true) : units w < 2 ^ 277 := by
  rw [units_eq, ← unitsOfMag_infBits]
  exact unitsOfMag_strictMono ((isFinite_iff w).1 h)

/-! ### The reals that a magnitude is the rounding of -/

/-- The magnitude `p` is the rounding of the real `x` units, infinity counted as the number `2^128`: `x` is not past the
point halfway to any other magnitude, and where it is such a point `p` is even. -/
structure RoundsTo (p : Nat) (x : ℝ) : Prop where
  above : ∀ m, p < m → 2 * x ≤ unitsOfMag p + unitsOfMag m
  below : ∀ m, m < p → (unitsOfMag p + unitsOfMag m : ℝ) ≤ 2 * x
  even : ∀ m, m ≠ p → 2 * x = unitsOfMag p + unitsOfMag m → p % 2 = 0

/-- Of two numbers the lower is as near exactly up to the point halfway. -/
theorem abs_sub_le_abs_sub_iff_of_lt {a b : ℝ} (h : a < b) (x : ℝ) : |a - x| ≤ |b - x| ↔ 2 * x ≤ a + b := by
  rw [← sq_le_sq]
  constructor <;> intro hx <;> nlinarith

theorem abs_sub_le_abs_sub_iff_of_gt {a b : ℝ} (h : b < a) (x : ℝ) : |a - x| ≤ |b - x| ↔ a + b ≤ 2 * x := by
  rw [← sq_le_sq]
  constructor <;> intro hx <;> nlinarith

theorem abs_sub_eq_abs_sub_iff {a b : ℝ} (h : a ≠ b) (x : ℝ) : |a - x| = |b - x| ↔ 2 * x = a + b := by
  rw [abs_eq_abs]
  constructor
  · rintro (hx | hx)
    · exact absurd (by linarith) h
    · linarith
  · intro hx; right; linarith

theorem unitsOfMag_cast_lt {p m : Nat} (h : p < m) : (unitsOfMag p : ℝ) < unitsOfMag m := by
  exact_mod_cast unitsOfMag_strictMono h

theorem unitsOfMag_cast_ne {p m : Nat} (h : p ≠ m) : (unitsOfMag p : ℝ) ≠ unitsOfMag m := by
  exact_mod_cast unitsOfMag_strictMono.injective.ne h

theorem roundsTo_iff (p : Nat) (x : ℝ) : RoundsTo p x ↔
    (∀ m, |(unitsOfMag p : ℝ) - x| ≤ |(unitsOfMag m : ℝ) - x|) ∧
    ∀ m, m ≠ p → |(unitsOfMag p : ℝ) - x| = |(unitsOfMag m : ℝ) - x| → p % 2 = 0 := by
  constructor
  · refine fun h => ⟨fun m => ?_, fun m hm he => h.even m hm ((abs_sub_eq_abs_sub_iff (unitsOfMag_cast_ne hm.symm) x).1 he)⟩
    rcases lt_trichotomy p m with hm | rfl | hm
    · exact (abs_sub_le_abs_sub_iff_of_lt (unitsOfMag_cast_lt hm) x).2 (h.above m hm)
    · exact le_rfl
    · exact (abs_sub_le_abs_sub_iff_of_gt (unitsOfMag_cast_lt hm) x).2 (h.below m hm)
  · rintro ⟨hn, ht⟩
    exact ⟨fun m hm => (abs_sub_le_abs_sub_iff_of_lt (unitsOfMag_cast_lt hm) x).1 (hn m),
      fun m hm => (abs_sub_le_abs_sub_iff_of_gt (unitsOfMag_cast_lt hm) x).1 (hn m),
      fun m hm he => ht m hm ((abs_sub_eq_abs_sub_iff (unitsOfMag_cast_ne hm.symm) x).2 he)⟩

/-- What rounds to one magnitude is an interval: rounding is monotone. -/
theorem RoundsTo.of_between {p : Nat} {x y z : ℝ} (hx : RoundsTo p x) (hy : RoundsTo p y) (hxz : x ≤ z) (hzy : z ≤ y) :
    RoundsTo p z where
  above m hm := by linarith [hy.above m hm]
  below m hm := by linarith [hx.below m hm]
  even m hm he := by
    rcases lt_or_gt_of_ne hm with h | h
    · exact hx.even m hm (by linarith [hx.below m h])
    · exact hy.even m hm (by linarith [hy.above m h])

/-- Only the neighbours of a magnitude bound what rounds to it. -/
theorem RoundsTo.of_neighbours {p : Nat} {x : ℝ} (above : 2 * x ≤ unitsOfMag p + unitsOfMag (p + 1))
    (below : ∀ q, q + 1 = p → (unitsOfMag q + unitsOfMag p : ℝ) ≤ 2 * x)
    (even : 2 * x = unitsOfMag p + unitsOfMag (p + 1) → p % 2 = 0)
    (even' : ∀ q, q + 1 = p → 2 * x = unitsOfMag q + unitsOfMag p → p % 2 = 0) : RoundsTo p x := by
  have up : ∀ m, p < m → (unitsOfMag (p + 1) : ℝ) ≤ unitsOfMag m := fun m hm => by
    exact_mod_cast unitsOfMag_strictMono.monotone hm
  have down : ∀ q m, q + 1 = p → m < p → (unitsOfMag m : ℝ) ≤ unitsOfMag q := fun q m hq hm => by
    exact_mod_cast unitsOfMag_strictMono.monotone (by omega)
  refine ⟨fun m hm => by linarith [up m hm], fun m hm => ?_, fun m hm he => ?_⟩
  · obtain ⟨q, rfl⟩ : ∃ q, q + 1 = p := ⟨p - 1, by omega⟩
    linarith [below q rfl, down q m rfl hm]
  · rcases lt_or_gt_of_ne hm with h | h
    · obtain ⟨q, rfl⟩ : ∃ q, q + 1 = p := ⟨p - 1, by omega⟩
      exact even' q rfl (by linarith [below q rfl, down q m rfl h])
    · exact even (by linarith [up m h])

/-! ### The model's rounding -/

theorem rawMag_mod_two (num den : Nat) :
    rawMag num den % 2 = roundEven num (den * 2 ^ spacing (num / den)) % 2 := by
  unfold rawMag; omega

/-- Where another magnitude is as near as the rounding, the rounding is even. -/
theorem rawMag_tie (num den : Nat) (hd : 0 < den) (m : Nat) (hm : m ≠ rawMag num den)
    (h : |(unitsOfMag m : Int) * den - num| = |(unitsOfMag (rawMag num den) : Int) * den - num|) :
    rawMag num den % 2 = 0 := by
  have hne : unitsOfMag m ≠ unitsOfMag (rawMag num den) := unitsOfMag_strictMono.injective.ne hm
  have hbest := rawMag_nearest num den hd
  rw [rawMag_mod_two]
  rw [unitsOfMag_rawMag _ _ hd] at h hne
  obtain ⟨e, he⟩ : ∃ e, e = spacing (num / den) := ⟨_, rfl⟩
  rw [← he] at h hne ⊢
  have hpos : 0 < den * 2 ^ e := by positivity
  have scale : ∀ k : Int, k * 2 ^ e * den = k * ((den * 2 ^ e : Nat) : Int) := fun k => by push_cast; ring
  rcases unitsOfMag_grid m e with ⟨k, hk⟩ | hlt
  · rw [hk] at h hne
    refine roundEven_tie num (den * 2 ^ e) hpos k (fun hc => hne ?_) ?_
    · rw [Nat.cast_injective hc]
    · rw [Nat.cast_mul, Nat.cast_mul, Nat.cast_pow, Nat.cast_ofNat, scale, scale] at h
      exact h
  · by_cases h0 : e = 0
    · refine roundEven_tie num (den * 2 ^ e) hpos (unitsOfMag m) (fun hc => hne ?_) ?_
      · rw [h0] at hc ⊢; simpa using hc
      · rw [h0] at h ⊢; simpa using h
    · exfalso
      have hb := spacing_bound (num / den) (by rw [← he]; exact h0)
      rw [← he] at hb
      have hb2 : ((2 ^ (23 + e) : Nat) : Int) * den ≤ num := by exact_mod_cast (Nat.le_div_iff_mul_le hd).1 hb
      have hl : (unitsOfMag m : Int) + 1 ≤ ((2 ^ (23 + e) : Nat) : Int) := by exact_mod_cast hlt
      have hd' : (0 : Int) < den := by exact_mod_cast hd
      have hpat : unitsOfMag (e * 2 ^ 23 + 2 ^ 23) = 2 ^ (23 + e) := by
        rw [unitsOfMag_binade e (2 ^ 23) (fun _ => le_rfl) (by norm_num), ← pow_add]
      have hbin := hbest (e * 2 ^ 23 + 2 ^ 23)
      rw [hpat, unitsOfMag_rawMag _ _ hd, ← he, ← h, abs_of_nonpos (by nlinarith), abs_of_nonpos (by linarith)] at hbin
      nlinarith

/-- The model's rounding, the cap at infinity left out, is the rounding of the quotient. -/
theorem rawMag_roundsTo (num den : Nat) (hd : 0 < den) : RoundsTo (rawMag num den) ((num : ℝ) / den) := by
  have hd' : (0 : ℝ) < den := by exact_mod_cast hd
  have scale : ∀ m, |(unitsOfMag m : ℝ) - num / den| * den = ((|(unitsOfMag m : Int) * den - num| : Int) : ℝ) := by
    intro m
    rw [← abs_of_pos hd', ← abs_mul, abs_of_pos hd', sub_mul, div_mul_cancel₀ _ hd'.ne']
    push_cast
    rfl
  refine (roundsTo_iff _ _).2 ⟨fun m => le_of_mul_le_mul_right ?_ hd', fun m hm he => rawMag_tie num den hd m hm ?_⟩
  · rw [scale, scale]
    exact_mod_cast rawMag_nearest num den hd m
  · have := congrArg (· * (den : ℝ)) he
    simp only [scale] at this
    exact_mod_cast this.symm

/-- Infinity begins at the point halfway between the largest finite number and `2^128`, as the largest finite pattern is
odd (R14). -/
theorem rawMag_lt_infBits_iff (num den : Nat) (hd : 0 < den) :
    rawMag num den < infBits ↔ num < (2 ^ 277 - 2 ^ 252) * den := by
  have hd' : (0 : ℝ) < den := by exact_mod_cast hd
  have h := rawMag_roundsTo num den hd
  have hhalf := halfway_infBits
  generalize 2 ^ 277 - 2 ^ 252 = t at hhalf ⊢
  have hhalf' : (unitsOfMag (infBits - 1) + unitsOfMag infBits : ℝ) = 2 * t := by exact_mod_cast hhalf
  have hreal : (num : ℝ) / den < t ↔ num < t * den := by
    rw [div_lt_iff₀ hd']; exact_mod_cast Iff.rfl
  rw [← hreal]
  constructor
  · intro hlt
    have hle : (unitsOfMag (rawMag num den) : ℝ) ≤ unitsOfMag (infBits - 1) := by
      exact_mod_cast unitsOfMag_strictMono.monotone (Nat.le_sub_one_of_lt hlt)
    by_contra hge
    have heq : unitsOfMag (rawMag num den) = unitsOfMag (infBits - 1) := by
      exact_mod_cast le_antisymm hle (by linarith [h.above _ hlt])
    have hodd := h.even infBits hlt.ne' (le_antisymm (h.above _ hlt) (by linarith))
    rw [unitsOfMag_strictMono.injective heq] at hodd
    exact absurd hodd (by decide)
  · intro hx
    by_contra hge
    have hle : (unitsOfMag infBits : ℝ) ≤ unitsOfMag (rawMag num den) := by
      exact_mod_cast unitsOfMag_strictMono.monotone (not_lt.1 hge)
    have hb := h.below (infBits - 1) (lt_of_lt_of_le (by decide) (not_lt.1 hge))
    generalize unitsOfMag (infBits - 1) = u at hb hhalf'
    linarith

theorem rndMag_lt_infBits_iff (num den : Nat) (hd : 0 < den) :
    rndMag num den < infBits ↔ num < (2 ^ 277 - 2 ^ 252) * den := by
  rw [← rawMag_lt_infBits_iff num den hd, rndMag_eq]
  omega

theorem rndMag_eq_infBits (num den : Nat) (hd : 0 < den) (h : (2 ^ 277 - 2 ^ 252) * den ≤ num) :
    rndMag num den = infBits := by
  have := rndMag_lt_infBits_iff num den hd
  have := rndMag_le num den
  omega

/-- Below infinity the model's rounding is the rounding of the quotient. -/
theorem rndMag_roundsTo (num den : Nat) (hd : 0 < den) (h : rndMag num den < infBits) :
    RoundsTo (rndMag num den) ((num : ℝ) / den) := by
  rw [rndMag_eq] at h ⊢
  rw [min_eq_left (by omega)]
  exact rawMag_roundsTo num den hd

@[simp] theorem rndMag_zero (den : Nat) : rndMag 0 den = 0 := by
  simp [rndMag, spacing, roundEven, infBits]

/-! ### Signed rounding: no word is nearer than a packed rounding -/

/-- A real with the sign of a packed pattern. -/
noncomputable def withSign (neg : Bool) (x : ℝ) : ℝ := if neg then -x else x

theorem abs_withSign_sub (neg : Bool) (u x : ℝ) : |withSign neg u - withSign neg x| = |u - x| := by
  cases neg
  · rfl
  · simp only [withSign, if_true]
    rw [← abs_neg]; congr 1; ring

theorem value_cast (w : Word) : (value w : ℝ) = withSign (signBit w) (unitsOfMag (magOf w)) := by
  rw [value_eq, withSign, units_eq]
  split <;> push_cast <;> rfl

theorem abs_value_pack_sub (neg : Bool) (p : Nat) (hp : p < 2 ^ 31) (x : ℝ) :
    |(value (pack neg p) : ℝ) - withSign neg x| = |(unitsOfMag p : ℝ) - x| := by
  rw [value_cast, signBit_pack _ _ hp, magOf_pack _ _ hp, abs_withSign_sub]

/-- A word is at least as far from a real of either sign as its magnitude is. -/
theorem abs_unitsOfMag_sub_le (w : Word) (neg : Bool) (x : ℝ) (hx : 0 ≤ x) :
    |(unitsOfMag (magOf w) : ℝ) - x| ≤ |(value w : ℝ) - withSign neg x| := by
  have hu : (0 : ℝ) ≤ unitsOfMag (magOf w) := Nat.cast_nonneg _
  have key := abs_abs_sub_abs_le (value w : ℝ) (withSign neg x)
  have habs : ∀ (s : Bool) (y : ℝ), 0 ≤ y → |withSign s y| = y := fun s y hy => by
    cases s <;> simp [withSign, abs_of_nonneg hy]
  rw [value_cast, habs _ _ hu, habs _ _ hx, ← value_cast] at key
  exact key

theorem RoundsTo.pack_nearest {p : Nat} {x : ℝ} (h : RoundsTo p x) (hx : 0 ≤ x) (hp : p < 2 ^ 31) (neg : Bool)
    (w : Word) : |(value (pack neg p) : ℝ) - withSign neg x| ≤ |(value w : ℝ) - withSign neg x| := by
  rw [abs_value_pack_sub _ _ hp]
  exact (((roundsTo_iff p x).1 h).1 (magOf w)).trans (abs_unitsOfMag_sub_le w neg x hx)

/-- Where another word is as near, the packed rounding is even; the two zeros are as near as each other, and both even. -/
theorem RoundsTo.pack_tie {p : Nat} {x : ℝ} (h : RoundsTo p x) (hx : 0 ≤ x) (hp : p < 2 ^ 31) (neg : Bool)
    (w : Word) (hw : w ≠ pack neg p)
    (he : |(value (pack neg p) : ℝ) - withSign neg x| = |(value w : ℝ) - withSign neg x|) :
    (pack neg p).getLsbD 0 = false := by
  refine getLsbD_zero_pack _ _ ?_
  obtain ⟨hn, ht⟩ := (roundsTo_iff p x).1 h
  rw [abs_value_pack_sub _ _ hp] at he
  by_cases hm : magOf w = p
  · have hs : signBit w = !neg := by
      by_contra hc
      have : signBit w = neg := by cases h1 : signBit w <;> cases neg <;> simp_all
      exact hw (by rw [← hm, ← this, pack_magOf])
    have hu : (0 : ℝ) ≤ unitsOfMag p := Nat.cast_nonneg _
    have hsum : |(value w : ℝ) - withSign neg x| = unitsOfMag p + x := by
      rw [value_cast, hs, hm, ← abs_of_nonneg (add_nonneg hu hx)]
      cases neg
      · simp only [withSign, Bool.not_false, if_true, Bool.false_eq_true, if_false]
        rw [← abs_neg]; congr 1; ring
      · simp only [withSign, Bool.not_true, if_true, Bool.false_eq_true, if_false, sub_neg_eq_add]
    have h0 := hn 0
    rw [unitsOfMag_zero, Nat.cast_zero, zero_sub, abs_neg, abs_of_nonneg hx, he, hsum] at h0
    have : unitsOfMag p = 0 := by
      have : (unitsOfMag p : ℝ) = 0 := by linarith
      exact_mod_cast this
    rw [unitsOfMag_strictMono.injective (this.trans unitsOfMag_zero.symm)]
  · exact ht (magOf w) hm (le_antisymm (hn _) (by rw [he]; exact abs_unitsOfMag_sub_le w neg x hx))

end Sys2Proof.Machine
end

