-- ==== Sys2Proof/Proofs/Operations.lean ====
section
/-! The operations on finite operands (O8, O9): each is a packed rounding of the exact result. -/

namespace Sys2Proof.Machine

open Sys2Proof

-- One proof is elaborated after another here: each thread at work takes its share of the check's memory limit.
set_option Elab.async false

/-! ### The classes of words -/

theorem isNaN_of_isFinite (a : Word) (h : isFinite a = true) : isNaN a = false := by
  simp_all [isFinite, isNaN]

theorem isInf_of_isFinite (a : Word) (h : isFinite a = true) : isInf a = false := by
  simp_all [isFinite, isInf]

theorem isNaN_of_isInf (a : Word) (h : isInf a = true) : isNaN a = false := by
  simp_all [isInf, isNaN]

theorem value_eq_zero_iff (a : Word) : value a = 0 ↔ units a = 0 := by
  rw [← natAbs_value, Int.natAbs_eq_zero]

/-! ### `fneg` flips the sign and nothing else -/

theorem ofNat_xor_signBit (mag : Nat) : BitVec.ofNat 32 mag ^^^ 0x80000000#32 = BitVec.ofNat 32 (mag + 2 ^ 31) := by
  apply BitVec.eq_of_getLsbD_eq
  intro i hi
  rw [BitVec.getLsbD_xor, show 0x80000000#32 = BitVec.twoPow 32 31 from rfl, BitVec.getLsbD_twoPow,
    BitVec.getLsbD_ofNat, BitVec.getLsbD_ofNat, Nat.add_comm]
  by_cases h : i = 31
  · subst h
    rw [Nat.testBit_two_pow_add_eq]
    simp
  · rw [Nat.testBit_two_pow_add_gt (by omega)]
    simp [Ne.symm h]

theorem fneg_eq_pack (a : Word) : fneg a = pack (!signBit a) (magOf a) := by
  have h : ∀ s, fneg (pack s (magOf a)) = pack (!s) (magOf a) := by
    intro s
    cases s
    · exact ofNat_xor_signBit _
    · simp only [fneg, pack, if_true, Bool.not_true, Bool.false_eq_true, if_false]
      rw [← ofNat_xor_signBit, BitVec.xor_assoc, BitVec.xor_self, BitVec.xor_zero]
  rw [← h, pack_magOf]

@[simp] theorem signBit_fneg (a : Word) : signBit (fneg a) = !signBit a := by
  rw [fneg_eq_pack, signBit_pack _ _ (magOf_lt a)]

@[simp] theorem magOf_fneg (a : Word) : magOf (fneg a) = magOf a := by
  rw [fneg_eq_pack, magOf_pack _ _ (magOf_lt a)]

@[simp] theorem units_fneg (a : Word) : units (fneg a) = units a := by
  rw [units_eq, units_eq, magOf_fneg]

@[simp] theorem value_fneg (a : Word) : value (fneg a) = -value a := by
  rw [value_eq, value_eq, signBit_fneg, units_fneg]
  cases signBit a <;> simp

theorem expField_eq (a : Word) : expField a = magOf a / 2 ^ 23 := by
  rw [← expField_pack (signBit a) _ (magOf_lt a), pack_magOf]

theorem fracField_eq (a : Word) : fracField a = magOf a % 2 ^ 23 := by
  rw [← fracField_pack (signBit a) _ (magOf_lt a), pack_magOf]

@[simp] theorem isNaN_fneg (a : Word) : isNaN (fneg a) = isNaN a := by
  simp only [isNaN, expField_eq, fracField_eq, magOf_fneg]

@[simp] theorem isInf_fneg (a : Word) : isInf (fneg a) = isInf a := by
  simp only [isInf, expField_eq, fracField_eq, magOf_fneg]

@[simp] theorem isFinite_fneg (a : Word) : isFinite (fneg a) = isFinite a := by
  simp only [isFinite, expField_eq, magOf_fneg]

/-! ### What the operations answer on finite operands -/

theorem fadd_finite (a b : Word) (ha : isFinite a = true) (hb : isFinite b = true) :
    fadd a b = if value a + value b = 0 then (if signBit a && signBit b then fNegZero else fZero)
      else pack (decide (value a + value b < 0)) (rndMag (value a + value b).natAbs 1) := by
  simp [fadd, isNaN_of_isFinite, isInf_of_isFinite, ha, hb]

theorem fmul_finite (a b : Word) (ha : isFinite a = true) (hb : isFinite b = true) :
    fmul a b = pack (signBit a != signBit b) (rndMag (units a * units b) (2 ^ 149)) := by
  simp [fmul, isNaN_of_isFinite, isInf_of_isFinite, ha, hb]

theorem fdiv_finite (a b : Word) (ha : isFinite a = true) (hb : isFinite b = true) (h0 : units b ≠ 0) :
    fdiv a b = pack (signBit a != signBit b) (rndMag (units a * 2 ^ 149) (units b)) := by
  simp [fdiv, isNaN_of_isFinite, isInf_of_isFinite, ha, hb, h0]

/-! ### A packed rounding is the rounding of the signed quotient -/

/-- The bound of R14 from which a magnitude is infinite, as an integer of either type. -/
theorem infBound_cast : ((2 ^ 277 - 2 ^ 252 : Nat) : Int) = 2 ^ 277 - 2 ^ 252 := by decide +kernel

theorem infBound_pos : 0 < 2 ^ 277 - 2 ^ 252 := by decide +kernel

/-- An integer with a sign. -/
def signed (neg : Bool) (n : Nat) : Int := if neg then -(n : Int) else n

theorem abs_signed (neg : Bool) (n : Nat) : |signed neg n| = n := by cases neg <;> simp [signed]

theorem signed_neg_iff (neg : Bool) (n : Nat) (h : n ≠ 0) : decide (signed neg n < 0) = neg := by
  cases neg <;> simp [signed]; omega

theorem signed_cast (neg : Bool) (n : Nat) : (signed neg n : ℝ) = withSign neg n := by
  cases neg <;> simp [signed, withSign]

/-- The distance of a word from a quotient, multiplied out. -/
theorem abs_value_mul_sub (w : Word) (neg : Bool) (n den : Nat) (hd : 0 < den) :
    ((|value w * den - signed neg n| : Int) : ℝ) = |(value w : ℝ) - withSign neg (n / den)| * den := by
  have hd' : (0 : ℝ) < den := by exact_mod_cast hd
  rw [← abs_of_pos hd', ← abs_mul, abs_of_pos hd', sub_mul]
  push_cast
  rw [signed_cast]
  congr 2
  cases neg <;> simp only [withSign, if_true, Bool.false_eq_true, if_false] <;> field_simp

theorem RoundsTo.abs_value_mul_sub_le {p n den : Nat} (h : RoundsTo p ((n : ℝ) / den)) (hd : 0 < den) (hp : p < 2 ^ 31)
    (neg : Bool) (w : Word) : |value (pack neg p) * den - signed neg n| ≤ |value w * den - signed neg n| := by
  have hd' : (0 : ℝ) < den := by exact_mod_cast hd
  have := mul_le_mul_of_nonneg_right (h.pack_nearest (by positivity) hp neg w) hd'.le
  rw [← abs_value_mul_sub _ _ _ _ hd, ← abs_value_mul_sub _ _ _ _ hd] at this
  exact_mod_cast this

theorem RoundsTo.even_of_abs_value_mul_sub_eq {p n den : Nat} (h : RoundsTo p ((n : ℝ) / den)) (hd : 0 < den)
    (hp : p < 2 ^ 31) (neg : Bool) (w : Word) (hw : w ≠ pack neg p)
    (he : |value w * den - signed neg n| = |value (pack neg p) * den - signed neg n|) :
    (pack neg p).getLsbD 0 = false := by
  have hd' : (0 : ℝ) < den := by exact_mod_cast hd
  have hr := congrArg (Int.cast : Int → ℝ) he
  rw [abs_value_mul_sub _ _ _ _ hd, abs_value_mul_sub _ _ _ _ hd] at hr
  exact h.pack_tie (by positivity) hp neg w hw (mul_right_cancel₀ hd'.ne' hr.symm)

/-- A packed rounding of `n / den` is the rounding, by R14, of that quotient with the sign. -/
theorem isRnd_pack (neg : Bool) (n den : Nat) (hd : 0 < den) :
    IsRnd (pack neg (rndMag n den)) (signed neg n) den := by
  rw [IsRnd, abs_signed, ← infBound_cast]
  norm_cast
  refine ⟨fun h => ?_, fun h => ?_, fun h => ?_⟩
  · have hn : n ≠ 0 := ((Nat.mul_pos infBound_pos hd).trans_le h).ne'
    rw [rndMag_eq_infBits n den hd h]
    have hs := signed_neg_iff neg n hn
    cases neg
    · rw [if_neg (of_decide_eq_false hs)]; rfl
    · rw [if_pos (of_decide_eq_true hs)]; rfl
  · have hlt := (rndMag_lt_infBits_iff n den hd).2 h
    have hr := rndMag_roundsTo n den hd hlt
    exact ⟨(isFinite_pack _ _ (rndMag_lt _ _)).2 hlt, fun w _ => ⟨hr.abs_value_mul_sub_le hd (rndMag_lt _ _) neg w,
      fun hw he => hr.even_of_abs_value_mul_sub_eq hd (rndMag_lt _ _) neg w hw he⟩⟩
  · rw [signBit_pack _ _ (rndMag_lt _ _), signed_neg_iff neg n]
    rintro rfl
    exact h (by cases neg <;> rfl)

/-! ### Each operation -/

theorem value_eq_signed (a : Word) : value a = signed (signBit a) (units a) := rfl

theorem signed_natAbs (z : Int) : signed (decide (z < 0)) z.natAbs = z := by
  simp only [signed, decide_eq_true_eq]
  split <;> omega

theorem isRnd_fadd (a b : Word) (ha : isFinite a = true) (hb : isFinite b = true) :
    IsRnd (fadd a b) (value a + value b) 1 := by
  rw [fadd_finite a b ha hb]
  by_cases h0 : value a + value b = 0
  · have hz : (if signBit a && signBit b then fNegZero else fZero) = pack (signBit a && signBit b) (rndMag 0 1) := by
      rw [rndMag_zero]; cases signBit a && signBit b <;> rfl
    have := isRnd_pack (signBit a && signBit b) 0 1 one_pos
    rw [← hz, show signed (signBit a && signBit b) 0 = 0 by cases signBit a && signBit b <;> rfl] at this
    rwa [if_pos h0, h0]
  · have := isRnd_pack (decide (value a + value b < 0)) (value a + value b).natAbs 1 one_pos
    rw [signed_natAbs] at this
    rwa [if_neg h0]

theorem isRnd_fsub (a b : Word) (ha : isFinite a = true) (hb : isFinite b = true) :
    IsRnd (fsub a b) (value a - value b) 1 := by
  have := isRnd_fadd a (fneg b) ha (by rwa [isFinite_fneg])
  rwa [value_fneg, ← sub_eq_add_neg] at this

theorem signed_mul (s t : Bool) (m n : Nat) : signed s m * signed t n = signed (s != t) (m * n) := by
  cases s <;> cases t <;> simp [signed]

theorem isRnd_fmul (a b : Word) (ha : isFinite a = true) (hb : isFinite b = true) :
    IsRnd (fmul a b) (value a * value b) (2 ^ 149) := by
  rw [fmul_finite a b ha hb, value_eq_signed, value_eq_signed, signed_mul]
  exact isRnd_pack _ _ _ (by positivity)

theorem isRnd_fdiv (a b : Word) (ha : isFinite a = true) (hb : isFinite b = true) (h0 : value b ≠ 0) :
    IsRnd (fdiv a b) (value a * 2 ^ 149 * (value b).sign) (value b).natAbs := by
  have hu : units b ≠ 0 := fun h => h0 ((value_eq_zero_iff b).2 h)
  have hsign : (value b).sign = signed (signBit b) 1 := by
    rw [value_eq]
    cases signBit b
    · exact Int.sign_eq_one_of_pos (by simp; omega)
    · exact Int.sign_eq_neg_one_of_neg (by simp; omega)
  have hnum : value a * 2 ^ 149 * (value b).sign = signed (signBit a != signBit b) (units a * 2 ^ 149) := by
    rw [hsign, mul_right_comm, value_eq_signed a, signed_mul, mul_one]
    cases signBit a != signBit b <;> simp [signed]
  rw [fdiv_finite a b ha hb hu, hnum, natAbs_value]
  exact isRnd_pack _ _ _ (by omega)

/-- Settles O8: each operation is a packed rounding of its exact result (`isRnd_pack`). -/
theorem operationsRoundToNearest : Obligations.OperationsRoundToNearest := by
  intro a b ha hb
  refine ⟨isRnd_fadd a b ha hb, isRnd_fsub a b ha hb, isRnd_fmul a b ha hb, isRnd_fdiv a b ha hb, fun h => ?_, fun h => ?_⟩
  · rw [fadd_finite a b ha hb, if_pos h]
  · rw [fsub, fadd_finite a _ ha (by rwa [isFinite_fneg]), value_fneg, ← sub_eq_add_neg, if_pos h, signBit_fneg]

/-- Settles O9, from what the model's rounding is the rounding of (`rndMag_roundsTo`). -/
theorem roundingTiesAndOverflow : Obligations.RoundingTiesAndOverflow := by
  intro num den hd
  have hlt := rndMag_lt num den
  refine ⟨fun w _ hfin hne he => ?_, ?_, fun h => ?_⟩
  · have hr := rndMag_roundsTo num den hd ((isFinite_pack _ _ hlt).1 hfin)
    exact hr.even_of_abs_value_mul_sub_eq hd hlt false w hne he
  · rw [← not_lt, ← rndMag_lt_infBits_iff num den hd]
    constructor
    · intro h
      rw [pack_injective false _ infBits hlt infBits_lt h]
      exact lt_irrefl _
    · intro h
      rw [le_antisymm (rndMag_le num den) (not_lt.1 h)]; rfl
  · rw [isFinite_pack _ _ hlt, rndMag_lt_infBits_iff num den hd]
    exact h

end Sys2Proof.Machine
end

