-- ==== Sys2Proof/Proofs/SpecialResults.lean ====
section
/-! The operations on NaNs, infinities and zeros (O11): an equation for each case of R15 and R16. -/

namespace Sys2Proof.Machine

open Sys2Proof

-- One proof is elaborated after another here: each thread at work takes its share of the check's memory limit.
set_option Elab.async false

section Cases

variable (a b : Word)

/-! ### Classes of words, and the words that the cases answer -/

theorem magOf_of_isInf (h : isInf a = true) : magOf a = infBits := by
  simp only [isInf, Bool.and_eq_true, decide_eq_true_eq, expField_eq, fracField_eq] at h
  have hi : infBits = 0x7F800000 := rfl
  omega

theorem units_of_isInf (h : isInf a = true) : units a = 2 ^ 277 := by
  rw [units_eq, magOf_of_isInf a h, unitsOfMag_infBits]

theorem units_ne_zero_of_isInf (h : isInf a = true) : units a ≠ 0 := by
  rw [units_of_isInf a h]; decide +kernel

theorem isFinite_of_units_eq_zero (h : units a = 0) : isFinite a = true := by
  have h0 : magOf a = 0 := unitsOfMag_strictMono.injective (by rw [← units_eq, h, unitsOfMag_zero])
  rw [isFinite_iff, h0]
  decide

theorem signBit_of_value_neg (h : value a < 0) : signBit a = true := by
  by_contra hs
  rw [value_eq, if_neg hs] at h
  omega

theorem units_ne_zero_of_value_ne_zero (h : value a ≠ 0) : units a ≠ 0 := fun h0 => h ((value_eq_zero_iff a).2 h0)

@[simp] theorem isNaN_qNaN : isNaN qNaN = true := by decide

@[simp] theorem isNaN_fZero : isNaN fZero = false := by decide

@[simp] theorem isInf_infOf (neg : Bool) : isInf (infOf neg) = true := by cases neg <;> decide

@[simp] theorem signBit_infOf (neg : Bool) : signBit (infOf neg) = neg := by cases neg <;> decide

@[simp] theorem isFinite_pack_zero (neg : Bool) : isFinite (pack neg 0) = true := by cases neg <;> decide

@[simp] theorem value_pack_zero (neg : Bool) : value (pack neg 0) = 0 := by cases neg <;> decide

/-! ### NaN operands -/

theorem fadd_of_isNaN (h : isNaN a = true ∨ isNaN b = true) : fadd a b = qNaN := by
  rw [fadd, if_pos (by simpa using h)]

theorem fsub_of_isNaN (h : isNaN a = true ∨ isNaN b = true) : fsub a b = qNaN :=
  fadd_of_isNaN a (fneg b) (by rwa [isNaN_fneg])

theorem fmul_of_isNaN (h : isNaN a = true ∨ isNaN b = true) : fmul a b = qNaN := by
  rw [fmul, if_pos (by simpa using h)]

theorem fdiv_of_isNaN (h : isNaN a = true ∨ isNaN b = true) : fdiv a b = qNaN := by
  rw [fdiv, if_pos (by simpa using h)]

theorem fsqrt_of_isNaN (h : isNaN a = true) : fsqrt a = qNaN := by rw [fsqrt, if_pos h]

/-! ### Infinities -/

theorem fadd_inf_finite (ha : isInf a = true) (hb : isFinite b = true) : fadd a b = a := by
  simp [fadd, ha, isNaN_of_isInf a ha, isNaN_of_isFinite b hb, isInf_of_isFinite b hb]

theorem fadd_finite_inf (ha : isFinite a = true) (hb : isInf b = true) : fadd a b = b := by
  simp [fadd, hb, isNaN_of_isInf b hb, isNaN_of_isFinite a ha, isInf_of_isFinite a ha]

theorem fadd_inf_inf (ha : isInf a = true) (hb : isInf b = true) :
    fadd a b = if signBit a = signBit b then a else qNaN := by
  simp [fadd, ha, hb, isNaN_of_isInf a ha, isNaN_of_isInf b hb]

theorem fsub_inf_finite (ha : isInf a = true) (hb : isFinite b = true) : fsub a b = a :=
  fadd_inf_finite a _ ha (by rwa [isFinite_fneg])

theorem fsub_finite_inf (ha : isFinite a = true) (hb : isInf b = true) : fsub a b = fneg b :=
  fadd_finite_inf a _ ha (by rwa [isInf_fneg])

theorem fsub_inf_inf (ha : isInf a = true) (hb : isInf b = true) :
    fsub a b = if signBit a = signBit b then qNaN else a := by
  rw [fsub, fadd_inf_inf a _ ha (by rwa [isInf_fneg]), signBit_fneg]
  cases signBit a <;> cases signBit b <;> rfl

theorem fmul_inf (h : isInf a = true ∨ isInf b = true) (ha : isNaN a = false) (hb : isNaN b = false)
    (ha0 : units a ≠ 0) (hb0 : units b ≠ 0) : fmul a b = infOf (signBit a != signBit b) := by
  simp [fmul, ha, hb, ha0, hb0, h]

theorem fmul_inf_zero (ha : isInf a = true) (hb : units b = 0) : fmul a b = qNaN ∧ fmul b a = qNaN := by
  have hn := isNaN_of_isFinite b (isFinite_of_units_eq_zero b hb)
  constructor <;> simp [fmul, ha, hb, hn, isNaN_of_isInf a ha]

theorem fdiv_inf_finite (ha : isInf a = true) (hb : isFinite b = true) : fdiv a b = infOf (signBit a != signBit b) := by
  simp [fdiv, ha, isNaN_of_isInf a ha, isNaN_of_isFinite b hb, isInf_of_isFinite b hb]

theorem fdiv_finite_inf (ha : isFinite a = true) (hb : isInf b = true) :
    fdiv a b = pack (signBit a != signBit b) 0 := by
  simp [fdiv, hb, isNaN_of_isInf b hb, isNaN_of_isFinite a ha, isInf_of_isFinite a ha]

theorem fdiv_inf_inf (ha : isInf a = true) (hb : isInf b = true) : fdiv a b = qNaN := by
  simp [fdiv, ha, hb]

/-! ### Zeros and negative roots -/

theorem fdiv_finite_zero (ha : isFinite a = true) (hb : units b = 0) :
    fdiv a b = if units a = 0 then qNaN else infOf (signBit a != signBit b) := by
  have hb' := isFinite_of_units_eq_zero b hb
  simp [fdiv, hb, isNaN_of_isFinite a ha, isInf_of_isFinite a ha, isNaN_of_isFinite b hb', isInf_of_isFinite b hb']

theorem fsub_self (h : isFinite a = true) : fsub a a = fZero := by
  rw [fsub, fadd_finite a _ h (by rwa [isFinite_fneg]), value_fneg, signBit_fneg, if_pos (add_neg_cancel _)]
  cases signBit a <;> rfl

theorem fsqrt_of_value_neg (hn : isNaN a = false) (h : value a < 0) : fsqrt a = qNaN := by
  simp [fsqrt, hn, signBit_of_value_neg a h, units_ne_zero_of_value_ne_zero a h.ne]

/-! ### What the operations can answer: `QNAN` or a word that is not NaN, of the exact sign for products and quotients -/

/-- `QNAN`, or a packed magnitude with a given sign. -/
def QNaNOrSigned (neg : Bool) (r : Word) : Prop := r = qNaN ∨ ∃ p, p ≤ infBits ∧ r = pack neg p

theorem qNaNOrSigned_pack_rndMag (neg : Bool) (num den : Nat) : QNaNOrSigned neg (pack neg (rndMag num den)) :=
  .inr ⟨_, rndMag_le _ _, rfl⟩

theorem qNaNOrSigned_infOf (neg : Bool) : QNaNOrSigned neg (infOf neg) := .inr ⟨_, le_rfl, rfl⟩

theorem QNaNOrSigned.eq_qNaN {neg : Bool} {r : Word} (h : QNaNOrSigned neg r) (hn : isNaN r = true) : r = qNaN := by
  obtain rfl | ⟨p, hp, rfl⟩ := h
  · rfl
  · rw [isNaN_pack _ _ hp] at hn; exact absurd hn (by decide)

theorem QNaNOrSigned.signBit_eq {neg : Bool} {r : Word} (h : QNaNOrSigned neg r) (hn : isNaN r = false) :
    signBit r = neg := by
  obtain rfl | ⟨p, hp, rfl⟩ := h
  · rw [isNaN_qNaN] at hn; exact absurd hn (by decide)
  · exact signBit_pack _ _ (hp.trans_lt infBits_lt)

theorem fmul_cases : QNaNOrSigned (signBit a != signBit b) (fmul a b) := by
  unfold fmul
  split
  · exact .inl rfl
  split
  · split
    · exact .inl rfl
    · exact qNaNOrSigned_infOf _
  · exact qNaNOrSigned_pack_rndMag _ _ _

theorem fdiv_cases : QNaNOrSigned (signBit a != signBit b) (fdiv a b) := by
  unfold fdiv
  split
  · exact .inl rfl
  split
  · split
    · exact .inl rfl
    · exact qNaNOrSigned_infOf _
  split
  · exact .inr ⟨0, Nat.zero_le _, rfl⟩
  split
  · split
    · exact .inl rfl
    · exact qNaNOrSigned_infOf _
  · exact qNaNOrSigned_pack_rndMag _ _ _

/-- A word that is no NaN is its own magnitude with its own sign. -/
theorem qNaNOrSigned_self (h : isNaN a = false) : QNaNOrSigned (signBit a) a := by
  refine .inr ⟨magOf a, ?_, (pack_magOf a).symm⟩
  by_contra hlt
  have hi : infBits = 0x7F800000 := rfl
  have hm := magOf_lt a
  rw [isNaN, expField_eq, fracField_eq, Bool.and_eq_false_iff, decide_eq_false_iff_not, decide_eq_false_iff_not] at h
  omega

theorem fadd_cases : ∃ neg, QNaNOrSigned neg (fadd a b) := by
  unfold fadd
  split
  · exact ⟨false, .inl rfl⟩
  rename_i hn
  simp only [Bool.or_eq_true, not_or, Bool.not_eq_true] at hn
  split
  · split
    · exact ⟨false, .inl rfl⟩
    · exact ⟨_, qNaNOrSigned_self a hn.1⟩
  split
  · exact ⟨_, qNaNOrSigned_self b hn.2⟩
  split
  · split
    · exact ⟨true, .inr ⟨0, Nat.zero_le _, rfl⟩⟩
    · exact ⟨false, .inr ⟨0, Nat.zero_le _, rfl⟩⟩
  · exact ⟨_, qNaNOrSigned_pack_rndMag _ _ _⟩

theorem fsqrt_cases : ∃ neg, QNaNOrSigned neg (fsqrt a) := by
  unfold fsqrt
  split
  · exact ⟨false, .inl rfl⟩
  rename_i hn
  have ha := qNaNOrSigned_self a (Bool.eq_false_iff.2 hn)
  split
  · exact ⟨_, ha⟩
  split
  · exact ⟨false, .inl rfl⟩
  split
  · exact ⟨_, ha⟩
  · exact ⟨_, qNaNOrSigned_pack_rndMag _ _ _⟩

theorem eq_qNaN_of_isNaN_fadd (h : isNaN (fadd a b) = true) : fadd a b = qNaN := by
  obtain ⟨neg, hc⟩ := fadd_cases a b
  exact hc.eq_qNaN h

theorem eq_qNaN_of_isNaN_fsqrt (h : isNaN (fsqrt a) = true) : fsqrt a = qNaN := by
  obtain ⟨neg, hc⟩ := fsqrt_cases a
  exact hc.eq_qNaN h

/-- An infinity and a finite operand (R15). -/
theorem inf_finite_results (ha : isInf a = true) (hb : isFinite b = true) :
    fadd a b = a ∧ fadd b a = a ∧ fsub a b = a ∧ fsub b a = fneg a ∧ isInf (fdiv a b) = true ∧
      isFinite (fdiv b a) = true ∧ value (fdiv b a) = 0 ∧
      (value b ≠ 0 → isInf (fmul a b) = true ∧ isInf (fmul b a) = true) := by
  refine ⟨fadd_inf_finite a b ha hb, fadd_finite_inf b a hb ha, fsub_inf_finite a b ha hb, fsub_finite_inf b a hb ha,
    ?_, ?_, ?_, fun h0 => ?_⟩
  · rw [fdiv_inf_finite a b ha hb, isInf_infOf]
  · rw [fdiv_finite_inf b a hb ha, isFinite_pack_zero]
  · rw [fdiv_finite_inf b a hb ha, value_pack_zero]
  · have hna := isNaN_of_isInf a ha
    have hnb := isNaN_of_isFinite b hb
    have hua := units_ne_zero_of_isInf a ha
    have hub := units_ne_zero_of_value_ne_zero b h0
    rw [fmul_inf a b (.inl ha) hna hnb hua hub, fmul_inf b a (.inr ha) hnb hna hub hua]
    exact ⟨isInf_infOf _, isInf_infOf _⟩

/-- Two infinities (R15). -/
theorem inf_inf_results (ha : isInf a = true) (hb : isInf b = true) :
    isInf (fmul a b) = true ∧ (signBit a = signBit b → fadd a b = a) ∧ (signBit a ≠ signBit b → fsub a b = a) := by
  refine ⟨?_, fun h => ?_, fun h => ?_⟩
  · rw [fmul_inf a b (.inl ha) (isNaN_of_isInf a ha) (isNaN_of_isInf b hb) (units_ne_zero_of_isInf a ha)
      (units_ne_zero_of_isInf b hb), isInf_infOf]
  · rw [fadd_inf_inf a b ha hb, if_pos h]
  · rw [fsub_inf_inf a b ha hb, if_neg h]

theorem finite_div_zero_results (ha : isFinite a = true) (ha0 : units a ≠ 0) (hb : units b = 0) :
    isInf (fdiv a b) = true ∧ signBit (fdiv a b) = (signBit a != signBit b) := by
  rw [fdiv_finite_zero a b ha hb, if_neg ha0]
  exact ⟨isInf_infOf _, signBit_infOf _⟩

end Cases

/-- Settles O11, one lemma for each case of R15 and R16. -/
theorem specialAndNaNResults : Obligations.SpecialAndNaNResults := by
  intro a b
  refine ⟨eq_qNaN_of_isNaN_fadd a b, eq_qNaN_of_isNaN_fadd a (fneg b), (fmul_cases a b).eq_qNaN, (fdiv_cases a b).eq_qNaN,
    eq_qNaN_of_isNaN_fsqrt a,
    fun h => ⟨fadd_of_isNaN a b h, fsub_of_isNaN a b h, fmul_of_isNaN a b h, fdiv_of_isNaN a b h⟩, fsqrt_of_isNaN a,
    inf_finite_results a b, inf_inf_results a b, ⟨by decide, by decide⟩, fun ha hb h => ?_, fun ha hb h => ?_,
    fmul_inf_zero a b, fun ha hb => ?_, fdiv_inf_inf a b, fsqrt_of_value_neg a, finite_div_zero_results a b,
    ⟨by decide, by decide⟩, fsub_self a, (fmul_cases a b).signBit_eq, (fdiv_cases a b).signBit_eq⟩
  · rw [fadd_inf_inf a b ha hb, if_neg h]
  · rw [fsub_inf_inf a b ha hb, if_pos h]
  · rw [fdiv_finite_zero a b (isFinite_of_units_eq_zero a ha) hb, if_pos ha]

end Sys2Proof.Machine
end

