-- ==== Sys2Proof/Proofs/Numbers.lean ====
section
/-! Integers and the parameter clamp of R18 (O12). -/

namespace Sys2Proof.Machine

open Sys2Proof

-- One proof is elaborated after another here: each thread at work takes its share of the check's memory limit.
set_option Elab.async false

/-- Every integer below `2^24` is a magnitude: its leading bit is at most bit 23. -/
theorem exists_unitsOfMag_integer (n : Nat) (h : n < 2 ^ 24) : ∃ m, m < infBits ∧ unitsOfMag m = n * 2 ^ 149 := by
  by_cases h0 : n = 0
  · exact ⟨0, by decide, by rw [h0, unitsOfMag_zero, Nat.zero_mul]⟩
  have hk : Nat.log2 n ≤ 23 := Nat.lt_succ_iff.1 ((Nat.log2_lt h0).2 h)
  have hlo : 2 ^ Nat.log2 n ≤ n := Nat.log2_self_le h0
  have hhi : n < 2 ^ (Nat.log2 n + 1) := Nat.lt_log2_self
  generalize Nat.log2 n = k at *
  have hm1 : 2 ^ 23 ≤ n * 2 ^ (23 - k) := by
    calc 2 ^ 23 = 2 ^ k * 2 ^ (23 - k) := by rw [← pow_add]; congr 1; omega
      _ ≤ n * 2 ^ (23 - k) := Nat.mul_le_mul_right _ hlo
  have hm2 : n * 2 ^ (23 - k) ≤ 2 ^ 24 := by
    calc n * 2 ^ (23 - k) ≤ 2 ^ (k + 1) * 2 ^ (23 - k) := Nat.mul_le_mul_right _ hhi.le
      _ = 2 ^ 24 := by rw [← pow_add]; congr 1; omega
  refine ⟨(k + 126) * 2 ^ 23 + n * 2 ^ (23 - k), ?_, ?_⟩
  · have hi : infBits = 0x7F800000 := rfl
    omega
  · rw [unitsOfMag_binade _ _ (fun _ => hm1) hm2, mul_assoc, ← pow_add]
    congr 2; omega

theorem i2f_exact (n : Nat) (h : n < 2 ^ 24) :
    isFinite (i2f n) = true ∧ signBit (i2f n) = false ∧ value (i2f n) = n * 2 ^ 149 := by
  obtain ⟨m, hm, hu⟩ := exists_unitsOfMag_integer n h
  have hlt := hm.trans infBits_lt
  have hi : i2f n = pack false m := by
    have hr := rndMag_exact m 1 one_pos hm.le
    rw [mul_one, hu] at hr
    rw [i2f, hr]
  rw [hi]
  refine ⟨(isFinite_pack _ _ hlt).2 hm, signBit_pack _ _ hlt, ?_⟩
  rw [value_pack _ _ hlt, hu]
  push_cast
  rfl

theorem value_fZero : value fZero = 0 := by decide

theorem value_fOne : value fOne = 2 ^ 149 := by decide +kernel

theorem isNaN_fOne : isNaN fOne = false := by decide

theorem clamp01_low (a : Word) (h : isNaN a = true ∨ value a ≤ 0) : clamp01 a = fZero := by
  rw [clamp01, fle, isNaN_fZero, value_fZero, if_pos]
  cases hn : isNaN a <;> simp_all

theorem clamp01_high (a : Word) (hn : isNaN a = false) (h : 2 ^ 149 ≤ value a) : clamp01 a = fOne := by
  have h0 : ¬ value a ≤ 0 := not_le.2 (lt_of_lt_of_le (by positivity) h)
  rw [clamp01, fle, fge, fle, isNaN_fZero, isNaN_fOne, value_fZero, value_fOne, if_neg (by simp [hn, h0]),
    if_pos (by simpa [hn] using h)]

theorem clamp01_between (a : Word) (hn : isNaN a = false) (h0 : 0 < value a) (h1 : value a < 2 ^ 149) :
    clamp01 a = a := by
  rw [clamp01, fle, fge, fle, isNaN_fZero, isNaN_fOne, value_fZero, value_fOne, if_neg (by simpa [hn] using h0),
    if_neg (by simpa [hn] using h1)]

theorem unitLevel_clamp01 (a : Word) : UnitLevel (clamp01 a) := by
  by_cases hlow : isNaN a = true ∨ value a ≤ 0
  · rw [clamp01_low a hlow]
    exact ⟨isNaN_fZero, value_fZero.ge, value_fZero.trans_le (by positivity)⟩
  · rw [not_or, Bool.not_eq_true, not_le] at hlow
    obtain ⟨hn, h0⟩ := hlow
    by_cases h1 : value a < 2 ^ 149
    · rw [clamp01_between a hn h0 h1]
      exact ⟨hn, h0.le, h1.le⟩
    · rw [clamp01_high a hn (not_lt.1 h1)]
      exact ⟨isNaN_fOne, (by positivity : (0 : Int) ≤ 2 ^ 149).trans_eq value_fOne.symm, value_fOne.le⟩

/-- Settles O12. -/
theorem integersAndClamp : Obligations.IntegersAndClamp :=
  ⟨i2f_exact, fun a => ⟨clamp01_low a, clamp01_high a, clamp01_between a, unitLevel_clamp01 a⟩⟩

end Sys2Proof.Machine
end

