-- ==== Sys2Proof/Proofs/Root.lean ====
section
/-! The square root (O10). The model rounds the integer root with half a unit added where the root is not exact; both lie
between the same two integers, and so, where every point halfway between two magnitudes is an integer, they round alike. -/

namespace Sys2Proof.Machine

open Sys2Proof

-- One proof is elaborated after another here: each thread at work takes its share of the check's memory limit.
set_option Elab.async false

/-- The bit search keeps the root below and closes in from above. -/
theorem isqrtFrom_spec (n k : Nat) : ∀ r, r * r ≤ n → n < (r + 2 ^ k) * (r + 2 ^ k) →
    isqrtFrom n k r * isqrtFrom n k r ≤ n ∧ n < (isqrtFrom n k r + 1) * (isqrtFrom n k r + 1) := by
  induction k with
  | zero => intro r hlo hhi; exact ⟨hlo, hhi⟩
  | succ k ih =>
    intro r hlo hhi
    rw [isqrtFrom]
    by_cases hc : (r + 2 ^ k) * (r + 2 ^ k) ≤ n
    · rw [if_pos hc]
      refine ih _ hc ?_
      rwa [add_assoc, ← two_mul, ← pow_succ']
    · rw [if_neg hc]
      exact ih r hlo (not_le.1 hc)

theorem isqrt_spec (n : Nat) (h : n < 2 ^ 512) : isqrt n * isqrt n ≤ n ∧ n < (isqrt n + 1) * (isqrt n + 1) := by
  refine isqrtFrom_spec n 256 0 (Nat.zero_le _) ?_
  exact h.trans_eq (by rw [Nat.zero_add]; exact pow_add 2 256 256)

/-- From the second binade of normal numbers on, every magnitude is an even number of units. -/
theorem even_unitsOfMag (m : Nat) (h : 2 ^ 24 ≤ m) : ∃ k, unitsOfMag m = 2 * k := by
  obtain ⟨e, he⟩ : ∃ e, m / 2 ^ 23 = e + 2 := ⟨m / 2 ^ 23 - 2, by omega⟩
  refine ⟨(2 ^ 23 + m % 2 ^ 23) * 2 ^ e, ?_⟩
  rw [unitsOfMag, he, if_neg (by omega), show e + 2 - 1 = e + 1 by omega, pow_succ]
  ring

/-- What lies strictly between the integers `q` and `q + 1`, for a large `q`, rounds as `q + 1/2` does. -/
theorem roundsTo_between_integers (q : Nat) (x : ℝ) (hq : 2 ^ 25 ≤ q) (h1 : (q : ℝ) < x) (h2 : x < q + 1)
    (hfin : rndMag (2 * q + 1) 2 < infBits) : RoundsTo (rndMag (2 * q + 1) 2) x := by
  have hr := rndMag_roundsTo (2 * q + 1) 2 (by norm_num) hfin
  have hlow : 2 ^ 24 + 1 ≤ rndMag (2 * q + 1) 2 := by
    refine le_rndMag_of_le _ _ _ (by norm_num) (by decide) ?_
    rw [show unitsOfMag (2 ^ 24 + 1) = 2 ^ 24 + 2 by decide +kernel]
    omega
  generalize rndMag (2 * q + 1) 2 = p at hr hlow
  have hmid : 2 * (((2 * q + 1 : Nat) : ℝ) / (2 : Nat)) = (2 * q + 1 : Nat) := by push_cast; ring
  obtain ⟨a, ha⟩ := even_unitsOfMag p (by omega)
  obtain ⟨b, hb⟩ := even_unitsOfMag (p + 1) (by omega)
  have above : 2 * (q + 1) ≤ unitsOfMag p + unitsOfMag (p + 1) := by
    have h := hr.above (p + 1) (by omega)
    rw [hmid] at h
    have : 2 * q + 1 ≤ unitsOfMag p + unitsOfMag (p + 1) := by exact_mod_cast h
    omega
  have below : ∀ s, s + 1 = p → unitsOfMag s + unitsOfMag p ≤ 2 * q := by
    intro s hs
    obtain ⟨c, hc⟩ := even_unitsOfMag s (by omega)
    have h := hr.below s (by omega)
    rw [hmid] at h
    have : unitsOfMag p + unitsOfMag s ≤ 2 * q + 1 := by exact_mod_cast h
    omega
  have above' : 2 * ((q : ℝ) + 1) ≤ unitsOfMag p + unitsOfMag (p + 1) := by exact_mod_cast above
  have below' : ∀ s, s + 1 = p → (unitsOfMag s + unitsOfMag p : ℝ) ≤ 2 * q := fun s hs => by exact_mod_cast below s hs
  refine .of_neighbours (by linarith) (fun s hs => by linarith [below' s hs]) (fun he => ?_) (fun s hs he => ?_)
  · linarith
  · linarith [below' s hs]

/-- The root that the model rounds: twice the integer root, and one more where the root is not exact. -/
theorem roundsTo_sqrt (n q : Nat) (hq : 2 ^ 25 ≤ q) (hlo : q * q ≤ n) (hhi : n < (q + 1) * (q + 1))
    (hfin : rndMag (2 * q + (if q * q = n then 0 else 1)) 2 < infBits) :
    RoundsTo (rndMag (2 * q + (if q * q = n then 0 else 1)) 2) (Real.sqrt n) := by
  by_cases hsq : q * q = n
  · have hr := rndMag_roundsTo _ 2 (by norm_num) hfin
    rw [if_pos hsq, add_zero] at hr ⊢
    rw [← hsq, Nat.cast_mul, Real.sqrt_mul_self (Nat.cast_nonneg q)]
    rwa [Nat.cast_mul, mul_div_cancel_left₀ _ (by norm_num)] at hr
  · rw [if_neg hsq] at hfin ⊢
    have hlt : q * q < n := lt_of_le_of_ne hlo hsq
    refine roundsTo_between_integers q _ hq ?_ ?_ hfin
    · exact Real.lt_sqrt_of_sq_lt (by rw [sq]; exact_mod_cast hlt)
    · rw [Real.sqrt_lt' (by positivity), sq]
      exact_mod_cast hhi

theorem fsqrt_positive (a : Word) (hfin : isFinite a = true) (h : 0 < value a) :
    fsqrt a = pack false (rndMag (2 * isqrt (units a * 2 ^ 149) +
      (if isqrt (units a * 2 ^ 149) * isqrt (units a * 2 ^ 149) = units a * 2 ^ 149 then 0 else 1)) 2) := by
  have hs : signBit a = false := by
    by_contra hs
    rw [value_eq, if_pos (by simpa using hs)] at h
    omega
  simp [fsqrt, isNaN_of_isFinite a hfin, isInf_of_isFinite a hfin, hs, units_ne_zero_of_value_ne_zero a h.ne']

/-- The root of a positive finite word is the rounding of the exact root. -/
theorem fsqrt_roundsTo (a : Word) (hfin : isFinite a = true) (h : 0 < value a) :
    ∃ p, p < infBits ∧ fsqrt a = pack false p ∧ RoundsTo p (Real.sqrt (value a * 2 ^ 149)) := by
  have hu0 : 0 < units a := Nat.pos_of_ne_zero (units_ne_zero_of_value_ne_zero a h.ne')
  have hval : (value a : ℝ) * 2 ^ 149 = ((units a * 2 ^ 149 : Nat) : ℝ) := by
    have hv : value a = units a := by rw [← natAbs_value]; omega
    rw [hv, Nat.cast_mul, Nat.cast_pow, Nat.cast_ofNat, Int.cast_natCast]
  have hlt : units a * 2 ^ 149 < 2 ^ 426 :=
    calc units a * 2 ^ 149 < 2 ^ 277 * 2 ^ 149 := Nat.mul_lt_mul_of_pos_right (units_lt_of_isFinite a hfin) (Nat.two_pow_pos _)
      _ = 2 ^ 426 := (pow_add 2 277 149).symm
  have hge : 2 ^ 149 ≤ units a * 2 ^ 149 := Nat.le_mul_of_pos_left _ hu0
  rw [hval, fsqrt_positive a hfin h]
  generalize units a * 2 ^ 149 = n at hlt hge
  obtain ⟨hlo, hhi⟩ := isqrt_spec n (hlt.trans_le (Nat.pow_le_pow_right (by norm_num) (by norm_num)))
  generalize isqrt n = q at hlo hhi
  have hq1 : 2 ^ 25 ≤ q := by
    by_contra hc
    have hle : (q + 1) * (q + 1) ≤ 2 ^ 25 * 2 ^ 25 := Nat.mul_le_mul (by omega) (by omega)
    have : (2 : Nat) ^ 25 * 2 ^ 25 ≤ 2 ^ 149 := by norm_num
    omega
  have hq2 : q < 2 ^ 213 := by
    by_contra hc
    have hle : 2 ^ 213 * 2 ^ 213 ≤ q * q := Nat.mul_le_mul (not_lt.1 hc) (not_lt.1 hc)
    rw [← pow_add] at hle
    exact absurd (hle.trans hlo) (not_le.2 hlt)
  have hfin' : rndMag (2 * q + (if q * q = n then 0 else 1)) 2 < infBits := by
    rw [rndMag_lt_infBits_iff _ _ (by norm_num)]
    have hb : 2 ^ 213 < 2 ^ 277 - 2 ^ 252 := by decide +kernel
    generalize 2 ^ 277 - 2 ^ 252 = t at hb ⊢
    split <;> omega
  exact ⟨_, hfin', rfl, roundsTo_sqrt n q hq1 hlo hhi hfin'⟩

/-- Settles O10: a root is a packed rounding, to which no word is nearer. -/
theorem rootRoundsToNearest : Obligations.RootRoundsToNearest := by
  intro a w hfin h _
  obtain ⟨p, hp, heq, hr⟩ := fsqrt_roundsTo a hfin h
  rw [heq]
  exact ⟨(isFinite_pack _ _ (hp.trans infBits_lt)).2 hp,
    hr.pack_nearest (Real.sqrt_nonneg _) (hp.trans infBits_lt) false w⟩

end Sys2Proof.Machine
end

