-- ==== Sys2Proof/Proofs/LevelBounds.lean ====
section
/-! The bounds of the level (first half of O41): the model's partial sums of the series of `atanh` enclose the logarithms
they stand for, and with them the two rationals enclose the real of R408. -/

namespace Sys2Proof.Machine

open Sys2Proof

-- One proof is elaborated after another here: each thread at work takes its share of the check's memory limit.
set_option Elab.async false

/-! ### The series of `atanh`, summed with and without rounding down -/

/-- `atanhTerms` without the rounding: the terms from the `i`-th on, where `P` is `z^(2i+1)` at the scale and `t = z^2`. -/
noncomputable def atanhSum (t : ℝ) : Nat → Nat → ℝ → ℝ
  | 0, _, _ => 0
  | k + 1, i, P => P / (2 * i + 1 : ℕ) + atanhSum t k (i + 1) (P * t)

theorem atanhSum_eq_sum (t : ℝ) (k : Nat) : ∀ (i : Nat) (P : ℝ),
    atanhSum t k i P = ∑ j ∈ Finset.range k, P * t ^ j / (2 * (i + j) + 1 : ℕ) := by
  induction k with
  | zero => intro i P; rfl
  | succ k ih =>
    intro i P
    rw [atanhSum, ih, Finset.sum_range_succ', add_comm]
    congr 1
    · refine Finset.sum_congr rfl fun j _ => ?_
      rw [pow_succ', mul_assoc, add_right_comm i 1 j, add_assoc i j 1]
    · rw [pow_zero, mul_one, add_zero]

/-- Rounding down only loses. -/
theorem atanhTerms_le (a2 b2 k : Nat) : ∀ (i p : Nat) (P : ℝ), (p : ℝ) ≤ P →
    (atanhTerms a2 b2 k i p : ℝ) ≤ atanhSum (a2 / b2) k i P := by
  induction k with
  | zero => intro i p P _; simp [atanhTerms, atanhSum]
  | succ k ih =>
    intro i p P h
    rw [atanhTerms, atanhSum, Nat.cast_add]
    have hnext : ((p * a2 / b2 : ℕ) : ℝ) ≤ P * (a2 / b2) := by
      refine Nat.cast_div_le.trans ?_
      rw [Nat.cast_mul, mul_div_assoc]
      exact mul_le_mul_of_nonneg_right h (by positivity)
    have hterm : ((p / (2 * i + 1) : ℕ) : ℝ) ≤ P / (2 * i + 1 : ℕ) :=
      Nat.cast_div_le.trans (div_le_div_of_nonneg_right h (Nat.cast_nonneg _))
    exact add_le_add hterm (ih _ _ _ hnext)

/-- It loses under 3 for each term: the powers are short by at most 2, as `t ≤ 1/9` shrinks what the earlier roundings
lost, and each quotient by at most 1 more. -/
theorem atanhSum_le (a2 b2 k : Nat) (ht : (a2 / b2 : ℝ) ≤ 1 / 9) : ∀ (i p : Nat) (P : ℝ), P ≤ p + 2 →
    atanhSum (a2 / b2) k i P ≤ atanhTerms a2 b2 k i p + 3 * k := by
  have h0 : (0 : ℝ) ≤ a2 / b2 := by positivity
  induction k with
  | zero => intro i p P _; simp [atanhTerms, atanhSum]
  | succ k ih =>
    intro i p P h
    rw [atanhTerms, atanhSum]
    have hnext : P * (a2 / b2) ≤ ((p * a2 / b2 : ℕ) : ℝ) + 2 := by
      have hfloor : (p : ℝ) * (a2 / b2) ≤ ((p * a2 / b2 : ℕ) : ℝ) + 1 := by
        rw [← mul_div_assoc, ← Nat.cast_mul, ← Nat.floor_div_eq_div (K := ℝ)]
        exact (Nat.lt_floor_add_one _).le
      have hP : P * (a2 / b2) ≤ (p + 2) * (a2 / b2) := mul_le_mul_of_nonneg_right h h0
      linarith
    have hterm : P / (2 * i + 1 : ℕ) ≤ ((p / (2 * i + 1) : ℕ) : ℝ) + 3 := by
      have hfloor : (p : ℝ) / (2 * i + 1 : ℕ) ≤ ((p / (2 * i + 1) : ℕ) : ℝ) + 1 := by
        rw [← Nat.floor_div_eq_div (K := ℝ)]
        exact (Nat.lt_floor_add_one _).le
      have hP : P / (2 * i + 1 : ℕ) ≤ (p + 2) / (2 * i + 1 : ℕ) := div_le_div_of_nonneg_right h (Nat.cast_nonneg _)
      have h2 : (2 : ℝ) / (2 * i + 1 : ℕ) ≤ 2 := div_le_self (by norm_num) (by exact_mod_cast Nat.le_add_left 1 _)
      rw [add_div] at hP
      linarith
    have := ih (i + 1) _ _ hnext
    push_cast
    push_cast at hterm
    linarith

/-! ### The bounds of `atanh` -/

/-- Twice `atanh (a / b)`. -/
noncomputable def logRatio (a b : Nat) : ℝ := Real.log (1 + a / b) - Real.log (1 - a / b)

/-- The terms of the series of `2 atanh z`. -/
noncomputable def seriesTerm (z : ℝ) (j : Nat) : ℝ := 2 * (1 / (2 * j + 1)) * z ^ (2 * j + 1)

theorem seriesTerm_nonneg (z : ℝ) (hz : 0 ≤ z) (j : Nat) : 0 ≤ seriesTerm z j := by
  unfold seriesTerm; positivity

theorem seriesTerm_hasSum (z : ℝ) (hz : 0 ≤ z) (hz3 : z ≤ 1 / 3) :
    HasSum (seriesTerm z) (Real.log (1 + z) - Real.log (1 - z)) :=
  Real.hasSum_log_sub_log_of_abs_lt_one (by rw [abs_of_nonneg hz]; linarith)

/-- The terms from the 90-th on lie below a geometric series. -/
theorem seriesTerm_tail_le (z : ℝ) (hz : 0 ≤ z) (hz3 : z ≤ 1 / 3) (j : Nat) :
    seriesTerm z (j + 90) ≤ 2 * (1 / 3) ^ 181 * (1 / 9) ^ j := by
  have hpow : z ^ (2 * (j + 90) + 1) ≤ (1 / 3) ^ 181 * (1 / 9) ^ j := by
    calc z ^ (2 * (j + 90) + 1) ≤ (1 / 3) ^ (2 * (j + 90) + 1) := pow_le_pow_left₀ hz hz3 _
      _ = (1 / 3) ^ 181 * ((1 / 3) ^ 2) ^ j := by rw [← pow_mul, ← pow_add]; congr 1; ring
      _ = (1 / 3) ^ 181 * (1 / 9) ^ j := by norm_num
  have hcoef : 1 / (2 * ((j + 90 : ℕ) : ℝ) + 1) ≤ 1 := by
    rw [div_le_one (by positivity)]
    linarith [Nat.cast_nonneg (α := ℝ) (j + 90)]
  calc seriesTerm z (j + 90) ≤ 2 * 1 * ((1 / 3) ^ 181 * (1 / 9) ^ j) :=
        mul_le_mul (mul_le_mul_of_nonneg_left hcoef zero_le_two) hpow (pow_nonneg hz _) (by norm_num)
    _ = 2 * (1 / 3) ^ 181 * (1 / 9) ^ j := by ring

/-- What the terms from the 90-th on add, at the scale, is under 3 units. -/
theorem series_rest_le (z : ℝ) (hz : 0 ≤ z) (hz3 : z ≤ 1 / 3) :
    logScale * (Real.log (1 + z) - Real.log (1 - z) - ∑ j ∈ Finset.range 90, seriesTerm z j) ≤ 3 := by
  have hrest := (hasSum_nat_add_iff' 90).2 (seriesTerm_hasSum z hz hz3)
  have hgeo := (hasSum_geometric_of_lt_one (r := (1 / 9 : ℝ)) (by norm_num) (by norm_num)).mul_left (2 * (1 / 3) ^ 181)
  have hle := hasSum_le (seriesTerm_tail_le z hz hz3) hrest hgeo
  refine (mul_le_mul_of_nonneg_left hle (Nat.cast_nonneg _)).trans ?_
  norm_num [logScale]

/-- The first 90 terms of the series, and what the others can add, at the scale. -/
theorem logRatio_series_bounds (a b : Nat) (hb : 0 < b) (h : 3 * a ≤ b) :
    2 * atanhSum ((a * a : ℕ) / (b * b : ℕ)) 90 0 (logScale * (a / b)) ≤ logScale * logRatio a b ∧
    logScale * logRatio a b ≤ 2 * atanhSum ((a * a : ℕ) / (b * b : ℕ)) 90 0 (logScale * (a / b)) + 3 := by
  have hb' : (0 : ℝ) < b := by exact_mod_cast hb
  obtain ⟨z, hz⟩ : ∃ z : ℝ, z = a / b := ⟨_, rfl⟩
  have hz0 : 0 ≤ z := by rw [hz]; positivity
  have hz3 : z ≤ 1 / 3 := by
    rw [hz, div_le_iff₀ hb']
    have : (3 * a : ℝ) ≤ b := by exact_mod_cast h
    linarith
  have hpartial : 2 * atanhSum ((a * a : ℕ) / (b * b : ℕ)) 90 0 (logScale * (a / b)) =
      logScale * ∑ j ∈ Finset.range 90, seriesTerm z j := by
    rw [atanhSum_eq_sum, Finset.mul_sum, Finset.mul_sum]
    refine Finset.sum_congr rfl fun j _ => ?_
    rw [Nat.cast_mul, Nat.cast_mul, ← div_mul_div_comm, ← hz, ← sq, ← pow_mul, seriesTerm, pow_succ]
    push_cast
    ring
  rw [hpartial, logRatio, ← hz]
  constructor
  · exact mul_le_mul_of_nonneg_left
      (sum_le_hasSum _ (fun j _ => seriesTerm_nonneg z hz0 j) (seriesTerm_hasSum z hz0 hz3)) (Nat.cast_nonneg _)
  · have := series_rest_le z hz0 hz3
    rw [mul_sub] at this
    linarith

theorem atanhLo_le (a b : Nat) (hb : 0 < b) (h : 3 * a ≤ b) : 2 * (atanhLo a b : ℝ) ≤ logScale * logRatio a b := by
  have hstart : ((logScale * a / b : ℕ) : ℝ) ≤ logScale * (a / b) := by
    rw [← mul_div_assoc, ← Nat.cast_mul]; exact Nat.cast_div_le
  have := atanhTerms_le (a * a) (b * b) 90 0 _ _ hstart
  rw [atanhLo]
  linarith [(logRatio_series_bounds a b hb h).1]

theorem le_atanhHi (a b : Nat) (hb : 0 < b) (h : 3 * a ≤ b) : logScale * logRatio a b ≤ 2 * (atanhHi a b : ℝ) := by
  have hb' : (0 : ℝ) < b := by exact_mod_cast hb
  have hstart : (logScale : ℝ) * (a / b) ≤ ((logScale * a / b : ℕ) : ℝ) + 2 := by
    rw [← mul_div_assoc, ← Nat.cast_mul, ← Nat.floor_div_eq_div (K := ℝ)]
    linarith [Nat.lt_floor_add_one (((logScale * a : ℕ) : ℝ) / b)]
  have ht : (((a * a : ℕ) : ℝ) / (b * b : ℕ)) ≤ 1 / 9 := by
    rw [div_le_div_iff₀ (by exact_mod_cast Nat.mul_pos hb hb) (by norm_num)]
    have : 3 * a * (3 * a) ≤ b * b := Nat.mul_le_mul h h
    exact_mod_cast (by linarith : a * a * 9 ≤ 1 * (b * b))
  have := atanhSum_le (a * a) (b * b) 90 ht 0 _ _ hstart
  rw [atanhHi, atanhLo, atanhSlack, Nat.cast_add]
  push_cast at this ⊢
  have hs := (logRatio_series_bounds a b hb h).2
  push_cast at hs
  linarith

/-! ### The logarithms of 2, of 10 and of the ratio of a magnitude to 2048 -/

theorem logRatio_eq (a b : Nat) (h : a < b) : logRatio a b = Real.log ((b + a) / (b - a)) := by
  have hb : (0 : ℝ) < b := by exact_mod_cast Nat.zero_lt_of_lt h
  have hab : (a : ℝ) < b := by exact_mod_cast h
  have hlt : (a : ℝ) / b < 1 := (div_lt_one hb).2 hab
  rw [logRatio, ← Real.log_div (by positivity) (by linarith)]
  congr 1
  have : (b : ℝ) - a ≠ 0 := by linarith
  field_simp

theorem ln2_bounds : (ln2Lo : ℝ) ≤ logScale * Real.log 2 ∧ logScale * Real.log 2 ≤ ln2Hi := by
  have h2 : logRatio 1 3 = Real.log 2 := by rw [logRatio_eq 1 3 (by norm_num)]; norm_num
  have hlo := atanhLo_le 1 3 (by norm_num) (by norm_num)
  have hhi := le_atanhHi 1 3 (by norm_num) (by norm_num)
  rw [h2] at hlo hhi
  rw [ln2Lo, ln2Hi]
  push_cast
  exact ⟨hlo, hhi⟩

theorem ln10_bounds : (ln10Lo : ℝ) ≤ logScale * Real.log 10 ∧ logScale * Real.log 10 ≤ ln10Hi := by
  have h10 : Real.log 10 = 3 * Real.log 2 + logRatio 1 9 := by
    rw [logRatio_eq 1 9 (by norm_num), show (3 : ℝ) * Real.log 2 = Real.log (2 ^ 3) by rw [Real.log_pow]; norm_num,
      ← Real.log_mul (by norm_num) (by norm_num)]
    norm_num
  have hlo := atanhLo_le 1 9 (by norm_num) (by norm_num)
  have hhi := le_atanhHi 1 9 (by norm_num) (by norm_num)
  obtain ⟨h2lo, h2hi⟩ := ln2_bounds
  rw [ln10Lo, ln10Hi, h10]
  push_cast
  constructor <;> linarith

theorem ln10Lo_pos : 0 < ln10Lo := by decide +kernel

/-- A difference of naturals, cut at 0, stays below every real from 0 on that the difference stays below. -/
theorem natSub_cast_le {A B : Nat} {x : ℝ} (h : (A : ℝ) - B ≤ x) (hx : 0 ≤ x) : ((A - B : ℕ) : ℝ) ≤ x := by
  rcases le_total B A with hBA | hAB
  · rwa [Nat.cast_sub hBA]
  · rwa [Nat.sub_eq_zero_of_le hAB, Nat.cast_zero]

theorem le_natSub_cast (A B : Nat) : (A : ℝ) - B ≤ ((A - B : ℕ) : ℝ) := by
  rw [sub_le_iff_le_add]
  exact_mod_cast (le_tsub_add : A ≤ A - B + B)

/-- `-ln (n / 2^160)`, the drop of a magnitude of `n` units below 2048. -/
noncomputable def drop (n : Nat) : ℝ := -Real.log (n / 2 ^ 160)

/-- The drop, from the leading bit of `n` and what stands below it. -/
theorem drop_eq (n : Nat) (h0 : n ≠ 0) (hn : n < 2 ^ 160) :
    drop n = (160 - Nat.log2 n : ℕ) * Real.log 2 - logRatio (n - 2 ^ Nat.log2 n) (n + 2 ^ Nat.log2 n) := by
  have hk : Nat.log2 n ≤ 160 := ((Nat.log2_lt h0).2 hn).le
  have hlo : 2 ^ Nat.log2 n ≤ n := Nat.log2_self_le h0
  generalize Nat.log2 n = k at *
  have hn' : (0 : ℝ) < n := by exact_mod_cast Nat.pos_of_ne_zero h0
  have hp : (0 : ℝ) < 2 ^ k := by positivity
  have hlt : n - 2 ^ k < n + 2 ^ k := by have := Nat.two_pow_pos k; omega
  have hquot : (((n + 2 ^ k : ℕ) : ℝ) + (n - 2 ^ k : ℕ)) / ((n + 2 ^ k : ℕ) - (n - 2 ^ k : ℕ)) = n / 2 ^ k := by
    rw [Nat.cast_sub hlo]
    push_cast
    rw [show (n : ℝ) + 2 ^ k + (n - 2 ^ k) = 2 * n by ring, show (n : ℝ) + 2 ^ k - (n - 2 ^ k) = 2 * 2 ^ k by ring,
      mul_div_mul_left _ _ (by norm_num)]
  rw [logRatio_eq _ _ hlt, hquot, drop, Real.log_div hn'.ne' (by positivity), Real.log_div hn'.ne' hp.ne', Real.log_pow,
    Real.log_pow, Nat.cast_sub hk]
  push_cast
  ring

theorem drop_nonneg (n : Nat) (hn : n < 2 ^ 160) : 0 ≤ drop n := by
  have : (n : ℝ) / 2 ^ 160 ≤ 1 := by
    rw [div_le_one (by positivity)]; exact_mod_cast hn.le
  exact neg_nonneg.2 (Real.log_nonpos (by positivity) this)

theorem drop_bounds (n : Nat) (h0 : n ≠ 0) (hn : n < 2 ^ 160) :
    (dropLo n : ℝ) ≤ logScale * drop n ∧ logScale * drop n ≤ dropHi n := by
  have hlo : 2 ^ Nat.log2 n ≤ n := Nat.log2_self_le h0
  have hhi : n < 2 ^ (Nat.log2 n + 1) := Nat.lt_log2_self
  have h3 : 3 * (n - 2 ^ Nat.log2 n) ≤ n + 2 ^ Nat.log2 n := by rw [pow_succ] at hhi; omega
  have hpos : 0 < n + 2 ^ Nat.log2 n := by omega
  have hdrop := drop_eq n h0 hn
  have hz1 := atanhLo_le _ _ hpos h3
  have hz2 := le_atanhHi _ _ hpos h3
  obtain ⟨h2lo, h2hi⟩ := ln2_bounds
  have hm : (0 : ℝ) ≤ (160 - Nat.log2 n : ℕ) := Nat.cast_nonneg _
  have hmlo := mul_le_mul_of_nonneg_left h2lo hm
  have hmhi := mul_le_mul_of_nonneg_left h2hi hm
  have hscaled : logScale * drop n = (160 - Nat.log2 n : ℕ) * (logScale * Real.log 2) -
      logScale * logRatio (n - 2 ^ Nat.log2 n) (n + 2 ^ Nat.log2 n) := by rw [hdrop]; ring
  constructor
  · refine natSub_cast_le ?_ (mul_nonneg (Nat.cast_nonneg _) (drop_nonneg n hn))
    rw [Nat.cast_mul, Nat.cast_mul 2, Nat.cast_ofNat]
    linarith
  · refine le_trans ?_ (le_natSub_cast _ _)
    rw [Nat.cast_mul, Nat.cast_mul 2, Nat.cast_ofNat]
    linarith

/-! ### The two rationals enclose the level -/

theorem levelReal_mul_log (n : Nat) : levelReal n * (5 * Real.log 10) = 5 * Real.log 10 - drop n := by
  have h10 : Real.log 10 ≠ 0 := (Real.log_pos (by norm_num)).ne'
  rw [levelReal, drop, Real.logb]
  field_simp
  ring

theorem levelReal_pos (n : Nat) (h : 2 ^ 160 < n * 10 ^ 5) : 0 < levelReal n := by
  have hn : 0 < n := Nat.pos_of_ne_zero (by rintro rfl; simp at h)
  have := (lt_levelReal_iff n 0 1 hn one_pos (Nat.zero_le _)).2 (by simpa using h)
  simpa using this

theorem levelReal_lt_one (n : Nat) (h0 : 0 < n) (h : n < 2 ^ 160) : levelReal n < 1 := by
  have := (levelReal_lt_iff n 1 1 h0 one_pos le_rfl).2 (by simpa using h)
  simpa using this

theorem lowerBound_le_levelReal (n : Nat) (h : 2 ^ 160 < n * 10 ^ 5) (hn : n < 2 ^ 160) :
    ((5 * ln10Lo - dropHi n : ℕ) : ℝ) / (5 * ln10Hi : ℕ) ≤ levelReal n := by
  have h0 : n ≠ 0 := by rintro rfl; simp at h
  have hx := (levelReal_pos n h).le
  obtain ⟨hlo, hhi⟩ := ln10_bounds
  have hd := (drop_bounds n h0 hn).2
  refine div_le_of_le_mul₀ (Nat.cast_nonneg _) hx (natSub_cast_le ?_ (mul_nonneg hx (Nat.cast_nonneg _)))
  have hmono : levelReal n * (logScale * Real.log 10) ≤ levelReal n * ln10Hi := mul_le_mul_of_nonneg_left hhi hx
  have heq : 5 * (levelReal n * (logScale * Real.log 10)) = 5 * (logScale * Real.log 10) - logScale * drop n := by
    linear_combination (logScale : ℝ) * levelReal_mul_log n
  push_cast
  linarith

theorem levelReal_le_upperBound (n : Nat) (h : 2 ^ 160 < n * 10 ^ 5) (hn : n < 2 ^ 160) :
    levelReal n ≤ ((5 * ln10Hi - dropLo n : ℕ) : ℝ) / (5 * ln10Lo : ℕ) := by
  have h0 : n ≠ 0 := by rintro rfl; simp at h
  have hx := (levelReal_pos n h).le
  obtain ⟨hlo, hhi⟩ := ln10_bounds
  have hd := (drop_bounds n h0 hn).1
  have hpos : (0 : ℝ) < (5 * ln10Lo : ℕ) := by exact_mod_cast Nat.mul_pos (by norm_num) ln10Lo_pos
  rw [le_div_iff₀ hpos]
  refine le_trans ?_ (le_natSub_cast _ _)
  have hmono : levelReal n * ln10Lo ≤ levelReal n * (logScale * Real.log 10) := mul_le_mul_of_nonneg_left hlo hx
  have heq : 5 * (levelReal n * (logScale * Real.log 10)) = 5 * (logScale * Real.log 10) - logScale * drop n := by
    linear_combination (logScale : ℝ) * levelReal_mul_log n
  push_cast
  linarith

end Sys2Proof.Machine
end

