-- ==== Sys2Proof/Proofs/LevelRounding.lean ====
section
/-! The level is the rounding of R408's real (second half of O41): where the two enclosing rationals round alike, because
what rounds to one magnitude is an interval; elsewhere, because the search finds the first magnitude that the real does not
round above. -/

namespace Sys2Proof.Machine

open Sys2Proof

-- One proof is elaborated after another here: each thread at work takes its share of the check's memory limit.
set_option Elab.async false

/-- The real of R408 in units. -/
noncomputable def levelUnits (n : Nat) : ℝ := levelReal n * 2 ^ 149

/-- The pattern of 1. -/
theorem unitsOfMag_one_lt : 0x3F800000 < infBits := by decide

/-! ### Where the bounds round alike -/

theorem roundsTo_levelUnits_of_bounds (n : Nat) (h : 2 ^ 160 < n * 10 ^ 5) (hn : n < 2 ^ 160)
    (heq : levelLo n = levelHi n) :
    ∃ p, p < infBits ∧ levelLo n = pack false p ∧ RoundsTo p (levelUnits n) := by
  have hn0 : 0 < n := Nat.pos_of_ne_zero (by rintro rfl; simp at h)
  have hlo := lowerBound_le_levelReal n h hn
  have hhi := levelReal_le_upperBound n h hn
  have hone := levelReal_lt_one n hn0 hn
  have hd1 : 0 < 5 * ln10Hi := Nat.pos_of_ne_zero fun h0 => by
    have hpos : (0 : ℝ) < ln10Lo := by exact_mod_cast ln10Lo_pos
    have hhi0 : (ln10Hi : ℝ) = 0 := by exact_mod_cast (by omega : ln10Hi = 0)
    linarith [ln10_bounds.1, ln10_bounds.2]
  have hd2 : 0 < 5 * ln10Lo := Nat.mul_pos (by norm_num) ln10Lo_pos
  unfold levelLo levelHi at heq
  unfold levelLo
  generalize 5 * ln10Lo - dropHi n = a at *
  generalize 5 * ln10Hi - dropLo n = b at *
  generalize 5 * ln10Hi = c at *
  generalize 5 * ln10Lo = d at *
  have hscale : ∀ x y : Nat, ((x * 2 ^ 149 : ℕ) : ℝ) / y = (x : ℝ) / y * 2 ^ 149 := fun x y => by push_cast; ring
  have hp : rndMag (a * 2 ^ 149) c = rndMag (b * 2 ^ 149) d :=
    pack_injective false _ _ (rndMag_lt _ _) (rndMag_lt _ _) heq
  have hle : rndMag (a * 2 ^ 149) c ≤ 0x3F800000 := by
    refine rndMag_le_of_le _ _ _ hd1 ?_
    have hc : (0 : ℝ) < c := by exact_mod_cast hd1
    have hac : a ≤ c := by exact_mod_cast ((div_le_one hc).1 (hlo.trans hone.le))
    rw [unitsOfMag_one, Nat.mul_comm]
    exact Nat.mul_le_mul_left _ hac
  have hfin := hle.trans_lt unitsOfMag_one_lt
  have hr1 := rndMag_roundsTo _ _ hd1 hfin
  have hr2 := rndMag_roundsTo _ _ hd2 (hp ▸ hfin)
  rw [hscale] at hr1 hr2
  rw [← hp] at hr2
  exact ⟨_, hfin, rfl, hr1.of_between hr2 (mul_le_mul_of_nonneg_right hlo (by positivity))
    (mul_le_mul_of_nonneg_right hhi (by positivity))⟩

/-! ### The search for the first magnitude that the real does not round above -/

/-- The real `x` units rounds above the magnitude `p`: it is past the point halfway to the next one, or at it where `p` is
odd. -/
def RoundsAbove (x : ℝ) (p : Nat) : Prop :=
  (unitsOfMag p + unitsOfMag (p + 1) : ℝ) < 2 * x ∨ ((unitsOfMag p + unitsOfMag (p + 1) : ℝ) = 2 * x ∧ p % 2 = 1)

theorem RoundsAbove.le {x : ℝ} {p : Nat} (h : RoundsAbove x p) : (unitsOfMag p + unitsOfMag (p + 1) : ℝ) ≤ 2 * x :=
  h.elim le_of_lt fun h => h.1.le

theorem RoundsAbove.of_le {x : ℝ} {p q : Nat} (hpq : p ≤ q) (h : RoundsAbove x q) : RoundsAbove x p := by
  rcases hpq.eq_or_lt with rfl | hlt
  · exact h
  · have h1 := unitsOfMag_cast_lt hlt
    have h2 := unitsOfMag_cast_lt (Nat.succ_lt_succ hlt)
    exact .inl (by linarith [h.le])

/-- A real rounds to the first magnitude that it does not round above. -/
theorem roundsTo_of_first {x : ℝ} {p : Nat} (hbelow : ∀ q, q < p → RoundsAbove x q) (hp : ¬ RoundsAbove x p) :
    RoundsTo p x := by
  rw [RoundsAbove, not_or, not_and] at hp
  obtain ⟨hle, htie⟩ := hp
  refine .of_neighbours (not_lt.1 hle) (fun q hq => ?_) (fun he => ?_) (fun q hq he => ?_)
  · subst hq
    exact (hbelow q (Nat.lt_succ_self q)).le
  · have := htie he.symm
    omega
  · subst hq
    obtain hlt | ⟨_, hodd⟩ := hbelow q (Nat.lt_succ_self q)
    · exact absurd he hlt.ne'
    · omega

/-- The search asks only below its bound. -/
theorem firstRefused_congr (f g : Nat → Bool) (k : Nat) :
    ∀ r, (∀ p, p < r + 2 ^ k → f p = g p) → firstRefused f k r = firstRefused g k r := by
  induction k with
  | zero => intro r _; rfl
  | succ k ih =>
    intro r h
    have hk := Nat.two_pow_pos k
    have hs : 2 ^ (k + 1) = 2 * 2 ^ k := pow_succ' 2 k
    rw [firstRefused, firstRefused, h _ (by omega)]
    split <;> exact ih _ fun p hp => h p (by omega)

/-! ### The integer comparisons say whether the real rounds above a magnitude -/

/-- From 1 on no quotient is below the real. -/
theorem levelAbove_iff_lt (n a b : Nat) (h0 : 0 < n) (hn : n < 2 ^ 160) (hb : 0 < b) :
    levelAbove n a b = true ↔ (a : ℝ) / b < levelReal n := by
  rcases le_or_gt a b with hab | hba
  · exact levelAbove_iff n a b h0 hb hab
  · have hb' : (0 : ℝ) < b := by exact_mod_cast hb
    have hge : (1 : ℝ) ≤ a / b := (one_le_div hb').2 (by exact_mod_cast hba.le)
    rw [levelAbove, decide_eq_true_eq, Nat.sub_eq_zero_of_le hba.le, Nat.mul_zero, pow_zero, Nat.mul_one, pow_mul]
    exact iff_of_false (Nat.pow_le_pow_left hn.le b).not_gt ((levelReal_lt_one n h0 hn).le.trans hge).not_gt

theorem levelAt_iff_eq (n a b : Nat) (h0 : 0 < n) (hn : n < 2 ^ 160) (hb : 0 < b) :
    levelAt n a b = true ↔ levelReal n = (a : ℝ) / b := by
  rcases le_or_gt a b with hab | hba
  · exact levelAt_iff n a b h0 hb hab
  · have hb' : (0 : ℝ) < b := by exact_mod_cast hb
    have hge : (1 : ℝ) ≤ a / b := (one_le_div hb').2 (by exact_mod_cast hba.le)
    rw [levelAt, decide_eq_true_eq, Nat.sub_eq_zero_of_le hba.le, Nat.mul_zero, pow_zero, Nat.mul_one, pow_mul]
    exact iff_of_false (Nat.pow_lt_pow_left hn hb.ne').ne' ((levelReal_lt_one n h0 hn).trans_le hge).ne

theorem levelRoundsAbove_iff (n p : Nat) (h0 : 0 < n) (hn : n < 2 ^ 160) (hp : p + 1 < 2 ^ 31) :
    levelRoundsAbove n p = true ↔ RoundsAbove (levelUnits n) p := by
  have hb : 0 < 2 ^ 150 := Nat.two_pow_pos 150
  have hb' : (((2 ^ 150 : ℕ)) : ℝ) = 2 * 2 ^ 149 := by rw [Nat.cast_pow, Nat.cast_ofNat, pow_succ']
  have hpos : (0 : ℝ) < ((2 ^ 150 : ℕ) : ℝ) := by exact_mod_cast hb
  have hx : 2 * levelUnits n = levelReal n * ((2 ^ 150 : ℕ) : ℝ) := by rw [hb', levelUnits]; ring
  rw [levelRoundsAbove, units_pack _ _ (by omega), units_pack _ _ hp]
  generalize 2 ^ 150 = b at hb hb' hpos hx ⊢
  rw [Bool.or_eq_true, Bool.and_eq_true, decide_eq_true_eq, levelAbove_iff_lt n _ b h0 hn hb,
    levelAt_iff_eq n _ b h0 hn hb, RoundsAbove, hx, div_lt_iff₀ hpos, eq_div_iff hpos.ne', Nat.cast_add, eq_comm]

theorem levelExact_roundsTo (n : Nat) (h0 : 0 < n) (hn : n < 2 ^ 160) :
    ∃ p, p < infBits ∧ levelExact n = pack false p ∧ RoundsTo p (levelUnits n) := by
  classical
  have hcongr : firstRefused (levelRoundsAbove n) 30 0 =
      firstRefused (fun p => decide (RoundsAbove (levelUnits n) p)) 30 0 := by
    refine firstRefused_congr _ _ 30 0 fun p hp => ?_
    rw [Bool.eq_iff_iff, decide_eq_true_eq]
    exact levelRoundsAbove_iff n p h0 hn (by omega)
  obtain ⟨-, -, hbelow, hrefused⟩ := firstRefused_spec (fun p => decide (RoundsAbove (levelUnits n) p))
    (fun p q hpq hq => decide_eq_true ((of_decide_eq_true hq).of_le hpq)) 30 0 (fun p hp => absurd hp (Nat.not_lt_zero p))
  rw [levelExact, hcongr]
  generalize firstRefused _ 30 0 = p at hbelow hrefused
  have hp : p ≤ 0x3F800000 := by
    by_contra hgt
    have hle := (of_decide_eq_true (hbelow _ (not_le.1 hgt))).le
    have hlt := unitsOfMag_cast_lt (Nat.lt_succ_self 0x3F800000)
    rw [unitsOfMag_one] at hle hlt
    have hx : levelUnits n < 2 ^ 149 := by
      rw [levelUnits]
      exact mul_lt_of_lt_one_left (by positivity) (levelReal_lt_one n h0 hn)
    push_cast at hle hlt
    linarith
  exact ⟨p, hp.trans_lt unitsOfMag_one_lt, rfl, roundsTo_of_first (fun q hq => of_decide_eq_true (hbelow q hq))
    (of_decide_eq_false (hrefused (by omega)))⟩

/-! ### The level of a magnitude between the clamps -/

theorem level_between (m : Word) (hfin : isFinite m = true) (h1 : 2 ^ 160 < units m * 10 ^ 5) (h2 : units m < 2 ^ 160) :
    level m = if levelLo (units m) = levelHi (units m) then levelLo (units m) else levelExact (units m) := by
  have h0 : units m ≠ 0 := by intro h; rw [h] at h1; simp at h1
  rw [level, if_neg (by simp [isNaN_of_isFinite m hfin, h0]), if_neg (by simp [isInf_of_isFinite m hfin]), levelOfUnits,
    levelAtFloor, levelAtTop, if_neg (by simpa using h1), if_neg (by simpa using h2)]

theorem level_roundsTo (m : Word) (hfin : isFinite m = true) (h1 : 2 ^ 160 < units m * 10 ^ 5) (h2 : units m < 2 ^ 160) :
    ∃ p, p < infBits ∧ level m = pack false p ∧ RoundsTo p (levelUnits (units m)) := by
  rw [level_between m hfin h1 h2]
  split
  · next heq => exact roundsTo_levelUnits_of_bounds _ h1 h2 heq
  · exact levelExact_roundsTo _ (Nat.pos_of_ne_zero (by intro h; rw [h] at h1; simp at h1)) h2

/-- Settles O41: the enclosure, and the level as a packed rounding. -/
theorem levelBoundsEncloseLogarithm : Obligations.LevelBoundsEncloseLogarithm := by
  refine ⟨fun n h hn => ⟨lowerBound_le_levelReal n h hn, levelReal_le_upperBound n h hn⟩, fun m w hfin h1 h2 _ => ?_⟩
  have hv : value m = units m := by rw [← natAbs_value]; omega
  rw [hv] at h1 h2 ⊢
  have h1' : 2 ^ 160 < units m * 10 ^ 5 := by exact_mod_cast h1
  have h2' : units m < 2 ^ 160 := by exact_mod_cast h2
  obtain ⟨p, hp, heq, hr⟩ := level_roundsTo m hfin h1' h2'
  have hx : 0 ≤ levelUnits (units m) := mul_nonneg (levelReal_pos _ h1').le (by positivity)
  have hlt := hp.trans infBits_lt
  rw [heq]
  exact ⟨hr.pack_nearest hx hlt false w, fun hw he => hr.pack_tie hx hlt false w hw he⟩

end Sys2Proof.Machine
end

