-- ==== Sys2Proof/Proofs/EnvelopeLevels.lean ====
section
/-! Numbers from 0 on and levels in [0, 1] under the operations, and with them the envelope of a voice (R262 to R265, R308):
a start and a sample leave levels and rates where `EnvOk` puts them. -/

namespace Sys2Proof.Machine

open Sys2Proof

-- One proof is elaborated after another here: each thread at work takes its share of the check's memory limit.
set_option Elab.async false

/-! ### Words from 0 on -/

theorem NonNeg.signBit_or {a : Word} (h : NonNeg a) : signBit a = false ∨ units a = 0 := by
  obtain ⟨-, h0⟩ := h
  rw [value_eq] at h0
  cases hs : signBit a
  · exact .inl rfl
  · rw [if_pos hs] at h0
    exact .inr (by omega)

theorem nonNeg_pack_false (mag : Nat) (h : mag ≤ infBits) : NonNeg (pack false mag) := by
  refine ⟨isNaN_pack _ _ h, ?_⟩
  rw [value_pack _ _ (h.trans_lt infBits_lt)]
  exact Int.natCast_nonneg _

theorem nonNeg_pack_zero (neg : Bool) : NonNeg (pack neg 0) :=
  ⟨isNaN_pack _ _ (Nat.zero_le _), (value_pack_zero neg).ge⟩

theorem nonNeg_fZero : NonNeg fZero := nonNeg_pack_zero false

theorem isFinite_or_isInf (a : Word) (h : isNaN a = false) : isFinite a = true ∨ isInf a = true := by
  simp only [isNaN, isFinite, isInf, Bool.and_eq_false_iff, Bool.and_eq_true, decide_eq_false_iff_not, decide_eq_true_eq,
    not_not] at *
  tauto

theorem signBit_of_value_pos (a : Word) (h : 0 < value a) : signBit a = false := by
  by_contra hs
  rw [value_eq, if_pos (by simpa using hs)] at h
  omega

theorem NonNeg.signBit_of_isInf {a : Word} (h : NonNeg a) (hi : isInf a = true) : signBit a = false :=
  h.signBit_or.resolve_right (units_ne_zero_of_isInf a hi)

/-- Two numbers from 0 on have a sum from 0 on: no infinities of two signs meet. -/
theorem nonNeg_fadd {a b : Word} (ha : NonNeg a) (hb : NonNeg b) : NonNeg (fadd a b) := by
  rcases isFinite_or_isInf a ha.1 with fa | ia <;> rcases isFinite_or_isInf b hb.1 with fb | ib
  · have hsum : 0 ≤ value a + value b := add_nonneg ha.2 hb.2
    rw [fadd_finite a b fa fb, decide_eq_false (not_lt.2 hsum)]
    split
    · split
      · exact nonNeg_pack_zero true
      · exact nonNeg_fZero
    · exact nonNeg_pack_false _ (rndMag_le _ _)
  · rwa [fadd_finite_inf a b fa ib]
  · rwa [fadd_inf_finite a b ia fb]
  · rwa [fadd_inf_inf a b ia ib, if_pos (by rw [ha.signBit_of_isInf ia, hb.signBit_of_isInf ib])]

/-- A finite number from 0 on over a number above 0. -/
theorem nonNeg_fdiv {a b : Word} (ha : NonNeg a) (fa : isFinite a = true) (hn : isNaN b = false) (hb : 0 < value b) :
    NonNeg (fdiv a b) := by
  rcases isFinite_or_isInf b hn with fb | ib
  · have hu : units b ≠ 0 := units_ne_zero_of_value_ne_zero b hb.ne'
    rw [fdiv_finite a b fa fb hu, signBit_of_value_pos b hb]
    rcases ha.signBit_or with hs | h0
    · rw [hs]
      exact nonNeg_pack_false _ (rndMag_le _ _)
    · rw [h0, Nat.zero_mul, rndMag_zero]
      exact nonNeg_pack_zero _
  · rw [fdiv_finite_inf a b fa ib]
    exact nonNeg_pack_zero _

/-! ### Levels in `[0, 1]` -/

theorem UnitLevel.nonNeg {a : Word} (h : UnitLevel a) : NonNeg a := ⟨h.1, h.2.1⟩

theorem UnitLevel.isFinite {a : Word} (h : UnitLevel a) : isFinite a = true := by
  obtain ⟨hn, h0, h1⟩ := h
  refine (isFinite_or_isInf a hn).resolve_right fun hi => ?_
  have hu : units a = 2 ^ 277 := units_of_isInf a hi
  have hlt : 2 ^ 149 < units a := (Nat.pow_lt_pow_right (by norm_num) (by norm_num)).trans_eq hu.symm
  rw [← natAbs_value] at hlt
  omega

theorem unitLevel_fZero : UnitLevel fZero :=
  ⟨isNaN_fZero, value_fZero.ge, value_fZero.trans_le (by positivity)⟩

theorem unitLevel_fOne : UnitLevel fOne :=
  ⟨isNaN_fOne, (by positivity : (0 : Int) ≤ 2 ^ 149).trans_eq value_fOne.symm, value_fOne.le⟩

/-- What a level can fall to: a number of at most 1, of either sign. -/
theorem fsub_le_one {a b : Word} (ha : UnitLevel a) (hb : NonNeg b) :
    isNaN (fsub a b) = false ∧ value (fsub a b) ≤ 2 ^ 149 := by
  have hpos : (0 : Int) ≤ 2 ^ 149 := by positivity
  rcases isFinite_or_isInf b hb.1 with fb | ib
  · have hle : value a + value (fneg b) ≤ 2 ^ 149 := by rw [value_fneg]; linarith [ha.2.2, hb.2]
    rw [fsub, fadd_finite a _ ha.isFinite (by rwa [isFinite_fneg])]
    split
    · split
      · exact ⟨by decide, by rw [show value fNegZero = 0 by decide]; exact hpos⟩
      · exact ⟨isNaN_fZero, by rw [value_fZero]; exact hpos⟩
    · refine ⟨isNaN_pack_rndMag _ _ _, ?_⟩
      rw [value_pack _ _ (rndMag_lt _ _)]
      by_cases hneg : value a + value (fneg b) < 0
      · rw [if_pos (by simpa using hneg)]
        exact (Int.neg_nonpos_of_nonneg (Int.natCast_nonneg _)).trans hpos
      · have hr : rndMag (value a + value (fneg b)).natAbs 1 ≤ 0x3F800000 := by
          refine rndMag_le_of_le _ _ _ one_pos ?_
          rw [unitsOfMag_one]
          omega
        rw [if_neg (by simpa using hneg)]
        have hu := (unitsOfMag_le_iff _ _).2 hr
        rw [unitsOfMag_one] at hu
        exact_mod_cast hu
  · rw [fsub_finite_inf a b ha.isFinite ib, isNaN_fneg, value_fneg]
    exact ⟨hb.1, by linarith [hb.2]⟩

/-- What is left of 1 above a level is a level. -/
theorem unitLevel_one_fsub {a : Word} (ha : UnitLevel a) : UnitLevel (fsub fOne a) := by
  obtain ⟨hn, hle⟩ := fsub_le_one unitLevel_fOne ha.nonNeg
  refine ⟨hn, ?_, hle⟩
  have hsum : 0 ≤ value fOne + value (fneg a) := by rw [value_fneg, value_fOne]; linarith [ha.2.2]
  have fa : isFinite (fneg a) = true := by rw [isFinite_fneg]; exact ha.isFinite
  rw [fsub, fadd_finite _ _ unitLevel_fOne.isFinite fa, decide_eq_false (not_lt.2 hsum)]
  split
  · split
    · exact (show value fNegZero = 0 by decide).ge
    · exact value_fZero.ge
  · exact (nonNeg_pack_false _ (rndMag_le _ _)).2

/-! ### The comparisons -/

theorem fgt_iff (a b : Word) : fgt a b = true ↔ (isNaN a = false ∧ isNaN b = false) ∧ value b < value a := by
  simp only [fgt, flt, Bool.and_eq_true, Bool.not_eq_true', decide_eq_true_eq]
  tauto

theorem fge_iff (a b : Word) : fge a b = true ↔ (isNaN a = false ∧ isNaN b = false) ∧ value b ≤ value a := by
  simp only [fge, fle, Bool.and_eq_true, Bool.not_eq_true', decide_eq_true_eq]
  tauto

theorem fle_iff (a b : Word) : fle a b = true ↔ (isNaN a = false ∧ isNaN b = false) ∧ value a ≤ value b := by
  simp only [fle, Bool.and_eq_true, Bool.not_eq_true', decide_eq_true_eq]

/-! ### The envelope -/

theorem nonNeg_attackRateOf (attack sr : Word) : NonNeg (attackRateOf attack sr) := by
  have divides : ∀ x, isNaN x = false → 0 < value x → NonNeg (fdiv fOne x) := fun x hn hx =>
    nonNeg_fdiv unitLevel_fOne.nonNeg unitLevel_fOne.isFinite hn hx
  have hmin : 0 < value Config.attackMinSamples := by decide +kernel
  unfold attackRateOf
  split
  · next h =>
    obtain ⟨⟨hn, -⟩, hle⟩ := (fge_iff _ _).1 h
    exact divides _ hn (hmin.trans_le hle)
  · exact divides _ (by decide) hmin

theorem nonNeg_decayRateOf (decay sustain sr : Word) (hs : UnitLevel sustain) :
    NonNeg (decayRateOf decay sustain sr) := by
  unfold decayRateOf
  split
  · next h =>
    obtain ⟨⟨hn, -⟩, hlt⟩ := (fgt_iff _ _).1 h
    rw [value_fZero] at hlt
    have hu := unitLevel_one_fsub hs
    exact nonNeg_fdiv hu.nonNeg hu.isFinite hn hlt
  · exact nonNeg_fZero

theorem envOk_startEnvelope (v : Voice) (note : NoteRegs) : EnvOk (v.startEnvelope note) where
  level := unitLevel_fZero
  sustain := unitLevel_clamp01 _
  attack := nonNeg_attackRateOf _ _
  decay := nonNeg_decayRateOf _ _ _ (unitLevel_clamp01 _)
  release := nonNeg_fZero

/-- A fall that has not reached a bound from 0 on leaves a level. -/
theorem unitLevel_of_not_fle {a b bound : Word} (ha : UnitLevel a) (hb : NonNeg b) (hbound : NonNeg bound)
    (h : ¬ fle (fsub a b) bound = true) : UnitLevel (fsub a b) := by
  obtain ⟨hn, hle⟩ := fsub_le_one ha hb
  rw [fle_iff, not_and, not_le] at h
  exact ⟨hn, hbound.2.trans (h ⟨hn, hbound.1⟩).le, hle⟩

/-- R308: the next level stays in `[0, 1]`, as each stage stops at its bound. -/
theorem unitLevel_envNext (v : Voice) (h : EnvOk v) : UnitLevel v.envNext.envLevel := by
  unfold Voice.envNext
  split
  · exact unitLevel_fZero
  · have hsum := nonNeg_fadd h.level.nonNeg h.attack
    dsimp only
    split
    · exact unitLevel_fOne
    · next hlt =>
      rw [fge_iff, not_and, not_le, value_fOne] at hlt
      exact ⟨hsum.1, hsum.2, (hlt ⟨hsum.1, isNaN_fOne⟩).le⟩
  · dsimp only
    split
    · exact h.sustain
    · next hgt => exact unitLevel_of_not_fle h.level h.decay h.sustain.nonNeg hgt
  · exact h.sustain
  · dsimp only
    split
    · exact unitLevel_fZero
    · next hgt => exact unitLevel_of_not_fle h.level h.release nonNeg_fZero hgt

theorem envOk_envNext (v : Voice) (h : EnvOk v) : EnvOk v.envNext := by
  have hl := unitLevel_envNext v h
  rw [Voice.envNext_eq] at hl ⊢
  exact { h with level := hl }

end Sys2Proof.Machine
end

