-- ==== Sys2Proof/Proofs/VoiceInvariant.lean ====
section
/-! What keeps a voice context well formed (`VoiceOk`): notes that start and end on it (R251 to R270), and a rendered block
(R302 to R312), inside which `ACTIVE` need not agree with the stage. -/

namespace Sys2Proof.Machine

open Sys2Proof

-- One proof is elaborated after another here: each thread at work takes its share of the check's memory limit.
set_option Elab.async false

/-! ### The voice after reset, and the notes that start and end on it -/

theorem voiceOk_reset : VoiceOk Voice.reset where
  activeStage := by simp [Voice.reset]
  bound := Nat.zero_le _
  degenLength h := by simp [Voice.reset] at h
  lines _ := .inl rfl
  started h := by simp [Voice.reset] at h
  pluck _ h := by simp [Voice.reset] at h
  pickup _ := rfl
  env := ⟨unitLevel_fZero, unitLevel_fZero, nonNeg_fZero, nonNeg_fZero, nonNeg_fZero⟩
  velocity := unitLevel_fZero

/-- Where `L` and the lines stand after a note has been set up (R254 to R260). -/
structure GeometryOk (v : Voice) : Prop where
  bound : v.l.toNat ≤ Config.lMax
  degenLength : v.degen = true → v.l.toNat = 1
  lines : v.degen = false → 2 ≤ v.l.toNat ∧ v.l.toNat ≤ v.left.length ∧ v.l.toNat ≤ v.right.length
  pluck : v.degen = false → 3 ≤ v.l.toNat → 1 ≤ v.pluckIdx.toNat ∧ v.pluckIdx.toNat ≤ v.l.toNat - 2
  pickup : v.degen = false → v.pickupIdx.toNat = v.l.toNat / 2

theorem pluckIndex_le (p : Word) (l : Nat) (hl : 2 ≤ l) : pluckIndex p l ≤ l - 1 := by
  unfold pluckIndex
  split <;> omega

theorem pluckIndex_bounds (p : Word) (l : Nat) (hl : 3 ≤ l) : 1 ≤ pluckIndex p l ∧ pluckIndex p l ≤ l - 2 := by
  rw [pluckIndex, if_neg (by omega)]
  omega

@[simp] theorem seedLine_length (l k : Nat) : (seedLine l k).length = l := by simp [seedLine]

/-- A length or index of a line fits its 14-bit field. -/
theorem toNat_ofNat_14 (n : Nat) (h : n ≤ Config.lMax) : (BitVec.ofNat 14 n).toNat = n := by
  rw [BitVec.toNat_ofNat]
  exact Nat.mod_eq_of_lt (h.trans_lt (by decide))

theorem geometryOk_seed (v : Voice) (pluckPos : Word) (l : Nat) (h2 : 2 ≤ l) (hm : l ≤ Config.lMax) :
    GeometryOk (v.seed pluckPos l) := by
  have hl : (v.seed pluckPos l).l.toNat = l := toNat_ofNat_14 l hm
  have hk : (v.seed pluckPos l).pluckIdx.toNat = pluckIndex pluckPos l :=
    toNat_ofNat_14 _ ((pluckIndex_le pluckPos l h2).trans (by omega))
  constructor
  · rwa [hl]
  · intro h; cases h
  · intro _
    rw [hl]
    exact ⟨h2, by simp [Voice.seed], by simp [Voice.seed]⟩
  · intro _ h3
    rw [hl] at h3 ⊢
    rw [hk]
    exact pluckIndex_bounds pluckPos l h3
  · intro _
    rw [hl]
    exact toNat_ofNat_14 (l / 2) (by omega)

theorem geometryOk_degenerate (v : Voice) : GeometryOk v.degenerate where
  bound := by simp [Voice.degenerate]
  degenLength _ := rfl
  lines h := by cases h
  pluck h := by cases h
  pickup h := by cases h

theorem geometryOk_setGeometry (v : Voice) (note : NoteRegs) (f : Word) : GeometryOk (v.setGeometry note f) := by
  unfold Voice.setGeometry
  split
  · refine geometryOk_seed v _ _ ?_ (Nat.min_le_right _ _)
    have : 2 ≤ lineLength note.sampleRate f := Nat.le_max_left _ _
    simp only [Config.lMax]
    omega
  · exact geometryOk_degenerate v

/-- The filter's latch and the envelope's start leave the geometry and the velocity (R266). -/
theorem voiceOk_noteOn (v : Voice) (note : NoteRegs) (ctrl : Ctrl) (pitch velocity : Word) :
    VoiceOk (v.noteOn note ctrl pitch velocity) := by
  have hg := geometryOk_setGeometry (v.latchNote note velocity) note pitch
  have hv : ((v.latchNote note velocity).setGeometry note pitch).velocity = clamp01 velocity := by
    unfold Voice.setGeometry
    split <;> rfl
  exact {
    activeStage := by simp [Voice.noteOn, Voice.startEnvelope]
    bound := hg.bound
    degenLength := hg.degenLength
    lines := fun h => .inr (hg.lines h)
    started := fun _ h0 => by
      cases hd : ((v.latchNote note velocity).setGeometry note pitch).degen
      · exact absurd ((hg.lines hd).1.trans_eq h0) (by decide)
      · exact absurd ((hg.degenLength hd).symm.trans h0) (by decide)
    pluck := hg.pluck
    pickup := hg.pickup
    env := envOk_startEnvelope _ _
    velocity := by
      show UnitLevel ((v.latchNote note velocity).setGeometry note pitch).velocity
      rw [hv]
      exact unitLevel_clamp01 _ }

theorem voiceOk_silence (v : Voice) (h : VoiceOk v) : VoiceOk v.silence :=
  { h with
    activeStage := by simp [Voice.silence]
    started := fun h => by cases h
    env := { h.env with level := unitLevel_fZero } }

theorem voiceOk_noteOff (v : Voice) (tail : Bool) (h : VoiceOk v) (ha : v.active = true) : VoiceOk (v.noteOff tail) := by
  unfold Voice.noteOff
  split
  · next hr =>
    obtain ⟨-, hgt⟩ := Bool.and_eq_true_iff.1 hr
    obtain ⟨⟨hn, -⟩, hlt⟩ := (fgt_iff _ _).1 hgt
    rw [value_fZero] at hlt
    exact { h with
      activeStage := by simp [ha]
      env := { h.env with release := ⟨hn, hlt.le⟩ } }
  · exact voiceOk_silence v h

/-! ### Rendering -/

/-- A voice inside a block: `VoiceOk` but for the stage, which may have become `IDLE` while `ACTIVE` stays 1 until the
block ends (R312). -/
def MidBlockOk (v : Voice) : Prop := VoiceOk { v with stage := .attack }

theorem VoiceOk.midBlock {v : Voice} (h : VoiceOk v) (ha : v.active = true) : MidBlockOk v :=
  { h with
    activeStage := by simp [ha]
    env := { h.env with } }

theorem MidBlockOk.active {v : Voice} (h : MidBlockOk v) : v.active = true := by simpa using h.activeStage

theorem MidBlockOk.endBlock {v : Voice} (h : MidBlockOk v) : VoiceOk v.endBlock := by
  have ha := h.active
  unfold Voice.endBlock
  split
  · next hs =>
    exact { h with
      activeStage := by simp [hs]
      started := fun h => by cases h
      env := { h.env with } }
  · next hs =>
    exact { h with
      activeStage := by simp [ha, hs]
      env := { h.env with } }

theorem MidBlockOk.envNext {v : Voice} (h : MidBlockOk v) : MidBlockOk v.envNext := by
  have he := envOk_envNext v { h.env with }
  rw [Voice.envNext_eq] at he ⊢
  exact { h with env := { he with } }

theorem hasLines_iff (v : Voice) : v.hasLines = true ↔ v.degen = false ∧ 2 ≤ v.l.toNat := by
  simp [Voice.hasLines]

theorem MidBlockOk.stepLines {v : Voice} (h : MidBlockOk v) (draw n : Nat) (hl : v.hasLines = true) :
    MidBlockOk (v.stepLines draw n) := by
  obtain ⟨hd, h2⟩ := (hasLines_iff v).1 hl
  have hleft := Voice.stepLines_left_length draw n v h2
  have hright := Voice.stepLines_right_length draw n v h2
  rw [Voice.stepLines_eq]
  exact { h with
    lines := fun _ => .inr ⟨h2, by rw [hleft]; exact Nat.le_max_left _ _, by rw [hright]; exact Nat.le_max_left _ _⟩
    env := { h.env with } }

theorem MidBlockOk.renderSample {v : Voice} (h : MidBlockOk v) (draw n : Nat) (hl : v.hasLines = true) :
    MidBlockOk (v.renderSample draw n).1 := by
  rw [Voice.renderSample_eq]
  exact (h.stepLines draw n hl).envNext

/-- A block keeps the voice well formed: every sample keeps `MidBlockOk`, and the block's end settles `ACTIVE`. -/
theorem voiceOk_renderSamples (v : Voice) (draw n count : Nat) (h : VoiceOk v) (ha : v.active = true) :
    VoiceOk (v.renderSamples draw n count).1.endBlock :=
  (Voice.renderSamples_keeps draw n MidBlockOk (fun _ h hl => h.renderSample draw n hl) (fun _ h => h.envNext) count v
    (h.midBlock ha)).endBlock

end Sys2Proof.Machine
end

