-- ==== Sys2Proof/Proofs/WindowMemory.lean ====
section
/-! What every write keeps of the RAM windows: their canonical form, and that no byte is listed outside them. -/

namespace Sys2Proof.Machine

open Sys2Proof

-- One proof is elaborated after another here: each thread at work takes its share of the check's memory limit.
set_option Elab.async false

/-- What the invariant says of the RAM windows: canonical form, and no byte outside them. -/
structure MemOk (m : Memory) : Prop where
  wf : Memory.wf m = true
  mapped : ∀ c ∈ m, ramAddr c.1 = true

theorem MemOk.writeWord {m : Memory} (h : MemOk m) (a : Nat) (w : Word) (ha : ∀ k, k < 4 → ramAddr (a + k) = true) :
    MemOk (m.writeWord a w) where
  wf := Memory.writeWord_wf m a w h.wf
  mapped c hc := by
    rcases Memory.writeWord_mem m a w c hc with ⟨k, hk, e⟩ | hc
    · rw [e]; exact ha k hk
    · exact h.mapped c hc

theorem MemOk.writeWords {m : Memory} (h : MemOk m) (a : Nat) (ws : List Word)
    (ha : ∀ b, a ≤ b → b < a + 4 * ws.length → ramAddr b = true) : MemOk (m.writeWords a ws) where
  wf := Memory.writeWords_wf ws m a h.wf
  mapped c hc := by
    rcases Memory.writeWords_mem ws m a c hc with ⟨hlo, hhi⟩ | hc
    · exact ha _ hlo hhi
    · exact h.mapped c hc

theorem ramAddr_ring (k : Nat) (hk : k < Config.waveCap) (a : Nat) (hlo : ringAddr k ≤ a) (hhi : a < ringAddr k + 4) :
    ramAddr a = true := by
  simp only [ramAddr, ringAddr, Config.waveCap, Bool.or_eq_true, Bool.and_eq_true, decide_eq_true_eq] at *
  omega

theorem ramAddr_scope (a : Nat) (hlo : scopeAddr 0 ≤ a) (hhi : a < scopeAddr 0 + 4 * Config.scopeSize) :
    ramAddr a = true := by
  simp only [ramAddr, scopeAddr, Config.scopeSize, Bool.or_eq_true, Bool.and_eq_true, decide_eq_true_eq] at *
  omega

theorem ramAddr_out (c start count : Nat) (hc : c < Config.numChannels) (hb : start + count ≤ Config.blockMax) (a : Nat)
    (hlo : outAddr c start ≤ a) (hhi : a < outAddr c start + 4 * count) : ramAddr a = true := by
  simp only [ramAddr, outAddr, Config.numChannels, Config.blockMax, Bool.or_eq_true, Bool.and_eq_true,
    decide_eq_true_eq] at *
  omega

theorem MemOk.writeOut {m : Memory} (h : MemOk m) (c i : Nat) (hc : c < Config.numChannels) (hi : i < Config.blockMax)
    (w : Word) : MemOk (m.writeWord (outAddr c i) w) :=
  h.writeWord _ _ fun k hk => ramAddr_out c i 1 hc hi _ (Nat.le_add_right _ _) (by omega)

theorem MemOk.writeScope {m : Memory} (h : MemOk m) {ws : List Word} (hl : ws.length = Config.scopeSize) :
    MemOk (m.writeWords (scopeAddr 0) ws) :=
  h.writeWords _ _ fun b hlo hhi => ramAddr_scope b hlo (by rwa [hl] at hhi)

theorem MemOk.foldl_channels {m : Memory} (h : MemOk m) (f : Memory → Nat → Memory)
    (hf : ∀ m c, c < Config.numChannels → MemOk m → MemOk (f m c)) :
    MemOk ((List.range Config.numChannels).foldl f m) :=
  List.foldlRecOn _ f h fun m hm c hc => hf m c (List.mem_range.1 hc) hm

theorem MemOk.addToOut {m : Memory} (h : MemOk m) (draw i : Nat) (hi : i < Config.blockMax) (out : Word) :
    MemOk (addToOut draw m i out) :=
  h.foldl_channels _ fun _ c hc hm => hm.writeOut c i hc hi _

theorem MemOk.addOuts (draw : Nat) (outs : List Word) : ∀ {m : Memory} (_ : MemOk m) (i : Nat),
    i + outs.length ≤ Config.blockMax → MemOk (addOuts draw m i outs) := by
  induction outs with
  | nil => intro m h i _; exact h
  | cons o os ih =>
    intro m h i hi
    rw [List.length_cons] at hi
    exact ih (h.addToOut draw i (by omega) o) (i + 1) (by omega)

theorem MemOk.clearOut {m : Memory} (h : MemOk m) (start count : Nat) (hb : start + count ≤ Config.blockMax) :
    MemOk (clearOut m start count) := by
  refine h.foldl_channels _ fun m c hc hm => hm.writeWords _ _ fun b hlo hhi => ?_
  rw [List.length_replicate] at hhi
  exact ramAddr_out c start count hc hb b hlo hhi

end Sys2Proof.Machine
end

