-- ==== Sys2Proof/Proofs/BlockInvariant.lean ====
section
/-! The invariant of the block (O59, O60): it holds after reset, each update of a part of the state keeps it where the new
part is well formed, and so does each command, access, engine step and step. -/

namespace Sys2Proof.Machine

open Sys2Proof

-- One proof is elaborated after another here: each thread at work takes its share of the check's memory limit.
set_option Elab.async false

/-! ### The error codes -/

/-- An error code is held exactly while `ERR` is set, and is one of the first `max` of R502. -/
def CodeOk (max : Nat) (err : Bool) (code : BitVec 4) : Prop :=
  (err = false → code = 0#4) ∧ (err = true → 1 ≤ code.toNat ∧ code.toNat ≤ max)

theorem codeOk_errorCode (e : CmdError) : CodeOk 6 true (errorCode e) :=
  ⟨fun h => (by cases h), fun _ => by cases e <;> decide⟩

theorem StatusA.codeOk_record {x : StatusA} (h : CodeOk 6 x.err x.errCode) (e : CmdError) :
    CodeOk 6 (x.record e).err (x.record e).errCode := by
  cases he : x.err
  · rw [StatusA.record_first x e he]; exact codeOk_errorCode e
  · rwa [StatusA.record_later x e he]

theorem StatusD.codeOk_record {x : StatusD} (h : CodeOk 2 x.err x.errCode) {e : CmdError}
    (he : e = .illegalOpcode ∨ e = .reservedField) : CodeOk 2 (x.record e).err (x.record e).errCode := by
  cases hx : x.err
  · rw [StatusD.record_first x e hx]
    have hcode : 1 ≤ (errorCode e).toNat ∧ (errorCode e).toNat ≤ 2 := by rcases he with rfl | rfl <;> decide
    exact ⟨fun h => (by cases h), fun _ => hcode⟩
  · rwa [StatusD.record_later x e hx]

/-- A status write clears the code with its flag (R516). -/
theorem CodeOk.clear {max : Nat} {err : Bool} {code : BitVec 4} (h : CodeOk max err code) (bit : Bool) :
    CodeOk max (err && !bit) (if bit then 0#4 else code) := by
  cases bit
  · simpa using h
  · exact ⟨fun _ => rfl, fun h => by simp at h⟩

/-! ### What each part of the state contributes to the invariant -/

section Parts

variable {s : State}

theorem Inv.memOk (h : Inv s) : MemOk s.mem := ⟨h.memWf, h.memMapped⟩

theorem Inv.setEnv (h : Inv s) (x : Env) : Inv (s.setEnv x) := { h with voices := h.voices }

theorem Inv.setHostPort (h : Inv s) (p : Port) (x : HostPort) : Inv (s.setHostPort p x) := by
  cases p <;> exact h.setEnv _

theorem Inv.setCtrl (h : Inv s) (x : Ctrl) : Inv (s.setCtrl x) := { h with voices := h.voices }

theorem Inv.setArg0 (h : Inv s) (x : Word) : Inv (s.setArg0 x) := { h with voices := h.voices }

theorem Inv.setArg1 (h : Inv s) (x : Word) : Inv (s.setArg1 x) := { h with voices := h.voices }

theorem Inv.setNote (h : Inv s) (x : NoteRegs) : Inv (s.setNote x) := { h with voices := h.voices }

theorem Inv.setResultA (h : Inv s) (x : Word) : Inv (s.setResultA x) := { h with voices := h.voices }

theorem Inv.setProcessed (h : Inv s) (x : Bool) : Inv (s.setProcessed x) := { h with voices := h.voices }

theorem Inv.setMem (h : Inv s) {m : Memory} (hm : MemOk m) : Inv (s.setMem m) :=
  { h with voices := h.voices, memWf := hm.wf, memMapped := hm.mapped }

theorem Inv.setPushq (h : Inv s) {xs : List Word} (hx : xs.length ≤ Config.blockMax) : Inv (s.setPushq xs) :=
  { h with voices := h.voices, queue := hx }

theorem Inv.setStatusA (h : Inv s) {x : StatusA} (hx : CodeOk 6 x.err x.errCode) : Inv (s.setStatusA x) :=
  { h with voices := h.voices, errorA := hx }

theorem Inv.setStatusD (h : Inv s) {x : StatusD} (hx : CodeOk 2 x.err x.errCode) : Inv (s.setStatusD x) :=
  { h with voices := h.voices, errorD := hx }

theorem Inv.setJob (h : Inv s) {x : Bool} (hx : x = true → s.vis.ready = true) : Inv (s.setJob x) :=
  { h with voices := h.voices, jobReady := hx }

theorem Inv.setVis (h : Inv s) {x : Vis} (hj : s.job = true → x.ready = true)
    (hb : x.ready = true → x.tbuf.length = Config.fifoCap) (hf : x.fifoIndex.toNat ≤ x.fifo.length) : Inv (s.setVis x) :=
  { h with voices := h.voices, jobReady := hj, blockWhole := hb, fifoListed := hf }

theorem Inv.setVoice (h : Inv s) (v : Fin Config.numVoices) {x : Voice} (hx : VoiceOk x) : Inv (s.setVoice v x) :=
  { h with
    voices := fun w => by
      rw [State.setVoice_voice]
      split
      · exact hx
      · exact h.voices w }

end Parts

/-! ### Commands -/

theorem inv_raise_a {s : State} (h : Inv s) (e : CmdError) : Inv (s.raise .a e) :=
  h.setStatusA (StatusA.codeOk_record h.errorA e)

theorem inv_startNote {s : State} (h : Inv s) (v : Fin Config.numVoices) : Inv (s.startNote v) :=
  (h.setVoice v (voiceOk_noteOn _ _ _ _ _)).setStatusA h.errorA

theorem inv_renderVoice {s : State} (h : Inv s) (start count : Nat) (hb : start + count ≤ Config.blockMax)
    (v : Fin Config.numVoices) : Inv (s.renderVoice start count v) := by
  cases ha : (s.voice v).active
  · rwa [State.renderVoice_inactive _ _ _ _ ha]
  · rw [State.renderVoice_active _ _ _ _ ha]
    have hlen := Voice.renderSamples_length s.ramDraw v.val count (s.voice v)
    have hout : start + ((s.voice v).renderSamples s.ramDraw v.val count).2.length ≤ Config.blockMax := by
      split at hlen <;> omega
    have hv := voiceOk_renderSamples (s.voice v) s.ramDraw v.val count (h.voices v) ha
    exact ((h.setVoice v hv).setMem (h.memOk.addOuts _ _ _ hout)).setStatusA h.errorA

theorem inv_renderVoices {s : State} (h : Inv s) (start count : Nat) (hb : start + count ≤ Config.blockMax) :
    Inv (s.renderVoices start count) :=
  State.renderVoices_keeps Inv start count (fun _ v h => inv_renderVoice h start count hb v) s h

theorem renderVoices_pushq (s : State) (start count : Nat) : (s.renderVoices start count).pushq = s.pushq := by
  refine State.renderVoices_keeps (fun t => t.pushq = s.pushq) start count (fun t v h => ?_) s rfl
  unfold State.renderVoice
  split <;> exact h

/-- The hand-off fills an empty queue with one block at most (R100, R313). -/
theorem inv_handOff {s : State} (h : Inv s) (hq : s.pushq = []) (start count : Nat)
    (hb : start + count ≤ Config.blockMax) : Inv (s.handOff start count) := by
  unfold State.handOff
  split
  · refine h.setPushq ?_
    rw [hq, List.nil_append, State.blockSamples, List.length_map, List.length_range]
    omega
  · exact h

theorem eq_of_exec {i : Instr} {s t u : State} (hu : exec i s = .next u) (he : exec i s = .next t) : t = u :=
  Host.Outcome.next.inj (he.symm.trans hu)

/-- Every command keeps the invariant; those of port A run with no push queued (R161). -/
theorem exec_keeps_inv (i : Instr) {s t : State} (h : Inv s) (hq : i.port = .a → s.pushq = [])
    (he : exec i s = .next t) : Inv t := by
  cases i with
  | nopA => cases he; exact h
  | nopD => cases he; exact h
  | noteOn voice =>
    by_cases hv : voice < Config.numVoices
    · cases hr : s.sampleRateOk
      · rw [eq_of_exec (exec_noteOn_badRate s ⟨voice, hv⟩ hr) he]
        exact inv_raise_a h _
      · rw [eq_of_exec (exec_noteOn s ⟨voice, hv⟩ hr) he]
        exact inv_startNote h _
    · rw [eq_of_exec (exec_noteOn_range s voice (not_lt.1 hv)) he]
      exact inv_raise_a h _
  | noteOff voice tail =>
    by_cases hv : voice < Config.numVoices
    · cases ha : (s.voice ⟨voice, hv⟩).active
      · rw [eq_of_exec (exec_noteOff_idle s ⟨voice, hv⟩ tail ha) he]
        exact h
      · rw [eq_of_exec (exec_noteOff_active s ⟨voice, hv⟩ tail ha) he]
        exact h.setVoice _ (voiceOk_noteOff _ _ (h.voices _) ha)
    · rw [eq_of_exec (exec_noteOff_range s voice tail (not_lt.1 hv)) he]
      exact inv_raise_a h _
  | renderBlock start count =>
    by_cases hb : start + count ≤ Config.blockMax
    · rw [eq_of_exec (exec_renderBlock s start count hb) he]
      exact inv_handOff (inv_renderVoices h _ _ hb) ((renderVoices_pushq _ _ _).trans (hq rfl)) _ _ hb
    · rw [eq_of_exec (exec_renderBlock_range s start count (not_le.1 hb)) he]
      exact inv_raise_a h _
  | outClear start count =>
    by_cases hb : start + count ≤ Config.blockMax
    · rw [eq_of_exec (exec_outClear s start count hb) he]
      exact h.setMem (h.memOk.clearOut _ _ hb)
    · rw [eq_of_exec (exec_outClear_range s start count (not_le.1 hb)) he]
      exact inv_raise_a h _
  | visPush =>
    cases he
    refine h.setPushq ?_
    rw [hq rfl]
    exact (by decide : 1 ≤ Config.blockMax)
  | peek voice space index =>
    by_cases hv : voice < Config.numVoices
    · cases hp : s.peekValue ⟨voice, hv⟩ space index with
      | none =>
        rw [eq_of_exec (exec_peek_index s ⟨voice, hv⟩ space index hp) he]
        exact inv_raise_a h _
      | some w =>
        rw [eq_of_exec (exec_peek s ⟨voice, hv⟩ space index w hp) he]
        exact h.setResultA _
    · rw [eq_of_exec (exec_peek_range s voice space index (not_lt.1 hv)) he]
      exact inv_raise_a h _
  | specProcess =>
    simp only [exec, execSpecProcess] at he
    split at he
    · next hr => cases he; exact h.setJob fun _ => hr
    · cases he; exact h.setProcessed _

/-! ### Issued words -/

theorem decodeN_eq_ok {w : Word} {i j : Instr} (h : decodeN w i = .ok j) : j = i := by
  unfold decodeN at h
  split at h <;> cases h
  rfl

theorem decodeN_eq_error {w : Word} {i : Instr} {e : CmdError} (h : decodeN w i = .error e) : e = .reservedField := by
  unfold decodeN at h
  split at h <;> cases h
  rfl

/-- Port D decodes its own commands only. -/
theorem port_of_decode_d {w : Word} {i : Instr} (h : decode .d w = .ok i) : i.port = .d := by
  simp only [decode, decodeD] at h
  split at h
  · rw [decodeN_eq_ok h]; rfl
  split at h
  · rw [decodeN_eq_ok h]; rfl
  · cases h

theorem error_of_decode_d {w : Word} {e : CmdError} (h : decode .d w = .error e) :
    e = .illegalOpcode ∨ e = .reservedField := by
  simp only [decode, decodeD] at h
  split at h
  · exact .inr (decodeN_eq_error h)
  split at h
  · exact .inr (decodeN_eq_error h)
  · cases h; exact .inl rfl

theorem issue_keeps_inv (p : Port) (w : Word) {s t : State} (h : Inv s) (hq : p = .a → s.pushq = [])
    (hi : issue p w s = .next t) : Inv t := by
  unfold issue at hi
  split at hi
  · next i hd =>
    refine exec_keeps_inv i h (fun hp => hq ?_) hi
    cases p
    · rfl
    · cases (port_of_decode_d hd).symm.trans hp
  · next e hd =>
    cases hi
    cases p
    · exact inv_raise_a h e
    · exact h.setStatusD (StatusD.codeOk_record h.errorD (error_of_decode_d hd))

/-! ### Accesses -/

theorem mem_registerMap_of_lookup {o : Nat} {r : Target} (h : registerMap.lookup o = some r) : (o, r) ∈ registerMap := by
  obtain ⟨xs, ys, heq, -⟩ := List.lookup_eq_some_iff.1 h
  rw [heq]
  simp

/-- Only offsets of `OUT_BUF` name its elements. -/
theorem targetAt_outBuf {o c i : Nat} (h : targetAt o = some (.outBuf c i)) :
    c < Config.numChannels ∧ i < Config.blockMax := by
  unfold targetAt at h
  split at h
  · next r hr =>
    cases h
    have hall : ∀ e ∈ registerMap, ∀ c i, e.2 ≠ .outBuf c i := by simp [registerMap]
    exact absurd rfl (hall _ (mem_registerMap_of_lookup hr) c i)
  · unfold windowTarget at h
    split at h
    · cases h
    split at h
    · cases h
    split at h
    · next hw =>
      cases h
      simp only [Config.blockMax] at hw ⊢
      omega
    · cases h

theorem writeTarget_keeps_inv {s : State} (h : Inv s) {o : Nat} {r : Target} (hr : targetAt o = some r) (x : Word) :
    Inv (s.writeTarget r x) := by
  cases r with
  | ctrl => exact h.setCtrl _
  | statusA => exact h.setStatusA (CodeOk.clear h.errorA _)
  | statusD => exact h.setStatusD (CodeOk.clear h.errorD _)
  | arg0 => exact h.setArg0 _
  | arg1 => exact h.setArg1 _
  | outBuf c i =>
    obtain ⟨hc, hi⟩ := targetAt_outBuf hr
    exact h.setMem (h.memOk.writeOut c i hc hi x)
  | sampleRate | attack | decay | sustain | release | bridgeR | pluckPos | filtMode | filtB0 | filtB1 | filtB2 | filtA1
  | filtA2 => exact h.setNote _
  | _ => exact h

/-- A command word of port A is performed only where no push is queued (R161). -/
theorem pushq_of_not_held {s : State} {width : Width} {o : Offset} {w : Word} (ho : o.toNat = 0x018)
    (hh : s.holds (.write width o w) = false) : s.pushq = [] := by
  have hheld : heldByA (Access.write width o w).isRead (wordOffset (Access.write width o w).offset) = true := by
    simp [heldByA, Access.isRead, Access.offset, ho, wordOffset]
  obtain ⟨hA, -⟩ := Bool.or_eq_false_iff.1 hh
  rw [hheld, Bool.and_true] at hA
  simpa [State.busyA] using hA

theorem performAccess_keeps_inv (p : Port) (x : Access) (rest : List Access) {s t : State} (h : Inv s)
    (hh : s.holds x = false) (hp : performAccess p x rest s = .next t) : Inv t := by
  unfold performAccess at hp
  split at hp
  · cases hp; exact h.setHostPort _ _
  · cases hp; exact h.setHostPort _ _
  · cases hp; exact h.setHostPort _ _
  · next r w o v hf hr =>
    have hi := h.setHostPort p ⟨rest, .writeDone⟩
    unfold writeAccess at hp
    split at hp
    · refine issue_keeps_inv .a v hi (fun _ => ?_) hp
      have ho := (targetAt_cmd _).1 hr
      rw [(s.setHostPort_keeps p _).1]
      exact pushq_of_not_held (w := v) ho hh
    · exact issue_keeps_inv .d v hi (fun h => by cases h) hp
    · cases hp; exact writeTarget_keeps_inv hi hr v

theorem hostStep_keeps_inv (p : Port) {s t : State} (h : Inv s) (he : s.hostEnabled p = true)
    (hs : hostStep p s = .next t) : Inv t := by
  unfold State.hostEnabled at he
  unfold hostStep at hs
  split at he
  · cases he
  · next x rest hpd =>
    rw [hpd] at hs
    exact performAccess_keeps_inv p x rest h (by simpa using he) hs

/-! ### The engines and the platform -/

theorem inv_pushRing {s : State} (h : Inv s) (x : Word) : Inv (s.pushRing x) :=
  (h.setMem (h.memOk.writeWord _ x fun k hk =>
    ramAddr_ring _ (Nat.mod_lt _ (by decide)) _ (Nat.le_add_right _ _) (Nat.add_lt_add_left hk _))).setVis h.jobReady
    h.blockWhole h.fifoListed

theorem fifoWritten_length (s : State) (x : Word) :
    (s.fifoWritten x).length = max s.vis.fifo.length (s.vis.fifoIndex.toNat + 1) := putAt_length _ _ _ _ _

theorem blockCopy_length (draw : Nat) (fifo : List Word) : (blockCopy draw fifo).length = Config.fifoCap := by
  rw [blockCopy, List.length_map, window_length]

theorem inv_pushFifo {s : State} (h : Inv s) (x : Word) : Inv (s.pushFifo x) := by
  have hlen := fifoWritten_length s x
  by_cases hk : s.vis.fifoIndex.toNat + 1 < Config.fifoCap
  · rw [State.pushFifo_partial s x hk]
    refine h.setVis h.jobReady h.blockWhole ?_
    have hnext : (s.vis.fifoIndex + 1#11).toNat = s.vis.fifoIndex.toNat + 1 :=
      (BitVec.toNat_add _ _).trans (Nat.mod_eq_of_lt hk)
    dsimp only
    omega
  · cases hr : s.vis.ready
    · rw [State.pushFifo_copy s x hk hr]
      exact h.setVis (fun _ => rfl) (fun _ => blockCopy_length _ _) (Nat.zero_le _)
    · rw [State.pushFifo_skip s x hk hr]
      exact (h.setVis (x := { s.vis with fifo := s.fifoWritten x, fifoIndex := 0#11 }) h.jobReady h.blockWhole
        (Nat.zero_le _)).setStatusD h.errorD

theorem inv_engineAStep {s : State} (h : Inv s) : Inv s.engineAStep := by
  cases hq : s.pushq with
  | nil => rwa [State.engineAStep_nil s hq]
  | cons x rest =>
    rw [State.engineAStep_cons s x rest hq]
    have hlen := h.queue
    rw [hq, List.length_cons] at hlen
    exact inv_pushFifo (inv_pushRing (h.setPushq (by omega)) x) x

theorem skewIdxEntries_length : skewIdxEntries.length = Config.scopeSize := by decide +kernel

theorem scopeLevels_length (tbuf : List Cplx) : (scopeLevels tbuf).length = Config.scopeSize := by
  unfold scopeLevels
  exact (List.length_map _).trans skewIdxEntries_length

/-- The job's end clears `READY` with `job`, whatever levels it wrote (R409). -/
theorem inv_jobEnd {s : State} (h : Inv s) {m : Memory} (hm : MemOk m) :
    Inv ((((s.setMem m).setVis { s.vis with ready := false, tbuf := [], tbufDraw := s.vis.tbufDraw + 1 }).setProcessed
      true).setJob false) := by
  have hidle : Inv (s.setJob false) := h.setJob fun hc => by cases hc
  exact ((hidle.setMem hm).setVis (x := { s.vis with ready := false, tbuf := [], tbufDraw := s.vis.tbufDraw + 1 })
    (fun hc => by cases hc) (fun hc => by cases hc) h.fifoListed).setProcessed true

theorem inv_engineDStep {s : State} (h : Inv s) : Inv s.engineDStep :=
  inv_jobEnd h (h.memOk.writeScope (scopeLevels_length s.jobInput))

/-- Settles O59. -/
theorem invAtReset : Obligations.InvAtReset where
  memWf := reset_mem_wf
  memMapped c hc := by cases hc
  voices v := by rw [State.reset_voice]; exact voiceOk_reset
  queue := Nat.zero_le _
  jobReady h := by cases h
  blockWhole h := by cases h
  fifoListed := Nat.zero_le _
  errorA := ⟨fun _ => rfl, fun h => (by cases h)⟩
  errorD := ⟨fun _ => rfl, fun h => (by cases h)⟩

theorem inv_platformReset (s : State) : Inv s.platformReset :=
  { invAtReset with voices := invAtReset.voices }

/-! ### The step -/

theorem agentStep_keeps_inv (a : Agent) {s t : State} (h : Inv s) (he : s.enabled a = true)
    (hs : agentStep a s = .next t) : Inv t := by
  cases a with
  | hostA => exact hostStep_keeps_inv .a h he hs
  | hostD => exact hostStep_keeps_inv .d h he hs
  | engineA => cases hs; exact inv_engineAStep h
  | engineD =>
    obtain rfl : s.engineDStep = t := Host.Outcome.next.inj hs
    exact inv_engineDStep h
  | platform => cases hs; exact inv_platformReset s

/-- Beginning a turn changes only the choices and the count of steps, which no agent's enabledness reads. -/
theorem State.beginTurn_enabled (s : State) (a : Agent) : s.beginTurn.enabled a = s.enabled a := by
  cases a <;> rfl

/-- Settles O60: the step of the chosen agent, which is enabled, keeps the invariant. -/
theorem invKeptByEveryStep : Obligations.InvKeptByEveryStep := by
  intro s t h hs
  unfold step at hs
  split at hs
  · cases hs; exact h
  · next a ha =>
    have he := State.nextAgent_enabled s a ha
    have hb : Inv s.beginTurn := h.setEnv _
    exact agentStep_keeps_inv a hb (by rwa [State.beginTurn_enabled]) hs

end Sys2Proof.Machine
end

