-- ==== Sys2Proof/Proofs/NoteLines.lean ====
section
/-! The lines of a note of valid pitch (O16): each holds the seed below `L` and what it held before from `L` on (R259,
R260). -/

namespace Sys2Proof.Machine

open Sys2Proof

-- One proof is elaborated after another here: each thread at work takes its share of the check's memory limit.
set_option Elab.async false

/-- `L` of a note of pitch `f` (R254, R255). -/
def noteLength (sr f : Word) : Nat := min (lineLength sr f) Config.lMax

theorem noteLength_bounds (sr f : Word) : 2 ≤ noteLength sr f ∧ noteLength sr f ≤ Config.lMax := by
  have : 2 ≤ lineLength sr f := Nat.le_max_left _ _
  simp only [noteLength, Config.lMax]
  omega

/-- What a line reads as below and from `L` on, once the seed is written over it. -/
theorem seedLine_append_getD (l k i : Nat) (xs : List Word) (d : Word) :
    (seedLine l k ++ xs.drop l).getD i d = if i < l then fmul (excitation l k i) fHalf else xs.getD i d := by
  by_cases hi : i < l
  · rw [if_pos hi, List.getD_append _ _ _ _ (by rwa [seedLine_length]), List.getD_eq_getElem _ _ (by rwa [seedLine_length])]
    simp [seedLine]
  · rw [if_neg hi, List.getD_append_right _ _ _ _ (by rw [seedLine_length]; omega), seedLine_length,
      List.getD_eq_getElem?_getD, List.getElem?_drop, List.getD_eq_getElem?_getD, Nat.add_sub_cancel' (not_lt.1 hi)]

@[simp] theorem State.startNote_voice (s : State) (v : Fin Config.numVoices) :
    (s.startNote v).voice v = (s.voice v).noteOn s.note s.ctrl s.arg0 s.arg1 := by
  simp [State.startNote]

/-- After its geometry a note's set-up writes no line and no index (R266). -/
theorem Voice.noteOn_geometry (v : Voice) (note : NoteRegs) (ctrl : Ctrl) (pitch velocity : Word)
    (h : positiveFinite pitch = true) :
    let l := noteLength note.sampleRate pitch
    let w := v.noteOn note ctrl pitch velocity
    w.l = BitVec.ofNat 14 l ∧ w.pluckIdx = BitVec.ofNat 14 (pluckIndex note.pluckPos l) ∧
      w.left = seedLine l (pluckIndex note.pluckPos l) ++ v.left.drop l ∧
      w.right = seedLine l (pluckIndex note.pluckPos l) ++ v.right.drop l := by
  have hg : (v.latchNote note velocity).setGeometry note pitch =
      (v.latchNote note velocity).seed note.pluckPos (noteLength note.sampleRate pitch) := if_pos h
  rw [Voice.noteOn, hg]
  exact ⟨rfl, rfl, rfl, rfl⟩

/-- Settles O16. -/
theorem noteOnSeedsLines : Obligations.NoteOnSeedsLines := by
  intro s v hfin hpos hpfin hppos
  have hpitch : positiveFinite s.arg0 = true := (positiveFinite_iff _).2 ⟨hpfin, hppos⟩
  refine ⟨s.startNote v, exec_noteOn s v ((sampleRateOk_iff s).2 ⟨hfin, hpos⟩), ?_⟩
  obtain ⟨hl, hk, hleft, hright⟩ := Voice.noteOn_geometry (s.voice v) s.note s.ctrl s.arg0 s.arg1 hpitch
  obtain ⟨h2, hmax⟩ := noteLength_bounds s.note.sampleRate s.arg0
  generalize noteLength s.note.sampleRate s.arg0 = l at *
  have hle := pluckIndex_le s.note.pluckPos l h2
  generalize pluckIndex s.note.pluckPos l = k at *
  have left : ∀ i, (s.startNote v).leftAt v i = if i < l then fmul (excitation l k i) fHalf else s.leftAt v i := by
    intro i
    rw [State.leftAt, State.startNote_voice, hleft, seedLine_append_getD]
    rfl
  have right : ∀ i, (s.startNote v).rightAt v i = if i < l then fmul (excitation l k i) fHalf else s.rightAt v i := by
    intro i
    rw [State.rightAt, State.startNote_voice, hright, seedLine_append_getD]
    rfl
  simp only [State.startNote_voice, hl, hk, toNat_ofNat_14 l hmax, toNat_ofNat_14 k (by omega)]
  refine ⟨fun i hik hil => ?_, fun i hki hil => ?_, fun i hil => ?_, fun i hil => ⟨?_, ?_⟩⟩
  · rw [left, if_pos hil, excitation, if_pos hik]
  · rw [left, if_pos hil, excitation, if_neg (not_le.2 hki)]
  · rw [left, right, if_pos hil, if_pos hil]
  · rw [left, if_neg (not_lt.2 hil)]
  · rw [right, if_neg (not_lt.2 hil)]

end Sys2Proof.Machine
end

