-- ==== Sys2Proof/Proofs/IdentityFilter.lean ====
section
/-! The loss filter at the reset coefficients (O25): a product with 1 is its other factor, a product with +0 is a zero, and
a zero added or taken away changes no value. -/

namespace Sys2Proof.Machine

open Sys2Proof

-- One proof is elaborated after another here: each thread at work takes its share of the check's memory limit.
set_option Elab.async false

theorem units_fOne : units fOne = 2 ^ 149 := by
  rw [← natAbs_value, value_fOne]; rfl

/-- Every word's magnitude is exact under rounding. -/
theorem rndMag_units (x : Word) (h : isFinite x = true) (den : Nat) (hd : 0 < den) :
    rndMag (units x * den) den = magOf x := by
  rw [units_eq]
  exact rndMag_exact _ _ hd ((isFinite_iff x).1 h).le

theorem fmul_fOne (x : Word) (h : isFinite x = true) : fmul fOne x = x := by
  rw [fmul_finite _ _ unitLevel_fOne.isFinite h, units_fOne, Nat.mul_comm, rndMag_units x h _ (Nat.two_pow_pos 149),
    show signBit fOne = false by decide, Bool.false_bne, pack_magOf]

theorem fmul_fZero (x : Word) (h : isFinite x = true) : isFinite (fmul fZero x) = true ∧ value (fmul fZero x) = 0 := by
  rw [fmul_finite _ _ unitLevel_fZero.isFinite h, show units fZero = 0 by decide, Nat.zero_mul, rndMag_zero]
  exact ⟨isFinite_pack_zero _, value_pack_zero _⟩

theorem fadd_zero (x z : Word) (hx : isFinite x = true) (hz : isFinite z = true) (h0 : value z = 0) :
    isFinite (fadd x z) = true ∧ value (fadd x z) = value x := by
  rw [fadd_finite x z hx hz, h0, add_zero]
  split
  · next h =>
    rw [h]
    split <;> decide
  · next h =>
    have hs : decide (value x < 0) = signBit x := by
      rw [value_eq_signed]
      exact signed_neg_iff _ _ fun hu => h ((value_eq_zero_iff x).2 hu)
    have hr := rndMag_units x hx 1 one_pos
    rw [Nat.mul_one] at hr
    rw [hs, natAbs_value, hr, pack_magOf]
    exact ⟨hx, rfl⟩

theorem fsub_zero (x z : Word) (hx : isFinite x = true) (hz : isFinite z = true) (h0 : value z = 0) :
    isFinite (fsub x z) = true ∧ value (fsub x z) = value x :=
  fadd_zero x (fneg z) hx (by rwa [isFinite_fneg]) (by rw [value_fneg, h0, neg_zero])

/-- Settles O25. -/
theorem identityFilterPasses : Obligations.IdentityFilterPasses := by
  intro v x hx hb0 _ _ ha1 _
  refine ⟨fun hmode hs1 => ?_, fun hmode => ?_⟩
  · obtain ⟨hfin, hzero⟩ := fmul_fZero v.s1 hs1
    rw [filterStep, if_neg (by rw [hmode]; decide), onePole, hb0, ha1, fmul_fOne x hx]
    exact fsub_zero x _ hx hfin hzero
  · rw [filterStep, if_pos hmode, biquad, hb0, fmul_fOne x hx]
    exact fadd_zero x fZero hx unitLevel_fZero.isFinite value_fZero

end Sys2Proof.Machine
end

