-- ==== Sys2Proof/Proofs/PushQueue.lean ====
section
/-! The queue of pushes (O33, O36): `VIS_PUSH` lengthens it, each engine A step shortens it, and in a fair run it empties
again and again, as a job ends again and again; so no access stays held (R161, R162, R170). -/

namespace Sys2Proof.Machine

open Sys2Proof

-- One proof is elaborated after another here: each thread at work takes its share of the check's memory limit.
set_option Elab.async false

/-- Settles O33. -/
theorem visPushQueuesItsSample : Obligations.VisPushQueuesItsSample := by
  intro s
  refine ⟨s.enqueue [s.arg0], rfl, rfl, ?_, ⟨fun _ => rfl, fun _ => rfl, rfl, rfl, rfl, rfl, rfl, rfl, rfl⟩, rfl, rfl, rfl,
    rfl, rfl⟩
  simp [State.busyA]

/-! ### The queue under engine A's steps -/

theorem busyA_eq_false_iff (s : State) : s.busyA = false ↔ s.pushq = [] := by simp [State.busyA]

theorem engineAStep_pushq (s : State) : s.engineAStep.pushq = s.pushq.tail := by
  cases h : s.pushq with
  | nil => rw [s.engineAStep_nil h, h]; rfl
  | cons x rest => exact (s.engineAStep_keeps x rest h).2

theorem engineAStep_iterate_pushq (n : Nat) (s : State) : (State.engineAStep^[n] s).pushq = s.pushq.drop n := by
  induction n with
  | zero => rfl
  | succ n ih => rw [Function.iterate_succ_apply', engineAStep_pushq, ih, List.tail_drop]

/-! ### Fair runs -/

section Runs

variable {run : Nat → State}

/-- Until it empties the queue does not grow. -/
theorem queue_empties_or_le (hrun : IsRun run) {k j : Nat} (hkj : k ≤ j) :
    (∃ i, k ≤ i ∧ (run i).pushq = []) ∨ (run j).pushq.length ≤ (run k).pushq.length := by
  induction j, hkj using Nat.le_induction with
  | base => exact .inr le_rfl
  | succ j hkj ih =>
    rcases ih with hempty | hle
    · exact .inl hempty
    by_cases hq : (run j).pushq = []
    · exact .inl ⟨j, hkj, hq⟩
    · obtain ⟨-, hqueue, -⟩ := step_keeps _ _ (hrun j)
      exact .inr ((hqueue hq).1.trans hle)

/-- In a run weakly fair to engine A the queue empties from every state on: by induction on a bound of its length, which
each of engine A's steps lowers. -/
theorem exists_queue_empty (hrun : IsRun run) (hfair : WeaklyFair run .engineA) (n : Nat) :
    ∀ k, (run k).pushq.length ≤ n → ∃ j, k ≤ j ∧ (run j).pushq = [] := by
  induction n with
  | zero => exact fun k hk => ⟨k, le_rfl, List.eq_nil_of_length_eq_zero (Nat.le_zero.1 hk)⟩
  | succ n ih =>
    intro k hk
    obtain ⟨j, hkj, hj⟩ := hfair k
    rcases queue_empties_or_le hrun hkj with hempty | hle
    · exact hempty
    by_cases hq : (run j).pushq = []
    · exact ⟨j, hkj, hq⟩
    have hnext : (run j).nextAgent = some .engineA := by
      refine hj.resolve_left fun hen => hq ?_
      simpa [State.enabled] using hen
    obtain ⟨-, hqueue, -⟩ := step_keeps _ _ (hrun j)
    have hlt := (hqueue hq).2 hnext
    obtain ⟨i, hi, hempty⟩ := ih (j + 1) (by omega)
    exact ⟨i, by omega, hempty⟩

/-- In a run weakly fair to engine D a job ends. -/
theorem exists_job_false (hrun : IsRun run) (hfair : WeaklyFair run .engineD) (k : Nat) :
    ∃ j, k ≤ j ∧ (run j).job = false := by
  obtain ⟨j, hkj, hidle | hnext⟩ := hfair k
  · exact ⟨j, hkj, hidle⟩
  cases hjob : (run j).job
  · exact ⟨j, hkj, hjob⟩
  · obtain ⟨-, -, hends⟩ := step_keeps _ _ (hrun j)
    exact ⟨j + 1, by omega, hends hjob hnext⟩

/-- No access waits for both engines (R161, R162). -/
theorem heldByD_eq_false_of_heldByA (isRead : Bool) (o : Nat) (h : heldByA isRead o = true) :
    heldByD isRead o = false := by
  simp only [heldByA, heldByD, inOutBuf, Config.numChannels, Config.scopeSize, Bool.or_eq_true, Bool.and_eq_true,
    decide_eq_true_eq, Bool.or_eq_false_iff, Bool.and_eq_false_iff, decide_eq_false_iff_not] at *
  omega

theorem exists_not_held (hrun : IsRun run) (hfair : EnginesFair run) (x : Access) (k : Nat) :
    ∃ j, k ≤ j ∧ (run j).holds x = false := by
  obtain ⟨hA, hD⟩ := hfair
  cases ha : heldByA x.isRead (wordOffset x.offset)
  · obtain ⟨j, hkj, hjob⟩ := exists_job_false hrun hD k
    exact ⟨j, hkj, by simp [State.holds, State.busyD, ha, hjob]⟩
  · obtain ⟨j, hkj, hempty⟩ := exists_queue_empty hrun hA _ k le_rfl
    have hd := heldByD_eq_false_of_heldByA _ _ ha
    exact ⟨j, hkj, by simp [State.holds, (busyA_eq_false_iff _).2 hempty, hd]⟩

/-- A host that is not next keeps its port. -/
theorem hostPort_of_not_next (hrun : IsRun run) (p : Port) {k j : Nat} (hkj : k ≤ j)
    (hnot : ∀ i, k ≤ i → i < j → (run i).nextAgent ≠ some (hostAgent p)) :
    (run j).hostPort p = (run k).hostPort p := by
  induction j, hkj using Nat.le_induction with
  | base => rfl
  | succ j hkj ih =>
    obtain ⟨hport, -, -⟩ := step_keeps _ _ (hrun j)
    rw [hport p (hnot j hkj (Nat.lt_succ_self j))]
    exact ih fun i hki hij => hnot i hki (hij.trans (Nat.lt_succ_self j))

theorem hostEnabled_iff_of_pending {s : State} {p : Port} {x : Access} {rest : List Access}
    (h : (s.hostPort p).pending = x :: rest) : s.enabled (hostAgent p) = true ↔ s.holds x = false := by
  rw [State.enabled_hostAgent, State.hostEnabled, h]
  simp

/-- A host with an access issued is next at some time: if it never were, its access would stay the oldest, and would be
free to be performed again and again. -/
theorem exists_host_next (hrun : IsRun run) (hfair : EnginesFair run) (p : Port)
    (hhost : StronglyFair run (hostAgent p)) (k : Nat) (x : Access) (rest : List Access)
    (hpend : ((run k).hostPort p).pending = x :: rest) : ∃ j, k ≤ j ∧ (run j).nextAgent = some (hostAgent p) := by
  by_contra hnever
  have hnot : ∀ i, k ≤ i → (run i).nextAgent ≠ some (hostAgent p) := fun i hki hi => hnever ⟨i, hki, hi⟩
  refine hnever (hhost (fun m => ?_) k)
  obtain ⟨j, hj, hfree⟩ := exists_not_held hrun hfair x (max k m)
  have hkj : k ≤ j := (le_max_left k m).trans hj
  have hpend' : ((run j).hostPort p).pending = x :: rest := by
    rw [hostPort_of_not_next hrun p hkj fun i hki _ => hnot i hki]; exact hpend
  exact ⟨j, (le_max_right k m).trans hj, (hostEnabled_iff_of_pending hpend').2 hfree⟩

/-- The first time that the host is next it performs the access. -/
theorem exists_performed (hrun : IsRun run) (hfair : EnginesFair run) (p : Port)
    (hhost : StronglyFair run (hostAgent p)) (k : Nat) (x : Access) (rest : List Access)
    (hpend : ((run k).hostPort p).pending = x :: rest) :
    ∃ j, k ≤ j ∧ ((run j).hostPort p).pending = x :: rest ∧ (run j).holds x = false ∧
      (run j).nextAgent = some (hostAgent p) := by
  classical
  have hex := exists_host_next hrun hfair p hhost k x rest hpend
  obtain ⟨hkj, hnext⟩ := Nat.find_spec hex
  have hpend' : ((run (Nat.find hex)).hostPort p).pending = x :: rest := by
    rw [hostPort_of_not_next hrun p hkj fun i hki hi hn => Nat.find_min hex hi ⟨hki, hn⟩]; exact hpend
  exact ⟨_, hkj, hpend', (hostEnabled_iff_of_pending hpend').1 (State.nextAgent_enabled _ _ hnext), hnext⟩

end Runs

/-- Settles O36. -/
theorem queueDrains : Obligations.QueueDrains := by
  refine ⟨fun s n => ⟨engineAStep_iterate_pushq n s, ?_⟩, fun run hrun hfair => ⟨exists_not_held hrun hfair,
    exists_performed hrun hfair⟩⟩
  rw [busyA_eq_false_iff, engineAStep_iterate_pushq, List.drop_eq_nil_iff]

end Sys2Proof.Machine
end

