-- ==== Sys2Proof/Proofs/StatusWords.lean ====
section
/-! The status words (O6, O45): each is a sum of bits and fields at rising places, read off from the highest down; and what a
write of a status register clears (R516). -/

namespace Sys2Proof.Machine

open Sys2Proof

-- One proof is elaborated after another here: each thread at work takes its share of the check's memory limit.
set_option Elab.async false

/-- A write-one-to-clear bit: kept where the written bit is 0. -/
theorem and_not_eq_if (x w : Bool) : (x && !w) = if w then false else x := by cases w <;> simp

/-- Settles O6. -/
theorem statusWriteClears : Obligations.StatusWriteClears := by
  intro s w
  simp only [← and_not_eq_if]
  exact ⟨rfl, rfl⟩

/-! ### Sums of bits and fields -/

theorem bitAt_eq_mul (k : Nat) (x : Bool) : bitAt k x = 2 ^ k * x.toNat := by cases x <;> simp [bitAt]

theorem testBit_toNat (x : Bool) (i : Nat) : x.toNat.testBit i = (decide (i = 0) && x) := by
  cases i with
  | zero => cases x <;> rfl
  | succ i => cases x <;> simp [Nat.testBit_succ]

/-- A field above a number below its place. -/
theorem testBit_add_field (n k c i : Nat) (h : n < 2 ^ k) :
    (n + 2 ^ k * c).testBit i = if i < k then n.testBit i else c.testBit (i - k) := by
  rw [Nat.add_comm, Nat.testBit_two_pow_mul_add c h]

theorem testBit_add_bitAt (n k : Nat) (x : Bool) (i : Nat) (h : n < 2 ^ k) :
    (n + bitAt k x).testBit i = if i = k then x else n.testBit i := by
  rw [bitAt_eq_mul, testBit_add_field n k _ i h, testBit_toNat]
  rcases lt_trichotomy i k with hlt | rfl | hgt
  · rw [if_pos hlt, if_neg hlt.ne]
  · simp
  · have hz : n.testBit i = false := Nat.testBit_lt_two_pow (h.trans (Nat.pow_lt_pow_right (by norm_num) hgt))
    rw [if_neg hgt.not_gt, if_neg hgt.ne', hz, decide_eq_false (by omega), Bool.false_and]

theorem bitAt_le (k : Nat) (x : Bool) : bitAt k x ≤ 2 ^ k := by
  rw [bitAt_eq_mul]
  exact mul_le_of_le_one_right (Nat.zero_le _) x.toNat_le

theorem testBit_bitAt_zero (x : Bool) (i : Nat) : (bitAt 0 x).testBit i = (decide (i = 0) && x) := by
  rw [bitAt_eq_mul, pow_zero, one_mul, testBit_toNat]

theorem getLsbD_ofNat_of_lt (n i : Nat) (h : n < 2 ^ 32) : (BitVec.ofNat 32 n).getLsbD i = n.testBit i := by
  rw [BitVec.getLsbD_ofNat]
  by_cases hi : i < 32
  · rw [decide_eq_true hi, Bool.true_and]
  · rw [decide_eq_false hi, Bool.false_and,
      Nat.testBit_lt_two_pow (h.trans_le (Nat.pow_le_pow_right (by norm_num) (not_lt.1 hi)))]

/-! ### The words -/

theorem ctrlWord_getLsbD (s : State) (b : Nat) : s.ctrlWord.getLsbD b =
    if b = 0 then s.ctrl.visAuto else if b = 1 then s.ctrl.filtRstOnNoteOn else false := by
  have h0 := bitAt_le 0 s.ctrl.visAuto
  have h1 := bitAt_le 1 s.ctrl.filtRstOnNoteOn
  rw [State.ctrlWord, getLsbD_ofNat_of_lt _ _ (by omega), testBit_add_bitAt _ 1 _ _ (by omega), testBit_bitAt_zero]
  by_cases hb : b = 0
  · subst hb; simp
  · simp [hb]

theorem statusAWord_getLsbD (s : State) (b : Nat) : s.statusAWord.getLsbD b =
    if b = 0 then !s.pushq.isEmpty else if b = 1 then s.statusA.err
    else if 4 ≤ b ∧ b < 8 then s.statusA.errCode.getLsbD (b - 4)
    else if b = 8 then s.statusA.rUnstable else if b = 9 then s.statusA.lClamped
    else if b = 10 then s.statusA.degenNote else if b = 11 then s.statusA.nonfinite else false := by
  have h0 := bitAt_le 0 s.busyA
  have h1 := bitAt_le 1 s.statusA.err
  have hc := s.statusA.errCode.isLt
  have h8 := bitAt_le 8 s.statusA.rUnstable
  have h9 := bitAt_le 9 s.statusA.lClamped
  have h10 := bitAt_le 10 s.statusA.degenNote
  have h11 := bitAt_le 11 s.statusA.nonfinite
  rw [State.statusAWord, getLsbD_ofNat_of_lt _ _ (by omega), testBit_add_bitAt _ 11 _ _ (by omega),
    testBit_add_bitAt _ 10 _ _ (by omega), testBit_add_bitAt _ 9 _ _ (by omega), testBit_add_bitAt _ 8 _ _ (by omega),
    testBit_add_field _ 4 _ _ (by omega), testBit_add_bitAt _ 1 _ _ (by omega), testBit_bitAt_zero, BitVec.testBit_toNat]
  rcases lt_or_ge b 12 with hb | hb
  · interval_cases b <;> simp [State.busyA]
  · rw [BitVec.getLsbD_of_ge _ _ (by omega)]
    simp (disch := omega) only [if_neg]

theorem statusDWord_getLsbD (s : State) (b : Nat) : s.statusDWord.getLsbD b =
    if b = 0 then s.job else if b = 1 then s.statusD.err
    else if 4 ≤ b ∧ b < 8 then s.statusD.errCode.getLsbD (b - 4)
    else if b = 8 then s.vis.ready else if b = 9 then s.statusD.specSkipped else false := by
  have h0 := bitAt_le 0 s.busyD
  have h1 := bitAt_le 1 s.statusD.err
  have hc := s.statusD.errCode.isLt
  have h8 := bitAt_le 8 s.vis.ready
  have h9 := bitAt_le 9 s.statusD.specSkipped
  rw [State.statusDWord, getLsbD_ofNat_of_lt _ _ (by omega), testBit_add_bitAt _ 9 _ _ (by omega),
    testBit_add_bitAt _ 8 _ _ (by omega), testBit_add_field _ 4 _ _ (by omega), testBit_add_bitAt _ 1 _ _ (by omega),
    testBit_bitAt_zero, BitVec.testBit_toNat]
  rcases lt_or_ge b 10 with hb | hb
  · interval_cases b <;> simp [State.busyD]
  · rw [BitVec.getLsbD_of_ge _ _ (by omega)]
    simp (disch := omega) only [if_neg]

/-- One bit for each index below `n`: its sum is below `2^n`, and has each at its place. -/
theorem testBit_sum_bitAt (n : Nat) : ∀ f : Fin n → Bool,
    ((List.finRange n).map fun v => bitAt v.val (f v)).sum < 2 ^ n ∧
    ∀ b, ((List.finRange n).map fun v => bitAt v.val (f v)).sum.testBit b = if h : b < n then f ⟨b, h⟩ else false := by
  induction n with
  | zero => intro f; simp
  | succ n ih =>
    intro f
    obtain ⟨hlt, hbits⟩ := ih fun v => f v.castSucc
    have hsum : ((List.finRange (n + 1)).map fun v => bitAt v.val (f v)).sum =
        ((List.finRange n).map fun v => bitAt v.val (f v.castSucc)).sum + bitAt n (f (Fin.last n)) := by
      simp [List.finRange_succ_last, Function.comp_def]
    rw [hsum]
    refine ⟨?_, fun b => ?_⟩
    · have := bitAt_le n (f (Fin.last n))
      rw [pow_succ]
      omega
    · rw [testBit_add_bitAt _ n _ _ hlt, hbits]
      rcases lt_trichotomy b n with hb | rfl | hb
      · rw [if_neg hb.ne, dif_pos hb, dif_pos (hb.trans (Nat.lt_succ_self n))]
        rfl
      · rw [if_pos rfl, dif_pos (Nat.lt_succ_self b)]
        rfl
      · rw [if_neg hb.ne', dif_neg hb.not_gt, dif_neg (by omega)]

theorem voiceActiveWord_getLsbD (s : State) (b : Nat) :
    s.voiceActiveWord.getLsbD b = if h : b < 8 then (s.voice ⟨b, h⟩).active else false := by
  obtain ⟨hlt, hbits⟩ := testBit_sum_bitAt Config.numVoices fun v => (s.voice v).active
  rw [State.voiceActiveWord, getLsbD_ofNat_of_lt _ _ (hlt.trans (by decide)), hbits]

/-- Settles O45. -/
theorem statusWordBits : Obligations.StatusWordBits := fun s b =>
  ⟨statusAWord_getLsbD s b, statusDWord_getLsbD s b, ctrlWord_getLsbD s b, voiceActiveWord_getLsbD s b⟩

end Sys2Proof.Machine
end

