-- ==== Sys2Proof/Proofs/PlainAccesses.lean ====
section
/-! Host accesses that are no commands (O46, O47): a read answers the element's value and changes nothing of the block; a
write stores its own element, and leaves what every other one reads as, because elements lie at offsets of their own. -/

namespace Sys2Proof.Machine

open Sys2Proof

-- One proof is elaborated after another here: each thread at work takes its share of the check's memory limit.
set_option Elab.async false

/-! ### What performing an access answers -/

theorem hostPort_setHostPort (s : State) (p : Port) (y : HostPort) : (s.setHostPort p y).hostPort p = y := by
  cases p <;> rfl

/-- A host's port is outside the block. -/
theorem sameBlock_setHostPort (s : State) (p : Port) (y : HostPort) : SameBlock s (s.setHostPort p y) := by
  cases p <;> exact ⟨rfl, rfl, rfl, rfl, rfl, rfl, fun _ => rfl, fun _ => rfl, rfl, rfl, rfl, rfl, rfl, rfl⟩

theorem hostStep_of_pending {s : State} {p : Port} {x : Access} {rest : List Access}
    (h : (s.hostPort p).pending = x :: rest) : hostStep p s = performAccess p x rest s := by
  rw [hostStep, h]

/-- A read only answers its host. -/
theorem performAccess_read (p : Port) (w : Width) (o : Offset) (rest : List Access) (s : State) :
    ∃ y, performAccess p (.read w o) rest s = .next (s.setHostPort p y) ∧
      ∀ r, w = .w32 → o.toNat % 4 = 0 → targetAt o.toNat = some r → y = ⟨rest, .readData (s.readTarget r)⟩ := by
  cases hf : busFault w o.toNat with
  | some f =>
    refine ⟨⟨[], errorResponse (.read w o) f⟩, ?_, fun r hw ho hr => ?_⟩
    · simp only [performAccess, Access.width, Access.offset, hf]
    · simp [busFault, hw, ho, hr] at hf
  | none =>
    cases ht : targetAt o.toNat with
    | none =>
      refine ⟨⟨[], errorResponse (.read w o) .unmapped⟩, ?_, fun r _ _ hr => by cases hr⟩
      simp only [performAccess, Access.width, Access.offset, hf, ht]
    | some r =>
      refine ⟨⟨rest, .readData (s.readTarget r)⟩, ?_, fun r' _ _ hr => by cases hr; rfl⟩
      simp only [performAccess, Access.width, Access.offset, hf, ht]

theorem writeAccess_store {r : Target} (hA : r ≠ .cmdA) (hD : r ≠ .cmdD) (x : Word) (s : State) :
    writeAccess r x s = .next (s.writeTarget r x) := by
  unfold writeAccess
  split
  · exact absurd rfl hA
  · exact absurd rfl hD
  · rfl

theorem performAccess_store (p : Port) {o : Offset} {r : Target} (rest : List Access) (x : Word) (s : State)
    (ho : o.toNat % 4 = 0) (hr : targetAt o.toNat = some r) (hA : r ≠ .cmdA) (hD : r ≠ .cmdD) :
    performAccess p (.write .w32 o x) rest s = .next ((s.setHostPort p ⟨rest, .writeDone⟩).writeTarget r x) := by
  have hf : busFault .w32 o.toNat = none := by simp [busFault, ho, hr]
  rw [← writeAccess_store hA hD]
  simp only [performAccess, Access.width, Access.offset, hf, hr]

/-! ### Reads -/

theorem ofNat_bitAt_zero (b : Bool) : BitVec.ofNat 32 (bitAt 0 b) = if b then 1#32 else 0#32 := by cases b <;> rfl

/-- Settles O46. -/
theorem readsHaveNoSideEffect : Obligations.ReadsHaveNoSideEffect := by
  intro p s w o rest hpend
  obtain ⟨y, hstep, hmapped⟩ := performAccess_read p w o rest s
  refine ⟨s.setHostPort p y, (hostStep_of_pending hpend).trans hstep, sameBlock_setHostPort s p y, fun r hw ho hr => ?_⟩
  refine ⟨s.readTarget r, (hostPort_setHostPort s p y).trans (hmapped r hw ho hr), rfl, ?_⟩
  cases r with
  | config0 => exact (by decide : config0Word = 0x00000288#32)
  | config1 => exact (by decide : config1Word = 0x04002000#32)
  | filtMode => exact ofNat_bitAt_zero _
  | resultD => exact ofNat_bitAt_zero _
  | fifoIndex => exact BitVec.toNat_setWidth_of_le (by decide)
  | _ => rfl

/-! ### Every element lies at an offset of its own -/

theorem offset_of_mem_registerMap : ∀ e ∈ registerMap, e.2.offset = e.1 := by decide

theorem offset_of_windowTarget {o : Nat} {r : Target} (ho : o % 4 = 0) (h : windowTarget o = some r) : r.offset = o := by
  unfold windowTarget at h
  split at h
  · cases h
    simp only [Target.offset, ringAddr]
    omega
  split at h
  · cases h
    simp only [Target.offset, scopeAddr]
    omega
  split at h
  · cases h
    simp only [Target.offset, outAddr]
    omega
  · cases h

theorem offset_of_targetAt {o : Nat} {r : Target} (ho : o % 4 = 0) (h : targetAt o = some r) : r.offset = o := by
  unfold targetAt at h
  split at h
  · next t ht =>
    cases h
    exact offset_of_mem_registerMap _ (mem_registerMap_of_lookup ht)
  · exact offset_of_windowTarget ho h

/-! ### Writes -/

theorem ctrlWord_ctrlOfWord (s : State) (x : Word) : (s.setCtrl (ctrlOfWord x)).ctrlWord = x &&& 0x3#32 := by
  apply BitVec.eq_of_getLsbD_eq
  intro b hb
  rw [ctrlWord_getLsbD, BitVec.getLsbD_and, show (0x3#32 : Word).getLsbD b = decide (b < 2) by revert b; decide]
  by_cases h0 : b = 0
  · subst h0; simp [ctrlOfWord]
  by_cases h1 : b = 1
  · subst h1; simp [ctrlOfWord]
  · rw [if_neg h0, if_neg h1, decide_eq_false (by omega), Bool.and_false]

theorem filtModeWord_filtModeOfWord (x : Word) : BitVec.ofNat 32 (bitAt 0 (filtModeOfWord x)) = x &&& 0x1#32 := by
  apply BitVec.eq_of_getLsbD_eq
  intro b hb
  rw [getLsbD_ofNat_of_lt _ _ ((bitAt_le 0 _).trans_lt (by decide)), testBit_bitAt_zero, BitVec.getLsbD_and,
    show (0x1#32 : Word).getLsbD b = decide (b = 0) by revert b; decide]
  by_cases h0 : b = 0
  · subst h0; simp [filtModeOfWord]
  · rw [decide_eq_false h0, Bool.false_and, Bool.and_false]

section Independence

variable {s : State} {r : Target}

theorem readTarget_setCtrl (c : Ctrl) (h : r ≠ .ctrl) : (s.setCtrl c).readTarget r = s.readTarget r := by
  cases r <;> first | rfl | exact absurd rfl h

theorem readTarget_setStatusA (x : StatusA) (h : r ≠ .statusA) : (s.setStatusA x).readTarget r = s.readTarget r := by
  cases r <;> first | rfl | exact absurd rfl h

theorem readTarget_setStatusD (x : StatusD) (h : r ≠ .statusD) : (s.setStatusD x).readTarget r = s.readTarget r := by
  cases r <;> first | rfl | exact absurd rfl h

theorem readTarget_setArg0 (x : Word) (h : r ≠ .arg0) : (s.setArg0 x).readTarget r = s.readTarget r := by
  cases r <;> first | rfl | exact absurd rfl h

theorem readTarget_setArg1 (x : Word) (h : r ≠ .arg1) : (s.setArg1 x).readTarget r = s.readTarget r := by
  cases r <;> first | rfl | exact absurd rfl h

/-- A word written into `OUT_BUF` changes no element that lies beside it. -/
theorem readTarget_writeOut (c i : Nat) (x : Word) (h : r.offset + 4 ≤ outAddr c i ∨ outAddr c i + 4 ≤ r.offset) :
    (s.writeTarget (.outBuf c i) x).readTarget r = s.readTarget r := by
  cases r with
  | waveRing k => exact Memory.readWord_writeWord_other _ _ _ _ _ h
  | scope k => exact Memory.readWord_writeWord_other _ _ _ _ _ h
  | outBuf d k => exact Memory.readWord_writeWord_other _ _ _ _ _ h
  | _ => rfl

theorem readTarget_writeTarget_of_ne (r' : Target) (x : Word) (hne : r ≠ r')
    (hout : ∀ c i, r' = .outBuf c i → r.offset + 4 ≤ outAddr c i ∨ outAddr c i + 4 ≤ r.offset) :
    (s.writeTarget r' x).readTarget r = s.readTarget r := by
  cases r' with
  | ctrl => exact readTarget_setCtrl _ hne
  | statusA => exact readTarget_setStatusA _ hne
  | statusD => exact readTarget_setStatusD _ hne
  | arg0 => exact readTarget_setArg0 _ hne
  | arg1 => exact readTarget_setArg1 _ hne
  | outBuf c i => exact readTarget_writeOut c i x (hout c i rfl)
  | sampleRate | attack | decay | sustain | release | bridgeR | pluckPos | filtMode | filtB0 | filtB1 | filtB2 | filtA1
  | filtA2 => cases r <;> first | rfl | exact absurd rfl hne
  | _ => rfl

end Independence

theorem writeOut_sameBytesBut (s : State) (c i : Nat) (x : Word) :
    SameBytesBut (wordBytes (outAddr c i)) s (s.writeTarget (.outBuf c i) x) := by
  intro a ha
  refine Memory.readByte_writeWord_other _ _ _ _ _ ?_
  by_contra hin
  exact ha ⟨a - outAddr c i, by omega, by omega⟩

/-- Settles O47. -/
theorem writesStoreTheirElement : Obligations.WritesStoreTheirElement := by
  intro s x
  refine ⟨fun p o r rest hpend ho hr hA hD => ?_, fun r hr => ?_, ctrlWord_ctrlOfWord s x, filtModeWord_filtModeOfWord x,
    fun c i => ⟨Memory.readWord_writeWord_same _ _ _ _, writeOut_sameBytesBut s c i x⟩, fun r hr => ?_,
    fun k => ⟨rfl, rfl⟩, fun r => ?_, fun o o' r r' hr hr' ho ho' hne => ?_⟩
  · rw [hostStep_of_pending hpend]
    exact performAccess_store p rest x s ho hr hA hD
  · fin_cases hr <;> rfl
  · fin_cases hr <;> rfl
  · cases r <;> exact ⟨fun _ => rfl, rfl, rfl, rfl⟩
  · have e := offset_of_targetAt ho hr
    have e' := offset_of_targetAt ho' hr'
    refine readTarget_writeTarget_of_ne r x ?_ fun c i hout => ?_
    · rintro rfl
      exact hne (e.symm.trans e')
    · subst hout
      simp only [Target.offset] at e
      omega

end Sys2Proof.Machine
end

