-- ==== Sys2Proof/Proofs/NoteRegisters.lean ====
section
/-! No command but `NOTE_ON` and no engine reads a configuration register (O55): each commutes with replacing them all. -/

namespace Sys2Proof.Machine

open Sys2Proof

-- One proof is elaborated after another here: each thread at work takes its share of the check's memory limit.
set_option Elab.async false

section Commute

variable (s : State) (n : NoteRegs)

theorem peekValue_setNote (v : Fin Config.numVoices) (space : PeekSpace) (index : Nat) :
    (s.setNote n).peekValue v space index = s.peekValue v space index := by
  cases space <;> rfl

theorem renderVoice_setNote (start count : Nat) (v : Fin Config.numVoices) :
    (s.setNote n).renderVoice start count v = (s.renderVoice start count v).setNote n := by
  cases ha : (s.voice v).active
  · rw [s.renderVoice_inactive start count v ha, (s.setNote n).renderVoice_inactive start count v ha]
  · rw [s.renderVoice_active start count v ha, (s.setNote n).renderVoice_active start count v ha]
    rfl

theorem renderVoices_setNote (start count : Nat) :
    (s.setNote n).renderVoices start count = (s.renderVoices start count).setNote n := by
  unfold State.renderVoices
  generalize List.finRange Config.numVoices = vs
  induction vs generalizing s with
  | nil => rfl
  | cons v vs ih => rw [List.foldl_cons, List.foldl_cons, renderVoice_setNote, ih]

theorem handOff_setNote (start count : Nat) : (s.setNote n).handOff start count = (s.handOff start count).setNote n := by
  cases h : s.ctrl.visAuto
  · simp [State.handOff, h]
  · simp only [State.handOff, State.setNote_ctrl, h, if_true]
    rfl

theorem pushFifo_setNote (x : Word) : (s.setNote n).pushFifo x = (s.pushFifo x).setNote n := by
  by_cases hk : s.vis.fifoIndex.toNat + 1 < Config.fifoCap
  · rw [State.pushFifo_partial s x hk, State.pushFifo_partial (s.setNote n) x hk]
    rfl
  · cases hr : s.vis.ready
    · rw [State.pushFifo_copy s x hk hr, State.pushFifo_copy (s.setNote n) x hk hr]
      rfl
    · rw [State.pushFifo_skip s x hk hr, State.pushFifo_skip (s.setNote n) x hk hr]
      rfl

theorem engineAStep_setNote : (s.setNote n).engineAStep = s.engineAStep.setNote n := by
  cases hq : s.pushq with
  | nil => rw [State.engineAStep_nil s hq, State.engineAStep_nil (s.setNote n) hq]
  | cons x rest =>
    rw [State.engineAStep_cons s x rest hq, State.engineAStep_cons (s.setNote n) x rest hq]
    exact pushFifo_setNote ((s.setPushq rest).pushRing x) n x

theorem engineDStep_setNote : (s.setNote n).engineDStep = s.engineDStep.setNote n := by
  have hin : (s.setNote n).jobInput = s.jobInput := rfl
  unfold State.engineDStep
  rw [hin]
  generalize scopeLevels s.jobInput = levels
  rfl

/-- Every command but `NOTE_ON` does the same with other configuration registers. -/
theorem exec_setNote (i : Instr) (hi : ∀ v, i ≠ .noteOn v) :
    ∃ t, exec i s = .next t ∧ exec i (s.setNote n) = .next (t.setNote n) := by
  cases i with
  | nopA => exact ⟨s, rfl, rfl⟩
  | nopD => exact ⟨s, rfl, rfl⟩
  | visPush => exact ⟨_, rfl, rfl⟩
  | noteOn voice => exact absurd rfl (hi voice)
  | noteOff voice tail =>
    by_cases hv : voice < Config.numVoices
    · cases ha : (s.voice ⟨voice, hv⟩).active
      · exact ⟨_, exec_noteOff_idle s ⟨voice, hv⟩ tail ha, exec_noteOff_idle (s.setNote n) ⟨voice, hv⟩ tail ha⟩
      · exact ⟨_, exec_noteOff_active s ⟨voice, hv⟩ tail ha, exec_noteOff_active (s.setNote n) ⟨voice, hv⟩ tail ha⟩
    · exact ⟨_, exec_noteOff_range s voice tail (not_lt.1 hv), exec_noteOff_range (s.setNote n) voice tail (not_lt.1 hv)⟩
  | renderBlock start count =>
    by_cases hb : start + count ≤ Config.blockMax
    · refine ⟨_, exec_renderBlock s start count hb, ?_⟩
      rw [exec_renderBlock _ start count hb, renderVoices_setNote, handOff_setNote]
    · exact ⟨_, exec_renderBlock_range s start count (not_le.1 hb),
        exec_renderBlock_range (s.setNote n) start count (not_le.1 hb)⟩
  | outClear start count =>
    by_cases hb : start + count ≤ Config.blockMax
    · exact ⟨_, exec_outClear s start count hb, exec_outClear (s.setNote n) start count hb⟩
    · exact ⟨_, exec_outClear_range s start count (not_le.1 hb),
        exec_outClear_range (s.setNote n) start count (not_le.1 hb)⟩
  | peek voice space index =>
    by_cases hv : voice < Config.numVoices
    · have hsame := peekValue_setNote s n ⟨voice, hv⟩ space index
      cases hp : s.peekValue ⟨voice, hv⟩ space index with
      | none =>
        exact ⟨_, exec_peek_index s ⟨voice, hv⟩ space index hp,
          exec_peek_index (s.setNote n) ⟨voice, hv⟩ space index (hsame.trans hp)⟩
      | some w =>
        exact ⟨_, exec_peek s ⟨voice, hv⟩ space index w hp,
          exec_peek (s.setNote n) ⟨voice, hv⟩ space index w (hsame.trans hp)⟩
    · exact ⟨_, exec_peek_range s voice space index (not_lt.1 hv),
        exec_peek_range (s.setNote n) voice space index (not_lt.1 hv)⟩
  | specProcess =>
    cases hr : s.vis.ready
    · refine ⟨s.setProcessed false, ?_, ?_⟩ <;> simp only [exec, execSpecProcess, State.setNote_vis, hr] <;> rfl
    · refine ⟨s.setJob true, ?_, ?_⟩ <;> simp only [exec, execSpecProcess, State.setNote_vis, hr] <;> rfl

end Commute

/-- Settles O55. -/
theorem onlyNoteOnReadsNoteRegisters : Obligations.OnlyNoteOnReadsNoteRegisters := fun s n =>
  ⟨exec_setNote s n, engineAStep_setNote s n, engineDStep_setNote s n⟩

end Sys2Proof.Machine
end

