-- ==== Sys2Proof/Proofs/AddressMap.lean ====
section
/-! The address map (O48): a register's offset names it, an element's offset names the element, and the aligned offsets of
neither kind are the gaps of R154. -/

namespace Sys2Proof.Machine

open Sys2Proof

/-! ### Registers -/

/-- The registers lie in three runs of adjacent words, all below the first window. -/
theorem registerMap_offsets : registerMap.map Prod.fst =
    (List.range 11 ++ List.range' 12 13 ++ List.range' 64 5).map (4 * ·) := by decide

theorem lookup_registerMap_eq_none_iff (o : Nat) : registerMap.lookup o = none ↔ o ∉ registerMap.map Prod.fst := by
  rw [List.lookup_eq_none_iff, List.mem_map]
  grind

/-- The aligned offsets that are no register's: the gap in port A's registers, the one up to port D's, and all above. -/
theorem lookup_registerMap_eq_none_iff_gap {o : Nat} (ho : o % 4 = 0) : registerMap.lookup o = none ↔
    o = 0x02C ∨ (0x064 ≤ o ∧ o < 0x100) ∨ 0x114 ≤ o := by
  have hmem : o ∈ registerMap.map Prod.fst ↔ ∃ k, ((k < 11 ∨ 12 ≤ k ∧ k < 25) ∨ 64 ≤ k ∧ k < 69) ∧ 4 * k = o := by
    simp only [registerMap_offsets, List.mem_map, List.mem_append, List.mem_range, List.mem_range'_1, Nat.reduceAdd]
  rw [lookup_registerMap_eq_none_iff, hmem]
  constructor
  · intro hnone
    by_contra hgap
    exact hnone ⟨o / 4, by omega, by omega⟩
  · rintro hgap ⟨k, hk, hko⟩
    omega

theorem targetAt_of_mem_registerMap : ∀ e ∈ registerMap, targetAt e.1 = some e.2 := by decide

/-! ### Windows -/

theorem targetAt_of_ge {o : Nat} (ho : o % 4 = 0) (h : 0x114 ≤ o) : targetAt o = windowTarget o := by
  rw [targetAt, (lookup_registerMap_eq_none_iff_gap ho).2 (.inr (.inr h))]

theorem windowTarget_eq_none_iff (o : Nat) : windowTarget o = none ↔
    o < 0x1000 ∨ (0x1800 ≤ o ∧ o < 0x2000) ∨ (0x3000 ≤ o ∧ o < 0x4000) ∨ 0x6000 ≤ o := by
  simp only [windowTarget, Config.waveCap, Config.scopeSize, Config.numChannels, Config.blockMax]
  split
  · simp only [reduceCtorEq, false_iff]; omega
  split
  · simp only [reduceCtorEq, false_iff]; omega
  split
  · simp only [reduceCtorEq, false_iff]; omega
  · simp only [true_iff]; omega

theorem windowTarget_ringAddr {k : Nat} (hk : k < 512) : windowTarget (ringAddr k) = some (.waveRing k) := by
  have hring : 0x1000 ≤ ringAddr k ∧ ringAddr k < 0x1000 + 4 * Config.waveCap := by
    unfold ringAddr Config.waveCap; omega
  have hindex : (ringAddr k - 0x1000) / 4 = k := by unfold ringAddr; omega
  rw [windowTarget, if_pos hring, hindex]

theorem windowTarget_scopeAddr {i : Nat} (hi : i < 1024) : windowTarget (scopeAddr i) = some (.scope i) := by
  have hring : ¬ (0x1000 ≤ scopeAddr i ∧ scopeAddr i < 0x1000 + 4 * Config.waveCap) := by
    unfold scopeAddr Config.waveCap; omega
  have hscope : 0x2000 ≤ scopeAddr i ∧ scopeAddr i < 0x2000 + 4 * Config.scopeSize := by
    unfold scopeAddr Config.scopeSize; omega
  have hindex : (scopeAddr i - 0x2000) / 4 = i := by unfold scopeAddr; omega
  rw [windowTarget, if_neg hring, if_pos hscope, hindex]

theorem windowTarget_outAddr {c i : Nat} (hc : c < 2) (hi : i < 1024) :
    windowTarget (outAddr c i) = some (.outBuf c i) := by
  have hring : ¬ (0x1000 ≤ outAddr c i ∧ outAddr c i < 0x1000 + 4 * Config.waveCap) := by
    unfold outAddr Config.waveCap; omega
  have hscope : ¬ (0x2000 ≤ outAddr c i ∧ outAddr c i < 0x2000 + 4 * Config.scopeSize) := by
    unfold outAddr Config.scopeSize; omega
  have hchannel : (outAddr c i - 0x4000) / 0x1000 = c := by unfold outAddr; omega
  have hbyte : (outAddr c i - 0x4000) % 0x1000 = 4 * i := by unfold outAddr; omega
  have hout : 0x4000 ≤ outAddr c i ∧ c < Config.numChannels ∧ 4 * i < 4 * Config.blockMax := by
    unfold outAddr Config.numChannels Config.blockMax; omega
  rw [windowTarget, if_neg hring, if_neg hscope, hchannel, hbyte, if_pos hout, Nat.mul_div_cancel_left i (by decide)]

/-! ### The whole map -/

theorem targetAt_eq_none_iff (o : Nat) :
    targetAt o = none ↔ registerMap.lookup o = none ∧ windowTarget o = none := by
  unfold targetAt
  cases registerMap.lookup o with
  | none => simp only [true_and]
  | some r => simp only [reduceCtorEq, false_and]

/-- Settles O48. -/
theorem unmappedOffsets : Obligations.UnmappedOffsets := by
  refine ⟨fun o ho => ?_, targetAt_of_mem_registerMap, fun k hk => ?_, fun i hi => ?_, fun c i hc hi => ?_⟩
  · rw [targetAt_eq_none_iff, lookup_registerMap_eq_none_iff_gap ho, windowTarget_eq_none_iff]
    omega
  · exact (targetAt_of_ge (by omega) (by omega)).trans (windowTarget_ringAddr hk)
  · exact (targetAt_of_ge (by omega) (by omega)).trans (windowTarget_scopeAddr hi)
  · exact (targetAt_of_ge (by omega) (by omega)).trans (windowTarget_outAddr hc hi)

end Sys2Proof.Machine
end

