-- ==== Sys2Proof/Proofs/AgentChoice.lean ====
section
/-! Which agents have an enabled step, which access waits, and that a step is the chosen agent's (O50, O53). -/

namespace Sys2Proof.Machine

open Sys2Proof

section Choice

variable {s : State}

/-! ### The chosen agent's step -/

theorem step_of_nextAgent {a : Agent} (h : s.nextAgent = some a) : step s = agentStep a s.beginTurn := by
  rw [step, h]

theorem step_of_all_disabled (h : ∀ a, s.enabled a = false) : step s = .next s := by
  cases hn : s.nextAgent with
  | none => rw [step, hn]
  | some a => exact absurd (s.nextAgent_enabled a hn) (by simp [h a])

/-- A choice from outside is followed where it names an enabled agent. -/
theorem nextAgent_of_choice {a : Agent} {rest : List Agent} (he : s.enabled a = true)
    (hc : s.env.choices = a :: rest) : s.nextAgent = some a := by
  simp only [State.nextAgent, hc, if_pos he]

theorem agentStep_hostAgent (p : Port) (s : State) : agentStep (hostAgent p) s = hostStep p s := by
  cases p <;> rfl

theorem hostPort_beginTurn (s : State) (p : Port) : s.beginTurn.hostPort p = s.hostPort p := by
  cases p <;> rfl

/-! ### Enabled agents -/

theorem enabled_engineA_iff : s.enabled .engineA = true ↔ s.pushq ≠ [] := by
  simp [State.enabled]

theorem enabled_hostAgent_iff (p : Port) : s.enabled (hostAgent p) = true ↔
    ∃ x rest, (s.hostPort p).pending = x :: rest ∧ s.holds x = false := by
  cases hp : (s.hostPort p).pending with
  | nil => simp [State.enabled_hostAgent, State.hostEnabled, hp]
  | cons x rest =>
    rw [hostEnabled_iff_of_pending hp]
    constructor
    · exact fun hx => ⟨x, rest, rfl, hx⟩
    · rintro ⟨_, _, heq, hx⟩
      cases heq
      exact hx

/-- A host whose oldest access is held does not take the next step. -/
theorem nextAgent_ne_of_holds {p : Port} {x : Access} {rest : List Access}
    (hp : (s.hostPort p).pending = x :: rest) (hx : s.holds x = true) : s.nextAgent ≠ some (hostAgent p) := by
  intro hn
  have hfree := (hostEnabled_iff_of_pending hp).1 (s.nextAgent_enabled _ hn)
  rw [hx] at hfree
  cases hfree

/-! ### Held accesses -/

theorem busyA_iff : s.busyA = true ↔ s.pushq ≠ [] := by simp [State.busyA]

theorem inOutBuf_iff (o : Nat) : inOutBuf o = true ↔ 0x4000 ≤ o ∧ o < 0x6000 := by
  simp only [inOutBuf, Config.numChannels, Config.blockMax, Bool.and_eq_true, decide_eq_true_eq]
  omega

theorem heldByA_iff (isRead : Bool) (o : Nat) : heldByA isRead o = true ↔
    (0x010 ≤ o ∧ o ≤ 0x060 ∧ ¬ (isRead = true ∧ o = 0x014)) ∨ (0x4000 ≤ o ∧ o < 0x6000) := by
  cases isRead <;> simp [heldByA, inOutBuf_iff, and_assoc]

theorem heldByD_iff (isRead : Bool) (o : Nat) : heldByD isRead o = true ↔
    o = 0x104 ∨ o = 0x108 ∨ (0x2000 ≤ o ∧ o < 0x3000) ∨ (isRead = false ∧ o = 0x100) := by
  simp [heldByD, Config.scopeSize, or_assoc]

theorem wordOffset_of_aligned {o : Nat} (h : o % 4 = 0) : wordOffset o = o := by
  rw [wordOffset, h, Nat.sub_zero]

theorem holds_iff (x : Access) : s.holds x = true ↔
    (s.pushq ≠ [] ∧ heldByA x.isRead (wordOffset x.offset) = true) ∨
    (s.job = true ∧ heldByD x.isRead (wordOffset x.offset) = true) := by
  rw [State.holds, Bool.or_eq_true, Bool.and_eq_true, Bool.and_eq_true, busyA_iff, State.busyD]

end Choice

/-- Settles O50. -/
theorem heldAccesses : Obligations.HeldAccesses := by
  intro s x
  refine ⟨fun hx => ?_, fun _ hheld hpend => nextAgent_ne_of_holds (p := .a) hpend hheld,
    fun _ hheld hpend => nextAgent_ne_of_holds (p := .d) hpend hheld⟩
  rw [holds_iff, wordOffset_of_aligned hx, heldByA_iff, heldByD_iff]

/-- Settles O53. -/
theorem stepIsOneAgentsStep : Obligations.StepIsOneAgentsStep := fun s =>
  ⟨fun a hn => ⟨s.nextAgent_enabled a hn, step_of_nextAgent hn⟩, fun _ _ => nextAgent_of_choice, step_of_all_disabled,
    enabled_engineA_iff, Iff.rfl, enabled_hostAgent_iff, Iff.rfl⟩

end Sys2Proof.Machine
end

