-- ==== Sys2Proof/Proofs/BusErrors.lean ====
section
/-! Bus errors (O49): the access of another width, misaligned or unmapped only answers its host. -/

namespace Sys2Proof.Machine

open Sys2Proof

theorem exists_busFault {w : Width} {o : Nat} (h : w ≠ .w32 ∨ o % 4 ≠ 0 ∨ targetAt o = none) :
    ∃ f, busFault w o = some f := by
  unfold busFault
  split
  · exact ⟨_, rfl⟩
  split
  · exact ⟨_, rfl⟩
  split
  · exact ⟨_, rfl⟩
  · next hw ha ht => exact absurd h (by simp only [hw, ha, ht, or_self, not_false_eq_true])

theorem performAccess_of_busFault (p : Port) {x : Access} (rest : List Access) (s : State) {f : Fault}
    (h : busFault x.width x.offset = some f) :
    performAccess p x rest s = .next (s.setHostPort p ⟨[], errorResponse x f⟩) := by
  simp only [performAccess, h]

theorem errorResponse_of_read {x : Access} (h : x.isRead = true) (f : Fault) :
    errorResponse x f = .readError f 0x00000000#32 := by
  cases x with
  | read => rfl
  | write => cases h

theorem errorResponse_of_write {x : Access} (h : x.isRead = false) (f : Fault) :
    errorResponse x f = .writeError f := by
  cases x with
  | read => cases h
  | write => rfl

/-- Settles O49. -/
theorem busErrorChangesNothing : Obligations.BusErrorChangesNothing := by
  intro p s x rest hpend herr
  obtain ⟨f, hf⟩ := exists_busFault herr
  refine ⟨s.setHostPort p ⟨[], errorResponse x f⟩, f, ?_, sameBlock_setHostPort _ _ _, fun hr => ?_, fun hw => ?_⟩
  · rw [hostStep_of_pending hpend, performAccess_of_busFault p rest s hf]
  · rw [hostPort_setHostPort, errorResponse_of_read hr]
  · rw [hostPort_setHostPort, errorResponse_of_write hw]

end Sys2Proof.Machine
end

