-- ==== Sys2Proof/Proofs/CommandWords.lean ====
section
/-! SUPPORT. Command words: what a port decodes is well formed, the word of a well-formed command decodes to it on its
port (R208, R212), and the bus presents the word as it is (R156). -/

namespace Sys2Proof

/-! ### Decoded commands are well formed -/

theorem field_lt (w : Word) (lo len : Nat) : field w lo len < 2 ^ len := (w.extractLsb' lo len).isLt

theorem wellFormed_of_decodeNoteOn {w : Word} {i : Instr} (h : decodeNoteOn w = .ok i) : i.WellFormed := by
  unfold decodeNoteOn at h
  split at h <;> cases h
  exact decide_eq_true (field_lt w 16 5)

theorem wellFormed_of_decodeNoteOff {w : Word} {i : Instr} (h : decodeNoteOff w = .ok i) : i.WellFormed := by
  unfold decodeNoteOff at h
  split at h <;> cases h
  exact decide_eq_true (field_lt w 16 5)

theorem wellFormed_of_decodePeek {w : Word} {i : Instr} (h : decodePeek w = .ok i) : i.WellFormed := by
  have hwf : ∀ space, (Instr.peek (voiceField w) space (indexField w)).WellFormed := fun _ =>
    Bool.and_eq_true_iff.2 ⟨decide_eq_true (field_lt w 16 5), decide_eq_true (field_lt w 0 14)⟩
  unfold decodePeek at h
  split at h
  · split at h <;> cases h <;> exact hwf _
  · cases h

theorem wellFormed_block (w : Word) : (Instr.renderBlock (startField w) (countField w)).WellFormed :=
  Bool.and_eq_true_iff.2 ⟨decide_eq_true (field_lt w 12 12), decide_eq_true (field_lt w 0 12)⟩

theorem wellFormed_of_decode {p : Port} {w : Word} {i : Instr} (h : decode p w = .ok i) : i.WellFormed := by
  cases p with
  | a =>
    simp only [decode, decodeA] at h
    split at h
    · rw [Machine.decodeN_eq_ok h]; rfl
    split at h
    · exact wellFormed_of_decodeNoteOn h
    split at h
    · exact wellFormed_of_decodeNoteOff h
    split at h
    · cases h; exact wellFormed_block w
    split at h
    · cases h; exact wellFormed_block w
    split at h
    · rw [Machine.decodeN_eq_ok h]; rfl
    split at h
    · exact wellFormed_of_decodePeek h
    · cases h
  | d =>
    simp only [decode, decodeD] at h
    split at h
    · rw [Machine.decodeN_eq_ok h]; rfl
    split at h
    · rw [Machine.decodeN_eq_ok h]; rfl
    · cases h

/-! ### Words of commands decode -/

/-- The fields below the opcode of a word made of an opcode and its low bits. -/
theorem field_wordOf (opcode : Nat) {low lo len : Nat} (hlow : low < 2 ^ 24) (hlen : lo + len ≤ 24) :
    field (wordOf opcode low) lo len = low / 2 ^ lo % 2 ^ len := by
  rw [Laws.OpcodeField.field_eq, wordOf, BitVec.toNat_ofNat]
  refine Nat.eq_of_testBit_eq fun b => ?_
  simp only [Nat.testBit_mod_two_pow, Nat.testBit_div_two_pow]
  by_cases hb : b < len
  · rw [Nat.mul_comm, Nat.testBit_two_pow_mul_add opcode hlow]
    simp [hb, show b + lo < 24 by omega, show b + lo < 32 by omega]
  · simp [hb]

theorem decodeNoteOn_encode {voice : Nat} (h : voice < 2 ^ 5) :
    decodeNoteOn (encode (.noteOn voice)) = .ok (.noteOn voice) := by
  have hlow : voice * 2 ^ 16 < 2 ^ 24 := by omega
  simp only [decodeNoteOn, voiceField, encode, field_wordOf _ hlow (show 21 + 3 ≤ 24 by decide),
    field_wordOf _ hlow (show 0 + 16 ≤ 24 by decide), field_wordOf _ hlow (show 16 + 5 ≤ 24 by decide)]
  rw [if_pos (by omega), show voice * 2 ^ 16 / 2 ^ 16 % 2 ^ 5 = voice by omega]

theorem decodeNoteOff_encode {voice : Nat} (h : voice < 2 ^ 5) (tail : Bool) :
    decodeNoteOff (encode (.noteOff voice tail)) = .ok (.noteOff voice tail) := by
  have htail := Bool.toNat_lt tail
  have hlow : voice * 2 ^ 16 + tail.toNat < 2 ^ 24 := by omega
  simp only [decodeNoteOff, voiceField, encode, field_wordOf _ hlow (show 21 + 3 ≤ 24 by decide),
    field_wordOf _ hlow (show 1 + 15 ≤ 24 by decide), field_wordOf _ hlow (show 16 + 5 ≤ 24 by decide),
    field_wordOf _ hlow (show 0 + 1 ≤ 24 by decide)]
  rw [if_pos (by omega), show (voice * 2 ^ 16 + tail.toNat) / 2 ^ 16 % 2 ^ 5 = voice by omega,
    show (voice * 2 ^ 16 + tail.toNat) / 2 ^ 0 % 2 ^ 1 = tail.toNat by omega]
  cases tail <;> rfl

theorem decodePeek_encode {voice index : Nat} (hv : voice < 2 ^ 5) (hi : index < 2 ^ 14) (space : PeekSpace) :
    decodePeek (encode (.peek voice space index)) = .ok (.peek voice space index) := by
  have hspace : space.code ≤ 2 := by cases space <;> decide
  have hlow : voice * 2 ^ 16 + space.code * 2 ^ 14 + index < 2 ^ 24 := by omega
  simp only [decodePeek, voiceField, indexField, encode, field_wordOf _ hlow (show 21 + 3 ≤ 24 by decide),
    field_wordOf _ hlow (show 14 + 2 ≤ 24 by decide), field_wordOf _ hlow (show 16 + 5 ≤ 24 by decide),
    field_wordOf _ hlow (show 0 + 14 ≤ 24 by decide)]
  rw [if_pos (by omega),
    show (voice * 2 ^ 16 + space.code * 2 ^ 14 + index) / 2 ^ 16 % 2 ^ 5 = voice by omega,
    show (voice * 2 ^ 16 + space.code * 2 ^ 14 + index) / 2 ^ 14 % 2 ^ 2 = space.code by omega,
    show (voice * 2 ^ 16 + space.code * 2 ^ 14 + index) / 2 ^ 0 % 2 ^ 14 = index by omega]
  cases space <;> rfl

theorem block_fields {w : Word} {opcode start count : Nat} (hs : start < 2 ^ 12) (hc : count < 2 ^ 12)
    (hw : w = wordOf opcode (start * 2 ^ 12 + count)) : startField w = start ∧ countField w = count := by
  have hlow : start * 2 ^ 12 + count < 2 ^ 24 := by omega
  rw [hw, startField, countField, field_wordOf _ hlow (by decide), field_wordOf _ hlow (by decide)]
  omega

section Opcodes

variable {w : Word}

theorem decodeA_of_opcode_noteOn (h : opcodeField w = 0x01) : decodeA w = decodeNoteOn w := by
  simp [decodeA, h]

theorem decodeA_of_opcode_noteOff (h : opcodeField w = 0x02) : decodeA w = decodeNoteOff w := by
  simp [decodeA, h]

theorem decodeA_of_opcode_renderBlock (h : opcodeField w = 0x03) :
    decodeA w = .ok (.renderBlock (startField w) (countField w)) := by
  simp [decodeA, h]

theorem decodeA_of_opcode_outClear (h : opcodeField w = 0x04) :
    decodeA w = .ok (.outClear (startField w) (countField w)) := by
  simp [decodeA, h]

theorem decodeA_of_opcode_peek (h : opcodeField w = 0x06) : decodeA w = decodePeek w := by
  simp [decodeA, h]

end Opcodes

/-- The word of a well-formed command decodes to it on its port: the opcode picks the command's decoder (family
`OpcodeField`), which reads the operands back. -/
theorem decode_encode (i : Instr) (h : i.WellFormed) : decode i.port (encode i) = .ok i := by
  cases i with
  | nopA | visPush | nopD | specProcess => decide
  | noteOn voice =>
    have hop := Laws.OpcodeField.noteOn voice h
    exact (decodeA_of_opcode_noteOn hop).trans (decodeNoteOn_encode (of_decide_eq_true h))
  | noteOff voice tail =>
    have hop := Laws.OpcodeField.noteOff voice tail h
    exact (decodeA_of_opcode_noteOff hop).trans (decodeNoteOff_encode (of_decide_eq_true h) tail)
  | peek voice space index =>
    have hop := Laws.OpcodeField.peek voice space index h
    simp only [Instr.WellFormed, Instr.wellFormed, Bool.and_eq_true, decide_eq_true_eq] at h
    obtain ⟨hvoice, hindex⟩ := h
    exact (decodeA_of_opcode_peek hop).trans (decodePeek_encode hvoice hindex space)
  | renderBlock start count =>
    have hop := Laws.OpcodeField.renderBlock start count h
    simp only [Instr.WellFormed, Instr.wellFormed, Bool.and_eq_true, decide_eq_true_eq] at h
    obtain ⟨hs, hc⟩ := h
    obtain ⟨hstart, hcount⟩ := block_fields (w := encode (.renderBlock start count)) hs hc rfl
    exact (decodeA_of_opcode_renderBlock hop).trans (by rw [hstart, hcount])
  | outClear start count =>
    have hop := Laws.OpcodeField.outClear start count h
    simp only [Instr.WellFormed, Instr.wellFormed, Bool.and_eq_true, decide_eq_true_eq] at h
    obtain ⟨hs, hc⟩ := h
    obtain ⟨hstart, hcount⟩ := block_fields (w := encode (.outClear start count)) hs hc rfl
    exact (decodeA_of_opcode_outClear hop).trans (by rw [hstart, hcount])

/-! ### The table's word on the bus -/

theorem ofNat_eq_byteOfWord (w : Word) (k : Nat) : BitVec.ofNat 8 (w.toNat / 2 ^ (8 * k)) = byteOfWord w k := by
  apply BitVec.eq_of_toNat_eq
  rw [byteOfWord, BitVec.toNat_ofNat, BitVec.extractLsb'_toNat, Nat.shiftRight_eq_div_pow]

/-- The bus presents the table's word as it is. -/
theorem tableWord_toNat (w : Word) : tableWord 32 w.toNat = w := by
  have hlow : w.toNat % 2 ^ 32 = w.toNat := Nat.mod_eq_of_lt w.isLt
  have h0 : BitVec.ofNat 8 w.toNat = byteOfWord w 0 := by
    rw [← ofNat_eq_byteOfWord, Nat.mul_zero, Nat.pow_zero, Nat.div_one]
  simp only [tableWord, hlow]
  rw [h0, ofNat_eq_byteOfWord w 1, ofNat_eq_byteOfWord w 2, ofNat_eq_byteOfWord w 3, Machine.wordOfBytes_byteOfWord]

/-- The table's word of a command is tried on the command's port, but `NOP.D`'s, which is `NOP.A`'s. -/
theorem tablePort_encode {i : Instr} (h : i.WellFormed) (hn : i ≠ .nopD) : tablePort (encode i) = i.port := by
  have hdec := decode_encode i h
  cases hp : i.port with
  | a =>
    rw [hp, decode] at hdec
    simp only [tablePort, hdec]
  | d =>
    cases i with
    | nopD => exact absurd rfl hn
    | specProcess => decide
    | _ => cases hp

end Sys2Proof
end

