-- ==== Sys2Proof/Proofs/IssuedCommands.lean ====
section
/-! Commands that hosts issue: `SPEC_PROCESS` itself (O37), the step of a host that writes a command word (O51), and the
step after a command was placed (O52). -/

namespace Sys2Proof.Machine

open Sys2Proof

/-! ### `SPEC_PROCESS` -/

theorem exec_specProcess_ready {s : State} (h : s.vis.ready = true) : exec .specProcess s = .next (s.setJob true) :=
  if_pos h

theorem exec_specProcess_not_ready {s : State} (h : s.vis.ready = false) :
    exec .specProcess s = .next (s.setProcessed false) :=
  if_neg (by rw [h]; exact Bool.false_ne_true)

theorem sameSound_setJob (s : State) (x : Bool) : SameSound s (s.setJob x) :=
  ⟨fun _ => rfl, fun _ => rfl, rfl, rfl, rfl, rfl, rfl, rfl, rfl⟩

theorem sameSound_setProcessed (s : State) (x : Bool) : SameSound s (s.setProcessed x) :=
  ⟨fun _ => rfl, fun _ => rfl, rfl, rfl, rfl, rfl, rfl, rfl, rfl⟩

/-- Settles O37. -/
theorem specProcessStartsJob : Obligations.SpecProcessStartsJob := by
  intro s
  cases hr : s.vis.ready with
  | true =>
    exact ⟨s.setJob true, exec_specProcess_ready hr, sameSound_setJob s true, rfl, rfl, rfl, rfl,
      Bool.noConfusion, fun _ => ⟨rfl, rfl⟩⟩
  | false =>
    exact ⟨s.setProcessed false, exec_specProcess_not_ready hr, sameSound_setProcessed s false, rfl, rfl, rfl, rfl,
      fun _ => ⟨rfl, rfl⟩, Bool.noConfusion⟩

/-! ### The step that performs a written command word -/

theorem issue_of_decode_ok {p : Port} {w : Word} {i : Instr} (h : decode p w = .ok i) (s : State) :
    issue p w s = exec i s := by
  rw [issue, h]

theorem issue_of_decode_error {p : Port} {w : Word} {e : CmdError} (h : decode p w = .error e) (s : State) :
    issue p w s = .next (s.raise p e) := by
  rw [issue, h]
  rfl

/-- The step of a host whose oldest access writes a word to port `q`'s command register issues the word on that port. -/
theorem step_of_written_command {s : State} {p q : Port} {w : Word} {rest : List Access}
    (hn : s.nextAgent = some (hostAgent p))
    (hp : (s.hostPort p).pending = .write .w32 (cmdOffset q) w :: rest) :
    step s = issue q w (s.beginTurn.setHostPort p ⟨rest, .writeDone⟩) := by
  rw [← hostPort_beginTurn] at hp
  rw [step_of_nextAgent hn, agentStep_hostAgent, hostStep_of_pending hp, performAccess_command]

/-- Settles O51. -/
theorem stepRunsTheWrittenCommand : Obligations.StepRunsTheWrittenCommand := by
  intro s p q w rest hn hp
  have hstep : step s = issue q w (s.beginTurn.setHostPort p ⟨rest, .writeDone⟩) :=
    step_of_written_command (by cases p <;> exact hn) (by cases q <;> exact hp)
  refine ⟨fun i hi => ⟨wellFormed_of_decode hi, ?_⟩, fun e he => ⟨_, ?_, State.raise_records _ q e⟩⟩
  · rw [hstep, issue_of_decode_ok hi]
  · rw [hstep, issue_of_decode_error he]

/-! ### Placed commands -/

theorem holds_eq_false_of_idle {s : State} (hq : s.pushq = []) (hj : s.job = false) (x : Access) :
    s.holds x = false := by
  rw [State.holds, (busyA_eq_false_iff s).2 hq, State.busyD, hj, Bool.false_and, Bool.false_and, Bool.or_false]

/-- A placed command's write is host A's oldest access. -/
theorem hostPort_withFetchWord (s : State) {i : Instr} (h : i.WellFormed) (hn : i ≠ .nopD) :
    ((s.withFetchWord 32 (encode i).toNat).hostPort .a).pending =
      .write .w32 (cmdOffset i.port) (encode i) :: s.env.hostA.pending := by
  rw [← tablePort_encode h hn]
  simp only [State.withFetchWord, commandAccess, tableWord_toNat]
  rfl

/-- Where both ports are idle host A, which the placing chooses, is free to take the step. -/
theorem nextAgent_withFetchWord {s : State} (hq : s.pushq = []) (hj : s.job = false) (nbits w : Nat) :
    (s.withFetchWord nbits w).nextAgent = some (hostAgent .a) := by
  have he : (s.withFetchWord nbits w).enabled (hostAgent .a) = true :=
    (enabled_hostAgent_iff .a).2 ⟨_, _, rfl, holds_eq_false_of_idle hq hj _⟩
  exact nextAgent_of_choice he rfl

/-- Settles O52. -/
theorem placedCommandRuns : Obligations.PlacedCommandRuns := by
  intro s i h hn hq hj
  rw [step_of_written_command (nextAgent_withFetchWord hq hj _ _) (hostPort_withFetchWord s h hn),
    issue_of_decode_ok (decode_encode i h)]
  rfl

end Sys2Proof.Machine
end

