-- ==== Sys2Proof/Proofs/MatchMask.lean ====
section
/-! SUPPORT. Masks of fields and matches of words under them, and the match/mask row of each command: its opcode field
and the reserved fields of its format (R201 to R208). -/

namespace Sys2Proof

/-! ### Fields as masks -/

/-- The mask of the bits `[lo + len - 1 : lo]`. -/
def fieldMask (lo len : Nat) : Word := (BitVec.allOnes len).setWidth 32 <<< lo

/-- The mask of a list of fields, each the position of its lowest bit and its length. -/
def fieldsMask : List (Nat × Nat) → Word
  | [] => 0#32
  | f :: fs => fieldMask f.1 f.2 ||| fieldsMask fs

theorem field_eq_field_iff {w c : Word} {lo len : Nat} :
    field w lo len = field c lo len ↔ ∀ k, k < len → w.getLsbD (lo + k) = c.getLsbD (lo + k) := by
  rw [field, field, BitVec.toNat_inj]
  constructor
  · intro h k hk
    simpa [hk] using congrArg (·.getLsbD k) h
  · intro h
    refine BitVec.eq_of_getLsbD_eq fun k hk => ?_
    simpa [hk] using h k hk

theorem getLsbD_fieldMask {lo len k : Nat} (hfit : lo + len ≤ 32) :
    (fieldMask lo len).getLsbD k = (decide (lo ≤ k) && decide (k < lo + len)) := by
  rw [Bool.eq_iff_iff]
  simp only [fieldMask, BitVec.getLsbD_shiftLeft, BitVec.getLsbD_setWidth, BitVec.getLsbD_allOnes, Bool.and_eq_true,
    Bool.not_eq_true', decide_eq_true_eq, decide_eq_false_iff_not]
  omega

/-- Words agree under a field's mask where they agree in the field. -/
theorem and_fieldMask_eq_iff {w c : Word} {lo len : Nat} (hfit : lo + len ≤ 32) :
    w &&& fieldMask lo len = c &&& fieldMask lo len ↔ field w lo len = field c lo len := by
  rw [field_eq_field_iff]
  constructor
  · intro h k hk
    simpa [getLsbD_fieldMask hfit, hk] using congrArg (·.getLsbD (lo + k)) h
  · intro h
    refine BitVec.eq_of_getLsbD_eq fun k _ => ?_
    rw [BitVec.getLsbD_and, BitVec.getLsbD_and, getLsbD_fieldMask hfit]
    by_cases hk : lo ≤ k ∧ k < lo + len
    · rw [show k = lo + (k - lo) by omega, h (k - lo) (by omega)]
    · rw [← Bool.decide_and, decide_eq_false hk, Bool.and_false, Bool.and_false]

/-- Agreement under the union of two masks is agreement under each. -/
theorem and_or_eq_and_or_iff {w c a b : Word} :
    w &&& (a ||| b) = c &&& (a ||| b) ↔ w &&& a = c &&& a ∧ w &&& b = c &&& b := by
  constructor
  · intro h
    have under : ∀ x : Word, (a ||| b) &&& x = x → w &&& x = c &&& x := fun x hx => by
      rw [← hx, ← BitVec.and_assoc, h, BitVec.and_assoc]
    have left : (a ||| b) &&& a = a := BitVec.eq_of_getLsbD_eq fun k _ => by
      cases ha : a.getLsbD k <;> simp [ha]
    have right : (a ||| b) &&& b = b := BitVec.eq_of_getLsbD_eq fun k _ => by
      cases hb : b.getLsbD k <;> simp [hb]
    exact ⟨under a left, under b right⟩
  · rintro ⟨ha, hb⟩
    have distrib : ∀ x : Word, x &&& (a ||| b) = x &&& a ||| x &&& b := fun x =>
      BitVec.eq_of_getLsbD_eq fun k _ => by simp [Bool.and_or_distrib_left]
    rw [distrib, distrib, ha, hb]

/-- Words agree under the mask of a list of fields where they agree in each of them. -/
theorem and_fieldsMask_eq_iff {w c : Word} {fs : List (Nat × Nat)} (hfit : ∀ f ∈ fs, f.1 + f.2 ≤ 32) :
    w &&& fieldsMask fs = c &&& fieldsMask fs ↔ ∀ f ∈ fs, field w f.1 f.2 = field c f.1 f.2 := by
  induction fs with
  | nil => simp [fieldsMask]
  | cons f fs ih =>
    obtain ⟨hf, hfs⟩ := List.forall_mem_cons.1 hfit
    rw [fieldsMask, and_or_eq_and_or_iff, and_fieldMask_eq_iff hf, ih hfs, List.forall_mem_cons]

/-! ### The row of a command -/

/-- The reserved fields of a command's format, which must be 0 (R202, R203, R205); formats of blocks have none. -/
def Instr.reserved : Instr → List (Nat × Nat)
  | .nopA | .visPush | .nopD | .specProcess => [(0, 24)]
  | .noteOn _ => [(21, 3), (0, 16)]
  | .noteOff _ _ => [(21, 3), (1, 15)]
  | .renderBlock _ _ | .outClear _ _ => []
  | .peek _ _ _ => [(21, 3)]

/-- The fields that a command's row fixes. -/
def Instr.fixed (i : Instr) : List (Nat × Nat) := (24, 8) :: i.reserved

/-- A word has the opcode of the command and its reserved fields are 0. -/
def Instr.Matches (i : Instr) (w : Word) : Prop :=
  opcodeField w = i.opcode ∧ ∀ f ∈ i.reserved, field w f.1 f.2 = 0

/-- A word's operand fields hold the operands of the command. -/
def Instr.OperandsIn (w : Word) : Instr → Prop
  | .nopA | .visPush | .nopD | .specProcess => True
  | .noteOn voice => voiceField w = voice
  | .noteOff voice tail => voiceField w = voice ∧ field w 0 1 = tail.toNat
  | .renderBlock start count => startField w = start ∧ countField w = count
  | .outClear start count => startField w = start ∧ countField w = count
  | .peek voice space index => voiceField w = voice ∧ field w 14 2 = space.code ∧ indexField w = index

theorem Instr.reserved_fits (i : Instr) : ∀ f ∈ i.reserved, f.1 + f.2 ≤ 24 := by
  cases i <;> simp [Instr.reserved]

theorem Instr.fixed_fits (i : Instr) : ∀ f ∈ i.fixed, f.1 + f.2 ≤ 32 :=
  List.forall_mem_cons.2 ⟨by decide, fun f hf => (i.reserved_fits f hf).trans (by decide)⟩

theorem Instr.opcode_lt (i : Instr) : i.opcode < 2 ^ 8 := by
  cases i <;> simp [Instr.opcode]

theorem Instr.Matches.opcodeField_eq {i : Instr} {w : Word} (h : i.Matches w) : opcodeField w = i.opcode := by
  obtain ⟨hop, -⟩ := h
  exact hop

theorem Instr.matches_iff_of_formatN {i : Instr} {w : Word} (hi : i.reserved = [(0, 24)]) :
    i.Matches w ↔ opcodeField w = i.opcode ∧ field w 0 24 = 0 := by
  rw [Instr.Matches, hi, List.forall_mem_singleton]

theorem Instr.matches_noteOn_iff {voice : Nat} {w : Word} : (Instr.noteOn voice).Matches w ↔
    opcodeField w = 0x01 ∧ field w 21 3 = 0 ∧ field w 0 16 = 0 := by
  simp [Instr.Matches, Instr.reserved, Instr.opcode]

theorem Instr.matches_noteOff_iff {voice : Nat} {tail : Bool} {w : Word} : (Instr.noteOff voice tail).Matches w ↔
    opcodeField w = 0x02 ∧ field w 21 3 = 0 ∧ field w 1 15 = 0 := by
  simp [Instr.Matches, Instr.reserved, Instr.opcode]

theorem Instr.matches_renderBlock_iff {start count : Nat} {w : Word} : (Instr.renderBlock start count).Matches w ↔
    opcodeField w = 0x03 := by
  simp [Instr.Matches, Instr.reserved, Instr.opcode]

theorem Instr.matches_outClear_iff {start count : Nat} {w : Word} : (Instr.outClear start count).Matches w ↔
    opcodeField w = 0x04 := by
  simp [Instr.Matches, Instr.reserved, Instr.opcode]

theorem Instr.matches_peek_iff {voice index : Nat} {space : PeekSpace} {w : Word} :
    (Instr.peek voice space index).Matches w ↔ opcodeField w = 0x06 ∧ field w 21 3 = 0 := by
  simp [Instr.Matches, Instr.reserved, Instr.opcode]

/-- The match/mask row: a word matches a command where, under the mask of the fixed fields, it is the opcode's word. -/
theorem Instr.matches_iff_and {i : Instr} {w : Word} :
    i.Matches w ↔ w &&& fieldsMask i.fixed = wordOf i.opcode 0 &&& fieldsMask i.fixed := by
  have hopcode : field (wordOf i.opcode 0) 24 8 = i.opcode :=
    Laws.OpcodeField.opcodeField_wordOf _ 0 i.opcode_lt (by decide)
  have hreserved : ∀ f ∈ i.reserved, field (wordOf i.opcode 0) f.1 f.2 = 0 := fun f hf => by
    rw [field_wordOf _ (by decide) (i.reserved_fits f hf), Nat.zero_div, Nat.zero_mod]
  rw [and_fieldsMask_eq_iff i.fixed_fits, Instr.fixed, List.forall_mem_cons, hopcode, Instr.Matches, opcodeField]
  refine and_congr_right fun _ => forall₂_congr fun f hf => ?_
  rw [hreserved f hf]

/-- A row of the table, its mask and match written out. -/
theorem Instr.matches_iff_row {mask word : Word} (i : Instr) (hmask : fieldsMask i.fixed = mask)
    (hword : wordOf i.opcode 0 &&& fieldsMask i.fixed = word) (w : Word) : i.Matches w ↔ w &&& mask = word := by
  rw [i.matches_iff_and, hword, hmask]

/-! ### What a port accepts -/

section Accepted

variable {w : Word} {i : Instr}

theorem tailField_eq_toNat (w : Word) : field w 0 1 = (decide (field w 0 1 = 1)).toNat := by
  have hlt := field_lt w 0 1
  by_cases h : field w 0 1 = 1
  · simp [h]
  · simp [show field w 0 1 = 0 by omega]

theorem exists_space_code (hne : field w 14 2 ≠ 3) : ∃ space : PeekSpace, field w 14 2 = space.code := by
  have hlt := field_lt w 14 2
  have hcases : field w 14 2 = 0 ∨ field w 14 2 = 1 ∨ field w 14 2 = 2 := by omega
  obtain h | h | h := hcases
  · exact ⟨.left, h⟩
  · exact ⟨.right, h⟩
  · exact ⟨.reg, h⟩

theorem PeekSpace.code_ne_three (space : PeekSpace) : space.code ≠ 3 := by
  cases space <;> decide

theorem decodeN_eq_ok_iff {j : Instr} : decodeN w j = .ok i ↔ field w 0 24 = 0 ∧ i = j := by
  unfold decodeN
  split
  · next h => simp [h, eq_comm]
  · next h => simp [h]

theorem decodeNoteOn_eq_ok_iff : decodeNoteOn w = .ok i ↔
    (field w 21 3 = 0 ∧ field w 0 16 = 0) ∧ i = .noteOn (voiceField w) := by
  unfold decodeNoteOn
  split
  · next h => simp [h, eq_comm]
  · next h => simp [h]

theorem decodeNoteOff_eq_ok_iff : decodeNoteOff w = .ok i ↔
    (field w 21 3 = 0 ∧ field w 1 15 = 0) ∧ i = .noteOff (voiceField w) (decide (field w 0 1 = 1)) := by
  unfold decodeNoteOff
  split
  · next h => simp [h, eq_comm]
  · next h => simp [h]

theorem decodePeek_of_space {space : PeekSpace} (hres : field w 21 3 = 0) (hspace : field w 14 2 = space.code) :
    decodePeek w = .ok (.peek (voiceField w) space (indexField w)) := by
  rw [decodePeek, if_pos hres, hspace]
  cases space <;> rfl

theorem decodePeek_of_reserved (h : field w 21 3 ≠ 0 ∨ field w 14 2 = 3) : decodePeek w = .error .reservedField := by
  unfold decodePeek
  split
  · next hres => rw [h.resolve_left (not_not_intro hres)]; rfl
  · rfl

theorem decodePeek_eq_ok_iff : decodePeek w = .ok i ↔
    field w 21 3 = 0 ∧ ∃ space : PeekSpace, field w 14 2 = space.code ∧
      i = .peek (voiceField w) space (indexField w) := by
  constructor
  · intro h
    by_cases hbad : field w 21 3 ≠ 0 ∨ field w 14 2 = 3
    · rw [decodePeek_of_reserved hbad] at h
      cases h
    obtain ⟨hres, hne⟩ := not_or.1 hbad
    obtain ⟨space, hspace⟩ := exists_space_code hne
    rw [decodePeek_of_space (not_not.1 hres) hspace] at h
    cases h
    exact ⟨not_not.1 hres, space, hspace, rfl⟩
  · rintro ⟨hres, space, hspace, rfl⟩
    exact decodePeek_of_space hres hspace

theorem accepted_of_decodeA (h : decodeA w = .ok i) : i.port = .a ∧ i.Matches w ∧ i.OperandsIn w := by
  unfold decodeA at h
  split at h
  case isTrue hop =>
    obtain ⟨hlow, rfl⟩ := decodeN_eq_ok_iff.1 h
    exact ⟨rfl, (Instr.matches_iff_of_formatN rfl).2 ⟨hop, hlow⟩, trivial⟩
  split at h
  case isTrue hop =>
    obtain ⟨hres, rfl⟩ := decodeNoteOn_eq_ok_iff.1 h
    exact ⟨rfl, Instr.matches_noteOn_iff.2 ⟨hop, hres⟩, rfl⟩
  split at h
  case isTrue hop =>
    obtain ⟨hres, rfl⟩ := decodeNoteOff_eq_ok_iff.1 h
    exact ⟨rfl, Instr.matches_noteOff_iff.2 ⟨hop, hres⟩, rfl, tailField_eq_toNat w⟩
  split at h
  case isTrue hop =>
    cases h
    exact ⟨rfl, Instr.matches_renderBlock_iff.2 hop, rfl, rfl⟩
  split at h
  case isTrue hop =>
    cases h
    exact ⟨rfl, Instr.matches_outClear_iff.2 hop, rfl, rfl⟩
  split at h
  case isTrue hop =>
    obtain ⟨hlow, rfl⟩ := decodeN_eq_ok_iff.1 h
    exact ⟨rfl, (Instr.matches_iff_of_formatN rfl).2 ⟨hop, hlow⟩, trivial⟩
  split at h
  case isTrue hop =>
    obtain ⟨hres, space, hspace, rfl⟩ := decodePeek_eq_ok_iff.1 h
    exact ⟨rfl, Instr.matches_peek_iff.2 ⟨hop, hres⟩, rfl, hspace, rfl⟩
  cases h

theorem accepted_of_decodeD (h : decodeD w = .ok i) : i.port = .d ∧ i.Matches w ∧ i.OperandsIn w := by
  unfold decodeD at h
  split at h
  case isTrue hop =>
    obtain ⟨hlow, rfl⟩ := decodeN_eq_ok_iff.1 h
    exact ⟨rfl, (Instr.matches_iff_of_formatN rfl).2 ⟨hop, hlow⟩, trivial⟩
  split at h
  case isTrue hop =>
    obtain ⟨hlow, rfl⟩ := decodeN_eq_ok_iff.1 h
    exact ⟨rfl, (Instr.matches_iff_of_formatN rfl).2 ⟨hop, hlow⟩, trivial⟩
  cases h

theorem decode_of_accepted (hm : i.Matches w) (ho : i.OperandsIn w) : decode i.port w = .ok i := by
  cases i with
  | nopA | visPush | nopD | specProcess =>
    obtain ⟨hop, hlow⟩ := (Instr.matches_iff_of_formatN rfl).1 hm
    simp only [Instr.opcode] at hop
    simp [decode, Instr.port, decodeA, decodeD, decodeN, hop, hlow]
  | noteOn voice =>
    obtain ⟨hop, hres⟩ := Instr.matches_noteOn_iff.1 hm
    exact (decodeA_of_opcode_noteOn hop).trans (decodeNoteOn_eq_ok_iff.2 ⟨hres, congrArg _ ho.symm⟩)
  | noteOff voice tail =>
    obtain ⟨rfl, htail⟩ := ho
    obtain ⟨hop, hres⟩ := Instr.matches_noteOff_iff.1 hm
    refine (decodeA_of_opcode_noteOff hop).trans (decodeNoteOff_eq_ok_iff.2 ⟨hres, ?_⟩)
    rw [htail]
    cases tail <;> rfl
  | renderBlock start count =>
    obtain ⟨rfl, rfl⟩ := ho
    exact decodeA_of_opcode_renderBlock (Instr.matches_renderBlock_iff.1 hm)
  | outClear start count =>
    obtain ⟨rfl, rfl⟩ := ho
    exact decodeA_of_opcode_outClear (Instr.matches_outClear_iff.1 hm)
  | peek voice space index =>
    obtain ⟨rfl, hspace, rfl⟩ := ho
    obtain ⟨hop, hres⟩ := Instr.matches_peek_iff.1 hm
    exact (decodeA_of_opcode_peek hop).trans (decodePeek_of_space hres hspace)

/-- What a port accepts: a word that matches the row of a command of the port, as the command whose operands are in the
word's operand fields. -/
theorem decode_eq_ok_iff {p : Port} :
    decode p w = .ok i ↔ i.port = p ∧ i.Matches w ∧ i.OperandsIn w := by
  constructor
  · intro h
    cases p with
    | a => exact accepted_of_decodeA h
    | d => exact accepted_of_decodeD h
  · rintro ⟨rfl, hm, ho⟩
    exact decode_of_accepted hm ho

end Accepted

end Sys2Proof
end

