-- ==== Sys2Proof/Proofs/CommandEncoding.lean ====
section
/-! The encoding of commands: decoding and encoding agree in both directions (O1, O2), decoding is the match/mask table
(O3), words written out (O4), and the two commands that do nothing (O7). -/

namespace Sys2Proof

/-! ### The word of an accepted command -/

/-- A field of two adjacent fields. -/
theorem field_add (w : Word) (lo a b : Nat) :
    field w lo (a + b) = field w (lo + a) b * 2 ^ a + field w lo a := by
  simp only [Laws.OpcodeField.field_eq]
  rw [Nat.pow_add, Nat.mod_mul, Nat.pow_add, Nat.div_div_eq_div_mul]
  ring

theorem wordOf_opcodeField_low (w : Word) : wordOf (opcodeField w) (field w 0 24) = w := by
  apply BitVec.eq_of_toNat_eq
  have hw : field w 0 32 = w.toNat := by
    rw [Laws.OpcodeField.field_eq, Nat.pow_zero, Nat.div_one, Nat.mod_eq_of_lt w.isLt]
  rw [wordOf, BitVec.toNat_ofNat, opcodeField, ← field_add w 0 24 8, hw, Nat.mod_eq_of_lt w.isLt]

/-- The low bits of the formats with a `VOICE` field (R203, R205). -/
theorem low_eq_of_voice (w : Word) (hres : field w 21 3 = 0) :
    field w 0 24 = voiceField w * 2 ^ 16 + field w 0 16 := by
  rw [field_add w 0 16 8, field_add w 16 5 3, hres, Nat.zero_mul, Nat.zero_add, voiceField]

theorem encode_of_accepted {w : Word} {i : Instr} (hm : i.Matches w) (ho : i.OperandsIn w) : encode i = w := by
  rw [← wordOf_opcodeField_low w, hm.opcodeField_eq]
  cases i with
  | nopA | visPush | nopD | specProcess =>
    obtain ⟨-, hlow⟩ := (Instr.matches_iff_of_formatN rfl).1 hm
    rw [hlow, encode]
  | noteOn voice =>
    obtain rfl : voiceField w = voice := ho
    obtain ⟨-, hhigh, hflag⟩ := Instr.matches_noteOn_iff.1 hm
    rw [low_eq_of_voice w hhigh, hflag, encode, Nat.add_zero]
  | noteOff voice tail =>
    obtain ⟨rfl, htail⟩ := ho
    obtain ⟨-, hhigh, hflag⟩ := Instr.matches_noteOff_iff.1 hm
    rw [low_eq_of_voice w hhigh, field_add w 0 1 15, hflag, htail, encode, Nat.zero_mul, Nat.zero_add]
  | renderBlock start count =>
    obtain ⟨rfl, rfl⟩ := ho
    rw [field_add w 0 12 12, encode, startField, countField]
  | outClear start count =>
    obtain ⟨rfl, rfl⟩ := ho
    rw [field_add w 0 12 12, encode, startField, countField]
  | peek voice space index =>
    obtain ⟨rfl, hspace, rfl⟩ := ho
    obtain ⟨-, hres⟩ := Instr.matches_peek_iff.1 hm
    rw [low_eq_of_voice w hres, field_add w 0 14 2, hspace, encode, indexField, Nat.add_assoc]

/-! ### Errors -/

theorem opcodeField_eq_div (w : Word) : opcodeField w = w.toNat / 2 ^ 24 := by
  have hw := w.isLt
  rw [opcodeField, Laws.OpcodeField.field_eq, Nat.mod_eq_of_lt (by omega)]

theorem decodeNoteOn_eq_error {w : Word} {e : CmdError} (h : decodeNoteOn w = .error e) : e = .reservedField := by
  unfold decodeNoteOn at h
  split at h <;> cases h
  rfl

theorem decodeNoteOff_eq_error {w : Word} {e : CmdError} (h : decodeNoteOff w = .error e) : e = .reservedField := by
  unfold decodeNoteOff at h
  split at h <;> cases h
  rfl

theorem decodePeek_eq_error {w : Word} {e : CmdError} (h : decodePeek w = .error e) : e = .reservedField := by
  by_cases hbad : field w 21 3 ≠ 0 ∨ field w 14 2 = 3
  · rw [decodePeek_of_reserved hbad] at h
    cases h
    rfl
  · obtain ⟨hres, hne⟩ := not_or.1 hbad
    obtain ⟨space, hspace⟩ := exists_space_code hne
    rw [decodePeek_of_space (not_not.1 hres) hspace] at h
    cases h

/-- Port A's opcode map has the opcodes up to 6 (R206). -/
theorem error_of_decodeA {w : Word} {e : CmdError} (h : decodeA w = .error e) :
    e = if opcodeField w ≤ 6 then .reservedField else .illegalOpcode := by
  unfold decodeA at h
  split at h
  case isTrue hop => rw [hop, Machine.decodeN_eq_error h]; rfl
  split at h
  case isTrue hop => rw [hop, decodeNoteOn_eq_error h]; rfl
  split at h
  case isTrue hop => rw [hop, decodeNoteOff_eq_error h]; rfl
  split at h
  case isTrue => cases h
  split at h
  case isTrue => cases h
  split at h
  case isTrue hop => rw [hop, Machine.decodeN_eq_error h]; rfl
  split at h
  case isTrue hop => rw [hop, decodePeek_eq_error h]; rfl
  cases h
  rw [if_neg (by omega)]

/-- Port D's opcode map has the opcodes 0 and 16 (R207). -/
theorem error_of_decodeD {w : Word} {e : CmdError} (h : decodeD w = .error e) :
    e = if opcodeField w = 0 ∨ opcodeField w = 0x10 then .reservedField else .illegalOpcode := by
  unfold decodeD at h
  split at h
  case isTrue hop => rw [if_pos (.inl hop), Machine.decodeN_eq_error h]
  split at h
  case isTrue hop => rw [if_pos (.inr hop), Machine.decodeN_eq_error h]
  next h0 h16 =>
    cases h
    rw [if_neg (not_or.2 ⟨h0, h16⟩)]

/-! ### The rows of the table -/

section Rows

variable {w : Word}

/-- The row of a command without operands. -/
theorem decode_eq_ok_iff_row {i : Instr} {mask word : Word} (hops : i.OperandsIn w) (hmask : fieldsMask i.fixed = mask)
    (hword : wordOf i.opcode 0 &&& fieldsMask i.fixed = word) : decode i.port w = .ok i ↔ w &&& mask = word := by
  rw [decode_eq_ok_iff, ← i.matches_iff_row hmask hword]
  simp only [true_and, hops, and_true]

theorem decode_noteOn_iff_row : (∃ v, decode .a w = .ok (.noteOn v)) ↔ w &&& 0xFFE0FFFF#32 = 0x01000000#32 := by
  rw [← (Instr.noteOn 0).matches_iff_row (by decide) (by decide)]
  simp only [decode_eq_ok_iff]
  exact ⟨fun ⟨_, _, hm, _⟩ => hm, fun hm => ⟨voiceField w, rfl, hm, rfl⟩⟩

theorem decode_noteOff_iff_row :
    (∃ v t, decode .a w = .ok (.noteOff v t)) ↔ w &&& 0xFFE0FFFE#32 = 0x02000000#32 := by
  rw [← (Instr.noteOff 0 false).matches_iff_row (by decide) (by decide)]
  simp only [decode_eq_ok_iff]
  exact ⟨fun ⟨_, _, _, hm, _⟩ => hm,
    fun hm => ⟨voiceField w, decide (field w 0 1 = 1), rfl, hm, rfl, tailField_eq_toNat w⟩⟩

theorem decode_renderBlock_iff_row :
    (∃ s n, decode .a w = .ok (.renderBlock s n)) ↔ w &&& 0xFF000000#32 = 0x03000000#32 := by
  rw [← (Instr.renderBlock 0 0).matches_iff_row (by decide) (by decide)]
  simp only [decode_eq_ok_iff]
  exact ⟨fun ⟨_, _, _, hm, _⟩ => hm, fun hm => ⟨startField w, countField w, rfl, hm, rfl, rfl⟩⟩

theorem decode_outClear_iff_row :
    (∃ s n, decode .a w = .ok (.outClear s n)) ↔ w &&& 0xFF000000#32 = 0x04000000#32 := by
  rw [← (Instr.outClear 0 0).matches_iff_row (by decide) (by decide)]
  simp only [decode_eq_ok_iff]
  exact ⟨fun ⟨_, _, _, hm, _⟩ => hm, fun hm => ⟨startField w, countField w, rfl, hm, rfl, rfl⟩⟩

/-- `SPACE` is 3 where both its bits are set (R208). -/
theorem spaceField_eq_three_iff : field w 14 2 = 3 ↔ w &&& 0x0000C000#32 = 0x0000C000#32 :=
  (and_fieldMask_eq_iff (w := w) (c := 0x0000C000#32) (lo := 14) (len := 2) (by decide)).symm

theorem decode_peek_iff_row : (∃ v k n, decode .a w = .ok (.peek v k n)) ↔
    w &&& 0xFFE00000#32 = 0x06000000#32 ∧ w &&& 0x0000C000#32 ≠ 0x0000C000#32 := by
  rw [← (Instr.peek 0 .left 0).matches_iff_row (by decide) (by decide), Ne, ← spaceField_eq_three_iff]
  simp only [decode_eq_ok_iff]
  constructor
  · rintro ⟨_, space, _, _, hm, _, hspace, _⟩
    exact ⟨hm, hspace ▸ space.code_ne_three⟩
  · rintro ⟨hm, hne⟩
    obtain ⟨space, hspace⟩ := exists_space_code hne
    exact ⟨voiceField w, space, indexField w, rfl, hm, rfl, hspace, rfl⟩

end Rows

/-! ### The statements -/

/-- Settles O1. -/
theorem decodeOfEncode : Obligations.DecodeOfEncode := decode_encode

/-- Settles O2: a port accepts only words that match a row of its own, with the operands in their fields. -/
theorem encodeOfDecode : Obligations.EncodeOfDecode := by
  intro p w i h
  obtain ⟨hport, hm, ho⟩ := decode_eq_ok_iff.1 h
  exact ⟨wellFormed_of_decode h, hport, encode_of_accepted hm ho⟩

/-- Settles O3, a row for each command and an error for each port. -/
theorem decodeIsMatchMask : Obligations.DecodeIsMatchMask := by
  intro w
  refine ⟨decode_eq_ok_iff_row (i := .nopA) trivial (by decide) (by decide), decode_noteOn_iff_row,
    decode_noteOff_iff_row, decode_renderBlock_iff_row, decode_outClear_iff_row,
    decode_eq_ok_iff_row (i := .visPush) trivial (by decide) (by decide), decode_peek_iff_row,
    decode_eq_ok_iff_row (i := .nopD) trivial (by decide) (by decide),
    decode_eq_ok_iff_row (i := .specProcess) trivial (by decide) (by decide), fun e he => ?_, fun e he => ?_⟩
  · rw [← opcodeField_eq_div]
    exact error_of_decodeA he
  · rw [← opcodeField_eq_div]
    exact error_of_decodeD he

/-- Settles O4. -/
theorem exampleWordsDecode : Obligations.ExampleWordsDecode := by
  unfold Obligations.ExampleWordsDecode
  decide

/-- Settles O7. -/
theorem nopsDoNothing : Obligations.NopsDoNothing := fun _ => ⟨rfl, rfl⟩

end Sys2Proof
end

