-- ==== Sys2Proof/Proofs/NoteShape.lean ====
section
/-! The shape of a note's line: the excitation of R259 (O20) and the pluck index of R256 and R257 (O21). -/

namespace Sys2Proof.Machine

open Sys2Proof

-- One proof is elaborated after another here: each thread at work takes its share of the check's memory limit.
set_option Elab.async false

/-! ### Quotients of integers, the two ramps of R259 -/

theorem units_i2f {n : Nat} (h : n < 2 ^ 24) : units (i2f n) = n * 2 ^ 149 := by
  obtain ⟨-, -, hv⟩ := i2f_exact n h
  rw [← natAbs_value, hv]
  exact Int.natAbs_natCast (n * 2 ^ 149)

theorem fdiv_i2f {m n : Nat} (hm : m < 2 ^ 24) (hn : n < 2 ^ 24) (h0 : 0 < n) :
    fdiv (i2f m) (i2f n) = pack false (rndMag (m * 2 ^ 149 * 2 ^ 149) (n * 2 ^ 149)) := by
  obtain ⟨fm, sm, -⟩ := i2f_exact m hm
  obtain ⟨fn, sn, -⟩ := i2f_exact n hn
  have hu : units (i2f n) ≠ 0 := by
    rw [units_i2f hn]
    positivity
  rw [fdiv_finite _ _ fm fn hu, sm, sn, units_i2f hm, units_i2f hn, bne_self_eq_false]

/-- The rounding of a quotient in [0, 1] is in [0, 1]. -/
theorem unitLevel_pack_rndMag {num den : Nat} (hd : 0 < den) (h : num ≤ 2 ^ 149 * den) :
    UnitLevel (pack false (rndMag num den)) := by
  have hr : rndMag num den ≤ 0x3F800000 := rndMag_le_of_le _ _ _ hd (by rwa [unitsOfMag_one])
  have hu := (unitsOfMag_le_iff _ _).2 hr
  rw [unitsOfMag_one] at hu
  obtain ⟨hn, h0⟩ := nonNeg_pack_false _ (rndMag_le num den)
  refine ⟨hn, h0, ?_⟩
  rw [value_pack _ _ (rndMag_lt _ _), if_neg Bool.false_ne_true]
  exact_mod_cast hu

theorem unitLevel_fdiv_i2f {m n : Nat} (hmn : m ≤ n) (hn : n < 2 ^ 24) (h0 : 0 < n) :
    UnitLevel (fdiv (i2f m) (i2f n)) := by
  rw [fdiv_i2f (hmn.trans_lt hn) hn h0]
  refine unitLevel_pack_rndMag (by positivity) ?_
  calc m * 2 ^ 149 * 2 ^ 149 ≤ n * 2 ^ 149 * 2 ^ 149 := Nat.mul_le_mul_right _ (Nat.mul_le_mul_right _ hmn)
    _ = 2 ^ 149 * (n * 2 ^ 149) := Nat.mul_comm _ _

theorem fdiv_i2f_self {n : Nat} (hn : n < 2 ^ 24) (h0 : 0 < n) : fdiv (i2f n) (i2f n) = fOne := by
  have hr := rndMag_exact 0x3F800000 (n * 2 ^ 149) (by positivity) (by decide)
  rw [unitsOfMag_one, Nat.mul_comm] at hr
  rw [fdiv_i2f hn hn h0, hr]
  rfl

theorem fdiv_i2f_zero {n : Nat} (hn : n < 2 ^ 24) (h0 : 0 < n) : fdiv (i2f 0) (i2f n) = fZero := by
  rw [fdiv_i2f (by norm_num) hn h0, Nat.zero_mul, Nat.zero_mul, rndMag_zero]
  rfl

/-- Settles O20: each ramp is a quotient of integers, from 0 over its length to 1. -/
theorem excitationShape : Obligations.ExcitationShape := by
  intro l k _ hl8192 hk hkl
  have fits : ∀ {n}, n ≤ l → n < 2 ^ 24 := fun hn => (hn.trans hl8192).trans_lt (by norm_num)
  refine ⟨fun i hi => ?_, ?_, ?_, fun hfall => ?_⟩
  · unfold excitation
    split
    · next hik => exact unitLevel_fdiv_i2f hik (fits hkl.le) hk
    · next hik => exact unitLevel_fdiv_i2f (by omega) (fits (by omega)) (by omega)
  · rw [excitation, if_pos le_rfl]
    exact fdiv_i2f_self (fits hkl.le) hk
  · rw [excitation, if_pos (Nat.zero_le k)]
    exact fdiv_i2f_zero (fits hkl.le) hk
  · rw [excitation, if_neg (not_le.2 hfall), Nat.sub_self]
    exact fdiv_i2f_zero (fits (by omega)) (by omega)

/-! ### The pluck index -/

/-- The low case of R256 apart, the fraction is R18's clamp. -/
theorem pluckFraction_eq (p : Word) :
    pluckFraction p = if isNaN p || fle p fZero then Config.pluckFallback else clamp01 p := by
  unfold pluckFraction clamp01
  split <;> rfl

theorem isNaN_or_fle_fZero_iff (p : Word) : (isNaN p || fle p fZero) = true ↔ isNaN p = true ∨ value p ≤ 0 := by
  rw [Bool.or_eq_true, fle_iff, value_fZero]
  cases isNaN p <;> simp

theorem pluckFraction_low {p : Word} (h : isNaN p = true ∨ value p ≤ 0) : pluckFraction p = Config.pluckFallback := by
  rw [pluckFraction_eq, if_pos ((isNaN_or_fle_fZero_iff p).2 h)]

theorem pluckFraction_high {p : Word} (hn : isNaN p = false) (h : 2 ^ 149 ≤ value p) : pluckFraction p = fOne := by
  have hpos : 0 < value p := lt_of_lt_of_le (by positivity) h
  rw [pluckFraction_eq, if_neg (by rw [isNaN_or_fle_fZero_iff, hn]; simpa using hpos), clamp01_high p hn h]

theorem value_pluckFraction_nonneg (p : Word) : 0 ≤ value (pluckFraction p) := by
  rw [pluckFraction_eq]
  split
  · decide +kernel
  · exact (unitLevel_clamp01 p).2.1

theorem units_pluckFallback : units Config.pluckFallback = 2 ^ 142 := by decide +kernel

theorem floorMul_pluckFallback (n : Nat) : floorMul Config.pluckFallback n = n / 128 := by
  rw [floorMul, units_pluckFallback, show 2 ^ 149 = 2 ^ 142 * 128 from pow_add 2 142 7]
  exact Nat.mul_div_mul_left n 128 (by positivity)

theorem floorMul_fOne (n : Nat) : floorMul fOne n = n := by
  rw [floorMul, units_fOne]
  exact Nat.mul_div_cancel_left n (by positivity)

theorem pluckIndex_of_three_le (p : Word) {l : Nat} (hl : 3 ≤ l) :
    pluckIndex p l = min (max (floorMul (pluckFraction p) (l - 1)) 1) (l - 2) := if_neg (by omega)

/-- Settles O21. -/
theorem pluckIndexInside : Obligations.PluckIndexInside := by
  intro p l
  refine ⟨pluckIndex_bounds p l, fun h2 => if_pos h2, fun h3 hlow => ?_, fun h3 hn hhigh => ?_⟩
  · rw [pluckIndex_of_three_le p h3, pluckFraction_low hlow, floorMul_pluckFallback]
  · rw [pluckIndex_of_three_le p h3, pluckFraction_high hn hhigh, floorMul_fOne]
    omega

end Sys2Proof.Machine
end

