-- ==== Sys2Proof/Proofs/NoteSetup.lean ====
section
/-! What an error-free `NOTE_ON` sets up: the latches of R252, R253 and R261 (O13), the envelope of R262 to R265 (O14), the
geometry of R254 to R258 (O15, O17); its frame (O18), and that the voice's earlier note leaves no trace (O19). -/

namespace Sys2Proof.Machine

open Sys2Proof

-- One proof is elaborated after another here: each thread at work takes its share of the check's memory limit.
set_option Elab.async false

/-! ### The state an error-free `NOTE_ON` leaves -/

theorem exec_noteOn_startNote {s : State} (v : Fin Config.numVoices) (hfin : isFinite s.note.sampleRate = true)
    (hpos : fgt s.note.sampleRate fZero = true) : exec (.noteOn v) s = .next (s.startNote v) :=
  exec_noteOn s v ((sampleRateOk_iff s).2 ⟨hfin, hpos⟩)

@[simp] theorem State.startNote_statusA (s : State) (v : Fin Config.numVoices) :
    (s.startNote v).statusA = noteWarnings s.statusA s.note s.arg0 := rfl

theorem sameVoicesBut_setVoice (s : State) (v : Fin Config.numVoices) (x : Voice) : SameVoicesBut v s (s.setVoice v x) :=
  fun w hw => State.setVoice_voice_other s v w x hw

theorem onlyVoice_setVoice (s : State) (v : Fin Config.numVoices) (x : Voice) : OnlyVoice v s (s.setVoice v x) :=
  ⟨sameVoicesBut_setVoice s v x, fun _ => rfl, rfl, rfl, ⟨rfl, rfl, rfl, rfl, rfl, rfl⟩, ⟨rfl, rfl, rfl, rfl⟩⟩

/-- `OnlyVoice` says nothing of `STATUS_A`. -/
theorem OnlyVoice.setStatusA {v : Fin Config.numVoices} {s t : State} (h : OnlyVoice v s t) (x : StatusA) :
    OnlyVoice v s (t.setStatusA x) := h

theorem onlyVoice_startNote (s : State) (v : Fin Config.numVoices) : OnlyVoice v s (s.startNote v) :=
  (onlyVoice_setVoice s v _).setStatusA _

/-- Settles O18. -/
theorem noteOnFrame : Obligations.NoteOnFrame := by
  intro s v hfin hpos
  refine ⟨s.startNote v, exec_noteOn_startNote v hfin hpos, onlyVoice_startNote s v, rfl, rfl, rfl,
    fun h => ?_, fun h => ?_, fun h => ?_⟩
  · exact Bool.or_eq_true_iff.2 (.inl h)
  · exact Bool.or_eq_true_iff.2 (.inl h)
  · exact Bool.or_eq_true_iff.2 (.inl h)

/-! ### What the set-up latches -/

/-- The geometry writes the indices and the lines only. -/
theorem Voice.setGeometry_eq (v : Voice) (note : NoteRegs) (f : Word) :
    v.setGeometry note f =
      { v with
        degen := (v.setGeometry note f).degen, l := (v.setGeometry note f).l
        pluckIdx := (v.setGeometry note f).pluckIdx, pickupIdx := (v.setGeometry note f).pickupIdx
        left := (v.setGeometry note f).left, right := (v.setGeometry note f).right } := by
  unfold Voice.setGeometry
  split <;> rfl

/-- Settles O13: after the latches come the geometry, which keeps them, and the envelope. -/
theorem noteOnLatchesNote : Obligations.NoteOnLatchesNote := by
  intro s v hfin hpos
  refine ⟨s.startNote v, exec_noteOn_startNote v hfin hpos, ?_⟩
  rw [State.startNote_voice, Voice.noteOn, Voice.setGeometry_eq]
  exact ⟨rfl, rfl, rfl, rfl, rfl, rfl, rfl, rfl, rfl, rfl, fun h => ⟨if_pos h, if_pos h⟩,
    fun h => ⟨if_neg (by rw [h]; decide), if_neg (by rw [h]; decide)⟩⟩

/-! ### The envelope -/

/-- A product with a level does not pass its finite factor. -/
theorem isFinite_fmul_unitLevel {a b : Word} (ha : UnitLevel a) (hb : isFinite b = true) : isFinite (fmul a b) = true := by
  have hua : units a ≤ 2 ^ 149 := by
    have h1 := ha.2.2
    have h0 := ha.2.1
    rw [← natAbs_value]
    omega
  have hle : rndMag (units a * units b) (2 ^ 149) ≤ magOf b := by
    refine rndMag_le_of_le _ _ _ (by positivity) ?_
    rw [← units_eq, Nat.mul_comm]
    exact Nat.mul_le_mul_left _ hua
  rw [fmul_finite a b ha.isFinite hb, isFinite_pack _ _ (rndMag_lt _ _)]
  exact hle.trans_lt ((isFinite_iff b).1 hb)

theorem value_fdiv_fOne {x : Word} (hx : isFinite x = true) (hpos : 0 < value x) :
    value (fdiv fOne x) = unitsOfMag (rndMag (2 ^ 149 * 2 ^ 149) (units x)) := by
  rw [fdiv_finite _ _ unitLevel_fOne.isFinite hx (units_ne_zero_of_value_ne_zero x hpos.ne'),
    signBit_of_value_pos x hpos, units_fOne, value_pack _ _ (rndMag_lt _ _), show signBit fOne = false by decide]
  rfl

theorem unitsOfMag_sixtyFourth : unitsOfMag 0x3C800000 = 2 ^ 143 := by decide +kernel

/-- One over a finite number of 64 or more: it does not round to zero, and is at most 1/64. -/
theorem value_fdiv_fOne_bounds {x : Word} (hx : isFinite x = true) (h64 : 2 ^ 155 ≤ value x) :
    0 < value (fdiv fOne x) ∧ 64 * value (fdiv fOne x) ≤ 2 ^ 149 := by
  have hpos : 0 < value x := lt_of_lt_of_le (by positivity) h64
  have hlo : 2 ^ 155 ≤ units x := by rw [← natAbs_value]; omega
  have hhi : units x ≤ 2 ^ 149 * 2 ^ 149 := (units_lt_of_isFinite x hx).le.trans (by decide +kernel)
  have h0 : 0 < units x := lt_of_lt_of_le (by positivity) hlo
  have hge : 1 ≤ rndMag (2 ^ 149 * 2 ^ 149) (units x) :=
    le_rndMag_of_le _ _ 1 h0 (by decide) ((Nat.one_mul _).trans_le hhi)
  have hle : rndMag (2 ^ 149 * 2 ^ 149) (units x) ≤ 0x3C800000 := by
    refine rndMag_le_of_le _ _ _ h0 ?_
    calc 2 ^ 149 * 2 ^ 149 = 2 ^ 143 * 2 ^ 155 := by rw [← pow_add, ← pow_add]
      _ ≤ unitsOfMag 0x3C800000 * units x := by
        rw [unitsOfMag_sixtyFourth]
        exact Nat.mul_le_mul_left _ hlo
  have hlow : 0 < unitsOfMag (rndMag (2 ^ 149 * 2 ^ 149) (units x)) :=
    unitsOfMag_zero.symm.trans_lt (unitsOfMag_strictMono hge)
  have hhigh := (unitsOfMag_le_iff _ _).2 hle
  rw [unitsOfMag_sixtyFourth] at hhigh
  rw [value_fdiv_fOne hx hpos]
  omega

theorem value_attackRateOf_bounds (attack : Word) {sr : Word} (hfin : isFinite sr = true) :
    0 < value (attackRateOf attack sr) ∧ 64 * value (attackRateOf attack sr) ≤ 2 ^ 149 := by
  have hmin : value Config.attackMinSamples = 2 ^ 155 := by decide +kernel
  unfold attackRateOf
  split
  · next h =>
    obtain ⟨-, hle⟩ := (fge_iff _ _).1 h
    exact value_fdiv_fOne_bounds (isFinite_fmul_unitLevel (unitLevel_clamp01 attack) hfin) (hmin.ge.trans hle)
  · exact value_fdiv_fOne_bounds (by decide) hmin.ge

/-- Settles O14. -/
theorem noteOnStartsEnvelope : Obligations.NoteOnStartsEnvelope := by
  intro s v hfin hpos
  obtain ⟨hrise, hslow⟩ := value_attackRateOf_bounds s.note.attack hfin
  refine ⟨s.startNote v, exec_noteOn_startNote v hfin hpos, ?_⟩
  rw [State.startNote_voice, Voice.noteOn]
  exact ⟨rfl, rfl, rfl, hrise, hslow, ⟨fun h => if_pos h, fun h => if_neg (by rw [h]; decide)⟩, rfl, rfl, rfl, rfl,
    envOk_startEnvelope _ _⟩

/-! ### The geometry -/

theorem units_cast {a : Word} (h : 0 ≤ value a) : (units a : Int) = value a := by
  rw [← natAbs_value]
  exact Int.natAbs_of_nonneg h

theorem floorQuot_cast {a b : Word} (ha : 0 ≤ value a) (hb : 0 ≤ value b) :
    (floorQuot a b : Int) = value a / value b := by
  rw [floorQuot, Int.natCast_ediv, units_cast ha, units_cast hb]

theorem floorMul_cast {a : Word} (ha : 0 ≤ value a) (n : Nat) : (floorMul a n : Int) = value a * n / 2 ^ 149 := by
  rw [floorMul, Int.natCast_ediv, Int.natCast_mul, units_cast ha]
  rfl

theorem value_pos_of_fgt {a : Word} (h : fgt a fZero = true) : 0 < value a := by
  obtain ⟨-, hlt⟩ := (fgt_iff _ _).1 h
  rwa [value_fZero] at hlt

theorem lineLength_cast {sr f : Word} (hsr : fgt sr fZero = true) (hf : fgt f fZero = true) :
    (lineLength sr f : Int) = max 2 (value sr / value f) := by
  rw [lineLength, Nat.cast_max, floorQuot_cast (value_pos_of_fgt hsr).le (value_pos_of_fgt hf).le]
  rfl

/-- A note of valid pitch has lines of `noteLength` (R255 to R260). -/
theorem Voice.noteOn_valid (v : Voice) (note : NoteRegs) (ctrl : Ctrl) {pitch : Word} (velocity : Word)
    (h : positiveFinite pitch = true) : v.noteOn note ctrl pitch velocity =
      (((v.latchNote note velocity).seed note.pluckPos (noteLength note.sampleRate pitch)).latchFilter note
        ctrl).startEnvelope note := by
  rw [Voice.noteOn, Voice.setGeometry, if_pos h]
  rfl

/-- A note of another pitch is degenerate (R254). -/
theorem Voice.noteOn_invalid (v : Voice) (note : NoteRegs) (ctrl : Ctrl) {pitch : Word} (velocity : Word)
    (h : positiveFinite pitch = false) : v.noteOn note ctrl pitch velocity =
      ((v.latchNote note velocity).degenerate.latchFilter note ctrl).startEnvelope note := by
  rw [Voice.noteOn, Voice.setGeometry, if_neg (by rw [h]; decide)]

theorem pluckIndex_cast (p : Word) {l : Nat} (h2 : 2 ≤ l) :
    (pluckIndex p l : Int) =
      if (l : Int) = 2 then 1 else min (max (value (pluckFraction p) * ((l : Int) - 1) / 2 ^ 149) 1) ((l : Int) - 2) := by
  have hm := floorMul_cast (value_pluckFraction_nonneg p) (l - 1)
  rw [Nat.cast_sub (by omega), Nat.cast_one] at hm
  rw [← hm, pluckIndex]
  split <;> split <;> omega

/-- Settles O15. -/
theorem noteOnSetsGeometry : Obligations.NoteOnSetsGeometry := by
  intro s v hfin hpos hpfin hppos
  have hpitch : positiveFinite s.arg0 = true := (positiveFinite_iff _).2 ⟨hpfin, hppos⟩
  have hcast := lineLength_cast hpos hppos
  obtain ⟨h2, hmax⟩ := noteLength_bounds s.note.sampleRate s.arg0
  have hk := (pluckIndex_le s.note.pluckPos _ h2).trans (Nat.sub_le _ 1)
  have hg := (s.startNote_voice v).trans (Voice.noteOn_valid (s.voice v) s.note s.ctrl s.arg1 hpitch)
  have hl : ((s.startNote v).voice v).l.toNat = noteLength s.note.sampleRate s.arg0 := by
    rw [hg]
    exact toNat_ofNat_14 _ hmax
  refine ⟨s.startNote v, exec_noteOn_startNote v hfin hpos, by rw [hg]; rfl, ?_, ?_, ?_, ?_, ?_⟩
  · rw [hl, noteLength, Nat.cast_min, hcast]
    rfl
  · simp only [State.startNote_statusA, noteWarnings, hpitch, Bool.true_and]
    congr 1
    rw [decide_eq_decide]
    simp only [Config.lMax]
    omega
  · simp [noteWarnings, hpitch]
  · rw [hl]
    refine Eq.trans ?_ (pluckIndex_cast s.note.pluckPos h2)
    rw [hg]
    exact congrArg Nat.cast (toNat_ofNat_14 _ (hk.trans hmax))
  · rw [hl, hg]
    exact toNat_ofNat_14 _ ((Nat.div_le_self _ 2).trans hmax)

/-- Settles O17. -/
theorem noteOnDegenerate : Obligations.NoteOnDegenerate := by
  intro s v hfin hpos hbad
  have hpitch : positiveFinite s.arg0 = false := by rw [← Bool.not_eq_true, positiveFinite_iff]; exact hbad
  refine ⟨s.startNote v, exec_noteOn_startNote v hfin hpos, ?_⟩
  have hg := (s.startNote_voice v).trans (Voice.noteOn_invalid (s.voice v) s.note s.ctrl s.arg1 hpitch)
  have hlines : ∀ i, (s.startNote v).leftAt v i = s.leftAt v i ∧ (s.startNote v).rightAt v i = s.rightAt v i := by
    intro i
    rw [State.leftAt, State.rightAt, hg]
    exact ⟨rfl, rfl⟩
  rw [hg]
  exact ⟨rfl, rfl, rfl, rfl, by simp [noteWarnings, hpitch], by simp [noteWarnings, hpitch], hlines, rfl, rfl, rfl⟩

/-! ### Nothing of the earlier note but the filter's state -/

/-- Beside the lines' listed words a note's voice depends on the earlier voice by `S1` and `S2` only, and where
`CTRL.FILT_RST_ON_NOTEON` is set not on these (R267). -/
theorem Voice.noteOn_forgets {x y : Voice} {ctrl : Ctrl}
    (h : ctrl.filtRstOnNoteOn = true ∨ (x.s1 = y.s1 ∧ x.s2 = y.s2)) (note : NoteRegs) (pitch velocity : Word) :
    { x.noteOn note ctrl pitch velocity with left := [], right := [] } =
      { y.noteOn note ctrl pitch velocity with left := [], right := [] } := by
  have h1 : (if ctrl.filtRstOnNoteOn then fZero else x.s1) = if ctrl.filtRstOnNoteOn then fZero else y.s1 := by
    rcases h with h | ⟨h, -⟩
    · rw [if_pos h, if_pos h]
    · rw [h]
  have h2 : (if ctrl.filtRstOnNoteOn then fZero else x.s2) = if ctrl.filtRstOnNoteOn then fZero else y.s2 := by
    rcases h with h | ⟨-, h⟩
    · rw [if_pos h, if_pos h]
    · rw [h]
  cases hp : positiveFinite pitch
  · rw [x.noteOn_invalid note ctrl velocity hp, y.noteOn_invalid note ctrl velocity hp]
    simp only [Voice.startEnvelope, Voice.latchFilter, Voice.degenerate, Voice.latchNote, h1, h2]
  · rw [x.noteOn_valid note ctrl velocity hp, y.noteOn_valid note ctrl velocity hp]
    simp only [Voice.startEnvelope, Voice.latchFilter, Voice.seed, Voice.latchNote, h1, h2]

/-- A note with lines has a valid pitch (R254). -/
theorem Voice.positiveFinite_of_noteOn_degen {v : Voice} {note : NoteRegs} {ctrl : Ctrl} {pitch velocity : Word}
    (h : (v.noteOn note ctrl pitch velocity).degen = false) : positiveFinite pitch = true := by
  cases hp : positiveFinite pitch
  · rw [v.noteOn_invalid note ctrl velocity hp] at h
    cases h
  · rfl

/-- Below `L` the lines of a note of valid pitch are the seed, whatever was there. -/
theorem State.startNote_lines (s : State) (v : Fin Config.numVoices) (hp : positiveFinite s.arg0 = true) {i : Nat}
    (hi : i < ((s.startNote v).voice v).l.toNat) :
    let l := noteLength s.note.sampleRate s.arg0
    (s.startNote v).leftAt v i = fmul (excitation l (pluckIndex s.note.pluckPos l) i) fHalf ∧
      (s.startNote v).rightAt v i = fmul (excitation l (pluckIndex s.note.pluckPos l) i) fHalf := by
  obtain ⟨hl, -, hleft, hright⟩ := Voice.noteOn_geometry (s.voice v) s.note s.ctrl s.arg0 s.arg1 hp
  rw [State.startNote_voice, hl, toNat_ofNat_14 _ (noteLength_bounds _ _).2] at hi
  constructor
  · rw [State.leftAt, State.startNote_voice, hleft, seedLine_append_getD, if_pos hi]
  · rw [State.rightAt, State.startNote_voice, hright, seedLine_append_getD, if_pos hi]

/-- Settles O19. -/
theorem noteOnForgetsEarlierNote : Obligations.NoteOnForgetsEarlierNote := by
  intro s v x y hfin hpos hfilt
  have hvoice : ∀ z, ((s.setVoice v z).startNote v).voice v = z.noteOn s.note s.ctrl s.arg0 s.arg1 := by
    intro z
    simp
  have hother : ∀ z w, w ≠ v → ((s.setVoice v z).startNote v).voice w = s.voice w := by
    intro z w hw
    exact ((onlyVoice_startNote _ v).1 w hw).trans (sameVoicesBut_setVoice s v z w hw)
  have hforget := Voice.noteOn_forgets hfilt s.note s.arg0 s.arg1
  refine ⟨_, _, exec_noteOn_startNote v hfin hpos, exec_noteOn_startNote v hfin hpos, ?_, fun hd i hi => ?_, rfl,
    fun w hw => (hother y w hw).trans (hother x w hw).symm⟩
  · rwa [hvoice, hvoice]
  · have hlen : ((s.setVoice v x).startNote v |>.voice v).l = ((s.setVoice v y).startNote v |>.voice v).l := by
      have hl := congrArg Voice.l hforget
      rwa [hvoice, hvoice]
    rw [hvoice] at hd
    have hp : positiveFinite s.arg0 = true := Voice.positiveFinite_of_noteOn_degen hd
    obtain ⟨leftx, rightx⟩ := State.startNote_lines (s.setVoice v x) v hp hi
    obtain ⟨lefty, righty⟩ := State.startNote_lines (s.setVoice v y) v hp (hlen ▸ hi)
    exact ⟨leftx.trans lefty.symm, rightx.trans righty.symm⟩

end Sys2Proof.Machine
end

