-- ==== Sys2Proof/Proofs/NoteRelease.lean ====
section
/-! `NOTE_OFF` (O22): its error for a voice number out of range, and what it leaves of a voice (R269, R270). -/

namespace Sys2Proof.Machine

open Sys2Proof

-- One proof is elaborated after another here: each thread at work takes its share of the check's memory limit.
set_option Elab.async false

theorem onlyVoice_refl (v : Fin Config.numVoices) (s : State) : OnlyVoice v s s :=
  ⟨fun _ _ => rfl, fun _ => rfl, rfl, rfl, ⟨rfl, rfl, rfl, rfl, rfl, rfl⟩, ⟨rfl, rfl, rfl, rfl⟩⟩

theorem Voice.noteOff_no_tail (v : Voice) : v.noteOff false = v.silence := rfl

theorem Voice.noteOff_tail_of_rate {v : Voice} (h : fgt v.releaseRateNow fZero = true) :
    v.noteOff true = { v with releaseRate := v.releaseRateNow, stage := .release } := if_pos h

theorem Voice.noteOff_tail_of_no_rate {v : Voice} (h : fgt v.releaseRateNow fZero = false) :
    v.noteOff true = v.silence := if_neg (by rw [h]; decide)

/-- Settles O22: an idle voice is left, an active one is silenced or released. -/
theorem noteOffReleases : Obligations.NoteOffReleases := by
  refine ⟨fun s v tail hv => ⟨_, exec_noteOff_range s v tail hv, s.raise_records .a .voiceRange⟩, fun s v tail => ?_⟩
  cases ha : (s.voice v).active
  case false =>
    exact ⟨s, exec_noteOff_idle s v tail ha, onlyVoice_refl v s, rfl, fun _ => rfl, fun h => (by cases h),
      fun h => (by cases h)⟩
  case true =>
    refine ⟨_, exec_noteOff_active s v tail ha, onlyVoice_setVoice s v _, rfl, fun h => (by cases h), ?_, ?_⟩
    · rintro - rfl
      rw [State.setVoice_voice_same]
      exact Voice.noteOff_no_tail _
    · rintro - rfl
      rw [State.setVoice_voice_same]
      exact ⟨Voice.noteOff_tail_of_rate, Voice.noteOff_tail_of_no_rate⟩

end Sys2Proof.Machine
end

