-- ==== Sys2Proof/Proofs/RenderLines.lean ====
section
/-! The parts of a sample: the waveguide step on the two lines (O23), the loss filter over the interior of `LEFT` (O24), and
the envelope's next value in every stage (O28). -/

namespace Sys2Proof.Machine

open Sys2Proof

-- One proof is elaborated after another here: each thread at work takes its share of the check's memory limit.
set_option Elab.async false

/-! ### The waveguide step -/

theorem waveguideStep_left_shift (refl : Word) (left right : List Word) {i : Nat} (h : i + 1 < left.length) :
    (waveguideStep refl left right).1[i]? = left[i + 1]? := by
  have hi : i < left.tail.length := by rw [List.length_tail]; omega
  rw [waveguideStep, List.getElem?_append_left hi, List.getElem?_tail]

theorem waveguideStep_right_shift (refl : Word) (left right : List Word) {i : Nat} (h : i + 1 < right.length) :
    (waveguideStep refl left right).2[i + 1]? = right[i]? := by
  rw [waveguideStep, List.getElem?_cons_succ, List.getElem?_dropLast, if_pos (by omega)]

/-- The nut reads `LEFT[0]` before the shift. -/
theorem waveguideStep_nut (refl : Word) (left right : List Word) (h : left ≠ []) :
    (waveguideStep refl left right).2[0]? = left[0]?.map fneg := by
  obtain ⟨x, xs, rfl⟩ := List.exists_cons_of_ne_nil h
  rfl

/-- The bridge reads the last element of `RIGHT` after the shift. -/
theorem waveguideStep_bridge (refl : Word) (left right : List Word) (h : 0 < left.length)
    (hlen : right.length = left.length) :
    (waveguideStep refl left right).1[left.length - 1]? =
      (waveguideStep refl left right).2[left.length - 1]?.map (fmul (fneg refl)) := by
  have hne : right ≠ [] := List.ne_nil_of_length_pos (by omega)
  have hlast : (waveguideStep refl left right).2.getLast? = (waveguideStep refl left right).2[left.length - 1]? := by
    rw [List.getLast?_eq_getElem?, waveguideStep_right_length refl left right hne, hlen]
  rw [← hlast, waveguideStep, ← List.length_tail, List.getElem?_concat_length, List.getLast?_cons, List.getLastD_cons,
    List.getLastD_eq_getLast?]
  rfl

/-- Settles O23. -/
theorem waveguideStepReflects : Obligations.WaveguideStepReflects := by
  intro refl left right h2 hlen
  have hleft : left ≠ [] := List.ne_nil_of_length_pos (by omega)
  have hright : right ≠ [] := List.ne_nil_of_length_pos (by omega)
  refine ⟨waveguideStep_left_length refl left right hleft,
    (waveguideStep_right_length refl left right hright).trans hlen,
    fun i hi => waveguideStep_left_shift refl left right hi, fun i hi hl => ?_,
    waveguideStep_nut refl left right hleft, waveguideStep_bridge refl left right (by omega) hlen⟩
  obtain ⟨k, rfl⟩ : ∃ k, i = k + 1 := ⟨i - 1, by omega⟩
  exact waveguideStep_right_shift refl left right (by omega)

/-! ### The loss filter -/

theorem filterStep_onePole {v : Voice} (h : v.vMode = false) (st : FiltState) (x : Word) :
    filterStep v st x = onePole v st x := if_neg (by rw [h]; decide)

theorem filterStep_biquad {v : Voice} (h : v.vMode = true) (st : FiltState) (x : Word) :
    filterStep v st x = biquad v st x := if_pos h

/-- Element `i` of a run is filtered from the state that the elements before it leave. -/
theorem filterRun_getElem? (v : Voice) (xs : List Word) : ∀ (st : FiltState) (i : Nat) (x : Word), xs[i]? = some x →
    (filterRun v st xs).1[i]? = some (filterStep v (filterRun v st (xs.take i)).2 x).1 ∧
      (filterRun v st (xs.take (i + 1))).2 = (filterStep v (filterRun v st (xs.take i)).2 x).2 := by
  induction xs with
  | nil => intro st i x h; cases h
  | cons y ys ih =>
    intro st i x h
    cases i with
    | zero => cases h; exact ⟨rfl, rfl⟩
    | succ i => exact ih _ i x h

/-- The filter's state where it comes to index `i` of a line (R304). -/
def interiorState (v : Voice) (st : FiltState) (left : List Word) (i : Nat) : FiltState :=
  (filterRun v st (left.tail.dropLast.take (i - 1))).2

theorem interiorState_last (v : Voice) (st : FiltState) (left : List Word) :
    interiorState v st left (left.length - 1) = (filterInterior v st left).2 := by
  cases left with
  | nil => rfl
  | cons x xs =>
    rw [interiorState, List.tail_cons, List.take_of_length_le (by simp), filterInterior]

theorem filterInterior_first (v : Voice) (st : FiltState) (left : List Word) :
    (filterInterior v st left).1[0]? = left[0]? := by
  cases left <;> rfl

theorem filterInterior_last (v : Voice) (st : FiltState) (left : List Word) (h : 2 ≤ left.length) :
    (filterInterior v st left).1[left.length - 1]? = left[left.length - 1]? := by
  obtain ⟨x, xs, rfl⟩ := List.exists_cons_of_length_pos (by omega : 0 < left.length)
  rw [List.length_cons] at h ⊢
  have hlen : (filterRun v st xs.dropLast).1.length = xs.length - 1 := by rw [filterRun_length, List.length_dropLast]
  obtain ⟨n, hn⟩ : ∃ n, xs.length = n + 1 := ⟨xs.length - 1, by omega⟩
  rw [filterInterior, List.cons_append, hn, Nat.add_sub_cancel, List.getElem?_cons_succ, List.getElem?_cons_succ,
    List.getElem?_append_right (by omega), hlen, hn, Nat.add_sub_cancel, Nat.sub_self, List.getLast?_eq_getElem?, hn,
    Nat.add_sub_cancel]
  cases xs[n]? <;> rfl

/-- An interior element is filtered from the state of its index, and leaves the state of the next. -/
theorem filterInterior_interior (v : Voice) (st : FiltState) (left : List Word) {i : Nat} {x : Word} (h1 : 1 ≤ i)
    (hi : i + 1 < left.length) (hx : left[i]? = some x) :
    (filterInterior v st left).1[i]? = some (filterStep v (interiorState v st left i) x).1 ∧
      interiorState v st left (i + 1) = (filterStep v (interiorState v st left i) x).2 := by
  obtain ⟨k, rfl⟩ : ∃ k, i = k + 1 := ⟨i - 1, by omega⟩
  obtain ⟨y, ys, rfl⟩ := List.exists_cons_of_length_pos (by omega : 0 < left.length)
  rw [List.length_cons] at hi
  have hk : ys.dropLast[k]? = some x := by
    rw [List.getElem?_dropLast, if_pos (by omega)]
    exact hx
  obtain ⟨hout, hstate⟩ := filterRun_getElem? v ys.dropLast st k x hk
  refine ⟨?_, hstate⟩
  rw [filterInterior, List.cons_append, List.getElem?_cons_succ,
    List.getElem?_append_left (by rw [filterRun_length, List.length_dropLast]; omega), hout]
  rfl

/-- Settles O24. -/
theorem interiorFilterThreads : Obligations.InteriorFilterThreads := by
  intro v st left h2
  refine ⟨filterInterior_length v st left, filterInterior_first v st left, filterInterior_last v st left h2,
    interiorState v st left, rfl, interiorState_last v st left, fun i x y h1 hi hx hy => ?_⟩
  obtain ⟨hout, hnext⟩ := filterInterior_interior v st left h1 hi hx
  obtain rfl : y = (filterStep v (interiorState v st left i) x).1 := Option.some.inj (hy.symm.trans hout)
  rw [hnext]
  exact ⟨fun hmode => by rw [filterStep_onePole hmode]; exact ⟨rfl, rfl⟩,
    fun hmode => by rw [filterStep_biquad hmode]; exact ⟨rfl, rfl⟩⟩

/-! ### The envelope -/

section Stages

variable {v : Voice}

theorem Voice.envNext_idle (h : v.stage = .idle) : v.envNext = { v with envLevel := fZero } := by
  simp only [Voice.envNext, h]

theorem Voice.envNext_attack (h : v.stage = .attack) : v.envNext =
    if fge (fadd v.envLevel v.attackRate) fOne then
      { v with envLevel := fOne, stage := if fgt v.decayRate fZero then .decay else .sustain }
    else { v with envLevel := fadd v.envLevel v.attackRate } := by
  simp only [Voice.envNext, h]

theorem Voice.envNext_decay (h : v.stage = .decay) : v.envNext =
    if fle (fsub v.envLevel v.decayRate) v.sustainLevel then { v with envLevel := v.sustainLevel, stage := .sustain }
    else { v with envLevel := fsub v.envLevel v.decayRate } := by
  simp only [Voice.envNext, h]

theorem Voice.envNext_sustain (h : v.stage = .sustain) : v.envNext = { v with envLevel := v.sustainLevel } := by
  simp only [Voice.envNext, h]

theorem Voice.envNext_release (h : v.stage = .release) : v.envNext =
    if fle (fsub v.envLevel v.releaseRate) fZero then { v with envLevel := fZero, stage := .idle }
    else { v with envLevel := fsub v.envLevel v.releaseRate } := by
  simp only [Voice.envNext, h]

end Stages

/-- Settles O28, an equation for each stage; that levels stay in [0, 1] is `envOk_envNext`. -/
theorem envelopeFollowsItsStage : Obligations.EnvelopeFollowsItsStage := by
  intro v
  refine ⟨Voice.envNext_idle, fun h => ?_, fun h => ?_, Voice.envNext_sustain, fun h => ?_, envOk_envNext v⟩
  · rw [Voice.envNext_attack h]
    exact ⟨fun hc => if_pos hc, fun hc => if_neg (by rw [hc]; decide)⟩
  · rw [Voice.envNext_decay h]
    exact ⟨fun hc => if_pos hc, fun hc => if_neg (by rw [hc]; decide)⟩
  · rw [Voice.envNext_release h]
    exact ⟨fun hc => if_pos hc, fun hc => if_neg (by rw [hc]; decide)⟩

end Sys2Proof.Machine
end

