-- ==== Sys2Proof/Proofs/RenderSamples.lean ====
section
/-! One sample of a voice with lines (O26), and the samples of a block in order (O27). -/

namespace Sys2Proof.Machine

open Sys2Proof

-- One proof is elaborated after another here: each thread at work takes its share of the check's memory limit.
set_option Elab.async false

/-! ### The elements of a line -/

/-- `LEFT[i]` of a voice (R83): what `State.leftAt` reads. -/
def Voice.leftAt (draw n : Nat) (v : Voice) (i : Nat) : Word := v.left.getD i (freeLeft draw n i)

/-- `RIGHT[i]` of a voice (R83): what `State.rightAt` reads. -/
def Voice.rightAt (draw n : Nat) (v : Voice) (i : Nat) : Word := v.right.getD i (freeRight draw n i)

theorem State.leftAt_eq (s : State) (v : Fin Config.numVoices) (i : Nat) :
    s.leftAt v i = (s.voice v).leftAt s.ramDraw v.val i := rfl

theorem State.rightAt_eq (s : State) (v : Fin Config.numVoices) (i : Nat) :
    s.rightAt v i = (s.voice v).rightAt s.ramDraw v.val i := rfl

/-- `LEFT[0 .. L-1]`. -/
def Voice.leftLine (draw n : Nat) (v : Voice) : List Word := (List.range v.l.toNat).map (v.leftAt draw n)

/-- `RIGHT[0 .. L-1]`. -/
def Voice.rightLine (draw n : Nat) (v : Voice) : List Word := (List.range v.l.toNat).map (v.rightAt draw n)

@[simp] theorem Voice.leftLine_length (draw n : Nat) (v : Voice) : (v.leftLine draw n).length = v.l.toNat := by
  simp [Voice.leftLine]

@[simp] theorem Voice.rightLine_length (draw n : Nat) (v : Voice) : (v.rightLine draw n).length = v.l.toNat := by
  simp [Voice.rightLine]

theorem window_eq_map_range (free : Nat → Word) (n : Nat) (xs : List Word) :
    window free 0 n xs = (List.range n).map (fun i => xs.getD i (free i)) := by
  refine List.ext_getElem (by simp) fun i hi _ => ?_
  rw [window_getElem, Nat.zero_add, List.getElem_map, List.getElem_range]

/-- What a line reads as, once new elements are written over its first ones. -/
theorem getD_append_drop (new old : List Word) (i : Nat) (d : Word) :
    (new ++ old.drop new.length).getD i d = if i < new.length then new.getD i fZero else old.getD i d := by
  split
  · next h => rw [List.getD_append _ _ _ _ h, List.getD_eq_getElem _ _ h, List.getD_eq_getElem _ _ h]
  · next h =>
    rw [List.getD_append_right _ _ _ _ (not_lt.1 h), List.getD_eq_getElem?_getD, List.getElem?_drop,
      List.getD_eq_getElem?_getD, Nat.add_sub_cancel' (not_lt.1 h)]

/-! ### One sample -/

/-- The lines after the waveguide step of a sample (R303). -/
def Voice.shifted (draw n : Nat) (v : Voice) : List Word × List Word :=
  waveguideStep v.refl (v.leftLine draw n) (v.rightLine draw n)

/-- `LEFT` and the filter's state after the interior filter of a sample (R304). -/
def Voice.filtered (draw n : Nat) (v : Voice) : List Word × FiltState :=
  filterInterior v ⟨v.s1, v.s2⟩ (v.shifted draw n).1

theorem Voice.stepLines_filtered (draw n : Nat) (v : Voice) : v.stepLines draw n =
    { v with
      left := (v.filtered draw n).1 ++ v.left.drop v.l.toNat
      right := (v.shifted draw n).2 ++ v.right.drop v.l.toNat
      s1 := (v.filtered draw n).2.s1, s2 := (v.filtered draw n).2.s2 } := by
  simp only [Voice.stepLines, window_eq_map_range]
  rfl

theorem Voice.shifted_right_length (draw n : Nat) (v : Voice) (h : 2 ≤ v.l.toNat) :
    (v.shifted draw n).2.length = v.l.toNat := by
  have hne : v.rightLine draw n ≠ [] := List.ne_nil_of_length_pos (by rw [Voice.rightLine_length]; omega)
  rw [Voice.shifted, waveguideStep_right_length _ _ _ hne, Voice.rightLine_length]

theorem Voice.filtered_length (draw n : Nat) (v : Voice) (h : 2 ≤ v.l.toNat) :
    (v.filtered draw n).1.length = v.l.toNat := by
  have hne : v.leftLine draw n ≠ [] := List.ne_nil_of_length_pos (by rw [Voice.leftLine_length]; omega)
  rw [Voice.filtered, filterInterior_length, Voice.shifted, waveguideStep_left_length _ _ _ hne, Voice.leftLine_length]

theorem Voice.stepLines_leftAt (draw n : Nat) (v : Voice) (h : 2 ≤ v.l.toNat) (i : Nat) :
    (v.stepLines draw n).leftAt draw n i =
      if i < v.l.toNat then (v.filtered draw n).1.getD i fZero else v.leftAt draw n i := by
  have hread := getD_append_drop (v.filtered draw n).1 v.left i (freeLeft draw n i)
  rw [Voice.filtered_length draw n v h] at hread
  rw [Voice.stepLines_filtered]
  exact hread

theorem Voice.stepLines_rightAt (draw n : Nat) (v : Voice) (h : 2 ≤ v.l.toNat) (i : Nat) :
    (v.stepLines draw n).rightAt draw n i =
      if i < v.l.toNat then (v.shifted draw n).2.getD i fZero else v.rightAt draw n i := by
  have hread := getD_append_drop (v.shifted draw n).2 v.right i (freeRight draw n i)
  rw [Voice.shifted_right_length draw n v h] at hread
  rw [Voice.stepLines_filtered]
  exact hread

/-- The envelope reads neither the lines nor the filter's registers. -/
theorem Voice.envNext_stepLines (draw n : Nat) (v : Voice) :
    (v.stepLines draw n).envNext.envLevel = v.envNext.envLevel ∧
      (v.stepLines draw n).envNext.stage = v.envNext.stage := by
  cases h : v.stage
  case idle =>
    rw [Voice.envNext_idle h, Voice.envNext_idle (v := v.stepLines draw n) h]
    exact ⟨rfl, rfl⟩
  case attack =>
    rw [Voice.envNext_attack h, Voice.envNext_attack (v := v.stepLines draw n) h, Voice.stepLines_eq]
    split <;> exact ⟨rfl, rfl⟩
  case decay =>
    rw [Voice.envNext_decay h, Voice.envNext_decay (v := v.stepLines draw n) h, Voice.stepLines_eq]
    split <;> exact ⟨rfl, rfl⟩
  case sustain =>
    rw [Voice.envNext_sustain h, Voice.envNext_sustain (v := v.stepLines draw n) h]
    exact ⟨rfl, rfl⟩
  case release =>
    rw [Voice.envNext_release h, Voice.envNext_release (v := v.stepLines draw n) h, Voice.stepLines_eq]
    split <;> exact ⟨rfl, rfl⟩

/-- The voice after a sample: the lines and the filter's registers as steps 1 to 6 leave them, and the envelope's next
level and stage (R302). -/
theorem Voice.renderSample_voice (draw n : Nat) (v : Voice) : (v.renderSample draw n).1 =
    { v.stepLines draw n with envLevel := v.envNext.envLevel, stage := v.envNext.stage } := by
  obtain ⟨hlevel, hstage⟩ := Voice.envNext_stepLines draw n v
  rw [Voice.renderSample_eq, Voice.envNext_eq, hlevel, hstage]

theorem sameNote_refl (v : Voice) : SameNote v v :=
  ⟨rfl, rfl, rfl, rfl, rfl, rfl, rfl, rfl, rfl, rfl, rfl, rfl, rfl, rfl, rfl, rfl, rfl, rfl⟩

theorem SameNote.renderSample {v w : Voice} (h : SameNote v w) (draw n : Nat) :
    SameNote v (w.renderSample draw n).1 := by
  rw [Voice.renderSample_voice]
  exact h

theorem SameNote.envNext {v w : Voice} (h : SameNote v w) : SameNote v w.envNext := by
  rw [Voice.envNext_eq]
  exact h

theorem Voice.renderSample_leftAt (draw n : Nat) (v : Voice) (h : 2 ≤ v.l.toNat) (i : Nat) :
    (v.renderSample draw n).1.leftAt draw n i =
      if i < v.l.toNat then (v.filtered draw n).1.getD i fZero else v.leftAt draw n i := by
  rw [Voice.renderSample_voice]
  exact Voice.stepLines_leftAt draw n v h i

theorem Voice.renderSample_rightAt (draw n : Nat) (v : Voice) (h : 2 ≤ v.l.toNat) (i : Nat) :
    (v.renderSample draw n).1.rightAt draw n i =
      if i < v.l.toNat then (v.shifted draw n).2.getD i fZero else v.rightAt draw n i := by
  rw [Voice.renderSample_voice]
  exact Voice.stepLines_rightAt draw n v h i

/-- The output of a sample (R307, R309): the pickup reads the lines as the sample leaves them. -/
theorem Voice.renderSample_out (draw n : Nat) (v : Voice) : (v.renderSample draw n).2 =
    outSample (fadd ((v.renderSample draw n).1.leftAt draw n v.pickupIdx.toNat)
      ((v.renderSample draw n).1.rightAt draw n v.pickupIdx.toNat)) v.envNext.envLevel v.velocity := by
  have hvoice := Voice.renderSample_voice draw n v
  rw [show (v.renderSample draw n).2 = outSample ((v.stepLines draw n).pickup draw n)
    (v.renderSample draw n).1.envLevel (v.renderSample draw n).1.velocity from rfl, hvoice]
  rfl

/-- Settles O26. -/
theorem renderSampleSteps : Obligations.RenderSampleSteps := by
  intro draw n v _ h2 hpick
  have left := Voice.renderSample_leftAt draw n v h2
  have right := Voice.renderSample_rightAt draw n v h2
  have hout := Voice.renderSample_out draw n v
  rw [left, right, if_pos hpick, if_pos hpick] at hout
  have hvoice := Voice.renderSample_voice draw n v
  rw [Voice.stepLines_filtered] at hvoice
  refine ⟨fun i hi => ⟨(left i).trans (if_pos hi), (right i).trans (if_pos hi)⟩,
    fun i hi => ⟨(left i).trans (if_neg (not_lt.2 hi)), (right i).trans (if_neg (not_lt.2 hi))⟩,
    (congrArg Voice.s1 hvoice :), (congrArg Voice.s2 hvoice :), (congrArg Voice.envLevel hvoice :),
    (congrArg Voice.stage hvoice :), (congrArg Voice.active hvoice :), (sameNote_refl v).renderSample draw n, hout⟩

/-! ### The samples of a block -/

/-- The voice after one sample of a voice with lines. -/
def Voice.nextVoice (draw n : Nat) (v : Voice) : Voice := (v.renderSample draw n).1

theorem Voice.renderSamples_hasLines (draw n count : Nat) {v : Voice} (h : v.hasLines = true) :
    v.renderSamples draw n (count + 1) = (((v.nextVoice draw n).renderSamples draw n count).1,
      (v.renderSample draw n).2 :: ((v.nextVoice draw n).renderSamples draw n count).2) := by
  rw [Voice.renderSamples, if_pos h]
  rfl

theorem Voice.renderSamples_noLines (draw n count : Nat) {v : Voice} (h : v.hasLines = false) :
    v.renderSamples draw n (count + 1) = v.envNext.renderSamples draw n count := by
  rw [Voice.renderSamples, if_neg (by rw [h]; decide)]

/-- A voice with lines: each sample starts from the voice as the one before left it. -/
theorem Voice.renderSamples_iterate (draw n : Nat) (count : Nat) : ∀ {v : Voice}, v.hasLines = true →
    v.renderSamples draw n count = ((Voice.nextVoice draw n)^[count] v,
      (List.range count).map (fun j => (((Voice.nextVoice draw n)^[j] v).renderSample draw n).2)) := by
  induction count with
  | zero => intro v _; rfl
  | succ count ih =>
    intro v h
    have hnext : (v.nextVoice draw n).hasLines = true := (Voice.hasLines_renderSample draw n v).trans h
    rw [Voice.renderSamples_hasLines draw n count h, ih hnext, List.range_succ_eq_map, List.map_cons, List.map_map]
    rfl

/-- A voice without lines runs its envelope once a sample. -/
theorem Voice.renderSamples_envNext (draw n : Nat) (count : Nat) : ∀ {v : Voice}, v.hasLines = false →
    v.renderSamples draw n count = (Voice.envNext^[count] v, []) := by
  induction count with
  | zero => intro v _; rfl
  | succ count ih =>
    intro v h
    rw [Voice.renderSamples_noLines draw n count h, ih ((Voice.hasLines_envNext v).trans h)]
    rfl

theorem hasLines_of_degen {v : Voice} (h : v.degen = true) : v.hasLines = false := by simp [Voice.hasLines, h]

/-- Settles O27. -/
theorem renderSamplesInOrder : Obligations.RenderSamplesInOrder := by
  intro draw n count v
  refine ⟨fun hd h2 => ?_, fun hd => Voice.renderSamples_envNext draw n count (hasLines_of_degen hd)⟩
  rw [Voice.renderSamples_iterate draw n count ((hasLines_iff v).2 ⟨hd, h2⟩)]
  refine ⟨rfl, by simp, fun j hj => ?_⟩
  rw [List.getElem?_map, List.getElem?_range hj]
  rfl

end Sys2Proof.Machine
end

