-- ==== Sys2Proof/Proofs/RenderBlock.lean ====
section
/-! What `RENDER_BLOCK` does over its voices (O29) and leaves unchanged (O30), and `OUT_CLEAR` (O32). -/

namespace Sys2Proof.Machine

open Sys2Proof

-- One proof is elaborated after another here: each thread at work takes its share of the check's memory limit.
set_option Elab.async false

/-! ### `OUT_CLEAR` -/

/-- A byte outside a block stands outside its words of every channel. -/
theorem outside_of_not_blockBytes {start count a : Nat} (h : ¬ blockBytes start count a) {c : Nat}
    (hc : c < Config.numChannels) : a < outAddr c start ∨ outAddr c start + 4 * count ≤ a := by
  by_contra hin
  refine h ⟨c, (a - outAddr c start) / 4, (a - outAddr c start) % 4, hc, by omega, by omega, ?_⟩
  simp only [outAddr] at hin ⊢
  omega

/-- Settles O32. -/
theorem outClearZeroesItsBlock : Obligations.OutClearZeroesItsBlock := by
  refine ⟨fun s start count h => ⟨_, exec_outClear_range s start count h, s.raise_records .a .blockRange⟩,
    fun s start count h => ⟨_, exec_outClear s start count h, fun c j hc hj => ?_, fun a ha => ?_, fun _ => rfl, rfl,
      rfl, rfl, ⟨rfl, rfl, rfl, rfl, rfl, rfl⟩, ⟨rfl, rfl, rfl, rfl⟩⟩⟩
  · exact clearOut_readWord s.ramDraw s.mem start count c j hc hj h
  · exact clearOut_readByte_other s.ramDraw s.mem start count a fun c hc => outside_of_not_blockBytes ha hc

/-! ### Rendering one voice -/

/-- The samples voice `v` of a state adds to `OUT_BUF` in a block. -/
def State.voiceOuts (s : State) (count : Nat) (v : Fin Config.numVoices) : List Word :=
  ((s.voice v).renderSamples s.ramDraw v.val count).2

/-- Voice `v` of a state as a block of `count` samples leaves it. -/
def State.renderedVoice (s : State) (count : Nat) (v : Fin Config.numVoices) : Voice :=
  if (s.voice v).active then ((s.voice v).renderSamples s.ramDraw v.val count).1.endBlock else s.voice v

/-- An element of `OUT_BUF` with sample `j` of voice `v` added, where the voice is active and has lines (R310, R311). -/
def State.addSample (s : State) (count j : Nat) (acc : Word) (v : Fin Config.numVoices) : Word :=
  if (s.voice v).active && !(s.voice v).degen then fadd acc ((s.voiceOuts count v).getD j fZero) else acc

section OneVoice

variable (s : State) (start count : Nat) (v : Fin Config.numVoices)

theorem State.renderVoice_ramDraw : (s.renderVoice start count v).ramDraw = s.ramDraw := by
  cases h : (s.voice v).active
  · rw [State.renderVoice_inactive s start count v h]
  · rw [State.renderVoice_active s start count v h]; rfl

theorem State.renderVoice_voice (w : Fin Config.numVoices) :
    (s.renderVoice start count v).voice w = if w = v then s.renderedVoice count v else s.voice w := by
  cases h : (s.voice v).active
  · have hkept : s.renderedVoice count v = s.voice v := if_neg (by rw [h]; decide)
    rw [State.renderVoice_inactive s start count v h, hkept]
    split
    · next e => rw [e]
    · rfl
  · rw [State.renderVoice_active s start count v h, State.renderedVoice, if_pos h]
    exact State.setVoice_voice s v w _

theorem State.renderVoice_nonfinite : (s.renderVoice start count v).statusA.nonfinite =
    (s.statusA.nonfinite || (s.voice v).active && (s.voiceOuts count v).any (fun o => !isFinite o)) := by
  cases h : (s.voice v).active
  · rw [State.renderVoice_inactive s start count v h, Bool.false_and, Bool.or_false]
  · rw [State.renderVoice_active s start count v h, Bool.true_and]; rfl

theorem State.voiceOuts_length : (s.voiceOuts count v).length = if (s.voice v).hasLines then count else 0 :=
  Voice.renderSamples_length s.ramDraw v.val count (s.voice v)

/-- Each sample of an active voice with lines is added once, into every channel. -/
theorem State.renderVoice_outBuf (hb : start + count ≤ Config.blockMax)
    (hl : (s.voice v).active = true → (s.voice v).degen = false → 2 ≤ (s.voice v).l.toNat) {c j : Nat}
    (hc : c < Config.numChannels) (hj : j < count) : (s.renderVoice start count v).outBuf c (start + j) =
      s.addSample count j (s.outBuf c (start + j)) v := by
  unfold State.addSample
  cases ha : (s.voice v).active
  · rw [State.renderVoice_inactive s start count v ha]; rfl
  · have hadd : (s.renderVoice start count v).outBuf c (start + j) =
        Memory.readWord s.ramDraw (addOuts s.ramDraw s.mem start (s.voiceOuts count v)) (outAddr c (start + j)) := by
      rw [State.renderVoice_active s start count v ha]; rfl
    have hlen := s.voiceOuts_length count v
    rw [hadd]
    cases hd : (s.voice v).degen
    · rw [if_pos ((hasLines_iff _).2 ⟨hd, hl ha hd⟩)] at hlen
      rw [addOuts_readWord _ _ _ _ _ _ (by omega) hc (by omega), List.getD_eq_getElem _ _ (by omega)]
      rfl
    · rw [if_neg (by rw [hasLines_of_degen hd]; decide), List.length_eq_zero_iff] at hlen
      rw [hlen]
      rfl

end OneVoice

/-! ### Rendering the voices in order -/

/-- What rendering the voices of a list, each once, makes of a state: every listed voice is rendered from what it held
before, and their samples are added in the list's order. -/
structure Rendered (s : State) (start count : Nat) (vs : List (Fin Config.numVoices)) (t : State) : Prop where
  ramDraw : t.ramDraw = s.ramDraw
  listed : ∀ v ∈ vs, t.voice v = s.renderedVoice count v
  unlisted : ∀ v, v ∉ vs → t.voice v = s.voice v
  outBuf : ∀ c j, c < Config.numChannels → j < count →
    t.outBuf c (start + j) = vs.foldl (s.addSample count j) (s.outBuf c (start + j))
  nonfinite : t.statusA.nonfinite = (s.statusA.nonfinite ||
    vs.any (fun v => (s.voice v).active && (s.voiceOuts count v).any (fun o => !isFinite o)))

/-- A further voice is still as it was when the command started. -/
theorem Rendered.snoc {s t : State} {start count : Nat} {vs : List (Fin Config.numVoices)} {v : Fin Config.numVoices}
    (h : Rendered s start count vs t) (hv : v ∉ vs) (hb : start + count ≤ Config.blockMax)
    (hl : (s.voice v).active = true → (s.voice v).degen = false → 2 ≤ (s.voice v).l.toNat) :
    Rendered s start count (vs ++ [v]) (t.renderVoice start count v) := by
  have hsame : t.voice v = s.voice v := h.unlisted v hv
  have houts : t.voiceOuts count v = s.voiceOuts count v := by rw [State.voiceOuts, hsame, h.ramDraw]; rfl
  have hrend : t.renderedVoice count v = s.renderedVoice count v := by
    rw [State.renderedVoice, hsame, h.ramDraw]; rfl
  constructor
  · exact (t.renderVoice_ramDraw start count v).trans h.ramDraw
  · intro w hw
    rw [State.renderVoice_voice]
    split
    · next e => rw [hrend, e]
    · next e => exact h.listed w ((List.mem_append.1 hw).resolve_right (by simpa using e))
  · intro w hw
    rw [List.mem_append, List.mem_singleton, not_or] at hw
    rw [State.renderVoice_voice, if_neg hw.2]
    exact h.unlisted w hw.1
  · intro c j hc hj
    rw [State.renderVoice_outBuf t start count v hb (by rwa [hsame]) hc hj, List.foldl_append, ← h.outBuf c j hc hj]
    simp only [State.addSample, hsame, houts, List.foldl_cons, List.foldl_nil]
  · rw [State.renderVoice_nonfinite, h.nonfinite, hsame, houts, List.any_append, Bool.or_assoc]
    simp

theorem rendered_foldl (s : State) (start count : Nat) (hb : start + count ≤ Config.blockMax)
    (hl : ∀ v, (s.voice v).active = true → (s.voice v).degen = false → 2 ≤ (s.voice v).l.toNat)
    (vs : List (Fin Config.numVoices)) : vs.Nodup →
      Rendered s start count vs (vs.foldl (fun s v => s.renderVoice start count v) s) := by
  induction vs using List.reverseRecOn with
  | nil => exact fun _ => ⟨rfl, fun v hv => (by cases hv), fun _ _ => rfl, fun _ _ _ _ => rfl, (Bool.or_false _).symm⟩
  | append_singleton vs v ih =>
    intro hnd
    rw [List.nodup_append_comm, List.singleton_append, List.nodup_cons] at hnd
    rw [List.foldl_append]
    exact (ih hnd.2).snoc hnd.1 hb (hl v)

theorem rendered_renderVoices (s : State) (start count : Nat) (hb : start + count ≤ Config.blockMax)
    (hl : ∀ v, (s.voice v).active = true → (s.voice v).degen = false → 2 ≤ (s.voice v).l.toNat) :
    Rendered s start count (List.finRange Config.numVoices) (s.renderVoices start count) :=
  rendered_foldl s start count hb hl _ (List.nodup_finRange _)

/-- The hand-off changes the queue only (R313). -/
theorem State.handOff_eq (s : State) (start count : Nat) : s.handOff start count =
    s.setPushq (if s.ctrl.visAuto then s.pushq ++ s.blockSamples start count else s.pushq) := by
  unfold State.handOff
  split <;> rfl

/-- No sample writes `ACTIVE`. -/
theorem Voice.renderSamples_active (draw n count : Nat) (v : Voice) :
    (v.renderSamples draw n count).1.active = v.active := by
  refine Voice.renderSamples_keeps draw n (fun w => w.active = v.active) (fun w h _ => ?_) (fun w h => ?_) count v rfl
  · rw [Voice.renderSample_voice]; exact h
  · rw [Voice.envNext_eq]; exact h

/-- At the end of a block an active voice is active where its stage is not `IDLE` (R312). -/
theorem Voice.endBlock_of_active {v : Voice} (h : v.active = true) :
    v.endBlock = { v with active := !decide (v.stage = .idle) } := by
  unfold Voice.endBlock
  split
  · next hs => simp [hs]
  · next hs => simp [hs, ← h]

/-- Settles O29. -/
theorem renderBlockAccumulates : Obligations.RenderBlockAccumulates := by
  intro s start count hb hl
  have h := rendered_renderVoices s start count hb hl
  refine ⟨_, exec_renderBlock s start count hb, ?_⟩
  rw [State.handOff_eq]
  generalize s.renderVoices start count = t at h ⊢
  refine ⟨fun v ha => ?_, fun v ha => ?_, h.outBuf, h.nonfinite⟩
  · rw [State.setPushq_voice, h.listed v (List.mem_finRange v), State.renderedVoice, if_neg (by rw [ha]; decide)]
  · rw [State.setPushq_voice, h.listed v (List.mem_finRange v), State.renderedVoice, if_pos ha,
      Voice.endBlock_of_active ((Voice.renderSamples_active _ _ _ _).trans ha)]

/-! ### What the block leaves unchanged -/

/-- The voice `w` is `v` with its note, and the elements of its lines from `L` on, as before. -/
structure SameBeyond (draw n : Nat) (v w : Voice) : Prop where
  note : SameNote v w
  left : ∀ i, v.l.toNat ≤ i → w.leftAt draw n i = v.leftAt draw n i
  right : ∀ i, v.l.toNat ≤ i → w.rightAt draw n i = v.rightAt draw n i

theorem SameNote.length {v w : Voice} (h : SameNote v w) : w.l = v.l := h.2.1

theorem SameBeyond.renderSample {draw n : Nat} {v w : Voice} (h : SameBeyond draw n v w) (hl : w.hasLines = true) :
    SameBeyond draw n v (w.renderSample draw n).1 := by
  obtain ⟨-, h2⟩ := (hasLines_iff w).1 hl
  refine ⟨h.note.renderSample draw n, fun i hi => ?_, fun i hi => ?_⟩
  · rw [Voice.renderSample_leftAt draw n w h2, h.note.length, if_neg (not_lt.2 hi), h.left i hi]
  · rw [Voice.renderSample_rightAt draw n w h2, h.note.length, if_neg (not_lt.2 hi), h.right i hi]

theorem SameBeyond.envNext {draw n : Nat} {v w : Voice} (h : SameBeyond draw n v w) : SameBeyond draw n v w.envNext := by
  rw [Voice.envNext_eq]
  exact ⟨h.note, h.left, h.right⟩

theorem SameBeyond.endBlock {draw n : Nat} {v w : Voice} (h : SameBeyond draw n v w) :
    SameBeyond draw n v w.endBlock := by
  unfold Voice.endBlock
  split
  · exact ⟨h.note, h.left, h.right⟩
  · exact h

theorem SameBeyond.renderSamples {draw n : Nat} {v w : Voice} (h : SameBeyond draw n v w) (count : Nat) :
    SameBeyond draw n v (w.renderSamples draw n count).1 :=
  Voice.renderSamples_keeps draw n (SameBeyond draw n v) (fun _ h hl => h.renderSample hl) (fun _ h => h.envNext) count
    w h

/-- The frame of the voices' rendering. -/
structure RenderFrame (s : State) (start count : Nat) (t : State) : Prop where
  bytes : SameBytesBut (blockBytes start count) s t
  voices : ∀ v, SameBeyond s.ramDraw v.val (s.voice v) (t.voice v)
  resultA : t.resultA = s.resultA
  hostSide : SameHostSide s t
  display : SameDisplay s t
  statusA : t.statusA = { s.statusA with nonfinite := t.statusA.nonfinite }
  nonfinite : s.statusA.nonfinite = true → t.statusA.nonfinite = true
  pushq : t.pushq = s.pushq

theorem renderFrame_refl (s : State) (start count : Nat) : RenderFrame s start count s where
  bytes _ _ := rfl
  voices _ := ⟨sameNote_refl _, fun _ _ => rfl, fun _ _ => rfl⟩
  resultA := rfl
  hostSide := ⟨rfl, rfl, rfl, rfl, rfl, rfl⟩
  display := ⟨rfl, rfl, rfl, rfl⟩
  statusA := rfl
  nonfinite h := h
  pushq := rfl

theorem RenderFrame.ramDraw {s t : State} {start count : Nat} (h : RenderFrame s start count t) :
    t.ramDraw = s.ramDraw := by
  obtain ⟨-, -, -, -, -, hdraw⟩ := h.hostSide
  exact hdraw

/-- A voice adds no more samples than the block has words. -/
theorem State.voiceOuts_readByte_other (s : State) (start count : Nat) (v : Fin Config.numVoices) {a : Nat}
    (ha : ¬ blockBytes start count a) :
    Memory.readByte s.ramDraw (addOuts s.ramDraw s.mem start (s.voiceOuts count v)) a = s.readByte a := by
  have hlen := s.voiceOuts_length count v
  refine addOuts_readByte_other _ _ _ _ _ fun c j k hc hj hk e => ha ⟨c, j, k, hc, ?_, hk, e⟩
  split at hlen <;> omega

theorem RenderFrame.renderVoice {s t : State} {start count : Nat} (h : RenderFrame s start count t)
    (v : Fin Config.numVoices) : RenderFrame s start count (t.renderVoice start count v) := by
  cases ha : (t.voice v).active
  · rwa [State.renderVoice_inactive t start count v ha]
  · have hvoice : ∀ w, SameBeyond s.ramDraw w.val (s.voice w) ((t.renderVoice start count v).voice w) := by
      intro w
      rw [State.renderVoice_voice, State.renderedVoice, if_pos ha, h.ramDraw]
      split
      · next e =>
        subst e
        exact ((h.voices w).renderSamples count).endBlock
      · exact h.voices w
    rw [State.renderVoice_active t start count v ha] at hvoice ⊢
    exact {
      bytes := fun a hn => (t.voiceOuts_readByte_other start count v hn).trans (h.bytes a hn)
      voices := hvoice
      resultA := h.resultA
      hostSide := h.hostSide
      display := h.display
      statusA := by
        have hs := h.statusA
        simp only [State.setStatusA_statusA, noteNonfinite]
        rw [hs]
      nonfinite := fun hn => Bool.or_eq_true_iff.2 (.inl (h.nonfinite hn))
      pushq := h.pushq }

theorem renderFrame_renderVoices (s : State) (start count : Nat) :
    RenderFrame s start count (s.renderVoices start count) :=
  State.renderVoices_keeps (RenderFrame s start count) start count (fun _ _ h => h.renderVoice _) s
    (renderFrame_refl s start count)

/-- Settles O30. -/
theorem renderBlockFrame : Obligations.RenderBlockFrame := by
  intro s start count hb
  have h := renderFrame_renderVoices s start count
  refine ⟨_, exec_renderBlock s start count hb, ?_⟩
  rw [State.handOff_eq]
  obtain ⟨hctrl, -⟩ := h.hostSide
  rw [hctrl, h.pushq]
  generalize s.renderVoices start count = t at h ⊢
  have left : ∀ v i, (s.voice v).l.toNat ≤ i → t.leftAt v i = s.leftAt v i := by
    intro v i hi
    rw [State.leftAt_eq, State.leftAt_eq, h.ramDraw]
    exact (h.voices v).left i hi
  have right : ∀ v i, (s.voice v).l.toNat ≤ i → t.rightAt v i = s.rightAt v i := by
    intro v i hi
    rw [State.rightAt_eq, State.rightAt_eq, h.ramDraw]
    exact (h.voices v).right i hi
  exact ⟨h.bytes, fun v => (h.voices v).note, fun v i hi => ⟨left v i hi, right v i hi⟩, h.resultA, h.hostSide,
    h.display, h.statusA, h.nonfinite, rfl⟩

end Sys2Proof.Machine
end

