-- ==== Sys2Proof/Proofs/RenderSilence.lean ====
section
/-! Silence after `2L` samples (O31). With `REFL` zero the bridge sends back zeros: they fill `LEFT` from index `L-1` down in
the first `L` samples, pass the nut, and fill `RIGHT` from index 0 up in the next `L`. A loss filter without memory lets them
through as zeros. -/

namespace Sys2Proof.Machine

open Sys2Proof

-- One proof is elaborated after another here: each thread at work takes its share of the check's memory limit.
set_option Elab.async false

/-! ### Zeros and products with a factor of at most 1 -/

theorem isFinite_of_units_lt {a : Word} (h : units a < 2 ^ 277) : isFinite a = true := by
  rw [units_eq, ← unitsOfMag_infBits] at h
  exact (isFinite_iff a).2 (unitsOfMag_strictMono.lt_iff_lt.1 h)

theorem isFinite_of_value_eq_zero {a : Word} (h : value a = 0) : isFinite a = true :=
  isFinite_of_units_eq_zero a ((value_eq_zero_iff a).1 h)

theorem units_le_of_abs_value_le {a : Word} (h : |value a| ≤ 2 ^ 149) : units a ≤ 2 ^ 149 := by
  rw [← natAbs_value]
  rw [Int.abs_eq_natAbs] at h
  exact_mod_cast h

theorem value_fmul_of_zero {a b : Word} (ha : isFinite a = true) (hb : isFinite b = true)
    (h : value a = 0 ∨ value b = 0) : value (fmul a b) = 0 := by
  have hu : units a * units b = 0 := by
    rw [Nat.mul_eq_zero, ← value_eq_zero_iff, ← value_eq_zero_iff]
    exact h
  rw [fmul_finite a b ha hb, hu, rndMag_zero, value_pack_zero]

theorem value_fadd_of_zeros {a b : Word} (ha : value a = 0) (hb : value b = 0) : value (fadd a b) = 0 := by
  obtain ⟨-, hv⟩ := fadd_zero a b (isFinite_of_value_eq_zero ha) (isFinite_of_value_eq_zero hb) hb
  rw [hv, ha]

theorem value_fsub_of_zeros {a b : Word} (ha : value a = 0) (hb : value b = 0) : value (fsub a b) = 0 := by
  obtain ⟨-, hv⟩ := fsub_zero a b (isFinite_of_value_eq_zero ha) (isFinite_of_value_eq_zero hb) hb
  rw [hv, ha]

/-- The word `y` is a finite number, and a zero where `x` is one. -/
structure Damps (x y : Word) : Prop where
  finite : isFinite y = true
  zero : value x = 0 → value y = 0

theorem damps_self {x : Word} (h : isFinite x = true) : Damps x x := ⟨h, id⟩

theorem damps_of_value_eq {x y z : Word} (h : Damps x y) (hz : isFinite z = true ∧ value z = value y) : Damps x z :=
  ⟨hz.1, fun h0 => hz.2.trans (h.zero h0)⟩

/-- A product with a factor of at most 1 does not pass its other factor. -/
theorem damps_fmul {g x : Word} (hg : |value g| ≤ 2 ^ 149) (hx : isFinite x = true) : Damps x (fmul g x) := by
  have hu : units g ≤ 2 ^ 149 := units_le_of_abs_value_le hg
  have fg : isFinite g = true := isFinite_of_units_lt (hu.trans_lt (by decide +kernel))
  refine ⟨?_, fun h0 => value_fmul_of_zero fg hx (.inr h0)⟩
  have hle : rndMag (units g * units x) (2 ^ 149) ≤ magOf x := by
    refine rndMag_le_of_le _ _ _ (Nat.two_pow_pos 149) ?_
    rw [← units_eq, Nat.mul_comm]
    exact Nat.mul_le_mul_left _ hu
  rw [fmul_finite g x fg hx, isFinite_pack _ _ (rndMag_lt _ _)]
  exact hle.trans_lt ((isFinite_iff x).1 hx)

/-! ### A loss filter without memory -/

/-- The coefficients feed no earlier element back into a later one, and the gain is at most 1. -/
structure Memoryless (v : Voice) (st : FiltState) : Prop where
  gain : |value v.vB0| ≤ 2 ^ 149
  feedback : value v.vA1 = 0
  onePole : v.vMode = false → isFinite st.s1 = true
  biquad : v.vMode = true → value v.vB1 = 0 ∧ value v.vB2 = 0 ∧ value v.vA2 = 0 ∧ value st.s1 = 0 ∧ value st.s2 = 0

section Filter

variable {v : Voice} {st : FiltState}

theorem Memoryless.damps_filterStep {x : Word} (h : Memoryless v st) (hx : isFinite x = true) :
    Damps x (filterStep v st x).1 ∧ Memoryless v (filterStep v st x).2 := by
  have hgain : Damps x (fmul v.vB0 x) := damps_fmul h.gain hx
  have fa1 : isFinite v.vA1 = true := isFinite_of_value_eq_zero h.feedback
  cases hm : v.vMode
  case false =>
    have hback : value (fmul v.vA1 st.s1) = 0 := value_fmul_of_zero fa1 (h.onePole hm) (.inl h.feedback)
    have hy : Damps x (fsub (fmul v.vB0 x) (fmul v.vA1 st.s1)) :=
      damps_of_value_eq hgain (fsub_zero _ _ hgain.finite (isFinite_of_value_eq_zero hback) hback)
    rw [filterStep_onePole hm]
    exact ⟨hy, h.gain, h.feedback, fun _ => hy.finite, fun hb => by rw [hm] at hb; cases hb⟩
  case true =>
    obtain ⟨hb1, hb2, ha2, hs1, hs2⟩ := h.biquad hm
    have hy : Damps x (fadd (fmul v.vB0 x) st.s1) :=
      damps_of_value_eq hgain (fadd_zero _ _ hgain.finite (isFinite_of_value_eq_zero hs1) hs1)
    have times : ∀ {a b : Word}, value a = 0 → isFinite b = true → value (fmul a b) = 0 := fun ha hb =>
      value_fmul_of_zero (isFinite_of_value_eq_zero ha) hb (.inl ha)
    rw [filterStep_biquad hm]
    refine ⟨hy, h.gain, h.feedback, (fun hb => by rw [hm] at hb; cases hb), fun _ => ⟨hb1, hb2, ha2, ?_, ?_⟩⟩
    · exact value_fadd_of_zeros (value_fsub_of_zeros (times hb1 hx) (times h.feedback hy.finite)) hs2
    · exact value_fsub_of_zeros (times hb2 hx) (times ha2 hy.finite)

theorem Memoryless.damps_filterRun (xs : List Word) : ∀ {st : FiltState}, Memoryless v st →
    (∀ x ∈ xs, isFinite x = true) → List.Forall₂ Damps xs (filterRun v st xs).1 ∧ Memoryless v (filterRun v st xs).2 := by
  induction xs with
  | nil => exact fun h _ => ⟨.nil, h⟩
  | cons x xs ih =>
    intro st h hfin
    obtain ⟨hx, hnext⟩ := h.damps_filterStep (hfin x List.mem_cons_self)
    obtain ⟨hxs, hlast⟩ := ih hnext fun y hy => hfin y (List.mem_cons_of_mem _ hy)
    exact ⟨.cons hx hxs, hlast⟩

/-- The two ends pass unfiltered, the interior filtered. -/
theorem Memoryless.damps_filterInterior {left : List Word} (h : Memoryless v st) (hfin : ∀ x ∈ left, isFinite x = true) :
    List.Forall₂ Damps left (filterInterior v st left).1 ∧ Memoryless v (filterInterior v st left).2 := by
  cases left with
  | nil => exact ⟨.nil, h⟩
  | cons x xs =>
    have hself : ∀ {y}, y ∈ x :: xs → Damps y y := fun hy => damps_self (hfin _ hy)
    obtain ⟨hrun, hlast⟩ := h.damps_filterRun xs.dropLast fun y hy =>
      hfin y (List.mem_cons_of_mem _ (List.mem_of_mem_dropLast hy))
    refine ⟨.cons (hself List.mem_cons_self) ?_, hlast⟩
    cases hend : xs.getLast? with
    | none =>
      obtain rfl : xs = [] := List.getLast?_eq_none_iff.1 hend
      exact .nil
    | some y =>
      have hy : y ∈ x :: xs := List.mem_cons_of_mem _ (List.mem_of_getLast? hend)
      have happ : List.Forall₂ Damps (xs.dropLast ++ [y]) ((filterRun v st xs.dropLast).1 ++ [y]) :=
        List.rel_append hrun (.cons (hself hy) .nil)
      rw [List.dropLast_append_getLast? y hend] at happ
      exact happ

end Filter

/-! ### The elements of the lines after the waveguide step -/

section Lines

variable {draw n : Nat} {v : Voice}

theorem Voice.leftLine_getElem? {i : Nat} (h : i < v.l.toNat) : (v.leftLine draw n)[i]? = some (v.leftAt draw n i) := by
  rw [Voice.leftLine, List.getElem?_map, List.getElem?_range h]
  rfl

theorem Voice.rightLine_getElem? {i : Nat} (h : i < v.l.toNat) :
    (v.rightLine draw n)[i]? = some (v.rightAt draw n i) := by
  rw [Voice.rightLine, List.getElem?_map, List.getElem?_range h]
  rfl

theorem Voice.shifted_left_getD {i : Nat} (h : i + 1 < v.l.toNat) :
    (v.shifted draw n).1.getD i fZero = v.leftAt draw n (i + 1) := by
  rw [List.getD_eq_getElem?_getD, Voice.shifted, waveguideStep_left_shift _ _ _ (by rwa [Voice.leftLine_length]),
    Voice.leftLine_getElem? h]
  rfl

theorem Voice.shifted_right_getD_succ {i : Nat} (h : i + 1 < v.l.toNat) :
    (v.shifted draw n).2.getD (i + 1) fZero = v.rightAt draw n i := by
  rw [List.getD_eq_getElem?_getD, Voice.shifted, waveguideStep_right_shift _ _ _ (by rwa [Voice.rightLine_length]),
    Voice.rightLine_getElem? (by omega)]
  rfl

theorem Voice.shifted_nut (h : 0 < v.l.toNat) : (v.shifted draw n).2.getD 0 fZero = fneg (v.leftAt draw n 0) := by
  have hne : v.leftLine draw n ≠ [] := List.ne_nil_of_length_pos (by rwa [Voice.leftLine_length])
  rw [List.getD_eq_getElem?_getD, Voice.shifted, waveguideStep_nut _ _ _ hne, Voice.leftLine_getElem? h]
  rfl

theorem Voice.shifted_bridge (h : 2 ≤ v.l.toNat) : (v.shifted draw n).1.getD (v.l.toNat - 1) fZero =
    fmul (fneg v.refl) ((v.shifted draw n).2.getD (v.l.toNat - 1) fZero) := by
  have hb : (v.shifted draw n).1[(v.leftLine draw n).length - 1]? =
      (v.shifted draw n).2[(v.leftLine draw n).length - 1]?.map (fmul (fneg v.refl)) :=
    waveguideStep_bridge v.refl (v.leftLine draw n) (v.rightLine draw n) (by rw [Voice.leftLine_length]; omega)
      (by rw [Voice.leftLine_length, Voice.rightLine_length])
  have hlast : v.l.toNat - 1 < (v.shifted draw n).2.length := by rw [Voice.shifted_right_length draw n v h]; omega
  rw [Voice.leftLine_length, List.getElem?_eq_getElem hlast] at hb
  rw [List.getD_eq_getElem?_getD, hb, List.getD_eq_getElem _ _ hlast]
  rfl

theorem Voice.shifted_left_length (h : 2 ≤ v.l.toNat) : (v.shifted draw n).1.length = v.l.toNat := by
  rw [← Voice.filtered_length draw n v h, Voice.filtered, filterInterior_length]

end Lines

/-! ### The zeros on their way -/

/-- A voice `j` samples after the premises of O31 held: the zeros that the bridge has sent fill the last `j` elements of
`LEFT`, and past `L` samples the first `j - L` elements of `RIGHT`. -/
structure Decaying (draw n L j : Nat) (v : Voice) : Prop where
  length : v.l.toNat = L
  hasLines : v.hasLines = true
  pickup : v.pickupIdx.toNat < L
  refl : value v.refl = 0
  filter : Memoryless v ⟨v.s1, v.s2⟩
  env : EnvOk v
  velocity : UnitLevel v.velocity
  leftFinite : ∀ i, i < L → isFinite (v.leftAt draw n i) = true
  rightFinite : ∀ i, i < L → isFinite (v.rightAt draw n i) = true
  leftZero : ∀ i, i < L → L ≤ i + j → value (v.leftAt draw n i) = 0
  rightZero : ∀ i, i < L → L + 1 + i ≤ j → value (v.rightAt draw n i) = 0

section Decay

variable {draw n L j : Nat} {v : Voice}

theorem Decaying.two_le (h : Decaying draw n L j v) : 2 ≤ v.l.toNat := ((hasLines_iff v).1 h.hasLines).2

/-- The nut negates `LEFT[0]`, and `RIGHT` moves up. -/
theorem Decaying.shifted_right (h : Decaying draw n L j v) (i : Nat) (hi : i < L) :
    isFinite ((v.shifted draw n).2.getD i fZero) = true ∧
      (L + 1 + i ≤ j + 1 → value ((v.shifted draw n).2.getD i fZero) = 0) := by
  have hL := h.length
  cases i with
  | zero =>
    rw [Voice.shifted_nut (by omega), isFinite_fneg, value_fneg]
    refine ⟨h.leftFinite 0 hi, fun hj => ?_⟩
    rw [h.leftZero 0 hi (by omega), neg_zero]
  | succ i =>
    rw [Voice.shifted_right_getD_succ (by omega)]
    exact ⟨h.rightFinite i (by omega), fun hj => h.rightZero i (by omega) (by omega)⟩

/-- `LEFT` moves down, and the bridge sends a zero. -/
theorem Decaying.shifted_left (h : Decaying draw n L j v) (i : Nat) (hi : i < L) :
    isFinite ((v.shifted draw n).1.getD i fZero) = true ∧
      (L ≤ i + (j + 1) → value ((v.shifted draw n).1.getD i fZero) = 0) := by
  have hL := h.length
  by_cases hlast : i + 1 < L
  · rw [Voice.shifted_left_getD (by omega)]
    exact ⟨h.leftFinite _ hlast, fun hj => h.leftZero _ hlast (by omega)⟩
  · obtain rfl : i = v.l.toNat - 1 := by omega
    have hr : value (fneg v.refl) = 0 := by rw [value_fneg, h.refl, neg_zero]
    obtain ⟨hx, -⟩ := h.shifted_right _ hi
    rw [Voice.shifted_bridge h.two_le]
    have hzero := value_fmul_of_zero (isFinite_of_value_eq_zero hr) hx (.inl hr)
    exact ⟨isFinite_of_value_eq_zero hzero, fun _ => hzero⟩

/-- The filter lets the zeros through. -/
theorem Decaying.filtered (h : Decaying draw n L j v) :
    (∀ i, i < L → Damps ((v.shifted draw n).1.getD i fZero) ((v.filtered draw n).1.getD i fZero)) ∧
      Memoryless v (v.filtered draw n).2 := by
  have hshift := Voice.shifted_left_length (draw := draw) (n := n) h.two_le
  have hfilt := Voice.filtered_length draw n v h.two_le
  have hfin : ∀ x ∈ (v.shifted draw n).1, isFinite x = true := by
    intro x hx
    obtain ⟨i, hi, rfl⟩ := List.mem_iff_getElem.1 hx
    obtain ⟨hf, -⟩ := h.shifted_left i (by rwa [hshift, h.length] at hi)
    rwa [List.getD_eq_getElem _ _ hi] at hf
  obtain ⟨hall, hstate⟩ := h.filter.damps_filterInterior hfin
  refine ⟨fun i hi => ?_, hstate⟩
  rw [← h.length] at hi
  rw [List.getD_eq_getElem _ _ (by rwa [hshift]), List.getD_eq_getElem _ _ (by rwa [hfilt])]
  exact List.Forall₂.get (y := (v.filtered draw n).1) hall (by rwa [hshift]) (by rwa [hfilt])

/-- Each sample carries the zeros one element further. -/
theorem Decaying.next (h : Decaying draw n L j v) : Decaying draw n L (j + 1) (v.nextVoice draw n) := by
  have hL := h.length
  have hvoice : v.nextVoice draw n = _ := Voice.renderSample_voice draw n v
  obtain ⟨hdamp, hstate⟩ := h.filtered
  have left : ∀ i, i < L → (v.nextVoice draw n).leftAt draw n i = (v.filtered draw n).1.getD i fZero := fun i hi =>
    (Voice.renderSample_leftAt draw n v h.two_le i).trans (if_pos (by omega))
  have right : ∀ i, i < L → (v.nextVoice draw n).rightAt draw n i = (v.shifted draw n).2.getD i fZero := fun i hi =>
    (Voice.renderSample_rightAt draw n v h.two_le i).trans (if_pos (by omega))
  exact {
    length := by rw [hvoice]; exact h.length
    hasLines := (Voice.hasLines_renderSample draw n v).trans h.hasLines
    pickup := by rw [hvoice]; exact h.pickup
    refl := by rw [hvoice]; exact h.refl
    filter := by
      rw [hvoice, Voice.stepLines_filtered]
      exact ⟨hstate.gain, hstate.feedback, hstate.onePole, hstate.biquad⟩
    env := envOk_envNext (v.stepLines draw n) { h.env with }
    velocity := by rw [hvoice]; exact h.velocity
    leftFinite := fun i hi => by rw [left i hi]; exact (hdamp i hi).finite
    rightFinite := fun i hi => by rw [right i hi]; exact (h.shifted_right i hi).1
    leftZero := fun i hi hj => by rw [left i hi]; exact (hdamp i hi).zero ((h.shifted_left i hi).2 hj)
    rightZero := fun i hi hj => by rw [right i hi]; exact (h.shifted_right i hi).2 hj }

theorem Decaying.iterate (h : Decaying draw n L 0 v) (j : Nat) :
    Decaying draw n L j ((Voice.nextVoice draw n)^[j] v) := by
  induction j with
  | zero => exact h
  | succ j ih =>
    rw [Function.iterate_succ_apply']
    exact ih.next

/-- After `2L` samples both lines are zero all along. -/
theorem Decaying.lines_zero (h : Decaying draw n L j v) (hj : 2 * L ≤ j) (i : Nat) (hi : i < L) :
    value (v.leftAt draw n i) = 0 ∧ value (v.rightAt draw n i) = 0 :=
  ⟨h.leftZero i hi (by omega), h.rightZero i hi (by omega)⟩

/-- The pickup then reads a zero, which the level and the velocity scale to a zero. -/
theorem Decaying.out_zero (h : Decaying draw n L j v) (hj : 2 * L ≤ j) : value (v.renderSample draw n).2 = 0 := by
  obtain ⟨hleft, hright⟩ := h.next.lines_zero (by omega) v.pickupIdx.toNat h.pickup
  have hraw := value_fadd_of_zeros hleft hright
  have hlevel : UnitLevel v.envNext.envLevel := unitLevel_envNext v h.env
  have hscaled := value_fmul_of_zero (isFinite_of_value_eq_zero hraw) hlevel.isFinite (.inl hraw)
  rw [Voice.renderSample_out]
  exact value_fmul_of_zero (isFinite_of_value_eq_zero hscaled) h.velocity.isFinite (.inl hscaled)

end Decay

/-- Settles O31. -/
theorem silentAfterTwoLengths : Obligations.SilentAfterTwoLengths := by
  intro draw n count v hdegen h2 hpick hrefl hgain hback hone hbi henv hvel hfin hcount
  have hlines : v.hasLines = true := (hasLines_iff v).2 ⟨hdegen, h2⟩
  have h0 : Decaying draw n v.l.toNat 0 v :=
    { length := rfl
      hasLines := hlines
      pickup := hpick
      refl := hrefl
      filter := ⟨hgain, hback, hone, hbi⟩
      env := henv
      velocity := hvel
      leftFinite := fun i hi => (hfin i hi).1
      rightFinite := fun i hi => (hfin i hi).2
      leftZero := fun i hi hj => absurd hi (by omega)
      rightZero := fun i hi hj => absurd hj (by omega) }
  rw [Voice.renderSamples_iterate draw n count hlines]
  refine ⟨fun i hi => (h0.iterate count).lines_zero hcount i hi, fun j out hj hout => ?_⟩
  rw [List.getElem?_map, Option.map_eq_some_iff] at hout
  obtain ⟨k, hk, rfl⟩ := hout
  obtain rfl : k = j := by
    obtain ⟨_, hkj⟩ := List.getElem?_eq_some_iff.1 hk
    rw [← hkj, List.getElem_range]
  exact (h0.iterate k).out_zero hj

end Sys2Proof.Machine
end

