-- ==== Sys2Proof/Proofs/EngineAPush.lean ====
section
/-! Engine A's step (O34, O35): the ring write at the cursor (R352), then the FIFO write with the block copy or the skip
where it fills (R353, R354, R355). -/

namespace Sys2Proof.Machine

open Sys2Proof

-- One proof is elaborated after another here: each thread at work takes its share of the check's memory limit.
set_option Elab.async false

/-! ### The FIFO write -/

/-- What a FIFO write can change, full or not: the FIFO, its index, the block, and `STATUS_D`. -/
theorem pushFifo_writes (s : State) (x : Word) :
    ∃ v d, s.pushFifo x = (s.setVis v).setStatusD d ∧ v.waveCursor = s.vis.waveCursor ∧ v.fifo = s.fifoWritten x := by
  refine ⟨(s.pushFifo x).vis, (s.pushFifo x).statusD, ?_⟩
  by_cases hk : s.vis.fifoIndex.toNat + 1 < Config.fifoCap
  · rw [State.pushFifo_partial s x hk]
    exact ⟨rfl, rfl, rfl⟩
  · cases hr : s.vis.ready
    · rw [State.pushFifo_copy s x hk hr]
      exact ⟨rfl, rfl, rfl⟩
    · rw [State.pushFifo_skip s x hk hr]
      exact ⟨rfl, rfl, rfl⟩

theorem fifoWritten_getD (s : State) (x : Word) (j : Nat) :
    (s.fifoWritten x).getD j (freeFifo s.ramDraw j) = if j = s.vis.fifoIndex.toNat then x else s.fifoAt j := by
  have hput := putAt_getD (freeFifo s.ramDraw) s.vis.fifoIndex.toNat x 0 s.vis.fifo j
  rw [Nat.zero_add] at hput
  exact hput

theorem pushFifo_fifoAt (s : State) (x : Word) (j : Nat) :
    (s.pushFifo x).fifoAt j = if j = s.vis.fifoIndex.toNat then x else s.fifoAt j := by
  obtain ⟨v, d, hpush, -, hfifo⟩ := pushFifo_writes s x
  rw [hpush, ← fifoWritten_getD, ← hfifo]
  rfl

theorem pushFifo_fifoIndex_partial (s : State) (x : Word) (hk : s.vis.fifoIndex.toNat + 1 < Config.fifoCap) :
    (s.pushFifo x).vis.fifoIndex.toNat = s.vis.fifoIndex.toNat + 1 := by
  rw [State.pushFifo_partial s x hk]
  exact (BitVec.toNat_add _ _).trans (Nat.mod_eq_of_lt hk)

theorem blockCopy_getD (draw : Nat) (fifo : List Word) (n : Nat) (hn : n < Config.fifoCap) (d : Word × Word) :
    (blockCopy draw fifo).getD n d = (fifo.getD n (freeFifo draw n), fZero) := by
  rw [← List.getElem_eq_getD (h := by rwa [blockCopy_length])]
  simp only [blockCopy, List.getElem_map, window_getElem, Nat.zero_add]

/-- The block handed over is the FIFO as the push leaves it. -/
theorem pushFifo_tbufAt_copy (s : State) (x : Word) (hk : ¬ s.vis.fifoIndex.toNat + 1 < Config.fifoCap)
    (hr : s.vis.ready = false) (n : Nat) (hn : n < Config.fifoCap) :
    (s.pushFifo x).tbufAt n = ((s.pushFifo x).fifoAt n, fZero) := by
  rw [State.pushFifo_copy s x hk hr]
  exact blockCopy_getD _ _ n hn _

/-! ### The step -/

/-- Engine A's step as writes: the queue loses its head, one word of memory is written, and the display channels and
`STATUS_D` change with the FIFO. -/
theorem engineAStep_writes {s : State} {x : Word} {rest : List Word} (hq : s.pushq = x :: rest) :
    ∃ m v d, s.engineAStep = (((s.setPushq rest).setMem m).setVis v).setStatusD d ∧
      m = s.mem.writeWord (ringAddr (s.vis.waveCursor.toNat % Config.waveCap)) x ∧
      v.waveCursor = s.vis.waveCursor + 1#32 := by
  obtain ⟨v, d, hpush, hcursor, -⟩ := pushFifo_writes ((s.setPushq rest).pushRing x) x
  refine ⟨_, v, d, ?_, rfl, hcursor⟩
  rw [State.engineAStep_cons s x rest hq, State.push, hpush]
  rfl

theorem readByte_writeWord_outside (draw : Nat) (m : Memory) (addr a : Nat) (w : Word) (ha : ¬ wordBytes addr a) :
    Memory.readByte draw (m.writeWord addr w) a = Memory.readByte draw m a := by
  refine Memory.readByte_writeWord_other _ _ _ _ _ ?_
  by_contra hin
  exact ha ⟨a - addr, by omega, by omega⟩

/-- Settles O34: the one word written is the ring's at the cursor. -/
theorem pushWritesRing : Obligations.PushWritesRing := by
  intro s x rest hq
  obtain ⟨m, v, d, hstep, hmem, hcursor⟩ := engineAStep_writes hq
  have hring : Memory.readWord s.ramDraw m (ringAddr (s.vis.waveCursor.toNat % 512)) = x :=
    hmem ▸ Memory.readWord_writeWord_same _ _ _ _
  have hbytes : ∀ a, ¬ wordBytes (ringAddr (s.vis.waveCursor.toNat % 512)) a →
      Memory.readByte s.ramDraw m a = Memory.readByte s.ramDraw s.mem a :=
    fun a ha => hmem ▸ readByte_writeWord_outside _ _ _ a x ha
  have hnext : v.waveCursor.toNat = (s.vis.waveCursor.toNat + 1) % 2 ^ 32 :=
    hcursor ▸ BitVec.toNat_add _ _
  rw [hstep]
  exact ⟨rfl, hring, hbytes, hnext, fun _ => rfl, rfl, rfl, ⟨rfl, rfl, rfl, rfl, rfl, rfl⟩, rfl, rfl⟩

/-- Settles O35: the FIFO write, which reads nothing the ring write changes, in its three cases. -/
theorem pushFillsFifo : Obligations.PushFillsFifo := by
  intro s x rest hq
  rw [State.engineAStep_cons s x rest hq, State.push]
  set u := (s.setPushq rest).pushRing x
  have hfifo : ∀ j, (u.pushFifo x).fifoAt j = if j = s.vis.fifoIndex.toNat then x else s.fifoAt j := pushFifo_fifoAt u x
  have hroom : u.vis.fifoIndex.toNat + 1 < Config.fifoCap ↔ s.vis.fifoIndex.toNat < 2047 := Nat.succ_lt_succ_iff
  refine ⟨(hfifo _).trans (if_pos rfl), fun j hj => (hfifo j).trans (if_neg hj), fun hk => ?_, fun hk hr => ?_,
    fun hk hr => ?_⟩
  · refine ⟨pushFifo_fifoIndex_partial u x (hroom.2 hk), ?_⟩
    rw [State.pushFifo_partial u x (hroom.2 hk)]
    exact ⟨rfl, rfl, fun _ => rfl⟩
  · have hfull := mt hroom.1 hk.not_lt
    have hcopy := pushFifo_tbufAt_copy u x hfull hr
    rw [State.pushFifo_copy u x hfull hr] at hcopy ⊢
    exact ⟨rfl, rfl, rfl, hcopy⟩
  · rw [State.pushFifo_skip u x (mt hroom.1 hk.not_lt) hr]
    refine ⟨rfl, hr, rfl, fun n => ?_⟩
    rfl

end Sys2Proof.Machine
end

