-- ==== Sys2Proof/Proofs/LevelClamps.lean ====
section
/-! The level's clamps and its range (O40). -/

namespace Sys2Proof.Machine

open Sys2Proof

-- One proof is elaborated after another here: each thread at work takes its share of the check's memory limit.
set_option Elab.async false

/-! ### The three ranges of the level -/

theorem level_of_nan_or_zero {m : Word} (h : isNaN m = true ∨ units m = 0) : level m = fZero := by
  rw [level, if_pos (by simpa using h)]

theorem level_of_isInf {m : Word} (h : isInf m = true) : level m = fOne := by
  rw [level, if_neg (by simp [isNaN_of_isInf m h, units_ne_zero_of_isInf m h]), if_pos h]

theorem level_of_isFinite {m : Word} (hfin : isFinite m = true) (h0 : units m ≠ 0) :
    level m = levelOfUnits (units m) := by
  rw [level, if_neg (by simp [isNaN_of_isFinite m hfin, h0]), if_neg (by simp [isInf_of_isFinite m hfin])]

theorem levelOfUnits_floor {n : Nat} (h : n * 10 ^ 5 ≤ 2 ^ 160) : levelOfUnits n = fZero := by
  rw [levelOfUnits, levelAtFloor, if_pos (decide_eq_true h)]

theorem levelOfUnits_top {n : Nat} (h : 2 ^ 160 ≤ n) : levelOfUnits n = fOne := by
  have hfloor : ¬ n * 10 ^ 5 ≤ 2 ^ 160 := by omega
  rw [levelOfUnits, levelAtFloor, levelAtTop, if_neg (by simpa using hfloor), if_pos (decide_eq_true h)]

/-! ### Every level is in `[0, 1]` -/

theorem unitLevel_pack {p : Nat} (h : p ≤ 0x3F800000) : UnitLevel (pack false p) := by
  have hp : p ≤ infBits := h.trans unitsOfMag_one_lt.le
  have hu := (unitsOfMag_le_iff _ _).2 h
  rw [unitsOfMag_one] at hu
  obtain ⟨hn, h0⟩ := nonNeg_pack_false p hp
  refine ⟨hn, h0, ?_⟩
  rw [value_pack _ _ (hp.trans_lt infBits_lt), if_neg Bool.false_ne_true]
  exact_mod_cast hu

/-- Below one, a real rounds to at most one: the number one is nearer than any above it. -/
theorem RoundsTo.le_one {p : Nat} {x : ℝ} (h : RoundsTo p x) (hx : x < 2 ^ 149) : p ≤ 0x3F800000 := by
  by_contra hgt
  have hbelow := h.below _ (not_le.1 hgt)
  have hlt := unitsOfMag_cast_lt (not_le.1 hgt)
  rw [unitsOfMag_one] at hbelow hlt
  push_cast at hbelow hlt
  linarith

theorem levelUnits_lt {n : Nat} (h0 : 0 < n) (hn : n < 2 ^ 160) : levelUnits n < 2 ^ 149 := by
  rw [levelUnits]
  exact mul_lt_of_lt_one_left (by positivity) (levelReal_lt_one n h0 hn)

theorem unitLevel_level_of_isFinite {m : Word} (hfin : isFinite m = true) (h0 : units m ≠ 0) : UnitLevel (level m) := by
  rcases le_or_gt (units m * 10 ^ 5) (2 ^ 160) with hfloor | hfloor
  · rw [level_of_isFinite hfin h0, levelOfUnits_floor hfloor]
    exact unitLevel_fZero
  rcases le_or_gt (2 ^ 160) (units m) with htop | htop
  · rw [level_of_isFinite hfin h0, levelOfUnits_top htop]
    exact unitLevel_fOne
  · obtain ⟨p, -, heq, hr⟩ := level_roundsTo m hfin hfloor htop
    rw [heq]
    exact unitLevel_pack (hr.le_one (levelUnits_lt (Nat.pos_of_ne_zero h0) htop))

theorem unitLevel_level (m : Word) : UnitLevel (level m) := by
  by_cases hz : isNaN m = true ∨ units m = 0
  · rw [level_of_nan_or_zero hz]
    exact unitLevel_fZero
  obtain ⟨hn, h0⟩ := not_or.1 hz
  rcases isFinite_or_isInf m (Bool.eq_false_iff.2 hn) with hfin | hinf
  · exact unitLevel_level_of_isFinite hfin h0
  · rw [level_of_isInf hinf]
    exact unitLevel_fOne

/-- Settles O40. -/
theorem levelClampsToUnit : Obligations.LevelClampsToUnit := by
  intro m
  have hunits : 0 < value m → units m ≠ 0 ∧ (units m : Int) = value m := fun hpos =>
    ⟨units_ne_zero_of_value_ne_zero m hpos.ne', units_cast hpos.le⟩
  refine ⟨level_of_nan_or_zero, ?_, fun hfin hpos hle => ?_, fun hfin hle => ?_, unitLevel_level m⟩
  · rintro rfl
    exact level_of_isInf (by decide)
  · obtain ⟨h0, hv⟩ := hunits hpos
    rw [← hv] at hle
    rw [level_of_isFinite hfin h0, levelOfUnits_floor (by exact_mod_cast hle)]
  · obtain ⟨h0, hv⟩ := hunits ((by positivity : (0 : Int) < 2 ^ 160).trans_le hle)
    rw [← hv] at hle
    rw [level_of_isFinite hfin h0, levelOfUnits_top (by exact_mod_cast hle)]

end Sys2Proof.Machine
end

