-- ==== Sys2Proof/Proofs/SpectrumRoms.lean ====
section
/-! The ROM tables of the spectrum job (O42): facts of the listed words, each decided on the whole table, and the mirror
symmetries read off index by index. -/

namespace Sys2Proof.Machine

open Sys2Proof

-- One proof is elaborated after another here: each thread at work takes its share of the check's memory limit.
set_option Elab.async false

/-! ### Lengths -/

theorem windowRom_length : windowRom.length = 2048 := by decide +kernel

theorem twCosRom_length : twCosRom.length = 1024 := by decide +kernel

theorem twSinRom_length : twSinRom.length = 1024 := by decide +kernel

/-! ### Symmetries -/

/-- Where one slice of a table, read backwards, is the image of a slice of another, its elements are the images in the
mirrored places. -/
theorem getD_of_reverse_slice {f : Word → Word} {xs ys : List Word} {a b n : Nat}
    (h : ((xs.drop a).take n).reverse = ((ys.drop b).take n).map f) (hx : a + n ≤ xs.length) (hy : b + n ≤ ys.length)
    {i : Nat} (hi : i < n) (d : Word) : xs.getD (a + (n - 1 - i)) d = f (ys.getD (b + i) d) := by
  have hlen : ((xs.drop a).take n).length = n := by simp; omega
  have key := congrArg (fun l => l[i]?) h
  simp only [List.getElem?_reverse (hlen.symm ▸ hi), hlen, List.getElem?_map, List.getElem?_take_of_lt hi,
    List.getElem?_take_of_lt (show n - 1 - i < n by omega), List.getElem?_drop] at key
  rw [List.getD_eq_getElem?_getD, key, List.getElem?_eq_getElem (show b + i < ys.length by omega), Option.map_some,
    Option.getD_some, List.getD_eq_getElem _ _ (show b + i < ys.length by omega)]

/-- R452: past the middle `TW_COS` is the negated mirror image of what stands before. -/
theorem twCosRom_mirror : ((twCosRom.drop 513).take 511).reverse = ((twCosRom.drop 1).take 511).map fneg := by
  decide +kernel

/-- R453: up to the middle `TW_SIN` is `TW_COS` read backwards. -/
theorem twSinRom_mirror_twCosRom : ((twSinRom.drop 0).take 513).reverse = ((twCosRom.drop 0).take 513).map id := by
  decide +kernel

/-- R453: past the middle `TW_SIN` is the mirror image of what stands before. -/
theorem twSinRom_mirror : ((twSinRom.drop 513).take 511).reverse = ((twSinRom.drop 1).take 511).map id := by
  decide +kernel

theorem twCosRom_getD_mirror {t : Nat} (h1 : 1 ≤ t) (h2 : t < 512) :
    twCosRom.getD (1024 - t) fZero = fneg (twCosRom.getD t fZero) := by
  have h := getD_of_reverse_slice twCosRom_mirror (by rw [twCosRom_length]) (by rw [twCosRom_length]; norm_num)
    (show t - 1 < 511 by omega) fZero
  rwa [show 513 + (511 - 1 - (t - 1)) = 1024 - t by omega, Nat.add_sub_cancel' h1] at h

theorem twSinRom_getD_twCosRom {t : Nat} (h : t ≤ 512) :
    twSinRom.getD t fZero = twCosRom.getD (512 - t) fZero := by
  have h := getD_of_reverse_slice twSinRom_mirror_twCosRom (by rw [twSinRom_length]; norm_num)
    (by rw [twCosRom_length]; norm_num) (show 512 - t < 513 by omega) fZero
  rwa [show 0 + (513 - 1 - (512 - t)) = t by omega, Nat.zero_add] at h

theorem twSinRom_getD_mirror {t : Nat} (h1 : 1 ≤ t) (h2 : t < 512) :
    twSinRom.getD t fZero = twSinRom.getD (1024 - t) fZero := by
  have h := getD_of_reverse_slice twSinRom_mirror (by rw [twSinRom_length]) (by rw [twSinRom_length]; norm_num)
    (show t - 1 < 511 by omega) fZero
  rw [show 513 + (511 - 1 - (t - 1)) = 1024 - t by omega, Nat.add_sub_cancel' h1] at h
  exact h.symm

/-! ### The bin remap -/

/-- R454 in integers: `1024 - k` is the least number whose fifth power reaches `2^40 * (1024 - i)`. -/
def IsSkewIdx (i k : Nat) : Prop :=
  k ≤ 768 ∧ 2 ^ 40 * (1024 - i) ≤ (1024 - k) ^ 5 ∧ (1023 - k) ^ 5 < 2 ^ 40 * (1024 - i)

theorem skewIdxEntries_isSkewIdx {i k : Nat} (h : skewIdxEntries[i]? = some k) : IsSkewIdx i k := by
  have table : ∀ e ∈ skewIdxEntries.zipIdx, IsSkewIdx e.2 e.1 := by
    unfold IsSkewIdx
    decide +kernel
  exact table (k, i) (List.mk_mem_zipIdx_iff_getElem?.2 h)

/-- Settles O42. -/
theorem romTables : Obligations.RomTables := by
  have hsums : windowEntries.sum % 2 ^ 32 = 0x58EC98EA ∧ twCosEntries.sum % 2 ^ 32 = 0x2CD1EC76 ∧
      twSinEntries.sum % 2 ^ 32 = 0xACD1EC76 ∧ skewIdxEntries.sum = 0x0002A70D := by decide +kernel
  have hwindow : windowRom.reverse = windowRom ∧ windowRom.getD 1023 fZero = 0x40000FFD#32 ∧
      windowRom.getD 0 fOne = fZero := by decide +kernel
  obtain ⟨hw, hc, hs, hk⟩ := hsums
  obtain ⟨hrev, hmid, hfirst⟩ := hwindow
  exact ⟨windowRom_length, twCosRom_length, twSinRom_length, skewIdxEntries_length, hw, hc, hs, hk, hrev, hmid, hfirst,
    fun _ => twCosRom_getD_mirror, fun _ => twSinRom_getD_twCosRom, fun _ => twSinRom_getD_mirror,
    fun _ _ => skewIdxEntries_isSkewIdx⟩

end Sys2Proof.Machine
end

