-- ==== Sys2Proof/Proofs/SpectrumTransform.lean ====
section
/-! The transform (O38): the reordering by reversed index bits (R403), and a stage as butterflies on disjoint pairs
(R404, R405). -/

namespace Sys2Proof.Machine

open Sys2Proof

-- One proof is elaborated after another here: each thread at work takes its share of the check's memory limit.
set_option Elab.async false

/-! ### The reordering -/

theorem revBits_lt (b : Nat) : ∀ n, revBits b n < 2 ^ b := by
  induction b with
  | zero => intro n; exact Nat.one_pos
  | succ b ih =>
    intro n
    have hbit : n % 2 * 2 ^ b ≤ 1 * 2 ^ b := Nat.mul_le_mul_right _ (by omega)
    have hrest := ih (n / 2)
    rw [revBits, pow_succ]
    omega

theorem testBit_revBits (b : Nat) : ∀ n j, j < b → (revBits b n).testBit j = n.testBit (b - 1 - j) := by
  induction b with
  | zero => intro n j hj; exact absurd hj (Nat.not_lt_zero j)
  | succ b ih =>
    intro n j hj
    rw [revBits, Nat.mul_comm, Nat.testBit_two_pow_mul_add _ (revBits_lt b _)]
    rcases Nat.lt_or_ge j b with hlt | hge
    · rw [if_pos hlt, ih _ j hlt, show b + 1 - 1 - j = b - 1 - j + 1 by omega, Nat.testBit_succ]
    · obtain rfl : j = b := by omega
      rw [if_neg (lt_irrefl j), Nat.sub_self, Nat.add_sub_cancel, Nat.sub_self, Nat.testBit_zero, Nat.testBit_zero,
        Nat.mod_mod]

@[simp] theorem bitReversed_length (x : List Cplx) : (bitReversed x).length = 2048 := by
  simp [bitReversed]

theorem bitReversed_getElem? {x : List Cplx} {n : Nat} (hx : x.length = 2048) (hn : n < 2048) :
    (bitReversed x)[n]? = x[revBits 11 n]? := by
  have hr : revBits 11 n < x.length := hx.symm ▸ revBits_lt 11 n
  rw [bitReversed, List.getElem?_map, List.getElem?_range hn, Option.map_some, List.getD_eq_getElem _ _ hr,
    List.getElem?_eq_getElem hr]

/-! ### One block of a stage -/

/-- The elements `i` and `j` of `ys` are the outputs of the butterfly of `a` and `c` with the twiddle `w` (R405). -/
structure ButterflyAt (w a c : Cplx) (ys : List Cplx) (i j : Nat) : Prop where
  upper : ys[i]? = some (butterflyAdd a (twiddled w c))
  lower : ys[j]? = some (butterflySub a (twiddled w c))

section Block

variable {tw lo hi : List Cplx} {h : Nat}

theorem stageBlock_length (htw : tw.length = h) (hlo : lo.length = h) (hhi : hi.length = h) :
    (stageBlock tw lo hi).length = 2 * h := by
  simp only [stageBlock, List.length_append, List.length_zipWith, htw, hlo, hhi, Nat.min_self]
  omega

theorem stageBlock_butterfly (htw : tw.length = h) (hlo : lo.length = h) (hhi : hi.length = h) {k : Nat} {w a c : Cplx}
    (hw : tw[k]? = some w) (ha : lo[k]? = some a) (hc : hi[k]? = some c) :
    ButterflyAt w a c (stageBlock tw lo hi) k (k + h) := by
  have hk : k < h := htw ▸ (List.getElem?_eq_some_iff.1 hw).1
  have hupper : (List.zipWith butterflyAdd lo (List.zipWith twiddled tw hi)).length = h := by
    simp only [List.length_zipWith, htw, hlo, hhi, Nat.min_self]
  constructor
  · rw [stageBlock, List.getElem?_append_left (hupper.symm ▸ hk)]
    simp only [List.getElem?_zipWith, hw, ha, hc]
  · rw [stageBlock, List.getElem?_append_right (by omega), hupper, Nat.add_sub_cancel]
    simp only [List.getElem?_zipWith, hw, ha, hc]

end Block

/-! ### A stage as its blocks -/

section Blocks

variable {tw : List Cplx} {h : Nat}

theorem ButterflyAt.append_left {w a c : Cplx} {ys : List Cplx} {i j : Nat} (hb : ButterflyAt w a c ys i j)
    (zs : List Cplx) : ButterflyAt w a c (ys ++ zs) i j :=
  ⟨List.getElem?_append_left (List.getElem?_eq_some_iff.1 hb.upper).1 ▸ hb.upper,
    List.getElem?_append_left (List.getElem?_eq_some_iff.1 hb.lower).1 ▸ hb.lower⟩

theorem ButterflyAt.append_right {w a c : Cplx} {zs : List Cplx} {i j : Nat} (hb : ButterflyAt w a c zs i j)
    (ys : List Cplx) : ButterflyAt w a c (ys ++ zs) (ys.length + i) (ys.length + j) := by
  constructor
  · rw [List.getElem?_append_right (Nat.le_add_right _ _), Nat.add_sub_cancel_left, hb.upper]
  · rw [List.getElem?_append_right (Nat.le_add_right _ _), Nat.add_sub_cancel_left, hb.lower]

theorem firstBlock_lengths {xs : List Cplx} (hx : 2 * h ≤ xs.length) :
    (xs.take h).length = h ∧ ((xs.drop h).take h).length = h := by
  constructor <;> simp only [List.length_take, List.length_drop] <;> omega

theorem stageBlocks_length (htw : tw.length = h) (blocks : Nat) :
    ∀ xs : List Cplx, xs.length = blocks * (2 * h) → (stageBlocks tw h blocks xs).length = blocks * (2 * h) := by
  induction blocks with
  | zero => intro xs _; rw [Nat.zero_mul]; rfl
  | succ blocks ih =>
    intro xs hx
    rw [Nat.succ_mul] at hx ⊢
    obtain ⟨hlo, hhi⟩ := firstBlock_lengths (h := h) (xs := xs) (by omega)
    rw [stageBlocks, List.length_append, stageBlock_length htw hlo hhi, ih _ (by rw [List.length_drop]; omega)]
    omega

/-- Each pair of each block goes through its own butterfly. -/
theorem stageBlocks_butterfly (htw : tw.length = h) (blocks : Nat) :
    ∀ (xs : List Cplx) (q k : Nat) (w a c : Cplx), xs.length = blocks * (2 * h) → q < blocks → tw[k]? = some w →
      xs[q * (2 * h) + k]? = some a → xs[q * (2 * h) + k + h]? = some c →
      ButterflyAt w a c (stageBlocks tw h blocks xs) (q * (2 * h) + k) (q * (2 * h) + k + h) := by
  induction blocks with
  | zero => intro xs q k w a c _ hq; exact absurd hq (Nat.not_lt_zero q)
  | succ blocks ih =>
    intro xs q k w a c hx hq hw ha hc
    have hk : k < h := htw ▸ (List.getElem?_eq_some_iff.1 hw).1
    rw [Nat.succ_mul] at hx
    obtain ⟨hlo, hhi⟩ := firstBlock_lengths (h := h) (xs := xs) (by omega)
    rw [stageBlocks]
    cases q with
    | zero =>
      rw [Nat.zero_mul, Nat.zero_add] at *
      refine (stageBlock_butterfly htw hlo hhi hw ?_ ?_).append_left _
      · rwa [List.getElem?_take_of_lt hk]
      · rwa [List.getElem?_take_of_lt hk, List.getElem?_drop, Nat.add_comm]
    | succ q =>
      have hpos : (q + 1) * (2 * h) + k = 2 * h + (q * (2 * h) + k) := by rw [Nat.succ_mul]; omega
      rw [hpos, Nat.add_assoc] at hc
      rw [hpos] at ha
      have hrest := ih (xs.drop (2 * h)) q k w a c (by rw [List.length_drop]; omega) (Nat.lt_of_succ_lt_succ hq) hw
        (by rwa [List.getElem?_drop]) (by rwa [List.getElem?_drop])
      have hshift := hrest.append_right (stageBlock tw (xs.take h) ((xs.drop h).take h))
      rw [stageBlock_length htw hlo hhi] at hshift
      rwa [hpos, Nat.add_assoc (2 * h)]

end Blocks

/-! ### The stages -/

@[simp] theorem stageTwiddles_length (h : Nat) : (stageTwiddles h).length = h := by
  simp [stageTwiddles]

theorem stageTwiddles_getElem? {h k : Nat} (hk : k < h) : (stageTwiddles h)[k]? = some (twiddle (k * (1024 / h))) := by
  rw [stageTwiddles, List.getElem?_map, List.getElem?_range hk, Option.map_some]

/-- The blocks of stage `r + 1` are twice its half-length long and make up the whole array. -/
theorem stage_blocks_mul {r : Nat} (hr : r + 1 ≤ 11) : 2048 / 2 ^ (r + 1) * (2 * 2 ^ r) = 2048 := by
  rw [← pow_succ']
  exact Nat.div_mul_cancel (pow_dvd_pow 2 hr)

theorem stage_length {s : Nat} {xs : List Cplx} (hx : xs.length = 2048) (h1 : 1 ≤ s) (h11 : s ≤ 11) :
    (stage s xs).length = 2048 := by
  obtain ⟨r, rfl⟩ : ∃ r, s = r + 1 := ⟨s - 1, by omega⟩
  have hmul := stage_blocks_mul h11
  rw [stage, Nat.add_sub_cancel, stageBlocks_length (stageTwiddles_length _) _ _ (hx.trans hmul.symm), hmul]

theorem stage_butterfly {s : Nat} {xs : List Cplx} (hx : xs.length = 2048) (h1 : 1 ≤ s) (h11 : s ≤ 11) {q k : Nat}
    {a c : Cplx} (hq : q < 2048 / 2 ^ s) (hk : k < 2 ^ s / 2) (ha : xs[q * 2 ^ s + k]? = some a)
    (hc : xs[q * 2 ^ s + k + 2 ^ s / 2]? = some c) :
    ButterflyAt (twiddle (k * (2048 / 2 ^ s))) a c (stage s xs) (q * 2 ^ s + k) (q * 2 ^ s + k + 2 ^ s / 2) := by
  obtain ⟨r, rfl⟩ : ∃ r, s = r + 1 := ⟨s - 1, by omega⟩
  have hhalf : 2 ^ (r + 1) / 2 = 2 ^ r := by rw [pow_succ']; exact Nat.mul_div_cancel_left _ two_pos
  have hstep : 2048 / 2 ^ (r + 1) = 1024 / 2 ^ r := by rw [pow_succ', ← Nat.div_div_eq_div_mul]
  rw [hhalf] at hk hc ⊢
  have hw := stageTwiddles_getElem? hk
  rw [← hstep] at hw
  have hxs := hx.trans (stage_blocks_mul h11).symm
  rw [pow_succ'] at hq ha hc hw hxs ⊢
  rw [stage, Nat.add_sub_cancel, pow_succ']
  exact stageBlocks_butterfly (stageTwiddles_length _) _ xs q k _ a c hxs hq hw ha hc

theorem transform_eq (x : List Cplx) :
    transform x = (List.range' 1 11).foldl (fun a s => stage s a) (bitReversed x) := by
  simp only [transform, List.range'_eq_map_range, List.foldl_map, Nat.add_comm 1]

theorem foldl_stage_length (stages : List Nat) (hs : ∀ s ∈ stages, 1 ≤ s ∧ s ≤ 11) :
    ∀ xs : List Cplx, xs.length = 2048 → (stages.foldl (fun a s => stage s a) xs).length = 2048 := by
  induction stages with
  | nil => intro xs hx; exact hx
  | cons s stages ih =>
    intro xs hx
    obtain ⟨h1, h11⟩ := hs s List.mem_cons_self
    exact ih (fun t ht => hs t (List.mem_cons_of_mem s ht)) _ (stage_length hx h1 h11)

theorem transform_length (x : List Cplx) : (transform x).length = 2048 := by
  rw [transform_eq]
  refine foldl_stage_length _ (fun s hs => ?_) _ (bitReversed_length x)
  obtain ⟨h1, h12⟩ := List.mem_range'_1.1 hs
  exact ⟨h1, by omega⟩

/-- Settles O38. -/
theorem transformStageButterflies : Obligations.TransformStageButterflies := by
  refine ⟨transform_eq, fun n _ => ⟨revBits_lt 11 n, testBit_revBits 11 n⟩, fun x n => bitReversed_getElem?,
    fun xs s hx h1 h11 => ⟨stage_length hx h1 h11, fun q k a c hq hk ha hc => ?_⟩⟩
  obtain ⟨hupper, hlower⟩ := stage_butterfly hx h1 h11 hq hk ha hc
  exact ⟨hupper, hlower⟩

end Sys2Proof.Machine
end

