-- ==== Sys2Proof/Proofs/SpectrumJob.lean ====
section
/-! Engine D's step (O39): the job's arithmetic (R402, R406 to R408) and the writes it ends with (R409). -/

namespace Sys2Proof.Machine

open Sys2Proof

-- One proof is elaborated after another here: each thread at work takes its share of the check's memory limit.
set_option Elab.async false

/-! ### The levels -/

theorem State.jobInput_getElem (s : State) {n : Nat} (h : n < s.jobInput.length) : s.jobInput[n] = s.tbufAt n := by
  simp only [State.jobInput, window_getElem, Nat.zero_add]
  rfl

/-- R402: every element of the block is windowed with its own entry. -/
theorem State.windowed_jobInput (s : State) : windowed s.jobInput =
    (List.range 2048).map (fun n => (fmul (s.tbufAt n).1 (windowRom.getD n fZero), (s.tbufAt n).2)) := by
  have hlen : s.jobInput.length = 2048 := window_length _ _ _ _
  refine List.ext_getElem (by simp [windowed, hlen, windowRom_length]) fun n hn hr => ?_
  have hn' : n < windowRom.length := by
    rw [windowRom_length]
    simpa using hr
  simp only [windowed, List.getElem_zipWith, List.getElem_map, List.getElem_range, s.jobInput_getElem,
    List.getD_eq_getElem _ _ hn']

theorem magnitudes_getD {a : List Cplx} (ha : a.length = 2048) {k : Nat} (hk : k < 1025) :
    (magnitudes a).getD k fZero = magnitude (a.getD k (fZero, fZero)) := by
  rw [magnitudes, List.getD_eq_getElem?_getD, List.getElem?_map, List.getElem?_take_of_lt hk,
    List.getElem?_eq_getElem (show k < a.length by omega), Option.map_some, Option.getD_some,
    List.getD_eq_getElem _ _ (show k < a.length by omega)]

theorem scopeLevels_getElem {tbuf : List Cplx} {i k : Nat} (hi : i < (scopeLevels tbuf).length)
    (hk : skewIdxEntries[i]? = some k) :
    (scopeLevels tbuf)[i] = level (magnitude ((transform (windowed tbuf)).getD k (fZero, fZero))) := by
  obtain ⟨hbin, -, -⟩ := skewIdxEntries_isSkewIdx hk
  obtain ⟨_, hget⟩ := List.getElem?_eq_some_iff.1 hk
  simp only [scopeLevels, List.getElem_map, hget]
  rw [magnitudes_getD (transform_length _) (by omega)]

/-! ### The writes -/

/-- The job's end, whatever it wrote over `SCOPE`: the display's flags and the transform buffer, and nothing else. -/
def State.jobEnd (s : State) (m : Memory) : State :=
  (((s.setMem m).setVis { s.vis with ready := false, tbuf := [], tbufDraw := s.vis.tbufDraw + 1 }).setProcessed
    true).setJob false

theorem engineDStep_eq_jobEnd (s : State) :
    s.engineDStep = s.jobEnd (s.mem.writeWords (scopeAddr 0) (scopeLevels s.jobInput)) := by
  rw [State.engineDStep, State.jobEnd]

theorem State.jobEnd_readWord (s : State) (m : Memory) (a : Nat) :
    (s.jobEnd m).readWord a = Memory.readWord s.ramDraw m a := rfl

theorem State.jobEnd_readByte (s : State) (m : Memory) (a : Nat) :
    (s.jobEnd m).readByte a = Memory.readByte s.ramDraw m a := rfl

theorem engineDStep_scope (s : State) {i : Nat} (hi : i < (scopeLevels s.jobInput).length) :
    s.engineDStep.scope i = (scopeLevels s.jobInput)[i] := by
  rw [engineDStep_eq_jobEnd, State.scope, State.jobEnd_readWord,
    show scopeAddr i = scopeAddr 0 + 4 * i by simp only [scopeAddr, Nat.mul_zero, Nat.add_zero],
    Memory.readWord_writeWords _ _ _ _ _ hi]

theorem sameBytesBut_scope_engineDStep (s : State) : SameBytesBut scopeBytes s s.engineDStep := by
  intro a ha
  rw [engineDStep_eq_jobEnd, State.jobEnd_readByte]
  refine Memory.readByte_writeWords_other _ _ _ _ _ ?_
  rw [scopeLevels_length]
  by_contra hin
  simp only [scopeAddr] at hin
  exact ha ⟨(a - 0x2000) / 4, (a - 0x2000) % 4, by omega, by omega, by simp only [scopeAddr]; omega⟩

/-- R406, R407, R408: each element of `SCOPE` is the level of the magnitude of its bin. -/
theorem engineDStep_scope_eq_level (s : State) (i k : Nat) (hk : skewIdxEntries[i]? = some k) :
    s.engineDStep.scope i = level (magnitude ((transform (windowed s.jobInput)).getD k (fZero, fZero))) := by
  have hi : i < (scopeLevels s.jobInput).length := by
    rw [scopeLevels_length, ← skewIdxEntries_length]
    exact (List.getElem?_eq_some_iff.1 hk).1
  exact (engineDStep_scope s hi).trans (scopeLevels_getElem hi hk)

/-- Settles O39. -/
theorem spectrumJobCompletes : Obligations.SpectrumJobCompletes := by
  intro s
  have hscope := engineDStep_scope_eq_level s
  have hbytes := sameBytesBut_scope_engineDStep s
  rw [State.windowed_jobInput] at hscope
  obtain ⟨m, hend⟩ : ∃ m, s.engineDStep = s.jobEnd m := ⟨_, engineDStep_eq_jobEnd s⟩
  rw [hend] at hscope hbytes ⊢
  refine ⟨fun i k hk => ⟨hscope i k hk, ?_⟩, rfl, rfl, rfl, hbytes, fun _ => rfl, rfl, rfl, rfl, rfl,
    ⟨rfl, rfl, rfl, rfl, rfl, rfl⟩, rfl, rfl, fun _ => rfl⟩
  rw [hscope i k hk]
  exact unitLevel_level _

end Sys2Proof.Machine
end

