-- ==== Sys2Proof/Proofs/Peek.lean ====
section
/-! `PEEK` and the reset values (O43, O44, O57): what each space of a `PEEK` reads, and what the registers hold after reset. -/

namespace Sys2Proof.Machine

open Sys2Proof

-- One proof is elaborated after another here: each thread at work takes its share of the check's memory limit.
set_option Elab.async false

/-! ### The line spaces -/

theorem peekValue_left {s : State} {v : Fin Config.numVoices} {n : Nat} (h : (s.voice v).lineIndexOk n = true) :
    s.peekValue v .left n = some (s.leftAt v n) := if_pos h

theorem peekValue_right {s : State} {v : Fin Config.numVoices} {n : Nat} (h : (s.voice v).lineIndexOk n = true) :
    s.peekValue v .right n = some (s.rightAt v n) := if_pos h

/-- Settles O43. -/
theorem peekReadsLines : Obligations.PeekReadsLines := by
  intro s v n hdegen hlines hindex
  have hok : (s.voice v).lineIndexOk n = true := (lineIndexOk_iff _ n).2 ⟨hdegen, hlines, hindex⟩
  exact ⟨exec_peek s v .left n _ (peekValue_left hok), exec_peek s v .right n _ (peekValue_right hok)⟩

/-! ### The register space -/

/-- R474's table as a list: the voice registers in the order of their numbers. -/
def Voice.registers (v : Voice) : List Word :=
  [v.vstatusWord, v.l.setWidth 32, v.pluckIdx.setWidth 32, v.pickupIdx.setWidth 32, v.envLevel, v.attackRate,
    v.decayRate, v.releaseRate, v.sustainLevel, v.releaseTime, v.velocity, v.refl, v.sr, v.s1, v.s2,
    BitVec.ofNat 32 v.vMode.toNat, v.vB0, v.vB1, v.vB2, v.vA1, v.vA2]

theorem Voice.register_eq_getElem? (v : Voice) (n : Nat) : v.register n = v.registers[n]? := by
  rcases lt_or_ge n 21 with hn | hn
  · interval_cases n <;> rfl
  · obtain ⟨k, rfl⟩ := Nat.exists_eq_add_of_le' hn
    rfl

/-- `VSTATUS` (R474): `ACTIVE` at bit 0, the stage from bit 1 and `DEGEN` at bit 4. -/
theorem Voice.vstatusWord_eq (v : Voice) :
    v.vstatusWord = BitVec.ofNat 32 (v.active.toNat + 2 * stageCode v.stage + 16 * v.degen.toNat) := by
  simp only [Voice.vstatusWord, bitAt_eq_mul, Nat.reducePow, one_mul]

theorem exec_peek_reg {s : State} {v : Fin Config.numVoices} {n : Nat} {w : Word}
    (h : (s.voice v).registers[n]? = some w) : exec (.peek v .reg n) s = .next (s.setResultA w) :=
  exec_peek s v .reg n w ((Voice.register_eq_getElem? _ n).trans h)

/-- Settles O44. -/
theorem peekReadsRegisters : Obligations.PeekReadsRegisters := by
  intro s v n w hw
  refine exec_peek_reg ?_
  rw [Voice.registers, Voice.vstatusWord_eq]
  exact hw

/-! ### The reset values -/

/-- R81 to R86: a voice resets to 0 but for `V_B0`, register 16, which is 1.0. -/
theorem Voice.reset_registers_getElem? (n : Fin 21) :
    Voice.reset.registers[n.val]? = some (if n.val = 16 then 0x3F800000#32 else 0#32) := by
  revert n
  decide

/-- R60, R551: no voice is active after reset. -/
theorem voiceActiveWord_reset : State.reset.voiceActiveWord = 0#32 := by
  apply BitVec.eq_of_getLsbD_eq
  intro b _
  rw [voiceActiveWord_getLsbD, BitVec.getLsbD_zero]
  split
  · rw [State.reset_voice]; rfl
  · rfl

/-- Settles O57. -/
theorem resetValues : Obligations.ResetValues := by
  refine ⟨?_, fun v n => exec_peek_reg ?_⟩
  · simp only [List.forall_mem_cons, State.readTarget, voiceActiveWord_reset]
    decide
  · rw [State.reset_voice]
    exact Voice.reset_registers_getElem? n

end Sys2Proof.Machine
end

