-- ==== Sys2Proof/Proofs/FailedCommands.lean ====
section
/-! Failed commands (O5): each failing check, and each decode error, answers the state with its error recorded. -/

namespace Sys2Proof.Machine

open Sys2Proof

-- One proof is elaborated after another here: each thread at work takes its share of the check's memory limit.
set_option Elab.async false

/-- A command that answers the raised error records it and changes nothing else (R501, R504). -/
theorem exists_recordsError {out : Host.Outcome State Fault Refusal} {p : Port} {e : CmdError} {s : State}
    (h : out = .next (s.raise p e)) : ∃ t, out = .next t ∧ RecordsError p (errorCode e) s t :=
  ⟨s.raise p e, h, s.raise_records p e⟩

/-! ### Elements that `PEEK` does not name (R472) -/

theorem lineIndexOk_eq_false {v : Voice} {n : Nat} (h : v.degen = true ∨ v.l.toNat < 2 ∨ v.l.toNat ≤ n) :
    v.lineIndexOk n = false := by
  rw [Bool.eq_false_iff, ne_eq, lineIndexOk_iff]
  rintro ⟨hdegen, hlines, hindex⟩
  rcases h with hd | hl | hn
  · rw [hdegen] at hd; cases hd
  · omega
  · omega

theorem peekValue_line_eq_none {s : State} {v : Fin Config.numVoices} {space : PeekSpace} {n : Nat}
    (hspace : space ≠ .reg) (h : (s.voice v).lineIndexOk n = false) : s.peekValue v space n = none := by
  cases space with
  | left | right => simp [State.peekValue, h]
  | reg => exact absurd rfl hspace

theorem peekValue_reg_eq_none {s : State} {v : Fin Config.numVoices} {n : Nat} (h : 20 < n) :
    s.peekValue v .reg n = none :=
  (Voice.register_eq_getElem? _ n).trans (List.getElem?_eq_none h)

/-- Settles O5: a failing check, like a decode error, answers the raised error. -/
theorem failedCommandOnlyRecordsItsError : Obligations.FailedCommandOnlyRecordsItsError := by
  intro s
  refine ⟨fun p w h => ?illegal, fun p w h => ?reserved, fun v h => ?noteOn, fun v tail h => ?noteOff,
    fun v space n h => ?peekVoice, fun start count h => ?render, fun start count h => ?clear,
    fun v space n hspace h => ?peekLine, fun v n h => ?peekReg, fun v h => ?badRate⟩
  case illegal => exact exists_recordsError (issue_of_decode_error h s)
  case reserved => exact exists_recordsError (issue_of_decode_error h s)
  case noteOn => exact exists_recordsError (exec_noteOn_range s v h)
  case noteOff => exact exists_recordsError (exec_noteOff_range s v tail h)
  case peekVoice => exact exists_recordsError (exec_peek_range s v space n h)
  case render => exact exists_recordsError (exec_renderBlock_range s start count h)
  case clear => exact exists_recordsError (exec_outClear_range s start count h)
  case peekLine =>
    exact exists_recordsError (exec_peek_index s v space n (peekValue_line_eq_none hspace (lineIndexOk_eq_false h)))
  case peekReg => exact exists_recordsError (exec_peek_index s v .reg n (peekValue_reg_eq_none h))
  case badRate =>
    have hrate : s.sampleRateOk = false := Bool.eq_false_iff.2 (mt (sampleRateOk_iff s).1 h)
    exact exists_recordsError (exec_noteOn_badRate s v hrate)

end Sys2Proof.Machine
end

