-- ==== Sys2Proof/Proofs/StepTotal.lean ====
section
/-! No step stops the block (O54): every command, access and agent's step answers a next state. -/

namespace Sys2Proof.Machine

open Sys2Proof

-- One proof is elaborated after another here: each thread at work takes its share of the check's memory limit.
set_option Elab.async false

theorem exists_exec_noteOn (voice : Nat) (s : State) : ∃ t, exec (.noteOn voice) s = .next t := by
  by_cases hv : voice < Config.numVoices
  · cases hr : s.sampleRateOk
    · exact ⟨_, exec_noteOn_badRate s ⟨voice, hv⟩ hr⟩
    · exact ⟨_, exec_noteOn s ⟨voice, hv⟩ hr⟩
  · exact ⟨_, exec_noteOn_range s voice (not_lt.1 hv)⟩

/-- No command stops the block (R500). That the commands other than `NOTE_ON` answer a state is a part of
`exec_setNote`. -/
theorem exists_exec (i : Instr) (s : State) : ∃ t, exec i s = .next t := by
  by_cases hi : ∃ voice, i = .noteOn voice
  · obtain ⟨voice, rfl⟩ := hi
    exact exists_exec_noteOn voice s
  · obtain ⟨t, ht, -⟩ := exec_setNote s s.note i (not_exists.1 hi)
    exact ⟨t, ht⟩

theorem exists_issue (p : Port) (w : Word) (s : State) : ∃ t, issue p w s = .next t := by
  cases hd : decode p w with
  | ok i =>
    rw [issue_of_decode_ok hd]
    exact exists_exec i s
  | error e => exact ⟨_, issue_of_decode_error hd s⟩

theorem exists_writeAccess (r : Target) (x : Word) (s : State) : ∃ t, writeAccess r x s = .next t := by
  cases r with
  | cmdA => exact exists_issue .a x s
  | cmdD => exact exists_issue .d x s
  | _ => exact ⟨_, rfl⟩

/-- No access stops the block: a bus error is answered to its host alone (R159, R500). -/
theorem exists_performAccess (p : Port) (x : Access) (rest : List Access) (s : State) :
    ∃ t, performAccess p x rest s = .next t := by
  unfold performAccess
  split
  · exact ⟨_, rfl⟩
  · exact ⟨_, rfl⟩
  · exact ⟨_, rfl⟩
  · exact exists_writeAccess _ _ _

theorem exists_hostStep (p : Port) (s : State) : ∃ t, hostStep p s = .next t := by
  cases hp : (s.hostPort p).pending with
  | nil => exact ⟨s, by rw [hostStep, hp]⟩
  | cons x rest =>
    rw [hostStep_of_pending hp]
    exact exists_performAccess p x rest s

theorem exists_agentStep (a : Agent) (s : State) : ∃ t, agentStep a s = .next t := by
  cases a with
  | hostA => exact exists_hostStep .a s
  | hostD => exact exists_hostStep .d s
  | engineA => exact ⟨s.engineAStep, rfl⟩
  | engineD => exact ⟨s.engineDStep, rfl⟩
  | platform => exact ⟨s.platformReset, rfl⟩

/-- Settles O54. -/
theorem stepNeverStops : Obligations.StepNeverStops := by
  intro s
  cases hn : s.nextAgent with
  | none => exact ⟨s, by rw [step, hn]⟩
  | some a =>
    obtain ⟨t, ht⟩ := exists_agentStep a s.beginTurn
    exact ⟨t, (step_of_nextAgent hn).trans ht⟩

end Sys2Proof.Machine
end

