-- ==== Sys2Proof/Proofs/Reset.lean ====
section
/-! The platform's reset and the idle block after it (O56, O58). -/

namespace Sys2Proof.Machine

open Sys2Proof

/-! ### The platform's reset -/

/-- R550, R551: whatever state the reset finds, it differs from the reset state in nothing but what stands outside the
block and the numbers of the RAM draws. -/
theorem State.platformReset_restores (s : State) :
    { s.platformReset with
        env := State.reset.env, ramDraw := State.reset.ramDraw,
        vis := { s.platformReset.vis with tbufDraw := State.reset.vis.tbufDraw } } = State.reset := rfl

/-- Settles O56: the platform's step is its reset, taken of the state in which the turn began. -/
theorem platformResetRestores : Obligations.PlatformResetRestores := fun s hn =>
  ⟨s.beginTurn.platformReset, step_of_nextAgent hn, s.beginTurn.platformReset_restores⟩

/-! ### The idle block -/

/-- R553: no access is issued, no push is queued, no job is pending and the reset input is low. -/
theorem State.reset_enabled (a : Agent) : State.reset.enabled a = false := by
  cases a <;> rfl

/-- R81, R551: a voice resets to `Idle`. -/
theorem Voice.reset_idle : Voice.reset.active = false ∧ Voice.reset.stage = .idle := ⟨rfl, rfl⟩

/-- Settles O58: with `PUSHQ` empty and no `JOB` both ports are idle, so no access is held, and the step has no agent to
choose. -/
theorem resetIsIdle : Obligations.ResetIsIdle := by
  have hqueue : State.reset.pushq = [] := rfl
  have hjob : State.reset.job = false := rfl
  refine ⟨State.reset_enabled, holds_eq_false_of_idle hqueue hjob, rfl, hqueue, hjob,
    (busyA_eq_false_iff _).2 hqueue, hjob, step_of_all_disabled State.reset_enabled, fun v => ?_⟩
  rw [State.reset_voice]
  exact Voice.reset_idle

end Sys2Proof.Machine
end
